-- ==== Sys2Proof/Word.lean ====
section
/-!
DEFINITION. The word types of the codec block (00_scope R8, R9): a byte, a 64-bit count or coordinate,
an address, a handle of a channel or accessor.
-/

namespace Sys2Proof

/-- A byte, `0..255` (R9). -/
abbrev Byte := BitVec 8

/-- A value of width `CNT_W = WIN_W = 64` (R8): counts, skips, coordinates, window lengths, results. -/
abbrev Count := BitVec 64

/-- A caller-memory address. Its width `ADDR_W` is a parameter (R8), so it is a number with a bound
(`Params.addrW`), not a vector of a fixed width. -/
abbrev Addr := Nat

/-- The name by which a command refers to a recorder, a provider or an accessor (R92). -/
abbrev Handle := Nat

end Sys2Proof
end

