-- ==== Sys2Proof/Config.lean ====
section
/-!
DEFINITION. What an implementation fixes: the constants of 00_scope R7, the parameters of R8, and the
FREE VALUES, opaque constants for everything the spec leaves to an external agent or calls
unspecified (93_implementation_defined I1 to I7).
-/

namespace Sys2Proof

/-- `MIN_REPEAT`, the shortest run encoded as a repeat (R7). -/
def minRepeat : Nat := 3
/-- `MAX_REPEAT = MIN_REPEAT + 127` (R7). -/
def maxRepeat : Nat := minRepeat + 127
/-- `MAX_LITERAL = LIT_DEPTH` (R7, R8). -/
def maxLiteral : Nat := 128

@[simp] theorem minRepeat_eq : minRepeat = 3 := rfl
@[simp] theorem maxRepeat_eq : maxRepeat = 130 := rfl
@[simp] theorem maxLiteral_eq : maxLiteral = 128 := rfl

/-- The parameters that R8 leaves open, as data the model takes as an argument (`Shared.params`). -/
structure Params where
  /-- `ADDR_W`, the width of caller-memory addresses. -/
  addrW : Nat
  /-- `STRIDE_W`, the width of the stride tag. -/
  strideW : Nat
  /-- `NULL_SET_MEANS_NULL`, the polarity of a null mask (20_memory R54; I9). -/
  nullSetMeansNull : Bool
deriving DecidableEq, Repr

/-- One transaction on a sink port (R13, 20_memory R59), with the sink's answer where it gives one. -/
inductive SinkEvent where
  /-- `SinkNext`: refused, or a grant of this many bytes. -/
  | next (answer : Option Count)
  /-- `SinkPut(p, b)`. -/
  | put (p : Count) (b : Byte)
  /-- `SinkBackUp(n)`. -/
  | backUp (n : Count)
  /-- `SinkSize()` and its answer. -/
  | size (answer : Count)
  /-- `SinkFlush()` and its answer. -/
  | flush (answer : Count)
  /-- The position hook and the coordinates it appended. -/
  | pos (bufLen bufPos : Count) (stride : Nat) (coords : List Count)
deriving DecidableEq, Repr

/-- One transaction on a source port (R13, 20_memory R64). -/
inductive SrcEvent where
  /-- `SrcNext`: failed, or a window of this many bytes. -/
  | next (answer : Option Nat)
  /-- `SrcSkip(n)`. -/
  | skip (n : Nat)
  /-- `SrcSeek`: failed, or the new cursor. -/
  | seek (answer : Option Nat)
deriving DecidableEq, Repr

/-- One question put to the caller's accessors (20_memory R71). -/
inductive AccessorCall where
  | isNullAt (h : Handle) (i : Nat)
  | valueAt (h : Handle) (i : Nat)
deriving DecidableEq, Repr

/-- What a source answers to a seek (20_memory R67): whether the provider held enough coordinates, how
many the source took from it, and the new cursor. -/
structure SeekAnswer where
  ok : Bool
  taken : Nat
  cursor : Nat
deriving DecidableEq, Repr, Inhabited

namespace Config

/-- The free values behind "unspecified" and "any value" (I1, I3, I4), one for each index of the
counter `Shared.freeCount`. Nothing constrains them. -/
opaque freeNat : Nat → Nat
/-- What a count of 2^64 or more reads as in a field of 64 bits: the spec states no value (log 21). -/
opaque wideCount : Nat → Count
/-- The free contents of a read window after a fatal error (I1). -/
opaque freeWindow : Nat → List Byte
/-- An open sink's answer to `SinkNext`: a draw (20_memory R60, I5), a function of who the sink is and of
everything that has happened on its port but `SinkSize` (20_memory R57, `Sink.history`); so are its other answers. -/
opaque sinkGrant : Nat → List SinkEvent → Option Count
/-- What an open sink reports as its `size()` (I7). -/
opaque sinkSize : Nat → List SinkEvent → Count
/-- What an open sink reports from `flush()` (I7). -/
opaque sinkFlush : Nat → List SinkEvent → Count
/-- The parameter `SinkPos` of an open sink (R62, I6). -/
opaque sinkPos : Nat → List SinkEvent → Count → Count → Nat → List Count
/-- An open source's answer to `SrcNext`: refused, or the length it offers (20_memory R65, I5). -/
opaque srcGrant : Nat → List SrcEvent → Option Count
/-- The parameter `SrcSeek` of an open source (20_memory R67, I6), given the coordinates still in the provider. -/
opaque srcSeek : Nat → List SrcEvent → List Count → SeekAnswer
/-- What a `ValueAt` accessor answers where its table says nothing (20_memory R71). -/
opaque valueAt : Handle → List AccessorCall → Nat → Byte
/-- What an `IsNullAt` accessor answers where its table says nothing (20_memory R71). -/
opaque isNullAt : Handle → List AccessorCall → Nat → Bool

end Config

end Sys2Proof
end

