-- ==== Sys2Proof/Syntax.lean ====
section
/-!
DEFINITION. The instructions: the two wire segments (30_encoding R80 to R83) and the eighteen commands
(30_encoding R90 to R92), one constructor for each row of spec/opcode_table.json.
-/

namespace Sys2Proof

/-- The four unit kinds (10_state R22). -/
inductive Kind where
  | byteEnc
  | boolEnc
  | byteDec
  | boolDec
deriving DecidableEq, Repr

/-- An index range `[b, e)` of an add command (30_encoding R93). -/
structure Range where
  b : Count
  e : Count
deriving DecidableEq, Repr

/-- The instruction set (00_scope R2): segments of the wire stream and commands of the caller. -/
inductive Instr where
  /-- `REP`: `k = h[6:0]`, the count less 3, and the payload byte (R82). -/
  | rep (k : BitVec 7) (v : Byte)
  /-- `LIT`: the low seven bits of the header, `256 - count` without its top bit, and the payload bytes (R83). -/
  | lit (m : BitVec 7) (payload : List Byte)
  /-- `BENC.ADD` (R111). -/
  | bencAdd (data : Addr) (ranges : List Range) (nulls : Option Addr)
  /-- `BENC.ADD_FN` (R112). -/
  | bencAddFn (valueAt isNullAt : Handle) (ranges : List Range)
  /-- `BENC.ADD_BITS` (R113). -/
  | bencAddBits (data : Addr) (ranges : List Range) (nulls : Option Addr) (invert : Bool)
  /-- `BENC.FLUSH` (R114). -/
  | bencFlush
  /-- `BENC.RECPOS` (R115). -/
  | bencRecpos (recorder : Handle) (stride : Nat)
  /-- `BENC.GETSIZE` (R116). -/
  | bencGetsize
  /-- `BOOLENC.ADD` (R202). -/
  | boolencAdd (data : Addr) (ranges : List Range) (nulls : Option Addr)
  /-- `BOOLENC.ADD_FN` (R203). -/
  | boolencAddFn (valueAt isNullAt : Handle) (ranges : List Range)
  /-- `BOOLENC.ADD_BITS` (R204). -/
  | boolencAddBits (data : Addr) (ranges : List Range) (nulls : Option Addr) (invert : Bool)
  /-- `BOOLENC.FLUSH` (R205). -/
  | boolencFlush
  /-- `BOOLENC.RECPOS` (R206). -/
  | boolencRecpos (recorder : Handle) (stride : Nat)
  /-- `BOOLENC.GETSIZE` (R207). -/
  | boolencGetsize
  /-- `BDEC.NEXT` (R171). -/
  | bdecNext (data : Addr) (numValues : Count) (nulls : Option Addr)
  /-- `BDEC.SKIP` (R172). -/
  | bdecSkip (n : Count)
  /-- `BDEC.SEEK` (R173). -/
  | bdecSeek (provider : Handle)
  /-- `BOOLDEC.NEXT` (R232). -/
  | booldecNext (data : Addr) (numValues : Count) (nulls : Option Addr)
  /-- `BOOLDEC.SKIP` (R233). -/
  | booldecSkip (n : Count)
  /-- `BOOLDEC.SEEK` (R234). -/
  | booldecSeek (provider : Handle)
deriving DecidableEq, Repr

/-- The operand fields of a command (30_encoding R92): all of them, of which a command reads its own and
ignores the rest. -/
structure Operands where
  data : Addr
  nulls : Option Addr
  ranges : List Range
  invert : Bool
  valueAt : Handle
  isNullAt : Handle
  numValues : Count
  n : Count
  recorder : Handle
  stride : Nat
  provider : Handle
deriving DecidableEq, Repr

/-- Operand fields of zeros; the null mask's field is `NONE`. -/
def Operands.zero : Operands :=
  { data := 0, nulls := none, ranges := [], invert := false, valueAt := 0, isNullAt := 0,
    numValues := 0, n := 0, recorder := 0, stride := 0, provider := 0 }

/-- An instruction as the hardware receives it: a command word with its operand fields, or the bytes of a
segment on the wire (R2). -/
inductive Code where
  | command (cmd : Byte) (ops : Operands)
  | segment (bytes : List Byte)
deriving DecidableEq, Repr

end Sys2Proof
end

