-- ==== Sys2Proof/WellFormed.lean ====
section
/-!
DEFINITION. When an instruction has an encoding: its addresses and stride tag fit their fields
(00_scope R8, 30_encoding R92) and a literal segment has as many payload bytes as its header says (R83).
-/

namespace Sys2Proof

/-- Why an instruction is not well formed. -/
inductive IllFormed where
  /-- A `data` or `nulls` operand does not fit `ADDR_W` bits. -/
  | addressTooWide
  /-- A `stride` operand does not fit `STRIDE_W` bits. -/
  | strideTooWide
  /-- A literal segment whose payload is not `256 - h` bytes long. -/
  | literalLength
deriving DecidableEq, Repr

namespace Instr

/-- Do the `data` and `nulls` fields fit `ADDR_W` bits? -/
def addrsFit (p : Params) (data : Addr) (nulls : Option Addr) : Bool :=
  decide (data < 2 ^ p.addrW) && nulls.all (fun a => decide (a < 2 ^ p.addrW))

/-- The check, with the reason of a refusal. -/
def check (p : Params) : Instr → Option IllFormed
  | .rep _ _ => none
  | .lit m payload => if payload.length = 128 - m.toNat then none else some .literalLength
  | .bencAdd data _ nulls | .bencAddBits data _ nulls _
  | .boolencAdd data _ nulls | .boolencAddBits data _ nulls _
  | .bdecNext data _ nulls | .booldecNext data _ nulls =>
    if addrsFit p data nulls then none else some .addressTooWide
  | .bencRecpos _ stride | .boolencRecpos _ stride =>
    if stride < 2 ^ p.strideW then none else some .strideTooWide
  | .bencAddFn _ _ _ | .bencFlush | .bencGetsize | .boolencAddFn _ _ _ | .boolencFlush
  | .boolencGetsize | .bdecSkip _ | .bdecSeek _ | .booldecSkip _ | .booldecSeek _ => none

/-- The instruction can be written in the fields the spec gives it. -/
abbrev WellFormed (p : Params) (i : Instr) : Prop := i.check p = none

end Instr

end Sys2Proof
end

