-- ==== Sys2Proof/Decode.lean ====
section
/-!
DEFINITION. Decoding (30_encoding R80 to R94) and, after it, the encoder. Commands and segments are two
separate name spaces: a command word arrives with its operands from the caller, a header byte arrives in
the wire stream. `decodeTableWord` is the host's view of both as one table (log 16).
-/

namespace Sys2Proof

/-- Why bits are no instruction. -/
inductive DecodeError where
  /-- The command word is not in R91 (R94). -/
  | illegalCommand
  /-- There is no header byte. -/
  | noHeader
  /-- The stream ends inside the segment (R86). -/
  | truncated
  /-- Bytes stand after the one segment that was asked for. -/
  | trailing
deriving DecidableEq, Repr

/-- The value of the register `KIND` (10_state R22). -/
def Kind.num : Kind → BitVec 2
  | .byteEnc => 0
  | .boolEnc => 1
  | .byteDec => 2
  | .boolDec => 3

/-- The unit tag `CMD[7:4] = KIND + 1` (R90). -/
def Kind.tag (k : Kind) : Nat := k.num.toNat + 1

/-- R91, row by row: the command word and the fields the command reads (R92). -/
def decodeCommand (cmd : Byte) (ops : Operands) : Except DecodeError Instr :=
  match cmd.toNat with
  | 0x11 => .ok (.bencAdd ops.data ops.ranges ops.nulls)
  | 0x12 => .ok (.bencAddFn ops.valueAt ops.isNullAt ops.ranges)
  | 0x13 => .ok (.bencAddBits ops.data ops.ranges ops.nulls ops.invert)
  | 0x14 => .ok .bencFlush
  | 0x15 => .ok (.bencRecpos ops.recorder ops.stride)
  | 0x16 => .ok .bencGetsize
  | 0x21 => .ok (.boolencAdd ops.data ops.ranges ops.nulls)
  | 0x22 => .ok (.boolencAddFn ops.valueAt ops.isNullAt ops.ranges)
  | 0x23 => .ok (.boolencAddBits ops.data ops.ranges ops.nulls ops.invert)
  | 0x24 => .ok .boolencFlush
  | 0x25 => .ok (.boolencRecpos ops.recorder ops.stride)
  | 0x26 => .ok .boolencGetsize
  | 0x31 => .ok (.bdecNext ops.data ops.numValues ops.nulls)
  | 0x32 => .ok (.bdecSkip ops.n)
  | 0x33 => .ok (.bdecSeek ops.provider)
  | 0x41 => .ok (.booldecNext ops.data ops.numValues ops.nulls)
  | 0x42 => .ok (.booldecSkip ops.n)
  | 0x43 => .ok (.booldecSeek ops.provider)
  | _ => .error .illegalCommand

/-- A decoded header byte (R81): its kind, by bit 7 alone, and its low seven bits. -/
inductive Header where
  | repeats (k : BitVec 7)
  | literal (m : BitVec 7)
deriving DecidableEq, Repr

/-- R81. Total: every header byte names a segment (R84, R86). -/
def decodeHeader (h : Byte) : Header :=
  if h.getLsbD 7 then .literal (h.extractLsb' 0 7) else .repeats (h.extractLsb' 0 7)

/-- `count = h[6:0] + MIN_REPEAT` (R82). -/
def repeatCount (k : BitVec 7) : Nat := k.toNat + minRepeat

/-- `n = 256 - h`, with `h[7] = 1` (R83). -/
def literalCount (m : BitVec 7) : Nat := 128 - m.toNat

/-- One segment from the front of a byte stream, with the bytes after it (R80 to R83). -/
def decodeSegment : List Byte → Except DecodeError (Instr × List Byte)
  | [] => .error .noHeader
  | h :: rest =>
    match decodeHeader h with
    | .repeats k =>
      match rest with
      | [] => .error .truncated
      | v :: rest' => .ok (.rep k v, rest')
    | .literal m =>
      match rest.drop (literalCount m - 1) with
      | [] => .error .truncated
      | _ :: rest' => .ok (.lit m (rest.take (literalCount m)), rest')

/-- The decoder of the model: a command, or exactly one segment. -/
def decode : Code → Except DecodeError Instr
  | .command cmd ops => decodeCommand cmd ops
  | .segment bytes =>
    match decodeSegment bytes with
    | .ok (i, []) => .ok i
    | .ok (_, _ :: _) => .error .trailing
    | .error e => .error e

/-- A stream is a concatenation of segments (R80); `fuel` bounds their number. -/
def decodeSegments : Nat → List Byte → Except DecodeError (List Instr)
  | _, [] => .ok []
  | 0, _ :: _ => .error .truncated
  | fuel + 1, b :: bs =>
    match decodeSegment (b :: bs) with
    | .error e => .error e
    | .ok (i, rest) => (decodeSegments fuel rest).map (i :: ·)

/-- The bytes a segment stands for (R82, R83); a command stands for none. -/
def Instr.values : Instr → List Byte
  | .rep k v => List.replicate (repeatCount k) v
  | .lit _ payload => payload
  | .bencAdd _ _ _ | .bencAddFn _ _ _ | .bencAddBits _ _ _ _ | .bencFlush | .bencRecpos _ _
  | .bencGetsize | .boolencAdd _ _ _ | .boolencAddFn _ _ _ | .boolencAddBits _ _ _ _
  | .boolencFlush | .boolencRecpos _ _ | .boolencGetsize | .bdecNext _ _ _ | .bdecSkip _
  | .bdecSeek _ | .booldecNext _ _ _ | .booldecSkip _ | .booldecSeek _ => []

/-- The values a whole stream stands for, or the reason it is malformed (R80, R86). -/
def decodeStream (bs : List Byte) : Except DecodeError (List Byte) :=
  (decodeSegments bs.length bs).map fun is => is.flatMap Instr.values

/-- The row's bits, as the host numbers them, to an instruction: a command word of R91 is that command with
operand fields of zeros, any other first byte is the header of a segment whose further bytes are the next
bits, zero above `nbits` (log 16). -/
def decodeTableWord (nbits w : Nat) : Option Instr :=
  let word := w % 2 ^ nbits
  match decodeCommand (BitVec.ofNat 8 word) Operands.zero with
  | .ok i => some i
  | .error _ =>
    match decodeSegment ((List.range 129).map fun j => BitVec.ofNat 8 (word >>> (8 * j))) with
    | .ok (i, _) => some i
    | .error _ => none

/-! The encoder, from the same tables of the spec. -/

/-- The command word of R91; `none` for the two segments. -/
def Instr.cmd : Instr → Option Byte
  | .rep _ _ | .lit _ _ => none
  | .bencAdd _ _ _ => some 0x11
  | .bencAddFn _ _ _ => some 0x12
  | .bencAddBits _ _ _ _ => some 0x13
  | .bencFlush => some 0x14
  | .bencRecpos _ _ => some 0x15
  | .bencGetsize => some 0x16
  | .boolencAdd _ _ _ => some 0x21
  | .boolencAddFn _ _ _ => some 0x22
  | .boolencAddBits _ _ _ _ => some 0x23
  | .boolencFlush => some 0x24
  | .boolencRecpos _ _ => some 0x25
  | .boolencGetsize => some 0x26
  | .bdecNext _ _ _ => some 0x31
  | .bdecSkip _ => some 0x32
  | .bdecSeek _ => some 0x33
  | .booldecNext _ _ _ => some 0x41
  | .booldecSkip _ => some 0x42
  | .booldecSeek _ => some 0x43

/-- The unit kind a command addresses (R90, R91); a segment addresses none. -/
def Instr.kind : Instr → Option Kind
  | .rep _ _ | .lit _ _ => none
  | .bencAdd _ _ _ | .bencAddFn _ _ _ | .bencAddBits _ _ _ _ | .bencFlush | .bencRecpos _ _
  | .bencGetsize => some .byteEnc
  | .boolencAdd _ _ _ | .boolencAddFn _ _ _ | .boolencAddBits _ _ _ _ | .boolencFlush
  | .boolencRecpos _ _ | .boolencGetsize => some .boolEnc
  | .bdecNext _ _ _ | .bdecSkip _ | .bdecSeek _ => some .byteDec
  | .booldecNext _ _ _ | .booldecSkip _ | .booldecSeek _ => some .boolDec

/-- The operand fields of a command; the fields it does not carry are zero (R92). -/
def Instr.operands : Instr → Operands
  | .bencAdd data ranges nulls | .boolencAdd data ranges nulls =>
    { Operands.zero with data := data, ranges := ranges, nulls := nulls }
  | .bencAddFn valueAt isNullAt ranges | .boolencAddFn valueAt isNullAt ranges =>
    { Operands.zero with valueAt := valueAt, isNullAt := isNullAt, ranges := ranges }
  | .bencAddBits data ranges nulls invert | .boolencAddBits data ranges nulls invert =>
    { Operands.zero with data := data, ranges := ranges, nulls := nulls, invert := invert }
  | .bencRecpos recorder stride | .boolencRecpos recorder stride =>
    { Operands.zero with recorder := recorder, stride := stride }
  | .bdecNext data numValues nulls | .booldecNext data numValues nulls =>
    { Operands.zero with data := data, numValues := numValues, nulls := nulls }
  | .bdecSkip n | .booldecSkip n => { Operands.zero with n := n }
  | .bdecSeek provider | .booldecSeek provider => { Operands.zero with provider := provider }
  | .rep _ _ | .lit _ _ | .bencFlush | .bencGetsize | .boolencFlush | .boolencGetsize =>
    Operands.zero

/-- The header byte of a repeat of `repeatCount k` copies: bit 7 clear (R81). -/
def repeatHeader (k : BitVec 7) : Byte := k.setWidth 8

/-- The header byte of a literal: bit 7 set (R81). -/
def literalHeader (m : BitVec 7) : Byte := 0x80#8 ||| m.setWidth 8

/-- The instruction as the hardware receives it. -/
def encode (i : Instr) : Code :=
  match i with
  | .rep k v => .segment [repeatHeader k, v]
  | .lit m payload => .segment (literalHeader m :: payload)
  | .bencAdd _ _ _ | .bencAddFn _ _ _ | .bencAddBits _ _ _ _ | .bencFlush | .bencRecpos _ _
  | .bencGetsize | .boolencAdd _ _ _ | .boolencAddFn _ _ _ | .boolencAddBits _ _ _ _
  | .boolencFlush | .boolencRecpos _ _ | .boolencGetsize | .bdecNext _ _ _ | .bdecSkip _
  | .bdecSeek _ | .booldecNext _ _ _ | .booldecSkip _ | .booldecSeek _ =>
    .command (i.cmd.getD 0) i.operands

end Sys2Proof
end

