-- ==== Sys2Proof/Machine/State.lean ====
section
/-!
DEFINITION. The state of the block as plain data: the registers of 10_state for each unit kind, the ports of
20_memory with the agents behind them, caller memory, the set of instances, and the caller's pending
actions. `State.reset` is the machine right after construction of one instance of each kind (70_reset R290, log 2).
-/

namespace Sys2Proof.Machine

/-- The error kinds a command reports (60_exceptions R261). -/
inductive ErrKind where
  | unsupported
  | ioFailure
  | corrupt
  | badPosition
  | illegalCommand
  | overflow
deriving DecidableEq, Repr

/-- `raise E(info)` (00_scope R14): the kind and the text of the diagnostic. -/
structure Raise where
  kind : ErrKind
  text : String
deriving DecidableEq, Repr

/-- Where the spec gives no meaning: the caller faults of 60_exceptions R272, and two faults of the model's own
segment step. All are safe: the model stops where the block's behaviour is not defined. -/
inductive Fault where
  /-- A command, segment or destruction for a slot that holds no instance (70_reset R292): raised by every
  instruction and by the step. Safe. -/
  | noInstance
  /-- A command to a FAILED instance (R271; R272 item 5): raised by every instruction. Safe. -/
  | failedInstance
  /-- A caller buffer lies outside memory the caller owns or outside the address space (R272 items 1 and 2): raised by the
  adds, the nexts and the caller's own write. Safe. -/
  | bufferOutside
  /-- The output buffer of `BOOLDEC.NEXT` is not 8-byte aligned (R272 item 2). Safe. -/
  | outputMisaligned
  /-- The output buffer overlaps the null mask (R272 item 3): raised by the nexts. Safe. -/
  | outputOverlap
  /-- An accessor issues a command to the instance that called it (R272 item 4): raised by the two `ADD_FN`. Safe. -/
  | reentrantAccessor
  /-- An accessor does not return (R272 item 8): raised by the two `ADD_FN`. Safe. -/
  | accessorDoesNotReturn
  /-- A sink or source issues a command to the instance whose command called it (70_reset R301; R272 item 4): raised by every
  instruction that makes a port transaction, and by the fetch of a segment (log 35). Safe. -/
  | reentrantAgent
  /-- A factory is given a sink or source that a living instance owns (R272 item 7): raised by construction. Safe. -/
  | sharedAgent
  /-- A segment is given to an encoder, which has no parser (42_segment_parser R140): raised by `REP`, `LIT` (log 18). Safe. -/
  | notADecoder
  /-- A segment is given to a parser whose current segment is not spent (42_segment_parser R143: "called only when
  REMAINING_VALUES = 0"): raised by `REP`, `LIT` (log 18). Safe. -/
  | segmentUnspent
deriving DecidableEq, Repr

/-- An instruction that has no meaning in the model. -/
inductive Refusal where
  /-- The instruction of this mnemonic is not modelled; no arm answers so. Safe. -/
  | notModelled (mnemonic : String)
deriving DecidableEq, Repr

/-- `STATUS` (10_state R23): bit 7 and bits 2:0; bits 6:3 are zero. -/
structure Status where
  failed : Bool
  err : BitVec 3
deriving DecidableEq, Repr

/-- The encoder registers (10_state R25 to R29). -/
structure EncRegs where
  /-- `LIT[0..127]`. -/
  lit : Vector Byte 128
  /-- `NUM_LITERALS`. -/
  numLiterals : BitVec 8
  /-- `REPEAT`. -/
  repeating : Bool
  /-- `TAIL_RUN`. -/
  tailRun : BitVec 2
  /-- `BUF_LEN`. -/
  bufLen : Count
  /-- `BUF_POS`. -/
  bufPos : Count
deriving DecidableEq, Repr

/-- The boolean encoder registers (10_state R31, R32). -/
structure BoolEncRegs where
  /-- `BITS_REMAINED`. -/
  bitsRemained : BitVec 4
  /-- `CURRENT`. -/
  current : Byte
deriving DecidableEq, Repr

/-- The decoder registers (10_state R33 to R36). -/
structure DecRegs where
  /-- `REMAINING_VALUES`. -/
  remainingValues : BitVec 8
  /-- `REPEATING`. -/
  repeating : Bool
  /-- `VALUE`. -/
  value : Byte
  /-- `WIN`. -/
  win : List Byte
  /-- `WIN_POS`. -/
  winPos : Count
  /-- `PENDING_SKIP`. -/
  pendingSkip : Count
deriving DecidableEq, Repr

/-- The boolean decoder registers (10_state R38, R39). -/
structure BoolDecRegs where
  /-- `REMAINING_BITS`. -/
  remainingBits : BitVec 4
  /-- `REVERSED_LAST_BYTE`. -/
  reversedLastByte : Byte
deriving DecidableEq, Repr

/-- How a sink resolves what the spec leaves to it, once its script is used up (log 12). -/
inductive SinkModel where
  /-- The reference sink with window length `w` (20_memory R63). -/
  | reference (w : Count)
  /-- Any sink: free functions of its identity and its history. -/
  | anySink
deriving DecidableEq, Repr

/-- A sink (20_memory R59): an external agent, bound to one encoder for life (R76). -/
structure Sink where
  /-- Who the sink is (R76: no two instances share one). -/
  ident : Nat
  /-- Its stream; a granted position that has not been written is `none`. -/
  stream : List (Option Byte)
  /-- Where the current window starts in the stream. -/
  winStart : Nat
  /-- The answers its next `SinkNext` calls will get, oldest first; `none` is a refusal. -/
  script : List (Option Count)
  /-- What answers when the script is used up. -/
  model : SinkModel
  /-- Every transaction on the port so far, oldest first. -/
  log : List SinkEvent
  /-- The place in `log` of the transaction inside which it issues a command to its own encoder, if it does (log 35). -/
  reentersAt : Option Nat
deriving DecidableEq, Repr

/-- How a source resolves what the spec leaves to it, once its script is used up (log 13). -/
inductive SrcModel where
  /-- The reference source with window length `w` (20_memory R68). -/
  | reference (w : Count)
  /-- Any source: free functions of its identity and its history. -/
  | anySource
deriving DecidableEq, Repr

/-- A source (20_memory R64): an external agent, bound to one decoder for life (R76). -/
structure Source where
  /-- Who the source is (R76). -/
  ident : Nat
  /-- Its name, for diagnostics. -/
  name : String
  /-- `T`. -/
  stream : List Byte
  /-- `q`. -/
  cursor : Nat
  /-- The answers its next `SrcNext` calls will get, oldest first: a length to offer, or `none`, a failure. -/
  script : List (Option Count)
  /-- What answers when the script is used up. -/
  model : SrcModel
  /-- Every transaction on the port so far, oldest first. -/
  log : List SrcEvent
  /-- The place in `log` of the transaction inside which it issues a command to its own decoder, if it does (log 35). -/
  reentersAt : Option Nat
deriving DecidableEq, Repr

/-- A byte encoder, or the inner byte encoder of a boolean encoder (10_state R21), with its sink. -/
structure Enc where
  regs : EncRegs
  sink : Sink
deriving DecidableEq, Repr

/-- A byte decoder, or the inner byte decoder of a boolean decoder (10_state R21), with its source and
`ENCODING_KEY` (R24). -/
structure Dec where
  key : String
  regs : DecRegs
  src : Source
deriving DecidableEq, Repr

/-- The registers an instance has, by its kind (10_state R20). The constructor is the register `KIND` (R22). -/
inductive Codec where
  | byteEnc (e : Enc)
  | boolEnc (e : Enc) (b : BoolEncRegs)
  | byteDec (d : Dec)
  | boolDec (d : Dec) (b : BoolDecRegs)
deriving DecidableEq, Repr

/-- One instance (10_state R20): `STATUS` and the registers of its kind. -/
structure Inst where
  status : Status
  codec : Codec
deriving DecidableEq, Repr

/-- What an accessor does when asked (20_memory R71; 60_exceptions R272 items 4 and 8). -/
inductive Answer (α : Type) where
  | returns (a : α)
  | reenters
  | diverges
deriving DecidableEq, Repr

/-- An accessor (20_memory R71): its answers by position, and its answer elsewhere; where neither says, a free
value (log 14). -/
structure Accessor (α : Type) where
  table : List (Nat × Answer α)
  otherwise : Option (Answer α)
deriving DecidableEq, Repr

/-- One coordinate in a recorder (20_memory R69). -/
structure Recorded where
  recorder : Handle
  coord : Count
  stride : Nat
deriving DecidableEq, Repr

/-- A position provider (20_memory R70). -/
structure Provider where
  coords : List Count
  cursor : Nat
deriving DecidableEq, Repr

/-- Caller memory as the list of its bytes that are not zero, addresses strictly rising; an unlisted address
reads as zero (log 6). -/
abbrev Memory := List Host.Cell

/-- What an unlisted address of caller memory reads as (log 6). -/
def Memory.unlisted : Byte := 0

/-- Addresses rise and no entry says what an unlisted address says. -/
def Memory.wf : Memory → Bool
  | [] => true
  | [c] => c.2 != Memory.unlisted
  | c :: c' :: rest => c.2 != Memory.unlisted && decide (c.1 < c'.1) && Memory.wf (c' :: rest)

/-- What lies outside the instances: the parameters, caller memory and the caller's channels and accessors. -/
structure Shared where
  params : Params
  mem : Memory
  /-- The regions `(base, length)` of the address space that the caller does not own (20_memory R58; log 7). -/
  holes : List (Nat × Nat)
  /-- What the recorders hold, oldest first (20_memory R69). -/
  recorded : List Recorded
  /-- The providers, by handle (20_memory R70). -/
  providers : List Provider
  /-- The `ValueAt` accessors, by handle (20_memory R71). -/
  valueFns : List (Accessor Byte)
  /-- The `IsNullAt` accessors, by handle. -/
  nullFns : List (Accessor Bool)
  /-- The questions put to accessors so far, oldest first. -/
  calls : List AccessorCall
  /-- How many free values have been used (log 9). -/
  freeCount : Nat
deriving DecidableEq, Repr

/-- The diagnostic record of an error (60_exceptions R269). -/
structure Diag where
  kind : ErrKind
  text : String
  encodingKey : Option String
  sourceName : Option String
deriving DecidableEq, Repr

/-- The response of a command (30_encoding R95). -/
structure Response where
  status : BitVec 3
  result : Count
  diag : Option Diag
deriving DecidableEq, Repr

/-- The four factory operations (10_state R20). -/
inductive Factory where
  | byteEncoder (sink : Sink)
  | boolEncoder (sink : Sink)
  | byteDecoder (src : Source) (encodingKey : String)
  | boolDecoder (src : Source) (encodingKey : String)
deriving DecidableEq, Repr

/-- What the outside does to the machine, one a step (log 23). -/
inductive Input where
  /-- A command to the instance in slot `target` (30_encoding R90). -/
  | command (target : Nat) (cmd : Byte) (ops : Operands)
  /-- The parser of the decoder in slot `target` runs its next segment (42_segment_parser R140; log 16). -/
  | segment (target : Nat)
  /-- A factory operation (70_reset R290). -/
  | construct (f : Factory)
  /-- Destruction (70_reset R292). -/
  | destroy (target : Nat)
  /-- The caller stores a byte in its memory between commands (20_memory R57). -/
  | callerWrite (a : Addr) (b : Byte)
  /-- The caller makes a new provider (20_memory R70). -/
  | callerProvide (coords : List Count)
deriving DecidableEq, Repr

/-- A sink or source that no living instance owns any more. -/
inductive Agent where
  | sink (s : Sink)
  | source (s : Source)
deriving DecidableEq, Repr

/-- The block and its surroundings. -/
structure State where
  /-- The instances ever constructed, by slot; a destroyed one is `none` (10_state R20; 70_reset R292). -/
  slots : List (Option Inst)
  /-- The slot the running command addresses (30_encoding R90). -/
  cur : Nat
  shared : Shared
  /-- The response of the last command, if one has ended (30_encoding R95). -/
  response : Option Response
  /-- What the caller does next, oldest first. -/
  inbox : List Input
  /-- The sinks and sources of destroyed instances, as destruction left them, oldest first (70_reset R292). -/
  released : List Agent
deriving DecidableEq, Repr

/-- The encoder registers at construction (70_reset R290; `LIT` is log 3). -/
def EncRegs.reset : EncRegs :=
  { lit := Vector.replicate 128 0, numLiterals := 0, repeating := false, tailRun := 0, bufLen := 0, bufPos := 0 }

/-- `BITS_REMAINED = 8`, `CURRENT = 0` (70_reset R290). -/
def BoolEncRegs.reset : BoolEncRegs := { bitsRemained := 8, current := 0 }

/-- The decoder registers at construction (70_reset R290). -/
def DecRegs.reset : DecRegs :=
  { remainingValues := 0, repeating := false, value := 0, win := [], winPos := 0, pendingSkip := 0 }

/-- The boolean decoder registers at construction (70_reset R290). -/
def BoolDecRegs.reset : BoolDecRegs := { remainingBits := 0, reversedLastByte := 0 }

/-- READY, no error (70_reset R290). -/
def Status.reset : Status := { failed := false, err := 0 }

/-- The instance a factory operation makes (70_reset R290). -/
def Factory.make : Factory → Inst
  | .byteEncoder sink => { status := .reset, codec := .byteEnc { regs := .reset, sink := sink } }
  | .boolEncoder sink => { status := .reset, codec := .boolEnc { regs := .reset, sink := sink } .reset }
  | .byteDecoder src key => { status := .reset, codec := .byteDec { key := key, regs := .reset, src := src } }
  | .boolDecoder src key => { status := .reset, codec := .boolDec { key := key, regs := .reset, src := src } .reset }

/-- A sink about which nothing is known but who it is, and that it leaves its own encoder alone (log 35). -/
def Sink.unknown (ident : Nat) : Sink :=
  { ident := ident, stream := [], winStart := 0, script := [], model := .anySink, log := [], reentersAt := none }

/-- A source about which nothing is known but who it is, whose stream is empty, and that leaves its own decoder alone (log 35). -/
def Source.unknown (ident : Nat) : Source :=
  { ident := ident, name := "src", stream := [], cursor := 0, script := [], model := .anySource, log := [],
    reentersAt := none }

/-- The parameters (00_scope R8; logs 4 and 5). -/
def Params.reset : Params := { addrW := 64, strideW := 64, nullSetMeansNull := true }

/-- Nothing recorded, nothing provided, memory with nothing listed, all of it the caller's. -/
def Shared.reset : Shared :=
  { params := Params.reset, mem := [], holes := [], recorded := [], providers := [], valueFns := [], nullFns := [],
    calls := [], freeCount := 0 }

/-- The machine right after construction of one instance of each kind (70_reset R290; log 2). -/
def State.reset : State :=
  { slots :=
      [ some (Factory.byteEncoder (Sink.unknown 0)).make,
        some (Factory.boolEncoder (Sink.unknown 1)).make,
        some (Factory.byteDecoder (Source.unknown 0) "").make,
        some (Factory.boolDecoder (Source.unknown 1) "").make ],
    cur := 0, shared := Shared.reset, response := none, inbox := [], released := [] }

end Sys2Proof.Machine
end

