-- ==== Sys2Proof/Machine/Ops.lean ====
section
/-!
DEFINITION. The named operations: procedures that can raise (00_scope R14), caller memory, the sink and source ports,
the recorder, the provider and the accessors (00_scope R13, 20_memory), free values, and RAISING AN ERROR
(60_exceptions R268) as one shared operation. There is no return from an error (60_exceptions R275): what stands beside it is
construction and destruction of an instance (70_reset R290, R292).
-/

namespace Sys2Proof.Machine

/-- How a procedure ends: normally, by `raise` (00_scope R14) with the state at the step that raises, or by a caller
fault, for which there is no meaning (60_exceptions R272). -/
inductive Proc (σ α : Type) where
  | ok (a : α) (s : σ)
  | raised (r : Raise) (s : σ)
  | stuck (f : Fault)
deriving DecidableEq, Repr

namespace Proc

/-- "An error raised inside it ends the enclosing command" (00_scope R14). -/
def bind {σ α β : Type} (x : Proc σ α) (f : α → σ → Proc σ β) : Proc σ β :=
  match x with
  | .ok a s => f a s
  | .raised r s => .raised r s
  | .stuck e => .stuck e

/-- A procedure on a part of a larger state. -/
def embed {σ τ α : Type} (wrap : σ → τ) (x : Proc σ α) : Proc τ α :=
  match x with
  | .ok a s => .ok a (wrap s)
  | .raised r s => .raised r (wrap s)
  | .stuck e => .stuck e

/-- The same procedure with another result. -/
def yielding {σ α β : Type} (x : Proc σ α) (f : α → β) : Proc σ β :=
  match x with
  | .ok a s => .ok (f a) s
  | .raised r s => .raised r s
  | .stuck e => .stuck e

end Proc

/-! ### Caller memory (20_memory R50, R57) -/

namespace Memory

/-- `MemRead(a, 1)` (00_scope R12). -/
def read (m : Memory) (a : Addr) : Byte :=
  match m with
  | [] => unlisted
  | (b, v) :: rest => if a = b then v else read rest a

/-- `MemWrite(a, 1, v)` (00_scope R12), keeping the canonical form. -/
def write (m : Memory) (a : Addr) (v : Byte) : Memory :=
  match m with
  | [] => if v = unlisted then [] else [(a, v)]
  | (b, w) :: rest =>
    if a < b then (if v = unlisted then (b, w) :: rest else (a, v) :: (b, w) :: rest)
    else if a = b then (if v = unlisted then rest else (a, v) :: rest)
    else (b, w) :: write rest a v

/-- Byte writes at `base + p` for the pairs `(p, v)`, in their order. -/
def writeAt (m : Memory) (base : Addr) : List (Nat × Byte) → Memory
  | [] => m
  | (p, v) :: rest => writeAt (m.write (base + p) v) base rest

end Memory

/-! ### Free values (93_implementation_defined I1, I3, I4; logs 9 to 11) -/

/-- The free value of width `w` at index `n`. -/
def freeBits (w n : Nat) : BitVec w := BitVec.ofNat w (Config.freeNat n)

/-- Free bytes in the positions `lo, lo + 1, …` (`len` of them), from index `n` on. -/
def freeWrites (n lo len : Nat) : List (Nat × Byte) :=
  (List.range len).map fun j => (lo + j, freeBits 8 (n + j))

/-- A count in a field of `CNT_W` bits (00_scope R8, R9; 30_encoding R95); where it does not fit, a free value (log 21). -/
def countBits (n : Nat) : Count := if n < 2 ^ 64 then BitVec.ofNat 64 n else Config.wideCount n

/-! ### The sink port (20_memory R59 to R63) -/

namespace Sink

/-- What an open sink's answers depend on: all that has happened on its port but `SinkSize`, which has no side effect, as `GETSIZE`
is idempotent (R57; log 12). -/
def history (s : Sink) : List SinkEvent :=
  s.log.filter fun
    | .size _ => false
    | .next _ | .put _ _ | .backUp _ | .flush _ | .pos _ _ _ _ => true

/-- The answer to `SinkNext` (R60): the script's, or the reference sink's, or a free one. -/
def answer (s : Sink) : Option Count :=
  match s.script, s.model with
  | a :: _, _ => a
  | [], .reference w => some w
  | [], .anySink => Config.sinkGrant s.ident s.history

/-- `SinkNext()` (R60): a grant extends the stream by unwritten positions, which are the new window. -/
def next (s : Sink) : Option Count × Sink :=
  match s.answer with
  | none => (none, { s with script := s.script.tail, log := s.log ++ [.next none] })
  | some len =>
    (some len,
      { s with
        stream := s.stream ++ List.replicate len.toNat none
        winStart := s.stream.length
        script := s.script.tail
        log := s.log ++ [.next (some len)] })

/-- `SinkPut(p, b)` (R61): byte `b` at offset `p` of the current window. -/
def put (s : Sink) (p : Count) (b : Byte) : Sink :=
  { s with stream := s.stream.set (s.winStart + p.toNat) (some b), log := s.log ++ [.put p b] }

/-- `SinkBackUp(n)` (R61): the last `n` positions leave the stream. -/
def backUp (s : Sink) (n : Count) : Sink :=
  { s with stream := s.stream.take (s.stream.length - n.toNat), log := s.log ++ [.backUp n] }

/-- The size a sink reports (R61, R63; I7). -/
def sizeNow (s : Sink) : Count :=
  match s.model with
  | .reference _ => countBits s.stream.length
  | .anySink => Config.sinkSize s.ident s.history

/-- `SinkSize()` (R61): nothing but the record of the port changes, and no later answer depends on it (`history`). -/
def size (s : Sink) : Count × Sink :=
  (s.sizeNow, { s with log := s.log ++ [.size s.sizeNow] })

/-- The size a sink reports when it commits (R61, R63; I7). -/
def committed (s : Sink) : Count :=
  match s.model with
  | .reference _ => countBits s.stream.length
  | .anySink => Config.sinkFlush s.ident s.history

/-- `SinkFlush()` (R61). -/
def flush (s : Sink) : Count × Sink :=
  (s.committed, { s with log := s.log ++ [.flush s.committed] })

/-- The coordinates the position hook appends (R62, R63). -/
def coords (s : Sink) (bufLen bufPos : Count) (stride : Nat) : List Count :=
  match s.model with
  | .reference _ => [countBits (s.stream.length - bufLen.toNat), bufPos]
  | .anySink => Config.sinkPos s.ident s.history bufLen bufPos stride

/-- `SinkPos(bufferLen, bufferPos, stride)` (R62). -/
def pos (s : Sink) (bufLen bufPos : Count) (stride : Nat) : List Count × Sink :=
  (s.coords bufLen bufPos stride,
    { s with log := s.log ++ [.pos bufLen bufPos stride (s.coords bufLen bufPos stride)] })

end Sink

/-! ### The source port (20_memory R64 to R68) -/

namespace Source

/-- The length a source offers at `SrcNext` (R65), or a failure. -/
def answer (s : Source) : Option Count :=
  match s.script, s.model with
  | a :: _, _ => a
  | [], .reference w => some w
  | [], .anySource => Config.srcGrant s.ident s.log

/-- The window it has to offer: `T[q .. q + len)`, less what lies beyond `T`. -/
def window (s : Source) : List Byte :=
  match s.answer with
  | none => []
  | some len => (s.stream.drop s.cursor).take len.toNat

/-- `SrcNext()` (R65). A window of length 0 is a failure. -/
def next (s : Source) : Option (List Byte) × Source :=
  match s.window with
  | [] => (none, { s with script := s.script.tail, log := s.log ++ [.next none] })
  | b :: w =>
    (some (b :: w),
      { s with
        cursor := s.cursor + (w.length + 1)
        script := s.script.tail
        log := s.log ++ [.next (some (w.length + 1))] })

/-- `SrcSkip(n)` (R66). -/
def skip (s : Source) (n : Nat) : Source :=
  { s with cursor := s.cursor + n, log := s.log ++ [.skip n] }

/-- What a source does with the coordinates of a provider (R67). The reference source takes two and adds them (R68). -/
def seekAnswer (s : Source) (coords : List Count) : SeekAnswer :=
  match s.model with
  | .reference _ =>
    match coords with
    | c0 :: c1 :: _ => { ok := true, taken := 2, cursor := c0.toNat + c1.toNat }
    | [_] => { ok := false, taken := 1, cursor := s.cursor }
    | [] => { ok := false, taken := 0, cursor := s.cursor }
  | .anySource => Config.srcSeek s.ident s.log coords

/-- `SrcSeek(provider)` (R67): whether it succeeded, how many coordinates it took, and the source after it. The spec does not
say where the cursor of an open source stands after a seek that fails: a free value; the reference source's stays (log 36). -/
def seek (s : Source) (coords : List Count) : Bool × Nat × Source :=
  let a := s.seekAnswer coords
  (a.ok, a.taken,
    { s with cursor := a.cursor, log := s.log ++ [.seek (if a.ok then some a.cursor else none)] })

end Source

/-! ### The recorder and the provider (20_memory R69, R70) -/

namespace Shared

/-- `RecAdd(c, stride)` for each of `cs` in order (R69). -/
def record (sh : Shared) (recorder : Handle) (stride : Nat) (cs : List Count) : Shared :=
  { sh with recorded := sh.recorded ++ cs.map fun c => { recorder := recorder, coord := c, stride := stride } }

/-- The coordinates still in a provider (R70); a handle that names none holds none (log 15). -/
def provided (sh : Shared) (h : Handle) : List Count :=
  match sh.providers[h]? with
  | some p => p.coords.drop p.cursor
  | none => []

/-- A provider's cursor past `n` coordinates, and never past the end. -/
def advance (sh : Shared) (h : Handle) (n : Nat) : Shared :=
  { sh with
    providers := sh.providers.modify h fun p => { p with cursor := min (p.cursor + n) p.coords.length } }

/-- `ProvNext()` (R70). -/
def provNext (sh : Shared) (h : Handle) : Option Count × Shared :=
  match sh.provided h with
  | [] => (none, sh)
  | c :: _ => (some c, sh.advance h 1)

end Shared

/-! ### The accessors (20_memory R71) -/

/-- What an accessor of the table answers about position `i`; `none` where it says nothing. -/
def Accessor.answer {α : Type} (f : Accessor α) (i : Nat) : Option (Answer α) :=
  match f.table.find? fun e => e.1 == i with
  | some e => some e.2
  | none => f.otherwise

/-- An answer as the end of a call (60_exceptions R272 items 4 and 8); `free` where the accessor says nothing. -/
def Answer.settle {α : Type} (a : Option (Answer α)) (free : α) (sh : Shared) : Proc Shared α :=
  match a with
  | some (.returns v) => .ok v sh
  | some .reenters => .stuck .reentrantAccessor
  | some .diverges => .stuck .accessorDoesNotReturn
  | none => .ok free sh

/-- `IsNullAt(i)` (00_scope R13). -/
def askNull (h : Handle) (i : Nat) (sh : Shared) : Proc Shared Bool :=
  Answer.settle (sh.nullFns[h]?.bind fun f => f.answer i) (Config.isNullAt h sh.calls i)
    { sh with calls := sh.calls ++ [.isNullAt h i] }

/-- `ValueAt(i)` (00_scope R13). -/
def askValue (h : Handle) (i : Nat) (sh : Shared) : Proc Shared Byte :=
  Answer.settle (sh.valueFns[h]?.bind fun f => f.answer i) (Config.valueAt h sh.calls i)
    { sh with calls := sh.calls ++ [.valueAt h i] }

/-! ### Errors (60_exceptions R261, R268) -/

namespace ErrKind

/-- The code of an error (R261). -/
def code : ErrKind → BitVec 3
  | .unsupported => 1
  | .ioFailure => 2
  | .corrupt => 3
  | .badPosition => 4
  | .illegalCommand => 5
  | .overflow => 6

/-- Does the error leave the instance FAILED (R268)? -/
def fatal : ErrKind → Bool
  | .unsupported | .illegalCommand => false
  | .ioFailure | .corrupt | .badPosition | .overflow => true

end ErrKind

/-- Free values for the encoder registers (I1), from index `n` on. -/
def EncRegs.unspecified (n : Nat) : EncRegs :=
  { lit := Vector.ofFn fun i : Fin 128 => freeBits 8 (n + 8 + i.val)
    numLiterals := freeBits 8 n
    repeating := (freeBits 1 (n + 1)).getLsbD 0
    tailRun := freeBits 2 (n + 2)
    bufLen := freeBits 64 (n + 3)
    bufPos := freeBits 64 (n + 4) }

/-- Free values for the boolean encoder registers (I1). -/
def BoolEncRegs.unspecified (n : Nat) : BoolEncRegs :=
  { bitsRemained := freeBits 4 (n + 5), current := freeBits 8 (n + 6) }

/-- Free values for the decoder registers (I1). -/
def DecRegs.unspecified (n : Nat) : DecRegs :=
  { remainingValues := freeBits 8 n
    repeating := (freeBits 1 (n + 1)).getLsbD 0
    value := freeBits 8 (n + 2)
    win := Config.freeWindow (n + 3)
    winPos := freeBits 64 (n + 4)
    pendingSkip := freeBits 64 (n + 5) }

/-- Free values for the boolean decoder registers (I1). -/
def BoolDecRegs.unspecified (n : Nat) : BoolDecRegs :=
  { remainingBits := freeBits 4 (n + 6), reversedLastByte := freeBits 8 (n + 7) }

/-- How many indexes of the counter the free values of one failed instance use. -/
def unspecifiedWidth : Nat := 136

/-- "Every other register of the instance becomes unspecified" (R268). `KIND` and `ENCODING_KEY` are read-only and
stay (log 9), and so do the sink and the source: what they hold "is not undone". -/
def Codec.unspecified (n : Nat) : Codec → Codec
  | .byteEnc e => .byteEnc { e with regs := EncRegs.unspecified n }
  | .boolEnc e _ => .boolEnc { e with regs := EncRegs.unspecified n } (BoolEncRegs.unspecified n)
  | .byteDec d => .byteDec { d with regs := DecRegs.unspecified n }
  | .boolDec d _ => .boolDec { d with regs := DecRegs.unspecified n } (BoolDecRegs.unspecified n)

/-- The diagnostic record of an error (R269); the key and the source's name are there for decoders only. -/
def Codec.diag (c : Codec) (r : Raise) : Diag :=
  match c with
  | .byteEnc _ | .boolEnc _ _ => { kind := r.kind, text := r.text, encodingKey := none, sourceName := none }
  | .byteDec d | .boolDec d _ =>
    { kind := r.kind, text := r.text, encodingKey := some d.key, sourceName := some d.src.name }

/-! ### Agents that issue a command to their own instance (70_reset R301; 60_exceptions R272 item 4; log 35) -/

/-- The transaction inside which the instance's sink or source issues a command to the instance. -/
def Codec.reentersAt : Codec → Option Nat
  | .byteEnc e | .boolEnc e _ => e.sink.reentersAt
  | .byteDec d | .boolDec d _ => d.src.reentersAt

/-- The number of transactions on the instance's port so far. -/
def Codec.transactions : Codec → Nat
  | .byteEnc e | .boolEnc e _ => e.sink.log.length
  | .byteDec d | .boolDec d _ => d.src.log.length

/-- Is that transaction among those made between `c` and `c'`? -/
def Codec.reenters (c c' : Codec) : Bool :=
  c.reentersAt.any fun k => decide (c.transactions ≤ k ∧ k < c'.transactions)

/-! ### Commands and their ends (30_encoding R95, 60_exceptions R268, R270) -/

namespace State

/-- The instance the running command addresses. -/
def addressed (s : State) : Option Inst := s.slots[s.cur]?.join

/-- The end of a command: the addressed instance, the shared state and the response as it leaves them. -/
def reply (s : State) (inst : Inst) (sh : Shared) (resp : Response) : State :=
  { s with slots := s.slots.set s.cur (some inst), shared := sh, response := some resp }

/-- RAISING AN ERROR (R268), given the instance and the shared state at the step that raises: the code goes to
`STATUS.ERR` and to the response, whose result is 0; a fatal error sets `STATUS.FAILED` and leaves
the instance's other registers free. -/
def raiseError (s : State) (inst : Inst) (sh : Shared) (r : Raise) : State :=
  let resp : Response := { status := r.kind.code, result := 0, diag := some (inst.codec.diag r) }
  if r.kind.fatal then
    s.reply { status := { failed := true, err := r.kind.code }, codec := inst.codec.unspecified sh.freeCount }
      { sh with freeCount := sh.freeCount + unspecifiedWidth } resp
  else
    s.reply { inst with status := { inst.status with err := r.kind.code } } sh resp

end State

/-- What every command checks first (R270): there is an instance, and it is not FAILED (R271). -/
def withAddressed (s : State) (f : Inst → Host.Outcome State Fault Refusal) : Host.Outcome State Fault Refusal :=
  match s.addressed with
  | none => .fault .noInstance
  | some inst => if inst.status.failed then .fault .failedInstance else f inst

/-- A command word that the addressed instance does not know (30_encoding R94; R266). -/
def illegalCommand (s : State) (inst : Inst) : Host.Outcome State Fault Refusal :=
  .next (s.raiseError inst s.shared { kind := .illegalCommand, text := "illegal command" })

/-- The end of a command's body (30_encoding R95): a result, an error, or no meaning, which is also what a command has in
which the agent on the port re-entered (70_reset R301). `wrap` puts the unit the body worked on back under its kind. -/
def complete {υ : Type} (s : State) (inst : Inst) (wrap : υ → Codec) (x : Proc (υ × Shared) Count) :
    Host.Outcome State Fault Refusal :=
  match x with
  | .ok result (u, sh) =>
    if inst.codec.reenters (wrap u) then .fault .reentrantAgent
    else .next (s.reply { inst with codec := wrap u } sh { status := 0, result := result, diag := none })
  | .raised r (u, sh) =>
    if inst.codec.reenters (wrap u) then .fault .reentrantAgent
    else .next (s.raiseError { inst with codec := wrap u } sh r)
  | .stuck f => .fault f

/-- A command of a byte encoder; on any other kind it is illegal (30_encoding R90, R94). -/
def onByteEnc (s : State) (body : Enc → Shared → Proc (Enc × Shared) Count) : Host.Outcome State Fault Refusal :=
  withAddressed s fun inst =>
    match inst.codec with
    | .byteEnc e => complete s inst .byteEnc (body e s.shared)
    | .boolEnc _ _ | .byteDec _ | .boolDec _ _ => illegalCommand s inst

/-- A command of a boolean encoder. -/
def onBoolEnc (s : State) (body : Enc × BoolEncRegs → Shared → Proc ((Enc × BoolEncRegs) × Shared) Count) :
    Host.Outcome State Fault Refusal :=
  withAddressed s fun inst =>
    match inst.codec with
    | .boolEnc e b => complete s inst (fun u => .boolEnc u.1 u.2) (body (e, b) s.shared)
    | .byteEnc _ | .byteDec _ | .boolDec _ _ => illegalCommand s inst

/-- A command of a byte decoder. -/
def onByteDec (s : State) (body : Dec → Shared → Proc (Dec × Shared) Count) : Host.Outcome State Fault Refusal :=
  withAddressed s fun inst =>
    match inst.codec with
    | .byteDec d => complete s inst .byteDec (body d s.shared)
    | .byteEnc _ | .boolEnc _ _ | .boolDec _ _ => illegalCommand s inst

/-- A command of a boolean decoder. -/
def onBoolDec (s : State) (body : Dec × BoolDecRegs → Shared → Proc ((Dec × BoolDecRegs) × Shared) Count) :
    Host.Outcome State Fault Refusal :=
  withAddressed s fun inst =>
    match inst.codec with
    | .boolDec d b => complete s inst (fun u => .boolDec u.1 u.2) (body (d, b) s.shared)
    | .byteEnc _ | .boolEnc _ _ | .byteDec _ => illegalCommand s inst

/-! ### Construction and destruction (70_reset R290 to R292) -/

/-- The sink an instance owns, by its identity. -/
def Inst.sinkIdent (i : Inst) : Option Nat :=
  match i.codec with
  | .byteEnc e | .boolEnc e _ => some e.sink.ident
  | .byteDec _ | .boolDec _ _ => none

/-- The source an instance owns, by its identity. -/
def Inst.srcIdent (i : Inst) : Option Nat :=
  match i.codec with
  | .byteDec d | .boolDec d _ => some d.src.ident
  | .byteEnc _ | .boolEnc _ _ => none

/-- Do two instances share a sink or a source (20_memory R76)? -/
def Inst.sharesAgent (i j : Inst) : Bool :=
  (i.sinkIdent.isSome && i.sinkIdent == j.sinkIdent) || (i.srcIdent.isSome && i.srcIdent == j.srcIdent)

/-- A factory operation (R290): a fresh instance in a new slot. A sink or source that a living instance owns is a caller
fault (60_exceptions R272 item 7). -/
def construct (f : Factory) (s : State) : Host.Outcome State Fault Refusal :=
  if s.slots.any fun slot => slot.any fun j => f.make.sharesAgent j then .fault .sharedAgent
  else .next { s with slots := s.slots ++ [some f.make] }

/-- The sink or source an instance owns (20_memory R76). -/
def Inst.agent (i : Inst) : Agent :=
  match i.codec with
  | .byteEnc e | .boolEnc e _ => .sink e.sink
  | .byteDec d | .boolDec d _ => .source d.src

/-- Destruction (R292): in any state, READY or FAILED; no port transaction, so the sink or source stays as it is; the registers,
and what is staged in them, are lost. -/
def destroy (target : Nat) (s : State) : Host.Outcome State Fault Refusal :=
  match s.slots[target]?.join with
  | none => .fault .noInstance
  | some inst => .next { s with slots := s.slots.set target none, released := s.released ++ [inst.agent] }

end Sys2Proof.Machine
end

