-- ==== Sys2Proof/Machine/Operands.lean ====
section
/-!
DEFINITION. The operand forms of the commands: index ranges (30_encoding R93), bitmaps and null masks
(00_scope R12, R15; 20_memory R53, R54), the caller's obligations on buffers (20_memory R51, R55, R75; 60_exceptions
R272 items 1 to 3), and the pure bit helpers of 00_scope R15.
-/

namespace Sys2Proof.Machine

/-- `divRoundUp(a, b)` for the two divisors in use (R15). -/
def ceilDiv (a b : Nat) : Nat := (a + (b - 1)) / b

/-- `reverse8(b)` (R15): bit `j` of the result is bit `7 - j` of `b`. -/
def reverse8 (b : Byte) : Byte := b.reverse

/-! ### Ranges (30_encoding R93) -/

/-- `b, b + 1, …, e - 1`; nothing if `e ≤ b`. -/
def rangePositions (r : Range) : List Nat := List.range' r.b.toNat (r.e.toNat - r.b.toNat)

/-- The positions that `ranges` enumerates, in order. -/
def positions (ranges : List Range) : List Nat := ranges.flatMap rangePositions

/-! ### Bitmaps and null masks -/

/-- `BitRead(base, i)` (R12, R53). -/
def bitRead (m : Memory) (base : Addr) (i : Nat) : Bool := (m.read (base + i / 8)).getLsbD (i % 8)

/-- `isBitNull(nulls, i)` (R15); no position is null without a mask. -/
def isNull (sh : Shared) (nulls : Option Addr) (i : Nat) : Bool :=
  match nulls with
  | none => false
  | some base => bitRead sh.mem base i == sh.params.nullSetMeansNull

/-- The positions of `ps` that are not null. -/
def nonNull (sh : Shared) (nulls : Option Addr) (ps : List Nat) : List Nat :=
  ps.filter fun i => !isNull sh nulls i

/-- `countNonNulls(nulls, 0, n)` (R15). -/
def countNonNulls (isNull : Nat → Bool) (n : Nat) : Nat := ((List.range n).filter fun i => !isNull i).length

/-- The values that the array form of add reads: `MemRead(data + i, 1)` at the non-null positions (R111, R202). -/
def gatherBytes (sh : Shared) (data : Addr) (ranges : List Range) (nulls : Option Addr) : List Byte :=
  (nonNull sh nulls (positions ranges)).map fun i => sh.mem.read (data + i)

/-- The booleans that addBits reads: `invert ^ BitRead(data, i)` at the non-null positions (R204). -/
def gatherBits (sh : Shared) (data : Addr) (ranges : List Range) (nulls : Option Addr) (invert : Bool) : List Bool :=
  (nonNull sh nulls (positions ranges)).map fun i => invert ^^ bitRead sh.mem data i

/-! ### The caller's buffers (log 8) -/

/-- Does `[base, base + len)` lie inside the address space and outside every hole (logs 7 and 27)? An empty buffer has no byte
outside, wherever its base is: that a base of `2^ADDR_W` or more, which does not fit its field (R8, R92), then runs the command
is log 39 (DESIGN CHOICE). -/
def owned (sh : Shared) (base len : Nat) : Bool :=
  len == 0 ||
    (decide (base + len ≤ 2 ^ sh.params.addrW) &&
      sh.holes.all fun h => decide (h.2 = 0) || decide (base + len ≤ h.1) || decide (h.1 + h.2 ≤ base))

/-- Every byte of an array buffer at the positions of a range is the caller's. -/
def bytesOwned (sh : Shared) (data : Addr) (r : Range) : Bool :=
  owned sh (data + r.b.toNat) (r.e.toNat - r.b.toNat)

/-- Every byte of a bitmap that holds a position of a range is the caller's; of an empty range, none (log 39). -/
def bitsOwned (sh : Shared) (base : Addr) (r : Range) : Bool :=
  decide (r.e.toNat ≤ r.b.toNat) ||
    owned sh (base + r.b.toNat / 8) ((r.e.toNat - 1) / 8 + 1 - r.b.toNat / 8)

/-- The null mask of an add is the caller's at every enumerated position. -/
def nullsOwned (sh : Shared) (nulls : Option Addr) (ranges : List Range) : Bool :=
  nulls.all fun base => ranges.all (bitsOwned sh base)

/-- The buffers of the array form of add (R111). -/
def addBuffersOwned (sh : Shared) (data : Addr) (ranges : List Range) (nulls : Option Addr) : Bool :=
  ranges.all (bytesOwned sh data) && nullsOwned sh nulls ranges

/-- The buffers of addBits (R204). -/
def addBitsBuffersOwned (sh : Shared) (data : Addr) (ranges : List Range) (nulls : Option Addr) : Bool :=
  ranges.all (bitsOwned sh data) && nullsOwned sh nulls ranges

/-- Do `[a, a + m)` and `[b, b + n)` have a byte in common? -/
def overlaps (a m b n : Nat) : Bool := decide (max a b < min (a + m) (b + n))

/-- What a caller owes a next: `len` output bytes and `ceil(numValues / 8)` bytes of mask are its own, and they do not
overlap (20_memory R51, R55, R75). The fault to raise, or `none`. -/
def outputFault (sh : Shared) (data len numValues : Nat) (nulls : Option Addr) : Option Fault :=
  if !owned sh data len then some .bufferOutside
  else
    match nulls with
    | none => none
    | some base =>
      if !owned sh base (ceilDiv numValues 8) then some .bufferOutside
      else if overlaps data len base (ceilDiv numValues 8) then some .outputOverlap
      else none

/-! ### Bits of the boolean decoder's output (R15, R232) -/

/-- Bit `8 j + t` of a byte sequence, LSB first in each byte. -/
def bitOf (bs : List Byte) (i : Nat) : Bool := ((bs[i / 8]?).getD 0).getLsbD (i % 8)

/-- Step 7 and 8 of R232: from position `i` on (`left` of them), 0 past `numValues` and at null positions, and the next
compact bit elsewhere. -/
def scatterBits (isNull : Nat → Bool) (numValues : Nat) : Nat → Nat → List Bool → List Bool
  | 0, _, _ => []
  | left + 1, i, compact =>
    if i ≥ numValues ∨ isNull i = true then false :: scatterBits isNull numValues left (i + 1) compact
    else (compact.head?.getD false) :: scatterBits isNull numValues left (i + 1) compact.tail

/-- The byte whose bit `t` is `f t`. -/
def byteOfBits (f : Nat → Bool) : Byte := BitVec.ofFnLE fun t : Fin 8 => f t.val

/-- The first `n` bytes of a bit sequence, LSB first (20_memory R53). -/
def packBits (n : Nat) (bits : List Bool) : List Byte :=
  (List.range n).map fun j => byteOfBits fun t => (bits[8 * j + t]?).getD false

end Sys2Proof.Machine
end

