-- ==== Sys2Proof/Machine/Flags.lean ====
section
/-!
DEFINITION. The status flags and counters a rule updates (10_state R44): `REPEAT` and the tail run of the encoder,
`REPEATING` of the decoder, `STATUS` as a byte, and the register map (10_state R43).
-/

namespace Sys2Proof.Machine

/-- The 8-bit register `STATUS`: `FAILED` in bit 7, `ERR` in bits 2:0, bits 6:3 zero (10_state R23). -/
def Status.toByte (s : Status) : Byte :=
  (if s.failed then 0x80#8 else 0#8) ||| s.err.setWidth 8

namespace EncRegs

/-- `LIT[i]`; only the 128 entries exist (log 25). -/
def litAt (r : EncRegs) (i : Nat) : Byte := (r.lit[i]?).getD 0

/-- `LIT[i] <- v`. -/
def setLit (r : EncRegs) (i : Nat) (v : Byte) : EncRegs := { r with lit := r.lit.setIfInBounds i v }

/-- `NUM_LITERALS <- n`. -/
def withCount (r : EncRegs) (n : BitVec 8) : EncRegs := { r with numLiterals := n }

/-- The bytes staged in literal state: `LIT[0 .. NUM_LITERALS)` (10_state R26). -/
def stagedBytes (r : EncRegs) : List Byte := (List.range r.numLiterals.toNat).map r.litAt

/-- The values an encoder holds staged (10_state R26): copies of `LIT[0]`, or the staged bytes. -/
def stagedValues (r : EncRegs) : List Byte :=
  if r.repeating then List.replicate r.numLiterals.toNat (r.litAt 0) else r.stagedBytes

/-- The stage emptied: `REPEAT`, `TAIL_RUN` and `NUM_LITERALS` cleared (41_byte_encoder R102). -/
def clearStage (r : EncRegs) : EncRegs := { r with repeating := false, tailRun := 0, numLiterals := 0 }

/-- A new stage of the one value `v` (R104, R106). -/
def startStage (r : EncRegs) (v : Byte) : EncRegs := { (r.setLit 0 v) with numLiterals := 1, tailRun := 1 }

/-- The tail run after one more value (R107, first two lines). -/
def bumpTail (r : EncRegs) (v : Byte) : EncRegs :=
  { r with tailRun := if v = r.litAt (r.numLiterals.toNat - 1) then r.tailRun + 1 else 1 }

/-- The repeat stage of `MIN_REPEAT` copies of `v`; `REPEAT` set (R108, last three lines). -/
def startRepeat (r : EncRegs) (v : Byte) : EncRegs :=
  { (r.setLit 0 v) with repeating := true, numLiterals := BitVec.ofNat 8 minRepeat }

/-- The segment that the stage stands for, header first (R102; 30_encoding R85). -/
def segment (r : EncRegs) : List Byte :=
  if r.repeating then [r.numLiterals - BitVec.ofNat 8 minRepeat, r.litAt 0]
  else (0 - r.numLiterals) :: r.stagedBytes

end EncRegs

namespace DecRegs

/-- A repeat segment becomes the current one; `REPEATING` set (42_segment_parser R143, R144). -/
def loadRepeat (r : DecRegs) (k : BitVec 7) (v : Byte) : DecRegs :=
  { r with repeating := true, remainingValues := BitVec.ofNat 8 (repeatCount k), value := v }

/-- A literal segment becomes the current one; `REPEATING` cleared (R143, R145). -/
def loadLiteral (r : DecRegs) (m : BitVec 7) : DecRegs :=
  { r with repeating := false, remainingValues := BitVec.ofNat 8 (literalCount m) }

/-- `REMAINING_VALUES` less the `n` values delivered or skipped (R144 to R148). -/
def spend (r : DecRegs) (n : Nat) : DecRegs :=
  { r with remainingValues := r.remainingValues - BitVec.ofNat 8 n }

/-- The window thrown away and the current segment with it (43_byte_decoder R173). -/
def invalidate (r : DecRegs) : DecRegs := { r with win := [], winPos := 0, remainingValues := 0 }

end DecRegs

/-! ### The register map (10_state R43), a model view that no command reads -/

/-- The register `KIND` (10_state R22). -/
def Codec.kind : Codec → Kind
  | .byteEnc _ => .byteEnc
  | .boolEnc _ _ => .boolEnc
  | .byteDec _ => .byteDec
  | .boolDec _ _ => .boolDec

/-- What a register holds: a number of a width, the key's text, the 128 bytes of `LIT`, or the window with the place in it. -/
inductive RegValue where
  | number (width value : Nat)
  | text (s : String)
  | bytes (bs : List Byte)
  | window (win : List Byte) (winPos : Count)
deriving DecidableEq, Repr

/-- A register of `w` bits. -/
def RegValue.bits {w : Nat} (v : BitVec w) : RegValue := .number w v.toNat

/-- The encoder registers by number. -/
def EncRegs.view (r : EncRegs) : Nat → Option RegValue
  | 0x10 => some (.bits r.numLiterals)
  | 0x11 => some (.bits (BitVec.ofBool r.repeating))
  | 0x12 => some (.bits r.tailRun)
  | 0x13 => some (.bits r.bufLen)
  | 0x14 => some (.bits r.bufPos)
  | 0x15 => some (.bytes r.lit.toList)
  | _ => none

/-- The boolean encoder registers by number. -/
def BoolEncRegs.view (b : BoolEncRegs) : Nat → Option RegValue
  | 0x20 => some (.bits b.bitsRemained)
  | 0x21 => some (.bits b.current)
  | _ => none

/-- The decoder registers by number. -/
def DecRegs.view (r : DecRegs) : Nat → Option RegValue
  | 0x30 => some (.bits r.remainingValues)
  | 0x31 => some (.bits (BitVec.ofBool r.repeating))
  | 0x32 => some (.bits r.value)
  | 0x33 => some (.window r.win r.winPos)
  | 0x34 => some (.bits r.pendingSkip)
  | _ => none

/-- A decoder's registers by number, the key among them. -/
def Dec.view (d : Dec) (no : Nat) : Option RegValue :=
  if no = 0x02 then some (.text d.key) else d.regs.view no

/-- The boolean decoder registers by number. -/
def BoolDecRegs.view (b : BoolDecRegs) : Nat → Option RegValue
  | 0x40 => some (.bits b.remainingBits)
  | 0x41 => some (.bits b.reversedLastByte)
  | _ => none

/-- An instance's registers by number; `none` where its kind has no such register. -/
def Inst.view (i : Inst) (no : Nat) : Option RegValue :=
  match no with
  | 0x00 => some (.bits i.codec.kind.num)
  | 0x01 => some (.bits i.status.toByte)
  | _ =>
    match i.codec with
    | .byteEnc e => e.regs.view no
    | .boolEnc e b => (e.regs.view no).or (b.view no)
    | .byteDec d => d.view no
    | .boolDec d b => (d.view no).or (b.view no)

end Sys2Proof.Machine
end

