-- ==== Sys2Proof/Machine/Parser.lean ====
section
/-!
DEFINITION. The segment header parser and dispatcher (42_segment_parser), part of every decoder, and the two segments as
instructions.
-/

namespace Sys2Proof.Machine

/-- Where in a segment a byte is needed (R141). -/
inductive ReadCtx where
  | header
  | payload
deriving DecidableEq, Repr

namespace Dec

/-- The error of a failed refill, by where the byte is needed (R141; 60_exceptions R263, R264). -/
def refillError : ReadCtx → Raise
  | .header => { kind := .ioFailure, text := "source refill" }
  | .payload => { kind := .corrupt, text := "short read mid-segment" }

/-- `Refill(ctx)` (R141). -/
def refill (d : Dec) (ctx : ReadCtx) : Proc Dec Unit :=
  match d.src.next with
  | (none, src) => .raised (refillError ctx) { d with src := src }
  | (some w, src) => .ok () { d with src := src, regs := { d.regs with win := w, winPos := 0 } }

/-- The next byte of the window (R142, last three lines). -/
def takeByte (d : Dec) : Proc Dec Byte :=
  .ok ((d.regs.win[d.regs.winPos.toNat]?).getD 0) { d with regs := { d.regs with winPos := d.regs.winPos + 1 } }

/-- `ReadByte(ctx)` (R142): a refill happens only when a byte is needed and the window is exhausted. -/
def readByte (d : Dec) (ctx : ReadCtx) : Proc Dec Byte :=
  if d.regs.winPos.toNat = d.regs.win.length then (d.refill ctx).bind fun _ d' => d'.takeByte else d.takeByte

/-- The unread bytes of the window (10_state R35). -/
def unread (d : Dec) : List Byte := d.regs.win.drop d.regs.winPos.toNat

/-- The bytes of the stream not yet consumed, from the unread part of `WIN` onward (10_state R37). -/
def upcoming (d : Dec) : List Byte := d.unread ++ d.src.stream.drop d.src.cursor

/-- The fetch of the next segment (R143): the header byte, and a repeat's payload byte at once. Of a literal the payload
stays in the stream; it is named in the instruction and not consumed (log 17). -/
def fetchSegment (d : Dec) : Proc Dec Instr :=
  (d.readByte .header).bind fun h d1 =>
    match decodeHeader h with
    | .repeats k => (d1.readByte .payload).bind fun v d2 => .ok (.rep k v) d2
    | .literal m => .ok (.lit m (d1.upcoming.take (literalCount m))) d1

/-- The effect of the two segments on the decoder's registers (R143 to R145). -/
def loadSegment (i : Instr) (d : Dec) : Dec :=
  match i with
  | .rep k v => { d with regs := d.regs.loadRepeat k v }
  | .lit m _ => { d with regs := d.regs.loadLiteral m }
  | .bencAdd _ _ _ | .bencAddFn _ _ _ | .bencAddBits _ _ _ _ | .bencFlush | .bencRecpos _ _
  | .bencGetsize | .boolencAdd _ _ _ | .boolencAddFn _ _ _ | .boolencAddBits _ _ _ _
  | .boolencFlush | .boolencRecpos _ _ | .boolencGetsize | .bdecNext _ _ _ | .bdecSkip _
  | .bdecSeek _ | .booldecNext _ _ _ | .booldecSkip _ | .booldecSeek _ => d

/-- `ReadHeader()` (R143). -/
def readHeader (d : Dec) : Proc Dec Unit :=
  d.fetchSegment.bind fun i d' => .ok () (loadSegment i d')

/-- A header if the current segment is spent (R148, R171). -/
def needHeader (d : Dec) : Proc Dec Unit :=
  if d.regs.remainingValues = 0 then d.readHeader else .ok () d

/-- `SkipBytes(c)` (R147). -/
def skipBytes (c : Nat) (d : Dec) : Dec :=
  let k := min c (d.regs.win.length - d.regs.winPos.toNat)
  let d' : Dec := { d with regs := { d.regs with winPos := d.regs.winPos + BitVec.ofNat 64 k } }
  if c - k > 0 then { d' with src := d'.src.skip (c - k) } else d'

/-- One turn of the loop of `SkipValues` (R148): `c` values of the current segment are dropped. -/
def dropValues (c : Nat) (d : Dec) : Dec :=
  let d' : Dec := { d with regs := d.regs.spend c }
  if d'.regs.repeating then d' else d'.skipBytes c

/-- The loop of `SkipValues(k)` (R148). Every turn drops at least one value, so `fuel = k` is enough. -/
def skipLoop : Nat → Nat → Dec → Proc Dec Unit
  | 0, _, d => .ok () d
  | fuel + 1, k, d =>
    if k = 0 then .ok () d
    else
      d.needHeader.bind fun _ d' =>
        let c := min k d'.regs.remainingValues.toNat
        skipLoop fuel (k - c) (d'.dropValues c)

/-- `SkipValues(k)` (R148). -/
def skipValues (k : Nat) (d : Dec) : Proc Dec Unit := skipLoop k k d

/-- The next logical value of the current segment (R144, R145): `VALUE`, or the next stream byte. -/
def nextValue (d : Dec) : Proc Dec Byte :=
  if d.regs.repeating then .ok d.regs.value d else d.readByte .payload

end Dec

/-- A decoder at work with what it has delivered so far: pairs of an output position and a byte, in the order of the
writes (R146). -/
structure DecRun where
  dec : Dec
  out : List (Nat × Byte)
deriving DecidableEq, Repr

namespace DecRun

/-- The loop of `TakeValues` (R146): positions `pos, pos + 1, …` (`n` of them); the result is `consumed`. -/
def takeLoop (isNull : Nat → Bool) : Nat → Nat → Nat → DecRun → Proc DecRun Nat
  | 0, _, consumed, r => .ok consumed r
  | n + 1, pos, consumed, r =>
    if isNull pos then takeLoop isNull n (pos + 1) consumed r
    else
      (r.dec.nextValue.embed fun d => { r with dec := d }).bind fun v r' =>
        takeLoop isNull n (pos + 1) (consumed + 1) { r' with out := r'.out ++ [(pos, v)] }

/-- `TakeValues(data, pos, count, nulls)` (R146): `REMAINING_VALUES` falls by the number of non-null positions filled
(90_conflicts C4). -/
def takeValues (isNull : Nat → Bool) (pos count : Nat) (r : DecRun) : Proc DecRun Unit :=
  (takeLoop isNull count pos 0 r).bind fun consumed r' =>
    .ok () { r' with dec := { r'.dec with regs := r'.dec.regs.spend consumed } }

end DecRun

/-- A segment reaches the parser of a decoder whose current segment is spent (R140, R143); anything else is no segment
fetch (log 18). -/
def onParser (s : State) (f : Dec → Dec) : Host.Outcome State Fault Refusal :=
  withAddressed s fun inst =>
    match inst.codec with
    | .byteDec d =>
      if d.regs.remainingValues = 0 then
        .next { s with slots := s.slots.set s.cur (some { inst with codec := .byteDec (f d) }) }
      else .fault .segmentUnspent
    | .boolDec d b =>
      if d.regs.remainingValues = 0 then
        .next { s with slots := s.slots.set s.cur (some { inst with codec := .boolDec (f d) b }) }
      else .fault .segmentUnspent
    | .byteEnc _ | .boolEnc _ _ => .fault .notADecoder

/-- `REP` (R144): the fetched repeat segment becomes the current one: `REPEATING <- 1`, `REMAINING_VALUES <- k + 3`,
`VALUE <- v`. Its values are then delivered or skipped by the nexts (R146, R148). -/
def execRep (k : BitVec 7) (v : Byte) (s : State) : Host.Outcome State Fault Refusal :=
  onParser s (Dec.loadSegment (.rep k v))

/-- `LIT` (R145): the fetched literal segment becomes the current one: `REPEATING <- 0`, `REMAINING_VALUES <- n`. Its payload
is the next `n` bytes of the stream (10_state R37), read by the nexts as its values are delivered or skipped. -/
def execLit (m : BitVec 7) (payload : List Byte) (s : State) : Host.Outcome State Fault Refusal :=
  onParser s (Dec.loadSegment (.lit m payload))

end Sys2Proof.Machine
end

