-- ==== Sys2Proof/Machine/ByteDecoder.lean ====
section
/-!
DEFINITION. The byte decoder (43_byte_decoder): the procedure `ByteNext` and the three commands of a `BYTE_DEC` instance.
-/

namespace Sys2Proof.Machine

namespace DecRun

/-- The first non-null position from `pos` on, or `pos + left` (R171, steps 2 and 4). -/
def skipNulls (isNull : Nat → Bool) : Nat → Nat → Nat
  | 0, pos => pos
  | left + 1, pos => if isNull pos then skipNulls isNull left (pos + 1) else pos

/-- The loop of step 3 (R171): `pos` is a non-null position or the end. Every turn passes at least one position, so
`fuel = numValues` is enough. -/
def nextLoop (isNull : Nat → Bool) (numValues : Nat) : Nat → Nat → DecRun → Proc DecRun Unit
  | 0, _, r => .ok () r
  | fuel + 1, pos, r =>
    if pos < numValues then
      (r.dec.needHeader.embed fun d => { r with dec := d }).bind fun _ r1 =>
        let count := min (numValues - pos) r1.dec.regs.remainingValues.toNat
        (r1.takeValues isNull pos count).bind fun _ r2 =>
          nextLoop isNull numValues fuel (skipNulls isNull (numValues - (pos + count)) (pos + count)) r2
    else .ok () r

end DecRun

/-- `ByteNext` (R171): the pending skip is drained, then the non-null positions of `[0, numValues)` are filled. -/
def byteNext (isNull : Nat → Bool) (numValues : Nat) (d : Dec) : Proc DecRun Unit :=
  let k := d.regs.pendingSkip.toNat
  let d0 : Dec := { d with regs := { d.regs with pendingSkip := 0 } }
  ((d0.skipValues k).embed fun d' => ({ dec := d', out := [] } : DecRun)).bind fun _ r =>
    DecRun.nextLoop isNull numValues numValues (DecRun.skipNulls isNull numValues 0) r

/-- `PENDING_SKIP + n`, or `Overflow` (R172, R233). -/
def Dec.addSkip (n : Count) (d : Dec) : Proc Dec Unit :=
  if d.regs.pendingSkip.toNat + n.toNat ≥ 2 ^ 64 then .raised { kind := .overflow, text := "pending skip" } d
  else .ok () { d with regs := { d.regs with pendingSkip := d.regs.pendingSkip + n } }

/-- The block's part of `BDEC.SEEK` once the source has repositioned itself (R173): the window and the current segment are thrown
away, and the next coordinate is set as the pending skip. -/
def Dec.reseat (provider : Handle) (d : Dec) (sh : Shared) : Proc (Dec × Shared) Unit :=
  let d' : Dec := { d with regs := d.regs.invalidate }
  match sh.provNext provider with
  | (none, sh') => .raised { kind := .badPosition, text := "provider exhausted" } (d', sh')
  | (some c, sh') => .ok () ({ d' with regs := { d'.regs with pendingSkip := c } }, sh')

/-- The body of `BDEC.SEEK` (R173): the source's seek, then `reseat`. A provider with no coordinate left ends in `BadPosition`
whichever of the two asks first (20_memory R67, R70), so that case is told apart first. -/
def Dec.seek (provider : Handle) (d : Dec) (sh : Shared) : Proc (Dec × Shared) Unit :=
  let a := d.src.seek (sh.provided provider)
  let d1 : Dec := { d with src := a.2.2 }
  match sh.provided provider with
  | [] => .raised { kind := .badPosition, text := "provider exhausted" } (d1, sh)
  | _ :: _ =>
    if a.1 then d1.reseat provider (sh.advance provider a.2.1)
    else .raised { kind := .badPosition, text := "source seek" } (d1, sh.advance provider a.2.1)

/-- `BDEC.NEXT` (R171): the bytes delivered are written at `data` plus their positions; on an error those already delivered
stay written (60_exceptions R268). -/
def execBdecNext (data : Addr) (numValues : Count) (nulls : Option Addr) (s : State) :
    Host.Outcome State Fault Refusal :=
  onByteDec s fun d sh =>
    match outputFault sh data numValues.toNat numValues.toNat nulls with
    | some f => .stuck f
    | none =>
      ((byteNext (isNull sh nulls) numValues.toNat d).embed fun r =>
        (r.dec, { sh with mem := sh.mem.writeAt data r.out })).yielding fun _ => 0

/-- `BDEC.SKIP` (R172). -/
def execBdecSkip (n : Count) (s : State) : Host.Outcome State Fault Refusal :=
  onByteDec s fun d sh => ((d.addSkip n).embed fun d' => (d', sh)).yielding fun _ => 0

/-- `BDEC.SEEK` (R173). -/
def execBdecSeek (provider : Handle) (s : State) : Host.Outcome State Fault Refusal :=
  onByteDec s fun d sh => (d.seek provider sh).yielding fun _ => 0

end Sys2Proof.Machine
end

