-- ==== Sys2Proof/Machine/BoolDecoder.lean ====
section
/-!
DEFINITION. The boolean decoder (45_bool_decoder): the bit skip, the unpacking of bytes to bits, and the three commands of
a `BOOL_DEC` instance.
-/

namespace Sys2Proof.Machine

namespace BoolDec

/-- `ByteNext` into `n` internal bytes without a null mask (R231, R232): the bytes delivered. -/
def fetchBytes (n : Nat) (d : Dec) : Proc Dec (List Byte) :=
  match byteNext (fun _ => false) n d with
  | .ok _ r => .ok (r.out.map Prod.snd) r.dec
  | .raised e r => .raised e r.dec
  | .stuck f => .stuck f

/-- Part (c) of the bit skip (R231): a sub-byte tail of `t` bits. -/
def skipTail (t : Nat) (u : Dec × BoolDecRegs) : Proc (Dec × BoolDecRegs) Unit :=
  if t > 0 then
    ((fetchBytes 1 u.1).embed fun d => (d, u.2)).bind fun bs u' =>
      .ok () (u'.1, { remainingBits := BitVec.ofNat 4 (8 - t), reversedLastByte := reverse8 (bs.headD 0) })
  else .ok () u

/-- `BoolSkipPending()` (R231). -/
def skipPending (u : Dec × BoolDecRegs) : Proc (Dec × BoolDecRegs) Unit :=
  let n := u.1.regs.pendingSkip.toNat
  let d : Dec := { u.1 with regs := { u.1.regs with pendingSkip := 0 } }
  if n ≤ u.2.remainingBits.toNat then
    .ok () (d, { u.2 with remainingBits := u.2.remainingBits - BitVec.ofNat 4 n })
  else
    let n' := n - u.2.remainingBits.toNat
    let b : BoolDecRegs := { u.2 with remainingBits := 0 }
    ((d.skipValues (n' / 8)).embed fun d' => (d', b)).bind fun _ u' => skipTail (n' % 8) u'

/-- Bits `8 - r, 8 - r + 1, …` of `REVERSED_LAST_BYTE` (`n` of them): the next buffered bits (R232; 10_state R39). -/
def bufferedBits (b : BoolDecRegs) (n : Nat) : List Bool :=
  (List.range n).map fun k => b.reversedLastByte.getLsbD (8 - b.remainingBits.toNat + k)

/-- Steps 3 to 6 of R232: the next `nonNulls` logical bits, from the buffered bits and then from `bytesRead` bytes. -/
def takeBits (nonNulls : Nat) (u : Dec × BoolDecRegs) : Proc (Dec × BoolDecRegs) (List Bool) :=
  let r := u.2.remainingBits.toNat
  if r ≥ nonNulls then
    .ok (bufferedBits u.2 nonNulls) (u.1, { u.2 with remainingBits := BitVec.ofNat 4 (r - nonNulls) })
  else
    let bytesRead := ceilDiv (nonNulls - r) 8
    ((fetchBytes bytesRead u.1).embed fun d => (d, u.2)).bind fun bs u' =>
      let rev := bs.map reverse8
      .ok (bufferedBits u.2 r ++ (List.range (nonNulls - r)).map fun k => bitOf rev k)
        (u'.1,
          { remainingBits := BitVec.ofNat 4 (bytesRead * 8 + r - nonNulls)
            reversedLastByte := rev.getLastD 0 })

/-- The bytes that `BOOLDEC.NEXT` delivers (R232): the bits of the stream scattered over the non-null positions, 0 at the
null ones and past `numValues`. -/
def nextBytes (isNull : Nat → Bool) (numValues nonNulls : Nat) (u : Dec × BoolDecRegs) :
    Proc (Dec × BoolDecRegs) (List Byte) :=
  (skipPending u).bind fun _ u1 =>
    if nonNulls = 0 then .ok (List.replicate (ceilDiv numValues 8) 0) u1
    else
      (takeBits nonNulls u1).yielding fun compact =>
        packBits (ceilDiv numValues 8) (scatterBits isNull numValues (8 * ceilDiv numValues 8) 0 compact)

/-- The size of the output buffer: whole 64-bit lanes (20_memory R55). -/
def laneBytes (numValues : Nat) : Nat := 8 * ceilDiv numValues 64

/-- The output of `BOOLDEC.NEXT` in caller memory: the defined bytes, and free bytes in the padding after them (R236). -/
def deliver (sh : Shared) (data : Addr) (numValues : Nat) (bytes : List Byte) : Shared :=
  let pad := laneBytes numValues - ceilDiv numValues 8
  { sh with
    mem :=
      (sh.mem.writeAt data ((List.range bytes.length).zip bytes)).writeAt data
        (freeWrites sh.freeCount (ceilDiv numValues 8) pad)
    freeCount := sh.freeCount + pad }

/-- The output buffer after a failed `BOOLDEC.NEXT`: free bytes throughout (60_exceptions R268; I4). -/
def spoil (sh : Shared) (data : Addr) (numValues : Nat) : Shared :=
  { sh with
    mem := sh.mem.writeAt data (freeWrites sh.freeCount 0 (laneBytes numValues))
    freeCount := sh.freeCount + laneBytes numValues }

end BoolDec

/-- `numValues` without a mask, else the count of non-null positions (R232, step 1). -/
def nonNullCount (sh : Shared) (numValues : Nat) (nulls : Option Addr) : Nat :=
  match nulls with
  | none => numValues
  | some base => countNonNulls (isNull sh (some base)) numValues

/-- `BOOLDEC.NEXT` (R232). -/
def execBooldecNext (data : Addr) (numValues : Count) (nulls : Option Addr) (s : State) :
    Host.Outcome State Fault Refusal :=
  onBoolDec s fun u sh =>
    if data % 8 ≠ 0 then .stuck .outputMisaligned
    else
      match outputFault sh data (BoolDec.laneBytes numValues.toNat) numValues.toNat nulls with
      | some f => .stuck f
      | none =>
        match BoolDec.nextBytes (isNull sh nulls) numValues.toNat (nonNullCount sh numValues.toNat nulls) u with
        | .ok bytes u' => .ok 0 (u', BoolDec.deliver sh data numValues.toNat bytes)
        | .raised r u' => .raised r (u', BoolDec.spoil sh data numValues.toNat)
        | .stuck f => .stuck f

/-- `BOOLDEC.SKIP` (R233), counted in bits. -/
def execBooldecSkip (n : Count) (s : State) : Host.Outcome State Fault Refusal :=
  onBoolDec s fun u sh => ((u.1.addSkip n).embed fun d => ((d, u.2), sh)).yielding fun _ => 0

/-- The last five lines of `BOOLDEC.SEEK` (R234): the bit coordinate, checked and fused with the byte skip. -/
def BoolDec.fuse (provider : Handle) (d : Dec) (b : BoolDecRegs) (sh : Shared) :
    Proc ((Dec × BoolDecRegs) × Shared) Unit :=
  match sh.provNext provider with
  | (none, sh') => .raised { kind := .badPosition, text := "provider exhausted" } ((d, b), sh')
  | (some c, sh') =>
    if c.toNat > 8 then .raised { kind := .badPosition, text := "bit offset > 8" } ((d, b), sh')
    else if 8 * d.regs.pendingSkip.toNat + c.toNat ≥ 2 ^ 64 then
      .raised { kind := .overflow, text := "pending skip" } ((d, b), sh')
    else
      .ok ()
        (({ d with regs := { d.regs with pendingSkip := BitVec.ofNat 64 (8 * d.regs.pendingSkip.toNat + c.toNat) } },
          { b with remainingBits := 0 }), sh')

/-- `BOOLDEC.SEEK` (R234). -/
def execBooldecSeek (provider : Handle) (s : State) : Host.Outcome State Fault Refusal :=
  onBoolDec s fun u sh =>
    (((u.1.seek provider sh).embed fun ds => ((ds.1, u.2), ds.2)).bind fun _ us =>
      BoolDec.fuse provider us.1.1 us.1.2 us.2).yielding fun _ => 0

end Sys2Proof.Machine
end

