-- ==== Sys2Proof/Machine/ByteEncoder.lean ====
section
/-!
DEFINITION. The byte run-length encoder (41_byte_encoder): emission to the sink, run detection, and the six commands of a
`BYTE_ENC` instance. The procedures also serve the inner byte encoder of a `BOOL_ENC` instance.
-/

namespace Sys2Proof.Machine

namespace Enc

/-- The last two lines of `EmitByte` (R101). -/
def place (e : Enc) (b : Byte) : Enc :=
  { regs := { e.regs with bufPos := e.regs.bufPos + 1 }, sink := e.sink.put e.regs.bufPos b }

/-- `EmitByte(b)` (R101): a window is requested when a byte needs one and none has room; a refusal or an empty grant is
`IoFailure`, and then no byte is placed. -/
def emitByte (e : Enc) (b : Byte) : Proc Enc Unit :=
  if e.regs.bufPos = e.regs.bufLen then
    match e.sink.next with
    | (none, sink) => .raised { kind := .ioFailure, text := "sink next" } { e with sink := sink }
    | (some len, sink) =>
      if len = 0 then .raised { kind := .ioFailure, text := "sink next" } { e with sink := sink }
      else .ok () (place { regs := { e.regs with bufLen := len, bufPos := 0 }, sink := sink } b)
  else .ok () (e.place b)

/-- `EmitByte` for each byte in order. -/
def emitBytes (e : Enc) : List Byte → Proc Enc Unit
  | [] => .ok () e
  | b :: bs => (e.emitByte b).bind fun _ e' => emitBytes e' bs

/-- `WriteValues()` (R102): the staged segment is emitted and the stage emptied; nothing staged emits nothing (90_conflicts C2). -/
def writeValues (e : Enc) : Proc Enc Unit :=
  if e.regs.numLiterals = 0 then .ok () e
  else
    (e.emitBytes e.regs.segment).bind fun _ e' => .ok () { e' with regs := e'.regs.clearStage }

/-- Case *Start* (R104). -/
def startCase (e : Enc) (v : Byte) : Proc Enc Unit := .ok () { e with regs := e.regs.startStage v }

/-- Case *Extend repeat* (R105). -/
def extendCase (e : Enc) : Proc Enc Unit :=
  let e' : Enc := { e with regs := e.regs.withCount (e.regs.numLiterals + 1) }
  if e'.regs.numLiterals.toNat = maxRepeat then e'.writeValues else .ok () e'

/-- Case *Break repeat* (R106). -/
def breakCase (e : Enc) (v : Byte) : Proc Enc Unit :=
  e.writeValues.bind fun _ e' => .ok () { e' with regs := e'.regs.startStage v }

/-- `Promote(v)` (R108). -/
def promote (e : Enc) (v : Byte) : Proc Enc Unit :=
  (if e.regs.numLiterals.toNat + 1 > minRepeat then
      writeValues { e with regs := e.regs.withCount (e.regs.numLiterals - BitVec.ofNat 8 (minRepeat - 1)) }
    else .ok () e).bind fun _ e' => .ok () { e' with regs := e'.regs.startRepeat v }

/-- `Append(v)` (R109). -/
def append (e : Enc) (v : Byte) : Proc Enc Unit :=
  let r := e.regs.setLit e.regs.numLiterals.toNat v
  let e' : Enc := { e with regs := r.withCount (r.numLiterals + 1) }
  if e'.regs.numLiterals.toNat = maxLiteral then e'.writeValues else .ok () e'

/-- Case *Literal* (R107). -/
def literalCase (e : Enc) (v : Byte) : Proc Enc Unit :=
  let e' : Enc := { e with regs := e.regs.bumpTail v }
  if e'.regs.tailRun.toNat = minRepeat then e'.promote v else e'.append v

/-- `Write(v)` (R103): the four cases, tested in this order. -/
def write (e : Enc) (v : Byte) : Proc Enc Unit :=
  if e.regs.numLiterals = 0 then e.startCase v
  else if e.regs.repeating = true then
    if v = e.regs.litAt 0 then e.extendCase else e.breakCase v
  else e.literalCase v

/-- `Write` for each value in order. -/
def writeAll (e : Enc) : List Byte → Proc Enc Unit
  | [] => .ok () e
  | v :: vs => (e.write v).bind fun _ e' => writeAll e' vs

/-- The last four lines of `BENC.FLUSH` (R114): the unused tail goes back, the sink commits, no window is held. -/
def release (e : Enc) : Count × Enc :=
  let answer := (e.sink.backUp (e.regs.bufLen - e.regs.bufPos)).flush
  (answer.1, { regs := { e.regs with bufLen := 0, bufPos := 0 }, sink := answer.2 })

/-- The body of `BENC.FLUSH` (R114). -/
def flush (e : Enc) : Proc Enc Count :=
  e.writeValues.bind fun _ e' => .ok e'.release.1 e'.release.2

/-- The body of `BENC.RECPOS` (R115): the sink's coordinates, then `NUM_LITERALS`. -/
def recordPosition (e : Enc) (recorder : Handle) (stride : Nat) (sh : Shared) : Enc × Shared :=
  let hook := e.sink.pos e.regs.bufLen e.regs.bufPos stride
  ({ e with sink := hook.2 }, sh.record recorder stride (hook.1 ++ [e.regs.numLiterals.setWidth 64]))

/-- `SinkSize()` (R116). -/
def size (e : Enc) : Count × Enc := (e.sink.size.1, { e with sink := e.sink.size.2 })

end Enc

/-- The loop of the callback form of add (R112, R203): at each position `IsNullAt` first, and `ValueAt` and `write` only if
it is not null. `υ` is the unit written to; the result is the count. -/
def addFnLoop {υ : Type} (write : υ → Byte → Proc υ Unit) (valueAt isNullAt : Handle) :
    List Nat → Nat → υ → Shared → Proc (υ × Shared) Nat
  | [], count, u, sh => .ok count (u, sh)
  | i :: is, count, u, sh =>
    ((askNull isNullAt i sh).embed fun sh' => (u, sh')).bind fun null us =>
      if null then addFnLoop write valueAt isNullAt is count us.1 us.2
      else
        ((askValue valueAt i us.2).embed fun sh' => (us.1, sh')).bind fun v us' =>
          ((write us'.1 v).embed fun u' => (u', us'.2)).bind fun _ us'' =>
            addFnLoop write valueAt isNullAt is (count + 1) us''.1 us''.2

/-- `BENC.ADD` (R111): the values at the non-null positions, in order; the result is their number. -/
def execBencAdd (data : Addr) (ranges : List Range) (nulls : Option Addr) (s : State) :
    Host.Outcome State Fault Refusal :=
  onByteEnc s fun e sh =>
    if addBuffersOwned sh data ranges nulls then
      let vs := gatherBytes sh data ranges nulls
      ((e.writeAll vs).embed fun e' => (e', sh)).yielding fun _ => countBits vs.length
    else .stuck .bufferOutside

/-- `BENC.ADD_FN` (R112). -/
def execBencAddFn (valueAt isNullAt : Handle) (ranges : List Range) (s : State) : Host.Outcome State Fault Refusal :=
  onByteEnc s fun e sh =>
    (addFnLoop Enc.write valueAt isNullAt (positions ranges) 0 e sh).yielding countBits

/-- `BENC.ADD_BITS` (R113): always `Unsupported`; no operand is read. -/
def execBencAddBits (_data : Addr) (_ranges : List Range) (_nulls : Option Addr) (_invert : Bool) (s : State) :
    Host.Outcome State Fault Refusal :=
  onByteEnc s fun e sh => .raised { kind := .unsupported, text := "addBits on byte encoder" } (e, sh)

/-- `BENC.FLUSH` (R114). -/
def execBencFlush (s : State) : Host.Outcome State Fault Refusal :=
  onByteEnc s fun e sh => e.flush.embed fun e' => (e', sh)

/-- `BENC.RECPOS` (R115). Nothing bounds `stride` here: a tag wider than `STRIDE_W` is no operand of a command (00_scope R8), and
is recorded as it is (log 38). -/
def execBencRecpos (recorder : Handle) (stride : Nat) (s : State) : Host.Outcome State Fault Refusal :=
  onByteEnc s fun e sh => .ok 0 (e.recordPosition recorder stride sh)

/-- `BENC.GETSIZE` (R116). -/
def execBencGetsize (s : State) : Host.Outcome State Fault Refusal :=
  onByteEnc s fun e sh => .ok e.size.1 (e.size.2, sh)

end Sys2Proof.Machine
end

