-- ==== Sys2Proof/Machine/BoolEncoder.lean ====
section
/-!
DEFINITION. The boolean encoder (44_bool_encoder): bit packing on top of the byte encoder, and the six commands of a
`BOOL_ENC` instance.
-/

namespace Sys2Proof.Machine

namespace BoolEnc

/-- The registers after one more boolean (R201, first two lines): `BITS_REMAINED` falls by one and `b` goes to that bit of
`CURRENT`. -/
def pack (b : BoolEncRegs) (v : Bool) : BoolEncRegs :=
  { bitsRemained := b.bitsRemained - 1
    current := b.current ||| ((BitVec.ofBool v).setWidth 8 <<< (b.bitsRemained - 1).toNat) }

/-- `WriteBool(b)` (R201). -/
def writeBool (u : Enc × BoolEncRegs) (v : Bool) : Proc (Enc × BoolEncRegs) Unit :=
  let b := pack u.2 v
  if b.bitsRemained = 0 then
    ((u.1.write b.current).embed fun e => (e, b)).bind fun _ u' => .ok () (u'.1, { bitsRemained := 8, current := 0 })
  else .ok () (u.1, b)

/-- A byte read as a boolean, "non-zero = true" (R202, R203). -/
def writeByteAsBool (u : Enc × BoolEncRegs) (v : Byte) : Proc (Enc × BoolEncRegs) Unit :=
  writeBool u (v != 0)

/-- `WriteBool` for each boolean in order. -/
def writeBools (u : Enc × BoolEncRegs) : List Bool → Proc (Enc × BoolEncRegs) Unit
  | [] => .ok () u
  | v :: vs => (writeBool u v).bind fun _ u' => writeBools u' vs

/-- The partial byte of R205, padded with zeros. -/
def flushBits (u : Enc × BoolEncRegs) : Proc (Enc × BoolEncRegs) Unit :=
  if u.2.bitsRemained.toNat < 8 then
    ((u.1.write u.2.current).embed fun e => (e, u.2)).bind fun _ u' => .ok () (u'.1, { bitsRemained := 8, current := 0 })
  else .ok () u

/-- The body of `BOOLENC.FLUSH` (R205). -/
def flush (u : Enc × BoolEncRegs) : Proc (Enc × BoolEncRegs) Count :=
  (flushBits u).bind fun _ u' => u'.1.flush.embed fun e => (e, u'.2)

/-- The bit offset inside the current byte, `8 - BITS_REMAINED` (R206). -/
def bitOffset (b : BoolEncRegs) : Count := 8 - b.bitsRemained.setWidth 64

end BoolEnc

/-- `BOOLENC.ADD` (R202). -/
def execBoolencAdd (data : Addr) (ranges : List Range) (nulls : Option Addr) (s : State) :
    Host.Outcome State Fault Refusal :=
  onBoolEnc s fun u sh =>
    if addBuffersOwned sh data ranges nulls then
      let vs := (gatherBytes sh data ranges nulls).map fun v => v != 0
      ((BoolEnc.writeBools u vs).embed fun u' => (u', sh)).yielding fun _ => countBits vs.length
    else .stuck .bufferOutside

/-- `BOOLENC.ADD_FN` (R203). -/
def execBoolencAddFn (valueAt isNullAt : Handle) (ranges : List Range) (s : State) : Host.Outcome State Fault Refusal :=
  onBoolEnc s fun u sh =>
    (addFnLoop BoolEnc.writeByteAsBool valueAt isNullAt (positions ranges) 0 u sh).yielding countBits

/-- `BOOLENC.ADD_BITS` (R204). -/
def execBoolencAddBits (data : Addr) (ranges : List Range) (nulls : Option Addr) (invert : Bool) (s : State) :
    Host.Outcome State Fault Refusal :=
  onBoolEnc s fun u sh =>
    if addBitsBuffersOwned sh data ranges nulls then
      let vs := gatherBits sh data ranges nulls invert
      ((BoolEnc.writeBools u vs).embed fun u' => (u', sh)).yielding fun _ => countBits vs.length
    else .stuck .bufferOutside

/-- `BOOLENC.FLUSH` (R205). -/
def execBoolencFlush (s : State) : Host.Outcome State Fault Refusal :=
  onBoolEnc s fun u sh => (BoolEnc.flush u).embed fun u' => (u', sh)

/-- `BOOLENC.RECPOS` (R206): the coordinates of the inner byte encoder, then the bit offset. A tag wider than `STRIDE_W` is no
operand of a command (00_scope R8), and is recorded as it is (log 38). -/
def execBoolencRecpos (recorder : Handle) (stride : Nat) (s : State) : Host.Outcome State Fault Refusal :=
  onBoolEnc s fun u sh =>
    let inner := u.1.recordPosition recorder stride sh
    .ok 0 ((inner.1, u.2), inner.2.record recorder stride [BoolEnc.bitOffset u.2])

/-- `BOOLENC.GETSIZE` (R207). -/
def execBoolencGetsize (s : State) : Host.Outcome State Fault Refusal :=
  onBoolEnc s fun u sh => .ok u.1.size.1 ((u.1.size.2, u.2), sh)

end Sys2Proof.Machine
end

