-- ==== Sys2Proof/Machine/Dispatch.lean ====
section
/-!
DEFINITION. The dispatch: one arm per instruction.
-/

namespace Sys2Proof.Machine

def exec (i : Instr) (s : State) : Host.Outcome State Fault Refusal :=
  match i with
  | .rep k v => Sys2Proof.Machine.execRep k v s
  | .lit m payload => Sys2Proof.Machine.execLit m payload s
  | .bencAdd data ranges nulls => Sys2Proof.Machine.execBencAdd data ranges nulls s
  | .bencAddFn valueAt isNullAt ranges => Sys2Proof.Machine.execBencAddFn valueAt isNullAt ranges s
  | .bencAddBits data ranges nulls invert => Sys2Proof.Machine.execBencAddBits data ranges nulls invert s
  | .bencFlush => Sys2Proof.Machine.execBencFlush s
  | .bencRecpos recorder stride => Sys2Proof.Machine.execBencRecpos recorder stride s
  | .bencGetsize => Sys2Proof.Machine.execBencGetsize s
  | .boolencAdd data ranges nulls => Sys2Proof.Machine.execBoolencAdd data ranges nulls s
  | .boolencAddFn valueAt isNullAt ranges => Sys2Proof.Machine.execBoolencAddFn valueAt isNullAt ranges s
  | .boolencAddBits data ranges nulls invert => Sys2Proof.Machine.execBoolencAddBits data ranges nulls invert s
  | .boolencFlush => Sys2Proof.Machine.execBoolencFlush s
  | .boolencRecpos recorder stride => Sys2Proof.Machine.execBoolencRecpos recorder stride s
  | .boolencGetsize => Sys2Proof.Machine.execBoolencGetsize s
  | .bdecNext data numValues nulls => Sys2Proof.Machine.execBdecNext data numValues nulls s
  | .bdecSkip n => Sys2Proof.Machine.execBdecSkip n s
  | .bdecSeek provider => Sys2Proof.Machine.execBdecSeek provider s
  | .booldecNext data numValues nulls => Sys2Proof.Machine.execBooldecNext data numValues nulls s
  | .booldecSkip n => Sys2Proof.Machine.execBooldecSkip n s
  | .booldecSeek provider => Sys2Proof.Machine.execBooldecSeek provider s

end Sys2Proof.Machine
end

