-- ==== Sys2Proof/Machine/Step.lean ====
section
/-!
DEFINITION. One step: the oldest of the caller's pending actions is carried out (log 1). A command is decoded, and the
instruction runs on the instance it addresses; a segment is fetched from the stream by the parser of the
decoder it names, and runs there. `withFetchWord` places one instruction so that the next step runs it (log 19).
-/

namespace Sys2Proof.Machine

/-- A command (30_encoding R90 to R94), in the order of 60_exceptions R270: the instance is there and not FAILED, the command
word is known, the instruction runs. -/
def stepCommand (target : Nat) (cmd : Byte) (ops : Operands) (s : State) : Host.Outcome State Fault Refusal :=
  let s' := { s with cur := target }
  match decodeCommand cmd ops with
  | .ok i => exec i s'
  | .error _ => withAddressed s' fun inst => illegalCommand s' inst

/-- The fetch of a segment by the parser of `d` (42_segment_parser R143), and its execution there. The spec has no segment
fetch outside a command; one that raises ends here as a command that raises ends (60_exceptions R268): `STATUS` is set, the
registers are left free, and the response is the error's, with result 0 (log 37). -/
def fetchAndRun (s : State) (inst : Inst) (d : Dec) (wrap : Dec → Codec) : Host.Outcome State Fault Refusal :=
  match d.fetchSegment with
  | .ok i d' =>
    if inst.codec.reenters (wrap d') then .fault .reentrantAgent
    else exec i { s with slots := s.slots.set s.cur (some { inst with codec := wrap d' }) }
  | .raised r d' =>
    if inst.codec.reenters (wrap d') then .fault .reentrantAgent
    else .next (s.raiseError { inst with codec := wrap d' } s.shared r)
  | .stuck f => .fault f

/-- The next segment of a decoder's stream (R140), when its current one is spent (log 16). -/
def stepSegment (target : Nat) (s : State) : Host.Outcome State Fault Refusal :=
  let s' := { s with cur := target }
  withAddressed s' fun inst =>
    match inst.codec with
    | .byteDec d => if d.regs.remainingValues = 0 then fetchAndRun s' inst d .byteDec else .fault .segmentUnspent
    | .boolDec d b =>
      if d.regs.remainingValues = 0 then fetchAndRun s' inst d (fun d' => .boolDec d' b) else .fault .segmentUnspent
    | .byteEnc _ | .boolEnc _ _ => .fault .notADecoder

/-- The caller stores a byte in memory it owns (20_memory R57, R58). -/
def stepCallerWrite (a : Addr) (b : Byte) (s : State) : Host.Outcome State Fault Refusal :=
  if owned s.shared a 1 then .next { s with shared := { s.shared with mem := s.shared.mem.write a b } }
  else .fault .bufferOutside

/-- The caller makes a provider of these coordinates (20_memory R70). -/
def stepCallerProvide (coords : List Count) (s : State) : Host.Outcome State Fault Refusal :=
  .next { s with shared := { s.shared with providers := s.shared.providers ++ [{ coords := coords, cursor := 0 }] } }

/-- One step. With nothing pending the block is idle: "No event outside a command changes its state" (60_exceptions R273; log 22). -/
def step (s : State) : Host.Outcome State Fault Refusal :=
  match s.inbox with
  | [] => .next s
  | .command target cmd ops :: rest => stepCommand target cmd ops { s with inbox := rest }
  | .segment target :: rest => stepSegment target { s with inbox := rest }
  | .construct f :: rest => construct f { s with inbox := rest }
  | .destroy target :: rest => destroy target { s with inbox := rest }
  | .callerWrite a b :: rest => stepCallerWrite a b { s with inbox := rest }
  | .callerProvide coords :: rest => stepCallerProvide coords { s with inbox := rest }

/-! ### Placing one instruction -/

/-- The first slot with a READY instance of a kind, if there is one. -/
def findSlot (k : Kind) (slots : List (Option Inst)) : Option Nat :=
  slots.findIdx? fun slot => slot.any fun i => !i.status.failed && decide (i.codec.kind = k)

/-- A fresh instance of a kind, whose sink or source is number `n`. -/
def freshInst (k : Kind) (n : Nat) : Inst :=
  match k with
  | .byteEnc => (Factory.byteEncoder (Sink.unknown n)).make
  | .boolEnc => (Factory.boolEncoder (Sink.unknown n)).make
  | .byteDec => (Factory.byteDecoder (Source.unknown n) "").make
  | .boolDec => (Factory.boolDecoder (Source.unknown n) "").make

/-- A decoder before the given bytes: its current segment spent, no window held, its source about to hand them over in one
window. -/
def beforeSegment (i : Inst) (bytes : List Byte) : Inst :=
  match i.codec with
  | .byteDec d =>
    { i with
      codec := .byteDec { d with
        regs := d.regs.invalidate
        src := { d.src with
          stream := bytes
          cursor := 0
          script := [some (BitVec.allOnes 64)] } } }
  | .byteEnc _ | .boolEnc _ _ | .boolDec _ _ => i

namespace State

/-- A state that has a READY instance of kind `k`, and its slot. -/
def withInst (s : State) (k : Kind) : Nat × State :=
  match findSlot k s.slots with
  | some t => (t, s)
  | none => (s.slots.length, { s with slots := s.slots ++ [some (freshInst k s.slots.length)] })

/-- `s` with the instruction placed where the next step takes its instruction: a command at the head of the inbox, addressed to
an instance of its kind; a segment in the source of a byte decoder, whose parser is asked for it (log 19). -/
def withFetchWord (s : State) (nbits w : Nat) : State :=
  match decodeTableWord nbits w with
  | none => s
  | some i =>
    match encode i, i.kind with
    | .command cmd ops, some k =>
      let ts := s.withInst k
      { ts.2 with inbox := .command ts.1 cmd ops :: ts.2.inbox }
    | .command _ _, none => s
    | .segment bytes, _ =>
      let ts := s.withInst .byteDec
      { ts.2 with
        slots := ts.2.slots.modify ts.1 fun slot => slot.map fun i => beforeSegment i bytes
        inbox := .segment ts.1 :: ts.2.inbox }

end State

end Sys2Proof.Machine
end

