-- ==== Sys2Proof/Safety.lean ====
section
/-!
DEFINITION. What counts as a sound state and a served port, in the terms the claims use: the invariants that the spec
states to hold between commands (10_state R30 to R38; 45_bool_decoder R237), agents that never refuse (20_memory R63,
R68), and the sequence of logical values that a decoder has before it (43_byte_decoder R174).
-/

namespace Sys2Proof.Machine

/-! ### Invariants between commands -/

/-- The stage of an encoder between commands (10_state R30, as corrected by 90_conflicts C1). -/
abbrev EncRegs.StageInv (r : EncRegs) : Prop :=
  if r.repeating then minRepeat ≤ r.numLiterals.toNat ∧ r.numLiterals.toNat ≤ maxRepeat - 1
  else if r.numLiterals.toNat = 0 then r.tailRun = 0
  else
    r.numLiterals.toNat ≤ maxLiteral - 1 ∧ 1 ≤ r.tailRun.toNat ∧ r.tailRun.toNat ≤ minRepeat - 1 ∧
      r.tailRun.toNat ≤ r.numLiterals.toNat ∧
      (r.tailRun.toNat = 2 → r.litAt (r.numLiterals.toNat - 2) = r.litAt (r.numLiterals.toNat - 1)) ∧
      (r.tailRun.toNat < r.numLiterals.toNat →
        r.litAt (r.numLiterals.toNat - 1 - r.tailRun.toNat) ≠ r.litAt (r.numLiterals.toNat - 1))

/-- `BITS_REMAINED` in `1..8`, and the bits of `CURRENT` below it 0 (10_state R31, R32). -/
abbrev BoolEncRegs.Inv (b : BoolEncRegs) : Prop :=
  1 ≤ b.bitsRemained.toNat ∧ b.bitsRemained.toNat ≤ 8 ∧
    ∀ t : Fin 8, t.val < b.bitsRemained.toNat → b.current.getLsbD t.val = false

/-- `REMAINING_VALUES` in `0..130`, `WIN_POS` inside the window (10_state R33, R35), whose length has `WIN_W` bits. -/
abbrev DecRegs.Inv (r : DecRegs) : Prop :=
  r.remainingValues.toNat ≤ maxRepeat ∧ r.winPos.toNat ≤ r.win.length ∧ r.win.length < 2 ^ 64

/-- `REMAINING_BITS` in `0..7` (10_state R38; 45_bool_decoder R237). -/
abbrev BoolDecRegs.Inv (b : BoolDecRegs) : Prop := b.remainingBits.toNat ≤ 7

/-- The encoder's window is the end of the sink's stream (20_memory R59): it is the last grant, or none is held. -/
abbrev Enc.Coherent (e : Enc) : Prop :=
  e.regs.bufPos.toNat ≤ e.regs.bufLen.toNat ∧
    (e.regs.bufLen.toNat = 0 ∨ e.sink.winStart + e.regs.bufLen.toNat = e.sink.stream.length)

/-- An encoder between commands: its stage and its window. -/
abbrev Enc.Inv (e : Enc) : Prop := e.regs.StageInv ∧ e.Coherent

/-- The registers of an instance between commands. -/
abbrev Codec.Inv (c : Codec) : Prop :=
  match c with
  | .byteEnc e => e.Inv
  | .boolEnc e b => e.Inv ∧ b.Inv
  | .byteDec d => d.regs.Inv
  | .boolDec d b => d.regs.Inv ∧ b.Inv

/-- A code of 60_exceptions R261 stands in `STATUS.ERR`, a fatal one if the instance is FAILED (R268). -/
abbrev Status.Inv (s : Status) : Prop :=
  s.err.toNat ≤ 6 ∧ (s.failed = true → s.err.toNat = 2 ∨ s.err.toNat = 3 ∨ s.err.toNat = 4 ∨ s.err.toNat = 6)

/-- An instance between commands: a READY one meets its invariants; of a FAILED one only `STATUS` is specified (R268). -/
abbrev Inst.Inv (i : Inst) : Prop := i.status.Inv ∧ (i.status.failed = false → i.codec.Inv)

/-- Caller memory keeps its canonical form, and every living instance its invariants. -/
def State.Inv (s : State) : Prop :=
  s.shared.mem.wf = true ∧ ∀ inst : Inst, some inst ∈ s.slots → inst.Inv

/-- The running command addresses this instance, and it is READY (10_state R23). -/
abbrev State.Ready (s : State) (inst : Inst) : Prop := s.addressed = some inst ∧ inst.status.failed = false

/-- The stage registers are the same, whatever the windows (41_byte_encoder R110). -/
abbrev EncRegs.SameStage (r r' : EncRegs) : Prop :=
  r'.lit = r.lit ∧ r'.numLiterals = r.numLiterals ∧ r'.repeating = r.repeating ∧ r'.tailRun = r.tailRun

/-- The questions that the callback form asks about position `i` when the accessor answers `g` (41_byte_encoder R112). -/
def questions (valueAt isNullAt : Handle) (g : Nat → Bool) (i : Nat) : List AccessorCall :=
  if g i then [.isNullAt isNullAt i] else [.isNullAt isNullAt i, .valueAt valueAt i]

/-- The accessors of these handles return at every one of these positions (20_memory R71; 60_exceptions R272 items 4 and 8). -/
abbrev Shared.AccessorsReturn (sh : Shared) (valueAt isNullAt : Handle) (ps : List Nat) : Prop :=
  ∀ i ∈ ps,
    (sh.nullFns[isNullAt]?.bind fun a => a.answer i) ≠ some .reenters ∧
    (sh.nullFns[isNullAt]?.bind fun a => a.answer i) ≠ some .diverges ∧
    (sh.valueFns[valueAt]?.bind fun a => a.answer i) ≠ some .reenters ∧
    (sh.valueFns[valueAt]?.bind fun a => a.answer i) ≠ some .diverges

/-! ### What an instance is for life (10_state R22, R24; 70_reset R291) -/

/-- The read-only part of an instance: its kind, its sink or source, and what comes with a source. -/
structure Binding where
  kind : Kind
  sink : Option Nat
  source : Option Nat
  key : Option String
  sourceName : Option String
  sourceStream : Option (List Byte)
deriving DecidableEq, Repr

/-- The read-only part of an instance. -/
def Inst.binding (i : Inst) : Binding :=
  match i.codec with
  | .byteEnc e | .boolEnc e _ =>
    { kind := i.codec.kind, sink := some e.sink.ident, source := none, key := none, sourceName := none, sourceStream := none }
  | .byteDec d | .boolDec d _ =>
    { kind := i.codec.kind, sink := none, source := some d.src.ident, key := some d.key, sourceName := some d.src.name,
      sourceStream := some d.src.stream }

/-! ### The sink's stream (20_memory R59, R61) -/

/-- The sink's stream without the part of the window that is not filled. -/
def Enc.written (e : Enc) : List (Option Byte) :=
  e.sink.stream.take (e.sink.stream.length - (e.regs.bufLen.toNat - e.regs.bufPos.toNat))

/-- A sink that leaves its own encoder alone, never refuses and never grants an empty window: the reference sink, after any such
script. -/
abbrev Sink.Serves (s : Sink) : Prop :=
  s.reentersAt = none ∧ (∀ a ∈ s.script, a ≠ none ∧ a ≠ some 0) ∧ ∃ w : Count, w ≠ 0 ∧ s.model = .reference w

/-- An encoder as an instance's: a byte encoder, or the inner one of a boolean encoder (10_state R21). -/
def Codec.ofEnc (e : Enc) : Option BoolEncRegs → Codec
  | none => .byteEnc e
  | some b => .boolEnc e b

/-! ### The stream before a decoder (10_state R37; 43_byte_decoder R174) -/

/-- A source that leaves its own decoder alone and fails only at the end of its stream: the reference source, after any such
script. -/
abbrev Source.Serves (s : Source) : Prop :=
  s.reentersAt = none ∧ (∀ a ∈ s.script, a ≠ none ∧ a ≠ some 0) ∧ ∃ w : Count, w ≠ 0 ∧ s.model = .reference w

/-- The values that the segments of a stream stand for, as far as the stream goes (30_encoding R80 to R83); `fuel`
bounds the segments. -/
def segmentValues : Nat → List Byte → List Byte
  | 0, _ => []
  | _ + 1, [] => []
  | fuel + 1, h :: rest =>
    match decodeHeader h with
    | .repeats k =>
      match rest with
      | [] => []
      | v :: rest' => List.replicate (repeatCount k) v ++ segmentValues fuel rest'
    | .literal m => rest.take (literalCount m) ++ segmentValues fuel (rest.drop (literalCount m))

/-- The values that a stream stands for from its first header on. -/
def streamValues (bs : List Byte) : List Byte := segmentValues bs.length bs

/-- The registers and the stream that R149 speaks of are the same, whatever the windows and the sources' draws. -/
abbrev Dec.SameView (d d' : Dec) : Prop :=
  d'.regs.remainingValues = d.regs.remainingValues ∧ d'.regs.repeating = d.regs.repeating ∧ d'.regs.value = d.regs.value ∧
    d'.regs.pendingSkip = d.regs.pendingSkip ∧ d'.upcoming = d.upcoming

/-- A decoder's registers as an instance's: a byte decoder's, or the inner ones of a boolean decoder (10_state R21). -/
def Codec.ofDec (d : Dec) : Option BoolDecRegs → Codec
  | none => .byteDec d
  | some b => .boolDec d b

end Sys2Proof.Machine

namespace Sys2Proof

/-! ### Transactions on a sink's port (20_memory R60, R61) -/

/-- A request for a window that the sink refuses, or answers with an empty one (R60). -/
abbrev SinkEvent.Refusal (ev : SinkEvent) : Prop := ev = .next none ∨ ev = .next (some 0)

/-- A byte placed, or a window granted (R60, R61). -/
abbrev SinkEvent.Emission (ev : SinkEvent) : Prop := (∃ p b, ev = .put p b) ∨ ∃ len : Count, len ≠ 0 ∧ ev = .next (some len)

/-- The byte that a transaction places (R61). -/
def SinkEvent.byte? : SinkEvent → Option Byte
  | .put _ b => some b
  | .next _ | .backUp _ | .size _ | .flush _ | .pos _ _ _ _ => none

/-! ### Segments -/

/-- The payload bytes of a fetched segment that are still in the stream: a literal's (42_segment_parser R143; log 17). -/
def Instr.owed : Instr → List Byte
  | .lit _ payload => payload
  | .rep _ _ | .bencAdd _ _ _ | .bencAddFn _ _ _ | .bencAddBits _ _ _ _ | .bencFlush | .bencRecpos _ _
  | .bencGetsize | .boolencAdd _ _ _ | .boolencAddFn _ _ _ | .boolencAddBits _ _ _ _
  | .boolencFlush | .boolencRecpos _ _ | .boolencGetsize | .bdecNext _ _ _ | .bdecSkip _
  | .bdecSeek _ | .booldecNext _ _ _ | .booldecSkip _ | .booldecSeek _ => []

/-- The bytes of a segment on the wire; a command has none. -/
def Instr.segmentBytes (i : Instr) : List Byte :=
  match encode i with
  | .segment bytes => bytes
  | .command _ _ => []

end Sys2Proof

namespace Sys2Proof.Machine

/-- `L` of R174: the logical values from the decoder's current position, the rest of the current segment first. -/
def Dec.logical (d : Dec) : List Byte :=
  if d.regs.repeating then
    List.replicate d.regs.remainingValues.toNat d.regs.value ++ streamValues d.upcoming
  else
    d.upcoming.take d.regs.remainingValues.toNat ++ streamValues (d.upcoming.drop d.regs.remainingValues.toNat)

/-- The logical bits of a byte sequence, MSB first (45_bool_decoder R230). -/
def msbBits (bs : List Byte) : List Bool :=
  bs.flatMap fun b => (List.range 8).map fun t => b.getLsbD (7 - t)

/-- The bits pending in `CURRENT`, the first one written at bit 7 (10_state R32). -/
def BoolEnc.pendingBits (b : BoolEncRegs) : List Bool :=
  (List.range (8 - b.bitsRemained.toNat)).map fun t => b.current.getLsbD (7 - t)

/-- `β` of R235: the logical bits from the boolean decoder's current position, the buffered ones first (10_state R39). -/
def BoolDec.logicalBits (d : Dec) (b : BoolDecRegs) : List Bool :=
  BoolDec.bufferedBits b b.remainingBits.toNat ++ msbBits d.logical

/-- The non-null positions of `[0, n)`, in increasing order (00_scope R15). -/
def nonNullPositions (isNull : Nat → Bool) (n : Nat) : List Nat := (List.range n).filter fun i => !isNull i

end Sys2Proof.Machine
end

