-- ==== Sys2Proof/Certificates/Slice0/Obligations.lean ====
section
/-!
DEFINITION. The statements for the provers, family by family: encodings, steps, the byte encoder, the boolean encoder, the parser
and the byte decoder, the boolean decoder, and the whole machine.
-/

open Sys2Proof Sys2Proof.Machine

/-! ### Encodings (30_encoding) -/

/-- Every well-formed instruction is read back from its encoding, with every operand at every value. The encodings of commands
are the spec's decision D3. -/
def Obligations.DecodeOfEncodeIsTheInstruction : Prop :=
  ∀ (p : Params) (i : Instr), i.WellFormed p → decode (encode i) = .ok i

/-- What decodes is the encoding of what it decodes to: a segment byte for byte, a command word with the fields that it reads
(R92: "a field a command does not read is ignored"). The command interface is the spec's decision D3. -/
def Obligations.EncodeOfDecodeIsTheCode : Prop :=
  (∀ (bytes : List Byte) (i : Instr), decode (.segment bytes) = .ok i → encode i = .segment bytes) ∧
    ∀ (cmd : Byte) (ops : Operands) (i : Instr), decode (.command cmd ops) = .ok i → encode i = .command cmd i.operands

/-- R82, R83: the header alone decides the segment's kind, its length and the values it stands for. The arithmetic of R83 is
marked as derived from R81 in the spec. -/
def Obligations.HeaderDecidesTheSegment : Prop :=
  ∀ h : Byte,
    (h.toNat ≤ 0x7F → ∀ (v : Byte) (rest : List Byte), ∃ i,
      decodeSegment (h :: v :: rest) = .ok (i, rest) ∧ i.values = List.replicate (h.toNat + 3) v) ∧
    (0x80 ≤ h.toNat → ∀ payload rest : List Byte, payload.length = 256 - h.toNat → ∃ i,
      decodeSegment (h :: (payload ++ rest)) = .ok (i, rest) ∧ i.values = payload)

/-- R91: the command codes, and that there is no other. The command codes are the spec's decision D3. -/
def Obligations.CommandCodesAreComplete : Prop :=
  ∀ ops : Operands,
    decodeCommand 0x11 ops = .ok (.bencAdd ops.data ops.ranges ops.nulls) ∧
    decodeCommand 0x12 ops = .ok (.bencAddFn ops.valueAt ops.isNullAt ops.ranges) ∧
    decodeCommand 0x13 ops = .ok (.bencAddBits ops.data ops.ranges ops.nulls ops.invert) ∧
    decodeCommand 0x14 ops = .ok .bencFlush ∧
    decodeCommand 0x15 ops = .ok (.bencRecpos ops.recorder ops.stride) ∧
    decodeCommand 0x16 ops = .ok .bencGetsize ∧
    decodeCommand 0x21 ops = .ok (.boolencAdd ops.data ops.ranges ops.nulls) ∧
    decodeCommand 0x22 ops = .ok (.boolencAddFn ops.valueAt ops.isNullAt ops.ranges) ∧
    decodeCommand 0x23 ops = .ok (.boolencAddBits ops.data ops.ranges ops.nulls ops.invert) ∧
    decodeCommand 0x24 ops = .ok .boolencFlush ∧
    decodeCommand 0x25 ops = .ok (.boolencRecpos ops.recorder ops.stride) ∧
    decodeCommand 0x26 ops = .ok .boolencGetsize ∧
    decodeCommand 0x31 ops = .ok (.bdecNext ops.data ops.numValues ops.nulls) ∧
    decodeCommand 0x32 ops = .ok (.bdecSkip ops.n) ∧
    decodeCommand 0x33 ops = .ok (.bdecSeek ops.provider) ∧
    decodeCommand 0x41 ops = .ok (.booldecNext ops.data ops.numValues ops.nulls) ∧
    decodeCommand 0x42 ops = .ok (.booldecSkip ops.n) ∧
    decodeCommand 0x43 ops = .ok (.booldecSeek ops.provider) ∧
    ∀ (cmd : Byte) (i : Instr), decodeCommand cmd ops = .ok i →
      cmd.toNat ∈ [0x11, 0x12, 0x13, 0x14, 0x15, 0x16, 0x21, 0x22, 0x23, 0x24, 0x25, 0x26, 0x31, 0x32, 0x33, 0x41, 0x42, 0x43]

/-- A few words of the two families of segments and the four of commands, written out from R81 to R83 and R91. The command
codes are the spec's decision D3. -/
def Obligations.SampleWordsDecodeAsTheSpecSays : Prop :=
  decode (.segment [0x02, 0x41]) = .ok (.rep 2 0x41) ∧
    decode (.segment [0xFE, 0x42, 0x43]) = .ok (.lit 126 [0x42, 0x43]) ∧
    decode (.segment [0xFF, 0x07]) = .ok (.lit 127 [0x07]) ∧
    decode (.command 0x14 Operands.zero) = .ok .bencFlush ∧
    decode (.command 0x26 Operands.zero) = .ok .boolencGetsize ∧
    decode (.command 0x32 Operands.zero) = .ok (.bdecSkip 0) ∧
    decode (.command 0x43 Operands.zero) = .ok (.booldecSeek 0)

/-- R80: the bytes of segments one after another are read back as those segments. -/
def Obligations.StreamIsAConcatenationOfSegments : Prop :=
  ∀ (p : Params) (is : List Instr), (∀ i ∈ is, i.kind = none ∧ i.WellFormed p) →
    decodeSegments (is.flatMap Instr.segmentBytes).length (is.flatMap Instr.segmentBytes) = .ok is ∧
      decodeStream (is.flatMap Instr.segmentBytes) = .ok (is.flatMap Instr.values)

/-- R86: the only malformed stream is a truncated one, which further bytes complete. R86 is marked as derived in the spec. -/
def Obligations.OnlyTruncationIsMalformed : Prop :=
  ∀ bs : List Byte,
    (∃ vs, decodeStream bs = .ok vs) ∨
      decodeStream bs = .error .truncated ∧ ∃ more vs, decodeStream (bs ++ more) = .ok vs

/-- The logical values of R174, as Safety defines them, are those of the decoder, on every complete stream. -/
def Obligations.LogicalValuesAreTheDecodedValues : Prop :=
  ∀ bs vs : List Byte, decodeStream bs = .ok vs → streamValues bs = vs

/-! ### Steps -/

/-- A step runs the command at the head of the inbox, on the instance it addresses. The inbox is the model's (log 1). -/
def Obligations.StepRunsTheDecodedCommand : Prop :=
  ∀ (s : State) (target : Nat) (cmd : Byte) (ops : Operands) (rest : List Input) (i : Instr),
    s.inbox = .command target cmd ops :: rest → decode (.command cmd ops) = .ok i →
      step s = exec i { s with cur := target, inbox := rest }

/-- A step runs the segment that the decoder's stream has next: the header, and a repeat's payload byte, have left the stream,
and nothing else has changed but the window (R143; log 16 for the step, log 17 for a literal's payload). The segment step is
the model's (logs 16 and 17). -/
def Obligations.StepRunsTheFetchedSegment : Prop :=
  ∀ (s : State) (target : Nat) (rest : List Input) (inst : Inst) (d : Dec) (b : Option BoolDecRegs) (i : Instr) (more : List Byte),
    s.inbox = .segment target :: rest → s.slots[target]? = some (some inst) → inst.status.failed = false →
    inst.codec = Codec.ofDec d b → d.regs.Inv → d.src.Serves → d.regs.remainingValues = 0 →
    decodeSegment d.upcoming = .ok (i, more) →
      ∃ d' : Dec, d'.upcoming = i.owed ++ more ∧ d'.key = d.key ∧
        d'.regs = { d.regs with win := d'.regs.win, winPos := d'.regs.winPos } ∧
        step s = exec i { s with
          cur := target, inbox := rest, slots := s.slots.set target (some { inst with codec := Codec.ofDec d' b }) }

/-- R266: a command word with another kind's tag, or with no operation of R91, is reported and has no other effect.
IllegalCommand is an addition of the spec (decisions D3 and D35). -/
def Obligations.IllegalCommandIsReportedOnly : Prop :=
  ∀ (s : State) (target : Nat) (cmd : Byte) (ops : Operands) (rest : List Input) (inst : Inst),
    s.inbox = .command target cmd ops :: rest → s.slots[target]? = some (some inst) → inst.status.failed = false →
    (cmd.toNat / 16 ≠ inst.codec.kind.num.toNat + 1 ∨ ∀ i, decodeCommand cmd ops ≠ .ok i) →
      ∃ dg, step s = .next { s with
        cur := target
        inbox := rest
        slots := s.slots.set target (some { inst with status := { inst.status with err := 5 } })
        response := some { status := 5, result := 0, diag := dg } }

/-- R273: with no command and no other action of the caller pending, nothing changes. That such a step is a step at all is log
22. -/
def Obligations.IdleBlockStaysAsItIs : Prop := ∀ s : State, s.inbox = [] → step s = .next s

/-- A byte of caller memory reads as it was last written (R12), and memory keeps its canonical form, which is the model's (log
6). -/
def Obligations.MemoryReadsBackWhatIsWritten : Prop :=
  ∀ (m : Memory) (a b : Addr) (v : Byte), m.wf = true →
    (m.write a v).read b = (if b = a then v else m.read b) ∧ (m.write a v).wf = true

/-! ### The byte encoder (41_byte_encoder) -/

/-- R101: a byte goes to the window, and a window is requested only when a byte needs one. That the request is lazy is the
spec's decision D14. -/
def Obligations.EmitByteRequestsAWindowLazily : Prop :=
  ∀ (e : Enc) (b : Byte),
    (e.regs.bufPos ≠ e.regs.bufLen →
      e.emitByte b = .ok ()
        { regs := { e.regs with bufPos := e.regs.bufPos + 1 }, sink := e.sink.put e.regs.bufPos b }) ∧
    (e.regs.bufPos = e.regs.bufLen → ∀ len : Count, e.sink.next.1 = some len → len ≠ 0 →
      e.emitByte b = .ok () { regs := { e.regs with bufLen := len, bufPos := 1 }, sink := e.sink.next.2.put 0 b }) ∧
    (e.regs.bufPos = e.regs.bufLen → e.sink.next.1 = none ∨ e.sink.next.1 = some 0 →
      e.sink.next.2.stream = e.sink.stream ∧
        ∃ r : Raise, r.kind = .ioFailure ∧ e.emitByte b = .raised r { e with sink := e.sink.next.2 })

/-- R102: nothing staged emits nothing; else the segment of the stage is emitted, header first, and the stage is empty. The
guard on an empty stage is marked as derived in the spec (90_conflicts C2). -/
def Obligations.WriteValuesEmitsTheStage : Prop :=
  ∀ e : Enc, e.Coherent →
    (e.regs.numLiterals = 0 → e.writeValues = .ok () e) ∧
    (e.regs.numLiterals ≠ 0 → e.sink.Serves → ∃ e' : Enc, e.writeValues = .ok () e' ∧
      e'.written = e.written ++
        (if e.regs.repeating then [e.regs.numLiterals - 3, e.regs.litAt 0]
          else (0 - e.regs.numLiterals) :: (List.range e.regs.numLiterals.toNat).map e.regs.litAt).map some ∧
      e'.regs = { e.regs with
        repeating := false, tailRun := 0, numLiterals := 0, bufLen := e'.regs.bufLen, bufPos := e'.regs.bufPos } ∧
      e'.Coherent ∧ e'.sink.Serves) ∧
    ∀ (r : Raise) (e' : Enc), e.writeValues = .raised r e' → r.kind = .ioFailure ∧ e.regs.SameStage e'.regs

/-- R104: the first value of a stage. -/
def Obligations.WriteStartsAStage : Prop :=
  ∀ (e : Enc) (v : Byte), e.regs.numLiterals = 0 →
    e.write v = .ok () { e with regs := { e.regs.setLit 0 v with numLiterals := 1, tailRun := 1 } }

/-- R105: one more copy of the repeated value; the 130th emits the segment. -/
def Obligations.WriteExtendsARepeat : Prop :=
  ∀ (e : Enc) (v : Byte), e.Coherent → e.regs.repeating = true → e.regs.numLiterals ≠ 0 → v = e.regs.litAt 0 →
    (e.regs.numLiterals.toNat < 129 →
      e.write v = .ok () { e with regs := { e.regs with numLiterals := e.regs.numLiterals + 1 } }) ∧
    (e.regs.numLiterals.toNat = 129 → e.sink.Serves → ∃ e' : Enc, e.write v = .ok () e' ∧
      e'.written = e.written ++ [some 0x7F, some v] ∧
      e'.regs = { e.regs with
        repeating := false, tailRun := 0, numLiterals := 0, bufLen := e'.regs.bufLen, bufPos := e'.regs.bufPos }) ∧
    ∀ (r : Raise) (e' : Enc), e.write v = .raised r e' → r.kind = .ioFailure

/-- R106: another value ends the repeat and starts a new stage. -/
def Obligations.WriteBreaksARepeat : Prop :=
  ∀ (e : Enc) (v : Byte), e.Coherent → e.regs.repeating = true → e.regs.numLiterals ≠ 0 → v ≠ e.regs.litAt 0 →
    (e.sink.Serves → ∃ e' : Enc, e.write v = .ok () e' ∧
      e'.written = e.written ++ [some (e.regs.numLiterals - 3), some (e.regs.litAt 0)] ∧
      e'.regs = { e.regs.setLit 0 v with
        repeating := false, tailRun := 1, numLiterals := 1, bufLen := e'.regs.bufLen, bufPos := e'.regs.bufPos }) ∧
    ∀ (r : Raise) (e' : Enc), e.write v = .raised r e' → r.kind = .ioFailure

/-- R108 in the case of R107: the third equal byte in a row emits the bytes before the run, if any, as a literal, and turns
the run into a repeat of three. The case is R107, marked as derived in the spec; that TAIL_RUN keeps 3 or 0 in repeat state is
the model's choice (log 24; 93 I13 leaves any value). -/
def Obligations.WritePromotesARunOfThree : Prop :=
  ∀ (e : Enc) (v : Byte) (k : Nat), e.Inv → e.regs.repeating = false → e.regs.numLiterals.toNat = k + 2 →
    e.regs.tailRun = 2 → v = e.regs.litAt (k + 1) →
    (e.sink.Serves → ∃ e' : Enc, e.write v = .ok () e' ∧
      e'.written = e.written ++ (if k = 0 then [] else BitVec.ofNat 8 (256 - k) :: (List.range k).map e.regs.litAt).map some ∧
      e'.regs = { e.regs.setLit 0 v with
        repeating := true, numLiterals := 3, tailRun := if k = 0 then 3 else 0
        bufLen := e'.regs.bufLen, bufPos := e'.regs.bufPos }) ∧
    ∀ (r : Raise) (e' : Enc), e.write v = .raised r e' → r.kind = .ioFailure

/-- R109 in the case of R107: any other byte of a literal is staged, and the 128th emits the literal. The case, and the tail
run after it, are R107, marked as derived in the spec; R109 is what is then done. -/
def Obligations.WriteAppendsToALiteral : Prop :=
  ∀ (e : Enc) (v : Byte) (n : Nat), e.Inv → e.regs.repeating = false → e.regs.numLiterals.toNat = n + 1 →
    ¬(v = e.regs.litAt n ∧ e.regs.tailRun = 2) →
    (n + 1 < 127 → e.write v = .ok () { e with regs := { e.regs.setLit (n + 1) v with
      numLiterals := e.regs.numLiterals + 1
      tailRun := if v = e.regs.litAt n then e.regs.tailRun + 1 else 1 } }) ∧
    (n + 1 = 127 → e.sink.Serves → ∃ e' : Enc, e.write v = .ok () e' ∧
      e'.written = e.written ++ (0x80#8 :: ((List.range 127).map e.regs.litAt ++ [v])).map some ∧
      e'.regs = { e.regs.setLit 127 v with
        repeating := false, tailRun := 0, numLiterals := 0, bufLen := e'.regs.bufLen, bufPos := e'.regs.bufPos }) ∧
    ∀ (r : Raise) (e' : Enc), e.write v = .raised r e' → r.kind = .ioFailure

/-- R111: `BENC.ADD` completes with the number of non-null values, and what is written and staged stands for them, in order.
The bit order of masks and the form of ranges are the spec's decisions D8 and D9. A result of 2^64 or more is free (log 21).
-/
def Obligations.BencAddWritesTheNonNullBytes : Prop :=
  ∀ (s : State) (inst : Inst) (e : Enc) (data : Addr) (ranges : List Range) (nulls : Option Addr),
    s.Ready inst → inst.codec = .byteEnc e → e.Inv → e.sink.Serves → addBuffersOwned s.shared data ranges nulls = true →
      ∃ (e' : Enc) (bs us : List Byte),
        exec (.bencAdd data ranges nulls) s = .next (s.reply { inst with codec := .byteEnc e' } s.shared
          { status := 0
            result := countBits ((positions ranges).filter fun i => !isNull s.shared nulls i).length
            diag := none }) ∧
        e'.Inv ∧ e'.sink.Serves ∧ e'.written = e.written ++ bs.map some ∧ decodeStream bs = .ok us ∧
        us ++ e'.regs.stagedValues = e.regs.stagedValues ++
          ((positions ranges).filter fun i => !isNull s.shared nulls i).map fun i => s.shared.mem.read (data + i)

/-- R112: `BENC.ADD_FN`, with accessors that return: the same for the values they give, and the questions in their order. The
order of the questions is the spec's decision D10; the tables are log 14's. A result of 2^64 or more is free (log 21). -/
def Obligations.BencAddFnAsksAndWrites : Prop :=
  ∀ (s : State) (inst : Inst) (e : Enc) (valueAt isNullAt : Handle) (ranges : List Range) (f : Nat → Byte) (g : Nat → Bool),
    s.Ready inst → inst.codec = .byteEnc e → e.Inv → e.sink.Serves →
    (∀ i ∈ positions ranges, (s.shared.nullFns[isNullAt]?.bind fun a => a.answer i) = some (.returns (g i))) →
    (∀ i ∈ positions ranges, g i = false → (s.shared.valueFns[valueAt]?.bind fun a => a.answer i) = some (.returns (f i))) →
      ∃ (e' : Enc) (bs us : List Byte),
        exec (.bencAddFn valueAt isNullAt ranges) s = .next (s.reply { inst with codec := .byteEnc e' }
          { s.shared with calls := s.shared.calls ++ (positions ranges).flatMap (questions valueAt isNullAt g) }
          { status := 0, result := countBits ((positions ranges).filter fun i => !g i).length, diag := none }) ∧
        e'.Inv ∧ e'.sink.Serves ∧ e'.written = e.written ++ bs.map some ∧ decodeStream bs = .ok us ∧
        us ++ e'.regs.stagedValues = e.regs.stagedValues ++ ((positions ranges).filter fun i => !g i).map f

/-- R113: `BENC.ADD_BITS` always ends in `Unsupported`, and nothing else changes. The code, and that the instance stays
usable, are the spec's decisions D5 and D35. -/
def Obligations.BencAddBitsIsUnsupported : Prop :=
  ∀ (s : State) (inst : Inst) (e : Enc) (data : Addr) (ranges : List Range) (nulls : Option Addr) (invert : Bool),
    s.Ready inst → inst.codec = .byteEnc e →
      ∃ dg, exec (.bencAddBits data ranges nulls invert) s = .next { s with
        slots := s.slots.set s.cur (some { inst with status := { inst.status with err := 1 } })
        response := some { status := 1, result := 0, diag := dg } }

/-- R114: `BENC.FLUSH` emits the staged segment, gives the window back, and reports the sink's size; `LIT` keeps its bytes.
That FLUSH always backs up and commits is the spec's decision D15. A result of 2^64 or more is free (log 21). -/
def Obligations.BencFlushCompletesTheStream : Prop :=
  ∀ (s : State) (inst : Inst) (e : Enc), s.Ready inst → inst.codec = .byteEnc e → e.Inv → e.sink.Serves →
    ∃ e' : Enc,
      exec .bencFlush s = .next (s.reply { inst with codec := .byteEnc e' } s.shared
        { status := 0, result := countBits e'.sink.stream.length, diag := none }) ∧
      e'.sink.stream = e.written ++
        (if e.regs.numLiterals = 0 then []
          else if e.regs.repeating then [e.regs.numLiterals - 3, e.regs.litAt 0]
          else (0 - e.regs.numLiterals) :: (List.range e.regs.numLiterals.toNat).map e.regs.litAt).map some ∧
      e'.regs = { lit := e.regs.lit, numLiterals := 0, repeating := false, tailRun := 0, bufLen := 0, bufPos := 0 } ∧
      e'.sink.Serves

/-- R115, R206, on a sink that does not re-enter there (log 35): the two `RECPOS` record the sink's coordinates, the staged
count and, for bits, the bit offset; no register changes. A tag that does not fit STRIDE_W is log 38's. The tag of the
coordinates is the spec's decision D39, the hook its parameter SinkPos (D16). -/
def Obligations.RecposRecordsThePosition : Prop :=
  ∀ (s : State) (inst : Inst) (e : Enc) (b : BoolEncRegs) (recorder : Handle) (stride : Nat), s.Ready inst →
    e.sink.reentersAt ≠ some e.sink.log.length →
    (inst.codec = .byteEnc e →
      ∃ e' : Enc, e'.regs = e.regs ∧ e'.sink.stream = e.sink.stream ∧ e'.sink.winStart = e.sink.winStart ∧
        exec (.bencRecpos recorder stride) s = .next (s.reply { inst with codec := .byteEnc e' }
          { s.shared with
            recorded := s.shared.recorded ++
              (e.sink.coords e.regs.bufLen e.regs.bufPos stride ++ [e.regs.numLiterals.setWidth 64]).map
                fun c => { recorder := recorder, coord := c, stride := stride } }
          { status := 0, result := 0, diag := none })) ∧
    (inst.codec = .boolEnc e b → b.Inv →
      ∃ e' : Enc, e'.regs = e.regs ∧ e'.sink.stream = e.sink.stream ∧ e'.sink.winStart = e.sink.winStart ∧
        exec (.boolencRecpos recorder stride) s = .next (s.reply { inst with codec := .boolEnc e' b }
          { s.shared with
            recorded := s.shared.recorded ++
              (e.sink.coords e.regs.bufLen e.regs.bufPos stride ++
                [e.regs.numLiterals.setWidth 64, BitVec.ofNat 64 (8 - b.bitsRemained.toNat)]).map
                fun c => { recorder := recorder, coord := c, stride := stride } }
          { status := 0, result := 0, diag := none }))

/-- R57 (of `GETSIZE`), R116, R207, on a sink that does not re-enter there (log 35): the two `GETSIZE` report what the sink
answers to `SinkSize`, the one transaction they make. That transaction changes the record of the port alone, and no answer of
the sink after it; a second `GETSIZE` reports the same size again. R57 is marked as derived in the spec, and that an open
sink's answers do not depend on SinkSize is log 12's. What getBufferSize is, is the spec's decision D13. A result of 2^64 or
more is free (log 21). -/
def Obligations.GetsizeReportsTheSinkSize : Prop :=
  ∀ (s : State) (inst : Inst) (e : Enc) (b : BoolEncRegs), s.Ready inst → e.sink.reentersAt ≠ some e.sink.log.length →
    (inst.codec = .byteEnc e →
      exec .bencGetsize s = .next (s.reply { inst with codec := .byteEnc { e with sink := e.sink.size.2 } } s.shared
        { status := 0, result := e.sink.size.1, diag := none })) ∧
    (inst.codec = .boolEnc e b →
      exec .boolencGetsize s = .next (s.reply { inst with codec := .boolEnc { e with sink := e.sink.size.2 } b } s.shared
        { status := 0, result := e.sink.size.1, diag := none })) ∧
    (e.sink.reentersAt ≠ some (e.sink.log.length + 1) →
      (inst.codec = .byteEnc e → ∀ t, exec .bencGetsize s = .next t →
        exec .bencGetsize t = .next (t.reply { inst with codec := .byteEnc { e with sink := e.sink.size.2.size.2 } } t.shared
          { status := 0, result := e.sink.size.1, diag := none })) ∧
      (inst.codec = .boolEnc e b → ∀ t, exec .boolencGetsize s = .next t →
        exec .boolencGetsize t = .next (t.reply { inst with codec := .boolEnc { e with sink := e.sink.size.2.size.2 } b } t.shared
          { status := 0, result := e.sink.size.1, diag := none }))) ∧
    e.sink.size.2 = { e.sink with log := e.sink.log ++ [.size e.sink.size.1] } ∧
    e.sink.size.2.answer = e.sink.answer ∧ e.sink.size.2.size.1 = e.sink.size.1 ∧ e.sink.size.2.flush.1 = e.sink.flush.1 ∧
    (∀ bufLen bufPos stride, e.sink.size.2.coords bufLen bufPos stride = e.sink.coords bufLen bufPos stride) ∧
    e.sink.size.2.history = e.sink.history ∧
    ∀ w, e.sink.model = .reference w → e.sink.size.1 = countBits e.sink.stream.length

/-- R111, R114, R202, R263, R268: an encoder's command ends in `IoFailure` exactly when the sink refuses a window that a byte
needs, or grants an empty one. That request is then the last transaction, so the window is neither backed up nor committed;
the instance is FAILED, and the bytes already placed stay in the sink. Where no caller fault occurs, every command of an
encoder ends in a next state; a `FLUSH` on such a sink is shown to end so. Which errors are fatal is the spec's decision D35,
the empty grant D14. -/
def Obligations.RefusedWindowFailsTheFlush : Prop :=
  (∀ (i : Instr) (s t : State) (inst : Inst) (e : Enc) (b : Option BoolEncRegs),
    s.Ready inst → inst.codec = Codec.ofEnc e b → i.kind = some inst.codec.kind → e.Coherent → exec i s = .next t →
      ∃ (resp : Response) (inst' : Inst) (sink : Sink) (events : List SinkEvent),
        t.response = some resp ∧ t.addressed = some inst' ∧ inst'.agent = .sink sink ∧ sink.log = e.sink.log ++ events ∧
        (resp.status = 2 ↔ ∃ ev ∈ events, ev.Refusal) ∧
        (resp.status = 2 → resp.result = 0 ∧ inst'.status = { failed := true, err := 2 } ∧
          ∃ (before : List SinkEvent) (ev : SinkEvent), events = before ++ [ev] ∧ ev.Refusal ∧
            (∀ x ∈ before, x.Emission) ∧ sink.stream = e.written ++ (before.filterMap SinkEvent.byte?).map some)) ∧
  (∀ (i : Instr) (s : State) (inst : Inst) (e : Enc) (b : Option BoolEncRegs),
    s.Ready inst → inst.codec = Codec.ofEnc e b → i.kind = some inst.codec.kind → e.sink.reentersAt = none →
    (∀ data ranges nulls, i = .bencAdd data ranges nulls ∨ i = .boolencAdd data ranges nulls →
      addBuffersOwned s.shared data ranges nulls = true) →
    (∀ data ranges nulls invert, i = .boolencAddBits data ranges nulls invert →
      addBitsBuffersOwned s.shared data ranges nulls = true) →
    (∀ v n ranges, i = .bencAddFn v n ranges ∨ i = .boolencAddFn v n ranges →
      s.shared.AccessorsReturn v n (positions ranges)) →
      ∃ t, exec i s = .next t) ∧
  ∀ (s : State) (inst : Inst) (e : Enc), s.Ready inst → inst.codec = .byteEnc e → e.regs.numLiterals ≠ 0 →
    e.regs.bufPos = e.regs.bufLen → e.sink.answer = none ∨ e.sink.answer = some 0 →
    e.sink.reentersAt ≠ some e.sink.log.length →
      ∃ (t : State) (inst' : Inst) (sink : Sink) (dg : Option Diag),
        exec .bencFlush s = .next t ∧ t.response = some { status := 2, result := 0, diag := dg } ∧
        t.addressed = some inst' ∧ inst'.status = { failed := true, err := 2 } ∧ inst'.agent = .sink sink ∧
        sink.stream = e.sink.stream ∧ sink.log = e.sink.log ++ [.next e.sink.answer] ∧
        t.shared = { s.shared with freeCount := t.shared.freeCount }

/-- The frame of the twelve encoder commands, however they end: caller memory, the parameters, the caller's channels and
accessors and the other instances stay; only `RECPOS` records, and only `ADD_FN` asks. -/
def Obligations.EncoderCommandsFrame : Prop :=
  ∀ (i : Instr) (s t : State), i.kind = some .byteEnc ∨ i.kind = some .boolEnc → exec i s = .next t →
    (∀ a, t.shared.mem.read a = s.shared.mem.read a) ∧
    t.shared = { s.shared with
      recorded := t.shared.recorded, calls := t.shared.calls, freeCount := t.shared.freeCount } ∧
    ((∀ r st, i ≠ .bencRecpos r st ∧ i ≠ .boolencRecpos r st) → t.shared.recorded = s.shared.recorded) ∧
    ((∀ v n rs, i ≠ .bencAddFn v n rs ∧ i ≠ .boolencAddFn v n rs) → t.shared.calls = s.shared.calls) ∧
    s.shared.recorded <+: t.shared.recorded ∧
    (∀ k, k ≠ s.cur → t.slots[k]? = s.slots[k]?) ∧ t.cur = s.cur ∧ t.inbox = s.inbox ∧ t.released = s.released

/-- R110: what is added to an encoder with nothing staged and then flushed decodes to the values added. R110 is marked as
derived in the spec. -/
def Obligations.AddedBytesDecodeAfterFlush : Prop :=
  ∀ (s : State) (inst : Inst) (e : Enc) (data : Addr) (ranges : List Range) (nulls : Option Addr),
    s.Ready inst → inst.codec = .byteEnc e → e.Inv → e.sink.Serves → e.regs.numLiterals = 0 →
    addBuffersOwned s.shared data ranges nulls = true →
      ∃ (t u : State) (e' : Enc) (bs : List Byte),
        exec (.bencAdd data ranges nulls) s = .next t ∧ exec .bencFlush t = .next u ∧
        u.addressed = some { inst with codec := .byteEnc e' } ∧ e'.sink.stream = e.written ++ bs.map some ∧
        decodeStream bs = .ok
          (((positions ranges).filter fun i => !isNull s.shared nulls i).map fun i => s.shared.mem.read (data + i))

/-- R110: the bytes emitted depend on the stage and the values only, not on the window lengths that the sink grants. R110 is
marked as derived in the spec. -/
def Obligations.EmittedBytesIgnoreWindowLengths : Prop :=
  ∀ (e₁ e₂ : Enc) (vs : List Byte), e₁.Inv → e₂.Inv → e₁.sink.Serves → e₂.sink.Serves → e₁.regs.SameStage e₂.regs →
    ∃ (e₁' e₂' : Enc) (bs : List Byte), e₁.writeAll vs = .ok () e₁' ∧ e₂.writeAll vs = .ok () e₂' ∧
      e₁'.written = e₁.written ++ bs.map some ∧ e₂'.written = e₂.written ++ bs.map some ∧ e₁'.regs.SameStage e₂'.regs

/-- R110: two equal bytes are one literal, three to 130 are one repeat, and 131 are a repeat and a literal of one. R110 is
marked as derived in the spec. -/
def Obligations.RunsEncodeAsTheSpecSays : Prop :=
  ∀ (e : Enc) (v : Byte) (n : Nat), e.Inv → e.sink.Serves → e.regs.numLiterals = 0 →
    n = 2 ∨ (3 ≤ n ∧ n ≤ 130) ∨ n = 131 →
      ∃ (e' e'' : Enc) (size : Count),
        e.writeAll (List.replicate n v) = .ok () e' ∧ e'.flush = .ok size e'' ∧
        e''.sink.stream = e.written ++
          (if n = 2 then [0xFE#8, v, v] else if n = 131 then [0x7F#8, v, 0xFF#8, v]
            else [BitVec.ofNat 8 (n - 3), v]).map some

/-! ### The boolean encoder (44_bool_encoder) -/

/-- R201: a boolean goes to the bit of `CURRENT` below those written, and the eighth hands the byte to the inner encoder. -/
def Obligations.WriteBoolPacksMsbFirst : Prop :=
  ∀ (e : Enc) (b : BoolEncRegs) (v : Bool), b.Inv →
    (2 ≤ b.bitsRemained.toNat → ∃ b' : BoolEncRegs, BoolEnc.writeBool (e, b) v = .ok () (e, b') ∧ b'.Inv ∧
      b'.bitsRemained = b.bitsRemained - 1 ∧
      ∀ t : Fin 8, b'.current.getLsbD t.val = if t.val = b.bitsRemained.toNat - 1 then v else b.current.getLsbD t.val) ∧
    (b.bitsRemained.toNat = 1 → ∃ byte : Byte,
      (∀ t : Fin 8, byte.getLsbD t.val = if t.val = 0 then v else b.current.getLsbD t.val) ∧
      (∀ e', e.write byte = .ok () e' →
        BoolEnc.writeBool (e, b) v = .ok () (e', { bitsRemained := 8, current := 0 })) ∧
      ∀ r e', e.write byte = .raised r e' → ∃ u', BoolEnc.writeBool (e, b) v = .raised r u')

/-- R202: `BOOLENC.ADD` completes with the number of booleans, each a non-null byte that is not zero; MSB first they follow
the pending bits, in the bytes handed to the inner encoder and in the bits pending after. The bit order of masks and the form
of ranges are the spec's decisions D8 and D9. A result of 2^64 or more is free (log 21). -/
def Obligations.BoolencAddPacksTheNonNullBytes : Prop :=
  ∀ (s : State) (inst : Inst) (e : Enc) (b : BoolEncRegs) (data : Addr) (ranges : List Range) (nulls : Option Addr),
    s.Ready inst → inst.codec = .boolEnc e b → e.Inv → b.Inv → e.sink.Serves →
    addBuffersOwned s.shared data ranges nulls = true →
      ∃ (e' : Enc) (b' : BoolEncRegs) (bytes : List Byte),
        exec (.boolencAdd data ranges nulls) s = .next (s.reply { inst with codec := .boolEnc e' b' } s.shared
          { status := 0
            result := countBits ((positions ranges).filter fun i => !isNull s.shared nulls i).length
            diag := none }) ∧
        e.writeAll bytes = .ok () e' ∧ e'.Inv ∧ b'.Inv ∧ e'.sink.Serves ∧
        msbBits bytes ++ BoolEnc.pendingBits b' = BoolEnc.pendingBits b ++
          ((positions ranges).filter fun i => !isNull s.shared nulls i).map fun i => s.shared.mem.read (data + i) != 0

/-- R203: `BOOLENC.ADD_FN`, with accessors that return. The callback form of the boolean encoder is the spec's decision D12,
the order of the questions D10; the tables are log 14's. A result of 2^64 or more is free (log 21). -/
def Obligations.BoolencAddFnAsksAndPacks : Prop :=
  ∀ (s : State) (inst : Inst) (e : Enc) (b : BoolEncRegs) (valueAt isNullAt : Handle) (ranges : List Range)
    (f : Nat → Byte) (g : Nat → Bool),
    s.Ready inst → inst.codec = .boolEnc e b → e.Inv → b.Inv → e.sink.Serves →
    (∀ i ∈ positions ranges, (s.shared.nullFns[isNullAt]?.bind fun a => a.answer i) = some (.returns (g i))) →
    (∀ i ∈ positions ranges, g i = false → (s.shared.valueFns[valueAt]?.bind fun a => a.answer i) = some (.returns (f i))) →
      ∃ (e' : Enc) (b' : BoolEncRegs) (bytes : List Byte),
        exec (.boolencAddFn valueAt isNullAt ranges) s = .next (s.reply { inst with codec := .boolEnc e' b' }
          { s.shared with calls := s.shared.calls ++ (positions ranges).flatMap (questions valueAt isNullAt g) }
          { status := 0, result := countBits ((positions ranges).filter fun i => !g i).length, diag := none }) ∧
        e.writeAll bytes = .ok () e' ∧ e'.Inv ∧ b'.Inv ∧ e'.sink.Serves ∧
        msbBits bytes ++ BoolEnc.pendingBits b' = BoolEnc.pendingBits b ++
          ((positions ranges).filter fun i => !g i).map fun i => f i != 0

/-- R204: `BOOLENC.ADD_BITS`: the booleans are `invert` XOR the bits of the dense bitmap, LSB first in each byte (R53). The
bit order and the result are the spec's decisions D8 and D11. A result of 2^64 or more is free (log 21). -/
def Obligations.BoolencAddBitsPacksTheBitmap : Prop :=
  ∀ (s : State) (inst : Inst) (e : Enc) (b : BoolEncRegs) (data : Addr) (ranges : List Range) (nulls : Option Addr)
    (invert : Bool),
    s.Ready inst → inst.codec = .boolEnc e b → e.Inv → b.Inv → e.sink.Serves →
    addBitsBuffersOwned s.shared data ranges nulls = true →
      ∃ (e' : Enc) (b' : BoolEncRegs) (bytes : List Byte),
        exec (.boolencAddBits data ranges nulls invert) s = .next (s.reply { inst with codec := .boolEnc e' b' } s.shared
          { status := 0
            result := countBits ((positions ranges).filter fun i => !isNull s.shared nulls i).length
            diag := none }) ∧
        e.writeAll bytes = .ok () e' ∧ e'.Inv ∧ b'.Inv ∧ e'.sink.Serves ∧
        msbBits bytes ++ BoolEnc.pendingBits b' = BoolEnc.pendingBits b ++
          ((positions ranges).filter fun i => !isNull s.shared nulls i).map fun i =>
            (invert ^^ (s.shared.mem.read (data + i / 8)).getLsbD (i % 8))

/-- R205: `BOOLENC.FLUSH` writes the pending bits as one byte padded with zeros, if there are any, and then does what
`BENC.FLUSH` does. What FLUSH does with the window is the spec's decision D15. A result of 2^64 or more is free (log 21). -/
def Obligations.BoolencFlushCompletesTheStream : Prop :=
  ∀ (s : State) (inst : Inst) (e : Enc) (b : BoolEncRegs), s.Ready inst → inst.codec = .boolEnc e b → e.Inv → b.Inv →
    e.sink.Serves →
      ∃ (e' : Enc) (bs bytes : List Byte),
        exec .boolencFlush s = .next (s.reply
          { inst with codec := .boolEnc e' { bitsRemained := 8, current := 0 } } s.shared
          { status := 0, result := countBits e'.sink.stream.length, diag := none }) ∧
        e'.regs.numLiterals = 0 ∧ e'.regs.repeating = false ∧ e'.regs.tailRun = 0 ∧ e'.regs.bufLen = 0 ∧ e'.regs.bufPos = 0 ∧
        e'.sink.Serves ∧ e'.sink.stream = e.written ++ bs.map some ∧ decodeStream bs = .ok (e.regs.stagedValues ++ bytes) ∧
        bytes.length = (if b.bitsRemained = 8 then 0 else 1) ∧
        ∃ pad, msbBits bytes = BoolEnc.pendingBits b ++ List.replicate pad false ∧ pad ≤ 7

/-! ### The parser and the byte decoder (42_segment_parser, 43_byte_decoder) -/

/-- R144, R145: the two segments become the current one of a decoder that has spent the last, byte or boolean. The segment
step is the model's (logs 16 and 17). -/
def Obligations.SegmentsBecomeTheCurrentOne : Prop :=
  ∀ (s : State) (inst : Inst) (d : Dec) (b : Option BoolDecRegs), s.Ready inst → inst.codec = Codec.ofDec d b →
    d.regs.remainingValues = 0 →
    (∀ (k : BitVec 7) (v : Byte), exec (.rep k v) s = .next { s with
      slots := s.slots.set s.cur (some { inst with
        codec := Codec.ofDec { d with regs := { d.regs with
          repeating := true, remainingValues := BitVec.ofNat 8 (k.toNat + 3), value := v } } b }) }) ∧
    ∀ (m : BitVec 7) (payload : List Byte), exec (.lit m payload) s = .next { s with
      slots := s.slots.set s.cur (some { inst with
        codec := Codec.ofDec { d with regs := { d.regs with
          repeating := false, remainingValues := BitVec.ofNat 8 (128 - m.toNat) } } b }) }

/-- R141, R142: the next byte of the window, or of a fresh one if it is exhausted; a source with none is an error, by the
place of the byte. Which of the two errors it is, is the spec's decision D18 (log 26); the two texts are the model's choice
(log 29). -/
def Obligations.ReadByteRefillsWhenExhausted : Prop :=
  ∀ (d : Dec) (ctx : ReadCtx),
    (∀ h : d.regs.winPos.toNat < d.regs.win.length,
      d.readByte ctx = .ok d.regs.win[d.regs.winPos.toNat] { d with regs := { d.regs with winPos := d.regs.winPos + 1 } }) ∧
    (d.regs.winPos.toNat = d.regs.win.length → ∀ (b : Byte) (w : List Byte), d.src.next.1 = some (b :: w) →
      d.readByte ctx = .ok b { d with regs := { d.regs with win := b :: w, winPos := 1 }, src := d.src.next.2 }) ∧
    (d.regs.winPos.toNat = d.regs.win.length → d.src.next.1 = none →
      d.readByte ctx = .raised
        (if ctx = .header then { kind := .ioFailure, text := "source refill" }
          else { kind := .corrupt, text := "short read mid-segment" }) { d with src := d.src.next.2 })

/-- R143: a header and, for a repeat, its payload byte leave the stream, and the segment they name becomes the current one.
Corrupt for a missing payload byte is the spec's decision D18 (log 26). -/
def Obligations.ReadHeaderParsesTheSegment : Prop :=
  ∀ (d : Dec) (h : Byte) (rest : List Byte), d.regs.Inv → d.src.Serves → d.upcoming = h :: rest →
    (h.toNat < 128 → ∀ (v : Byte) (rest' : List Byte), rest = v :: rest' → ∃ d' : Dec,
      d.readHeader = .ok () d' ∧ d'.upcoming = rest' ∧ d'.regs.repeating = true ∧
      d'.regs.remainingValues.toNat = h.toNat + 3 ∧ d'.regs.value = v ∧ d'.regs.pendingSkip = d.regs.pendingSkip) ∧
    (h.toNat < 128 → rest = [] → ∃ (r : Raise) (d' : Dec), d.readHeader = .raised r d' ∧ r.kind = .corrupt) ∧
    (128 ≤ h.toNat → ∃ d' : Dec,
      d.readHeader = .ok () d' ∧ d'.upcoming = rest ∧ d'.regs.repeating = false ∧
      d'.regs.remainingValues.toNat = 256 - h.toNat ∧ d'.regs.value = d.regs.value ∧ d'.regs.pendingSkip = d.regs.pendingSkip)

/-- R146 (90_conflicts C4): of `count` positions only the non-null ones are filled, in order, and only they spend the segment.
That only non-null positions are counted is 90_conflicts C4's reading. -/
def Obligations.TakeValuesSpendsNonNullPositionsOnly : Prop :=
  ∀ (isNull : Nat → Bool) (pos count : Nat) (r : DecRun), r.dec.regs.Inv → r.dec.src.Serves →
    count ≤ r.dec.regs.remainingValues.toNat →
    ((List.range count).filter fun j => !isNull (pos + j)).length ≤ r.dec.logical.length →
      ∃ r' : DecRun, r.takeValues isNull pos count = .ok () r' ∧
        r'.out = r.out ++
          (((List.range count).filter fun j => !isNull (pos + j)).map (pos + ·)).zip r.dec.logical ∧
        r'.dec.logical = r.dec.logical.drop ((List.range count).filter fun j => !isNull (pos + j)).length ∧
        r'.dec.regs.remainingValues.toNat =
          r.dec.regs.remainingValues.toNat - ((List.range count).filter fun j => !isNull (pos + j)).length ∧
        r'.dec.regs.repeating = r.dec.regs.repeating ∧ r'.dec.regs.value = r.dec.regs.value ∧
        r'.dec.regs.pendingSkip = r.dec.regs.pendingSkip

/-- R147: `c` payload bytes are passed over, first in the window, the rest by one `SrcSkip`. -/
def Obligations.SkipBytesUsesTheWindowFirst : Prop :=
  ∀ (d : Dec) (c : Nat), d.regs.Inv →
    (c ≤ d.regs.win.length - d.regs.winPos.toNat →
      d.skipBytes c = { d with regs := { d.regs with winPos := BitVec.ofNat 64 (d.regs.winPos.toNat + c) } }) ∧
    (d.regs.win.length - d.regs.winPos.toNat < c →
      d.skipBytes c = { d with
        regs := { d.regs with winPos := BitVec.ofNat 64 d.regs.win.length }
        src := d.src.skip (c - (d.regs.win.length - d.regs.winPos.toNat)) }) ∧
    (d.skipBytes c).upcoming = d.upcoming.drop c

/-- R171 in the terms of R174: `BDEC.NEXT` drops the pending skip and writes the next logical values to the non-null
positions, in order; every other byte of caller memory stays. R174, in whose terms it is put, is marked as derived in the
spec. -/
def Obligations.BdecNextDeliversTheLogicalValues : Prop :=
  ∀ (s : State) (inst : Inst) (d : Dec) (data : Addr) (n : Count) (nulls : Option Addr) (ps : List Nat) (vs : List Byte),
    s.Ready inst → inst.codec = .byteDec d → d.regs.Inv → d.src.Serves → s.shared.mem.wf = true →
    outputFault s.shared data n.toNat n.toNat nulls = none →
    ps = nonNullPositions (isNull s.shared nulls) n.toNat →
    d.regs.pendingSkip.toNat + ps.length ≤ d.logical.length →
    vs = (d.logical.drop d.regs.pendingSkip.toNat).take ps.length →
      ∃ (d' : Dec) (mem : Memory),
        exec (.bdecNext data n nulls) s = .next (s.reply { inst with codec := .byteDec d' } { s.shared with mem := mem }
          { status := 0, result := 0, diag := none }) ∧
        d'.regs.pendingSkip = 0 ∧ d'.logical = d.logical.drop (d.regs.pendingSkip.toNat + ps.length) ∧
        d'.regs.Inv ∧ d'.src.Serves ∧ d'.key = d.key ∧
        ps.map (fun p => mem.read (data + p)) = vs ∧
        (∀ a, (∀ p ∈ ps, a ≠ data + p) → mem.read a = s.shared.mem.read a) ∧ mem.wf = true

/-- R141, R263, R264, R268, R306: a `NEXT` that needs more values or bits than there are ends in `IoFailure` or `Corrupt`, and
the instance is FAILED; a byte decoder has then written all the values there were. Which errors are fatal, and which it is,
are the spec's decisions D35 and D18. -/
def Obligations.NextPastTheEndFails : Prop :=
  (∀ (s : State) (inst : Inst) (d : Dec) (data : Addr) (n : Count) (nulls : Option Addr) (ps : List Nat),
    s.Ready inst → inst.codec = .byteDec d → d.regs.Inv → d.src.Serves → s.shared.mem.wf = true →
    outputFault s.shared data n.toNat n.toNat nulls = none →
    ps = nonNullPositions (isNull s.shared nulls) n.toNat → ps ≠ [] →
    d.logical.length < d.regs.pendingSkip.toNat + ps.length →
      ∃ (t : State) (resp : Response) (inst' : Inst),
        exec (.bdecNext data n nulls) s = .next t ∧ t.response = some resp ∧ (resp.status = 2 ∨ resp.status = 3) ∧
        resp.result = 0 ∧ t.addressed = some inst' ∧ inst'.status = { failed := true, err := resp.status } ∧
        ((ps.take (d.logical.length - d.regs.pendingSkip.toNat)).map fun p => t.shared.mem.read (data + p)) =
          d.logical.drop d.regs.pendingSkip.toNat ∧
        ∀ a, (∀ p ∈ ps.take (d.logical.length - d.regs.pendingSkip.toNat), a ≠ data + p) →
          t.shared.mem.read a = s.shared.mem.read a) ∧
  ∀ (s : State) (inst : Inst) (d : Dec) (b : BoolDecRegs) (data : Addr) (n : Count) (nulls : Option Addr) (ps : List Nat),
    s.Ready inst → inst.codec = .boolDec d b → d.regs.Inv → b.Inv → d.src.Serves → data % 8 = 0 →
    outputFault s.shared data (BoolDec.laneBytes n.toNat) n.toNat nulls = none →
    ps = nonNullPositions (isNull s.shared nulls) n.toNat → ps ≠ [] →
    (BoolDec.logicalBits d b).length < d.regs.pendingSkip.toNat + ps.length →
      ∃ (t : State) (resp : Response) (inst' : Inst),
        exec (.booldecNext data n nulls) s = .next t ∧ t.response = some resp ∧ (resp.status = 2 ∨ resp.status = 3) ∧
        resp.result = 0 ∧ t.addressed = some inst' ∧ inst'.status = { failed := true, err := resp.status }

/-- R172, R233: the two `SKIP` add to the pending skip, with no source transaction; a sum of 2^64 or more is `Overflow`, and
the instance is FAILED. Overflow is an addition of the spec (decision D7). -/
def Obligations.SkipAccumulatesOrOverflows : Prop :=
  ∀ (s : State) (inst : Inst) (d : Dec) (b : BoolDecRegs) (n : Count) (i : Instr) (boolRegs : Option BoolDecRegs),
    s.Ready inst →
    (i = .bdecSkip n ∧ boolRegs = none) ∨ (i = .booldecSkip n ∧ boolRegs = some b) →
    inst.codec = Codec.ofDec d boolRegs →
    (d.regs.pendingSkip.toNat + n.toNat < 2 ^ 64 →
      exec i s = .next (s.reply
        { inst with
          codec := Codec.ofDec { d with regs := { d.regs with
            pendingSkip := BitVec.ofNat 64 (d.regs.pendingSkip.toNat + n.toNat) } } boolRegs }
        s.shared { status := 0, result := 0, diag := none })) ∧
    (2 ^ 64 ≤ d.regs.pendingSkip.toNat + n.toNat →
      ∃ (t : State) (dg : Option Diag) (inst' : Inst),
        exec i s = .next t ∧ t.response = some { status := 6, result := 0, diag := dg } ∧
        t.addressed = some inst' ∧ inst'.status = { failed := true, err := 6 } ∧
        t.shared = { s.shared with freeCount := t.shared.freeCount })

/-- R173, on the reference source (R67, R68): with three coordinates left `BDEC.SEEK` sets the cursor from two and the pending
skip from the third, and throws the window and the segment away; with fewer it ends in `BadPosition`, FAILED. That a seek sets
the skip, and BadPosition on an exhausted provider, are the spec's decisions D19 and D20; the reference source is its own
(D17). That VALUE and REPEATING stay is its decision D41, kept by the model's choice (log 24; 93 I13 leaves any value). -/
def Obligations.BdecSeekReseatsTheDecoder : Prop :=
  ∀ (s : State) (inst : Inst) (d : Dec) (provider : Handle), s.Ready inst → inst.codec = .byteDec d → d.src.Serves →
    (∀ (c₀ c₁ c₂ : Count) (more : List Count), s.shared.provided provider = c₀ :: c₁ :: c₂ :: more →
      ∃ d' : Dec,
        exec (.bdecSeek provider) s = .next (s.reply { inst with codec := .byteDec d' }
          { s.shared with
            providers := s.shared.providers.modify provider fun p => { p with cursor := p.cursor + 3 } }
          { status := 0, result := 0, diag := none }) ∧
        d'.regs = { d.regs with win := [], winPos := 0, remainingValues := 0, pendingSkip := c₂ } ∧
        d'.src.cursor = c₀.toNat + c₁.toNat ∧ d'.src.stream = d.src.stream ∧ d'.src.Serves ∧ d'.key = d.key ∧
        d'.logical = streamValues (d.src.stream.drop (c₀.toNat + c₁.toNat))) ∧
    ((s.shared.provided provider).length < 3 →
      ∃ (t : State) (dg : Option Diag) (inst' : Inst),
        exec (.bdecSeek provider) s = .next t ∧ t.response = some { status := 4, result := 0, diag := dg } ∧
        t.addressed = some inst' ∧ inst'.status = { failed := true, err := 4 })

/-- R149: what a `NEXT` delivers, and the registers R149 names after it, do not depend on the windows. R149 is marked as
derived in the spec. -/
def Obligations.DeliveryIgnoresWindowLengths : Prop :=
  ∀ (isNull : Nat → Bool) (n : Nat) (d₁ d₂ : Dec), d₁.regs.Inv → d₂.regs.Inv → d₁.src.Serves → d₂.src.Serves →
    d₁.SameView d₂ →
      (∃ r₁ r₂ : DecRun, byteNext isNull n d₁ = .ok () r₁ ∧ byteNext isNull n d₂ = .ok () r₂ ∧ r₁.out = r₂.out ∧
        r₁.dec.SameView r₂.dec) ∨
      ∃ (e : Raise) (r₁ r₂ : DecRun), byteNext isNull n d₁ = .raised e r₁ ∧ byteNext isNull n d₂ = .raised e r₂ ∧ r₁.out = r₂.out

/-! ### The boolean decoder (45_bool_decoder) -/

/-- R232 in the terms of R235 and R236: `BOOLDEC.NEXT` drops the pending skip, delivers the next logical bits to the non-null
positions, LSB first, and 0 elsewhere in the output bytes; only the 64-bit lanes of the output change. Where the pending skip
is drained and the extent of the output are the spec's decisions D21 and D22; R235 and R236 are its own. -/
def Obligations.BooldecNextDeliversTheLogicalBits : Prop :=
  ∀ (s : State) (inst : Inst) (d : Dec) (b : BoolDecRegs) (data : Addr) (n : Count) (nulls : Option Addr) (ps : List Nat),
    s.Ready inst → inst.codec = .boolDec d b → d.regs.Inv → b.Inv → d.src.Serves → s.shared.mem.wf = true → data % 8 = 0 →
    outputFault s.shared data (8 * ceilDiv n.toNat 64) n.toNat nulls = none →
    ps = nonNullPositions (isNull s.shared nulls) n.toNat →
    d.regs.pendingSkip.toNat + ps.length ≤ (BoolDec.logicalBits d b).length →
      ∃ (d' : Dec) (b' : BoolDecRegs) (mem : Memory) (free : Nat),
        exec (.booldecNext data n nulls) s = .next (s.reply { inst with codec := .boolDec d' b' }
          { s.shared with mem := mem, freeCount := free } { status := 0, result := 0, diag := none }) ∧
        d'.regs.pendingSkip = 0 ∧ d'.regs.Inv ∧ b'.Inv ∧ d'.src.Serves ∧ d'.key = d.key ∧
        BoolDec.logicalBits d' b' = (BoolDec.logicalBits d b).drop (d.regs.pendingSkip.toNat + ps.length) ∧
        ps.map (bitRead mem data) = ((BoolDec.logicalBits d b).drop d.regs.pendingSkip.toNat).take ps.length ∧
        (∀ p, p < 8 * ceilDiv n.toNat 8 → (p ≥ n.toNat ∨ isNull s.shared nulls p = true) → bitRead mem data p = false) ∧
        (∀ a, (a < data ∨ data + 8 * ceilDiv n.toNat 64 ≤ a) → mem.read a = s.shared.mem.read a) ∧ mem.wf = true

/-- R234, R270, on the reference source: the byte coordinate and the bit coordinate are fused as the pending skip; the checks
come in the order the inner seek, the provider, the range of the bit coordinate, the overflow. The checks and their order are
the spec's decisions D7, D19, D20 and D41. That VALUE, REPEATING and REVERSED_LAST_BYTE stay is its decision D41, kept by the
model's choice (log 24; 93 I13 leaves any value). -/
def Obligations.BooldecSeekFusesTheCoordinates : Prop :=
  ∀ (s : State) (inst : Inst) (d : Dec) (b : BoolDecRegs) (provider : Handle),
    s.Ready inst → inst.codec = .boolDec d b → d.src.Serves →
    (∀ (c₀ c₁ c₂ c₃ : Count) (more : List Count), s.shared.provided provider = c₀ :: c₁ :: c₂ :: c₃ :: more →
      (c₃.toNat ≤ 8 → 8 * c₂.toNat + c₃.toNat < 2 ^ 64 →
        ∃ d' : Dec,
          exec (.booldecSeek provider) s = .next (s.reply { inst with codec := .boolDec d' { b with remainingBits := 0 } }
            { s.shared with
              providers := s.shared.providers.modify provider fun p => { p with cursor := p.cursor + 4 } }
            { status := 0, result := 0, diag := none }) ∧
          d'.regs = { d.regs with
            win := [], winPos := 0, remainingValues := 0
            pendingSkip := BitVec.ofNat 64 (8 * c₂.toNat + c₃.toNat) } ∧
          d'.src.cursor = c₀.toNat + c₁.toNat ∧ d'.src.stream = d.src.stream ∧ d'.src.Serves ∧ d'.key = d.key) ∧
      (c₃.toNat ≤ 8 → 2 ^ 64 ≤ 8 * c₂.toNat + c₃.toNat →
        ∃ (t : State) (dg : Option Diag) (inst' : Inst),
          exec (.booldecSeek provider) s = .next t ∧ t.response = some { status := 6, result := 0, diag := dg } ∧
          t.addressed = some inst' ∧ inst'.status = { failed := true, err := 6 }) ∧
      (8 < c₃.toNat →
        ∃ (t : State) (dg : Option Diag) (inst' : Inst),
          exec (.booldecSeek provider) s = .next t ∧ t.response = some { status := 4, result := 0, diag := dg } ∧
          t.addressed = some inst' ∧ inst'.status = { failed := true, err := 4 })) ∧
    ((s.shared.provided provider).length < 4 →
      ∃ (t : State) (dg : Option Diag) (inst' : Inst),
        exec (.booldecSeek provider) s = .next t ∧ t.response = some { status := 4, result := 0, diag := dg } ∧
        t.addressed = some inst' ∧ inst'.status = { failed := true, err := 4 })

/-- The frame of the six decoder commands, however they end: a `NEXT` writes in its output buffer only (a byte `NEXT` at
non-null positions only), a `SEEK` moves one provider's cursor and changes no coordinate (R50, R70), nothing else outside the
instance changes. -/
def Obligations.DecoderCommandsFrame : Prop :=
  ∀ (i : Instr) (s t : State), i.kind = some .byteDec ∨ i.kind = some .boolDec → s.shared.mem.wf = true → exec i s = .next t →
    (∀ data n nulls, i = .bdecNext data n nulls →
      ∀ a, (∀ p, p < n.toNat → isNull s.shared nulls p = false → a ≠ data + p) →
        t.shared.mem.read a = s.shared.mem.read a) ∧
    (∀ data n nulls, i = .booldecNext data n nulls →
      ∀ a, (a < data ∨ data + 8 * ceilDiv n.toNat 64 ≤ a) → t.shared.mem.read a = s.shared.mem.read a) ∧
    ((∀ data n nulls, i ≠ .bdecNext data n nulls ∧ i ≠ .booldecNext data n nulls) →
      ∀ a, t.shared.mem.read a = s.shared.mem.read a) ∧
    t.shared = { s.shared with
      mem := t.shared.mem, providers := t.shared.providers, freeCount := t.shared.freeCount } ∧
    ((∀ h, i ≠ .bdecSeek h ∧ i ≠ .booldecSeek h) → t.shared.providers = s.shared.providers) ∧
    (∀ h, i = .bdecSeek h ∨ i = .booldecSeek h → ∀ k, k ≠ h → t.shared.providers[k]? = s.shared.providers[k]?) ∧
    t.shared.providers.map (fun p => p.coords) = s.shared.providers.map (fun p => p.coords) ∧
    (∀ k, k ≠ s.cur → t.slots[k]? = s.slots[k]?) ∧ t.cur = s.cur ∧ t.inbox = s.inbox ∧ t.released = s.released

/-! ### The whole machine -/

/-- R23, R95, R268: `STATUS` and the response tell the same: a success leaves `STATUS`, `Unsupported` and `IllegalCommand`
change `STATUS.ERR` and nothing else of the instance, and the other four set `STATUS.FAILED`. STATUS and which errors are
fatal are the spec's decisions D34 and D35. -/
def Obligations.StatusFollowsTheResponse : Prop :=
  ∀ (i : Instr) (s t : State) (inst : Inst), i.kind ≠ none → s.Ready inst → exec i s = .next t →
    ∃ (resp : Response) (inst' : Inst), t.response = some resp ∧ t.addressed = some inst' ∧
      ((resp.status = 0 ∧ inst'.status = inst.status) ∨
        ((resp.status = 1 ∨ resp.status = 5) ∧ resp.result = 0 ∧ t.shared = s.shared ∧ inst'.codec = inst.codec ∧
          inst'.status = { inst.status with err := resp.status }) ∨
        ((resp.status = 2 ∨ resp.status = 3 ∨ resp.status = 4 ∨ resp.status = 6) ∧ resp.result = 0 ∧
          inst'.status = { failed := true, err := resp.status }))

/-- R271, R275: a FAILED instance runs nothing, and no step makes it READY: it stays as it is until it is destroyed. R271 and
R275 are the spec's decisions D24 and D43; the fault is the model's form of a caller fault. -/
def Obligations.FailedInstanceOnlyWaitsForDestruction : Prop :=
  (∀ (i : Instr) (s : State) (inst : Inst), s.addressed = some inst → inst.status.failed = true →
    exec i s = .fault .failedInstance) ∧
  ∀ (s t : State) (k : Nat) (inst : Inst), step s = .next t → s.slots[k]? = some (some inst) → inst.status.failed = true →
    t.slots[k]? = some (some inst) ∨ t.slots[k]? = some none

/-- R290: a factory operation makes a new instance in a new slot, with the registers at their reset values and no port
transaction. The reset value of `LIT` is log 3's and is not stated. The reset values are the spec's decision D25, STATUS D34.
-/
def Obligations.ConstructionSetsTheRegisters : Prop :=
  (∀ (s : State) (f : Factory) (rest : List Input), s.inbox = .construct f :: rest →
    (∀ j : Inst, some j ∈ s.slots → f.make.sharesAgent j = false) →
      step s = .next { s with inbox := rest, slots := s.slots ++ [some f.make] }) ∧
  (∀ sink : Sink, ∃ regs : EncRegs,
    (Factory.byteEncoder sink).make = { status := { failed := false, err := 0 }, codec := .byteEnc ⟨regs, sink⟩ } ∧
    (Factory.boolEncoder sink).make =
      { status := { failed := false, err := 0 }, codec := .boolEnc ⟨regs, sink⟩ { bitsRemained := 8, current := 0 } } ∧
    regs.numLiterals = 0 ∧ regs.repeating = false ∧ regs.tailRun = 0 ∧ regs.bufLen = 0 ∧ regs.bufPos = 0) ∧
  ∀ (src : Source) (key : String), ∃ regs : DecRegs,
    (Factory.byteDecoder src key).make = { status := { failed := false, err := 0 }, codec := .byteDec ⟨key, regs, src⟩ } ∧
    (Factory.boolDecoder src key).make =
      { status := { failed := false, err := 0 }
        codec := .boolDec ⟨key, regs, src⟩ { remainingBits := 0, reversedLastByte := 0 } } ∧
    regs.remainingValues = 0 ∧ regs.repeating = false ∧ regs.value = 0 ∧ regs.win = [] ∧ regs.winPos = 0 ∧
    regs.pendingSkip = 0

/-- R292: destruction, of a READY or a FAILED instance, makes no port transaction: the sink or source is left as it is, and
the registers are gone; no command may then be issued to the instance. R292 is the spec's decision D43; the list of released
agents is the model's (log 20). -/
def Obligations.DestructionMakesNoTransaction : Prop :=
  ∀ (s : State) (k : Nat) (inst : Inst) (rest : List Input), s.inbox = .destroy k :: rest → s.slots[k]? = some (some inst) →
    step s = .next { s with
      inbox := rest, slots := s.slots.set k none, released := s.released ++ [inst.agent] } ∧
    ∀ i : Instr, exec i { s with cur := k, slots := s.slots.set k none } = .fault .noInstance

/-- R272, items 1 to 4, 7 and 8, R301: the caller faults that a command's operands, the caller's accessors or the agent on the
port bring about, and a factory's; the model has no meaning for them. Item 5 is FailedInstanceOnlyWaitsForDestruction's, item
6 is out of the model (log 28). R272 is the spec's decision D23, D30, D33 and D45; the moment of the check is log 8's, what
the caller owns is logs 7 and 27, an accessor is log 14's table, and the form of an agent's re-entry log 35. -/
def Obligations.CallerFaultsHaveNoMeaning : Prop :=
  (∀ (s : State) (inst : Inst) (d : Dec) (b : BoolDecRegs) (data : Addr) (n : Count) (nulls : Option Addr),
    s.Ready inst → inst.codec = .boolDec d b → data % 8 ≠ 0 → exec (.booldecNext data n nulls) s = .fault .outputMisaligned) ∧
  (∀ (i : Instr) (s : State) (inst : Inst) (d : Dec) (b : BoolDecRegs) (data len : Nat) (n : Count) (nulls : Option Addr),
    s.Ready inst →
    (i = .bdecNext data n nulls ∧ inst.codec = .byteDec d ∧ len = n.toNat) ∨
      (i = .booldecNext data n nulls ∧ inst.codec = .boolDec d b ∧ data % 8 = 0 ∧ len = 8 * ceilDiv n.toNat 64) →
    (owned s.shared data len = false → exec i s = .fault .bufferOutside) ∧
    ∀ mask, nulls = some mask → owned s.shared data len = true →
      (owned s.shared mask (ceilDiv n.toNat 8) = false → exec i s = .fault .bufferOutside) ∧
      (owned s.shared mask (ceilDiv n.toNat 8) = true →
        (∃ a, data ≤ a ∧ a < data + len ∧ mask ≤ a ∧ a < mask + ceilDiv n.toNat 8) → exec i s = .fault .outputOverlap)) ∧
  (∀ (i : Instr) (s : State) (inst : Inst) (e : Enc) (b : BoolEncRegs) (data : Addr) (ranges : List Range)
    (nulls : Option Addr), s.Ready inst →
    (i = .bencAdd data ranges nulls ∧ inst.codec = .byteEnc e) ∨ (i = .boolencAdd data ranges nulls ∧ inst.codec = .boolEnc e b) →
    (addBuffersOwned s.shared data ranges nulls = false ∨
      (∃ p ∈ positions ranges, owned s.shared (data + p) 1 = false ∨
        ∃ mask, nulls = some mask ∧ owned s.shared (mask + p / 8) 1 = false)) →
      exec i s = .fault .bufferOutside) ∧
  (∀ (s : State) (inst : Inst) (e : Enc) (b : BoolEncRegs) (data : Addr) (ranges : List Range) (nulls : Option Addr)
    (invert : Bool), s.Ready inst → inst.codec = .boolEnc e b →
    (addBitsBuffersOwned s.shared data ranges nulls = false ∨
      (∃ p ∈ positions ranges, owned s.shared (data + p / 8) 1 = false ∨
        ∃ mask, nulls = some mask ∧ owned s.shared (mask + p / 8) 1 = false)) →
      exec (.boolencAddBits data ranges nulls invert) s = .fault .bufferOutside) ∧
  (∀ (i : Instr) (s : State) (inst : Inst) (e : Enc) (b : BoolEncRegs) (valueAt isNullAt : Handle) (ranges : List Range)
    (f : Nat → Byte) (g : Nat → Bool) (asked after : List Nat) (p : Nat),
    s.Ready inst → e.sink.Serves →
    (i = .bencAddFn valueAt isNullAt ranges ∧ inst.codec = .byteEnc e) ∨
      (i = .boolencAddFn valueAt isNullAt ranges ∧ inst.codec = .boolEnc e b) →
    positions ranges = asked ++ p :: after →
    (∀ q ∈ asked, (s.shared.nullFns[isNullAt]?.bind fun a => a.answer q) = some (.returns (g q))) →
    (∀ q ∈ asked, g q = false → (s.shared.valueFns[valueAt]?.bind fun a => a.answer q) = some (.returns (f q))) →
    ((s.shared.nullFns[isNullAt]?.bind fun a => a.answer p) = some .reenters → exec i s = .fault .reentrantAccessor) ∧
    ((s.shared.nullFns[isNullAt]?.bind fun a => a.answer p) = some .diverges → exec i s = .fault .accessorDoesNotReturn) ∧
    ((s.shared.nullFns[isNullAt]?.bind fun a => a.answer p) = some (.returns false) →
      ((s.shared.valueFns[valueAt]?.bind fun a => a.answer p) = some .reenters → exec i s = .fault .reentrantAccessor) ∧
      ((s.shared.valueFns[valueAt]?.bind fun a => a.answer p) = some .diverges → exec i s = .fault .accessorDoesNotReturn))) ∧
  (∀ (i : Instr) (s t : State) (inst inst' : Inst), s.Ready inst → exec i s = .next t → t.addressed = some inst' →
    inst.codec.reenters inst'.codec = false) ∧
  (∀ (s : State) (inst : Inst) (e : Enc) (b : BoolEncRegs) (recorder : Handle) (stride : Nat), s.Ready inst →
    e.sink.reentersAt = some e.sink.log.length →
    (inst.codec = .byteEnc e → exec (.bencRecpos recorder stride) s = .fault .reentrantAgent ∧
      exec .bencGetsize s = .fault .reentrantAgent ∧
      (e.regs.numLiterals = 0 → exec .bencFlush s = .fault .reentrantAgent)) ∧
    (inst.codec = .boolEnc e b → exec (.boolencRecpos recorder stride) s = .fault .reentrantAgent ∧
      exec .boolencGetsize s = .fault .reentrantAgent)) ∧
  (∀ (s : State) (inst : Inst) (d : Dec) (b : BoolDecRegs) (provider : Handle), s.Ready inst →
    d.src.reentersAt = some d.src.log.length →
    (inst.codec = .byteDec d → exec (.bdecSeek provider) s = .fault .reentrantAgent) ∧
    (inst.codec = .boolDec d b → exec (.booldecSeek provider) s = .fault .reentrantAgent)) ∧
  ∀ (s : State) (f : Factory) (rest : List Input) (j : Inst) (ident : Nat),
    s.inbox = .construct f :: rest → some j ∈ s.slots →
    (f.make.sinkIdent = some ident ∧ j.sinkIdent = some ident) ∨ (f.make.srcIdent = some ident ∧ j.srcIdent = some ident) →
      step s = .fault .sharedAgent

/-- The machine right after reset meets the invariants between commands. Which instances there are at reset is log 2's, the
value of LIT log 3's. -/
def Obligations.InvariantsHoldAtReset : Prop := State.reset.Inv

/-- R29 to R32, R33, R35, R38, R237 and the canonical form of caller memory hold between commands, for every living READY
instance, whatever the agents answer: every step keeps them, from every state that meets them. R30, R32, R38 and R237 are
marked as derived in the spec; the canonical form is log 6's. -/
def Obligations.EveryStepKeepsTheInvariants : Prop :=
  ∀ s t : State, s.Inv → step s = .next t → t.Inv

/-- R22, R24, R291: the kind of an instance, its sink or source, the source's stream and name, and the key are for life; the
parameters of R8 never change. The register KIND is the spec's decision D34. That KIND and ENCODING_KEY stay also when a step
ends in a fatal error is the model's, log 9 (DEDUCED): R268 and 93 I1 leave every register but STATUS unspecified there. -/
def Obligations.BindingsAreForLife : Prop :=
  ∀ s t : State, step s = .next t →
    t.shared.params = s.shared.params ∧
      ∀ (k : Nat) (i j : Inst), s.slots[k]? = some (some i) → t.slots[k]? = some (some j) → j.binding = i.binding

/-- R20, R277: instances share no state: a command leaves every other instance as it is, and what it does depends on the
addressed instance and on what lies outside the instances, not on the others. That two such instances are the same after a
fatal error too is the model's: their free registers are functions of the counter of free values (log 9). -/
def Obligations.InstancesShareNoState : Prop :=
  (∀ (s t : State) (k : Nat), step s = .next t → k < s.slots.length →
    (∀ cmd ops rest, s.inbox ≠ .command k cmd ops :: rest) → (∀ rest, s.inbox ≠ .segment k :: rest) →
    (∀ rest, s.inbox ≠ .destroy k :: rest) → t.slots[k]? = s.slots[k]?) ∧
  ∀ (i : Instr) (s₁ s₂ t₁ : State), s₁.addressed = s₂.addressed → s₁.shared = s₂.shared → exec i s₁ = .next t₁ →
    ∃ t₂, exec i s₂ = .next t₂ ∧ t₂.addressed = t₁.addressed ∧ t₂.shared = t₁.shared ∧
      (i.kind ≠ none → t₂.response = t₁.response)

/-- R175, with the reference sink and source: a position recorded at some point of writing, replayed on the completed stream,
puts the decoder before exactly the values written after that point. R175 is marked as derived in the spec; the reference
agents are its own (D16, D17). -/
def Obligations.SeekLandsOnTheRecordedPosition : Prop :=
  ∀ (s : State) (inst : Inst) (e : Enc) (data : Addr) (ranges : List Range) (nulls : Option Addr) (recorder : Handle)
    (stride : Nat),
    s.Ready inst → inst.codec = .byteEnc e → e.Inv → e.sink.Serves → e.sink.stream.length < 2 ^ 64 →
    addBuffersOwned s.shared data ranges nulls = true →
      ∃ (t₀ t₁ t₂ : State) (e' : Enc) (c₀ c₁ c₂ : Count),
        exec (.bencRecpos recorder stride) s = .next t₀ ∧ exec (.bencAdd data ranges nulls) t₀ = .next t₁ ∧
        exec .bencFlush t₁ = .next t₂ ∧ t₂.addressed = some { inst with codec := .byteEnc e' } ∧
        t₀.shared.recorded = s.shared.recorded ++
          [⟨recorder, c₀, stride⟩, ⟨recorder, c₁, stride⟩, ⟨recorder, c₂, stride⟩] ∧
        ∀ (s' : State) (inst' : Inst) (d : Dec) (provider : Handle) (more : List Count),
          s'.Ready inst' → inst'.codec = .byteDec d → d.src.Serves → d.src.stream.map some = e'.sink.stream →
          s'.shared.provided provider = c₀ :: c₁ :: c₂ :: more →
            ∃ (t' : State) (d' : Dec), exec (.bdecSeek provider) s' = .next t' ∧
              t'.addressed = some { inst' with codec := .byteDec d' } ∧
              d'.logical.drop d'.regs.pendingSkip.toNat =
                ((positions ranges).filter fun i => !isNull s.shared nulls i).map fun i => s.shared.mem.read (data + i)

/-- R208, R235: booleans added to a boolean encoder with nothing staged and nothing pending, and then flushed, are the first
logical bits of the stream, in order, and what follows them is fewer than eight pad bits of 0. R208 and R235 are marked as
derived in the spec. -/
def Obligations.AddedBooleansDecodeAfterFlush : Prop :=
  ∀ (s : State) (inst : Inst) (e : Enc) (b : BoolEncRegs) (data : Addr) (ranges : List Range) (nulls : Option Addr),
    s.Ready inst → inst.codec = .boolEnc e b → e.Inv → b.Inv → e.sink.Serves → e.regs.numLiterals = 0 → b.bitsRemained = 8 →
    addBuffersOwned s.shared data ranges nulls = true →
      ∃ (t u : State) (e' : Enc) (b' : BoolEncRegs) (bs bytes : List Byte) (pad : Nat),
        exec (.boolencAdd data ranges nulls) s = .next t ∧ exec .boolencFlush t = .next u ∧
        u.addressed = some { inst with codec := .boolEnc e' b' } ∧ e'.sink.stream = e.written ++ bs.map some ∧
        decodeStream bs = .ok bytes ∧ pad ≤ 7 ∧
        msbBits bytes =
          (((positions ranges).filter fun i => !isNull s.shared nulls i).map fun i => s.shared.mem.read (data + i) != 0) ++
            List.replicate pad false
end

