-- ==== Sys2Proof/Laws/State.lean ====
section
/-!
SUPPORT. One lemma per field per named update of the registers, of a sink by `SinkSize`, and of the state.
-/

namespace Sys2Proof.Machine

/-! ### Encoder registers -/

namespace EncRegs

variable (r : EncRegs) (v : Byte) (i : Nat)

@[simp] theorem setLit_numLiterals : (r.setLit i v).numLiterals = r.numLiterals := rfl
@[simp] theorem setLit_repeating : (r.setLit i v).repeating = r.repeating := rfl
@[simp] theorem setLit_tailRun : (r.setLit i v).tailRun = r.tailRun := rfl
@[simp] theorem setLit_bufLen : (r.setLit i v).bufLen = r.bufLen := rfl
@[simp] theorem setLit_bufPos : (r.setLit i v).bufPos = r.bufPos := rfl

@[simp] theorem withCount_lit (n : BitVec 8) : (r.withCount n).lit = r.lit := rfl
@[simp] theorem withCount_numLiterals (n : BitVec 8) : (r.withCount n).numLiterals = n := rfl
@[simp] theorem withCount_repeating (n : BitVec 8) : (r.withCount n).repeating = r.repeating := rfl
@[simp] theorem withCount_tailRun (n : BitVec 8) : (r.withCount n).tailRun = r.tailRun := rfl
@[simp] theorem withCount_bufLen (n : BitVec 8) : (r.withCount n).bufLen = r.bufLen := rfl
@[simp] theorem withCount_bufPos (n : BitVec 8) : (r.withCount n).bufPos = r.bufPos := rfl

@[simp] theorem clearStage_lit : r.clearStage.lit = r.lit := rfl
@[simp] theorem clearStage_numLiterals : r.clearStage.numLiterals = 0 := rfl
@[simp] theorem clearStage_repeating : r.clearStage.repeating = false := rfl
@[simp] theorem clearStage_tailRun : r.clearStage.tailRun = 0 := rfl
@[simp] theorem clearStage_bufLen : r.clearStage.bufLen = r.bufLen := rfl
@[simp] theorem clearStage_bufPos : r.clearStage.bufPos = r.bufPos := rfl

@[simp] theorem startStage_numLiterals : (r.startStage v).numLiterals = 1 := rfl
@[simp] theorem startStage_repeating : (r.startStage v).repeating = r.repeating := rfl
@[simp] theorem startStage_tailRun : (r.startStage v).tailRun = 1 := rfl
@[simp] theorem startStage_bufLen : (r.startStage v).bufLen = r.bufLen := rfl
@[simp] theorem startStage_bufPos : (r.startStage v).bufPos = r.bufPos := rfl

@[simp] theorem startRepeat_numLiterals : (r.startRepeat v).numLiterals = 3 := rfl
@[simp] theorem startRepeat_repeating : (r.startRepeat v).repeating = true := rfl
@[simp] theorem startRepeat_tailRun : (r.startRepeat v).tailRun = r.tailRun := rfl
@[simp] theorem startRepeat_bufLen : (r.startRepeat v).bufLen = r.bufLen := rfl
@[simp] theorem startRepeat_bufPos : (r.startRepeat v).bufPos = r.bufPos := rfl

@[simp] theorem bumpTail_lit : (r.bumpTail v).lit = r.lit := rfl
@[simp] theorem bumpTail_numLiterals : (r.bumpTail v).numLiterals = r.numLiterals := rfl
@[simp] theorem bumpTail_repeating : (r.bumpTail v).repeating = r.repeating := rfl
@[simp] theorem bumpTail_bufLen : (r.bumpTail v).bufLen = r.bufLen := rfl
@[simp] theorem bumpTail_bufPos : (r.bumpTail v).bufPos = r.bufPos := rfl

/-- Reading an entry after writing one. -/
theorem litAt_setLit (j : Nat) : (r.setLit i v).litAt j = if i = j ∧ j < 128 then v else r.litAt j := by
  unfold litAt setLit
  rw [Vector.getElem?_setIfInBounds]
  by_cases h : i = j
  · subst h
    by_cases hi : i < 128 <;> simp [hi]
  · simp [h]

/-- Two register files with the same entries read the same. -/
theorem litAt_congr {r r' : EncRegs} (h : r.lit = r'.lit) (j : Nat) : r.litAt j = r'.litAt j := by
  simp [litAt, h]

@[simp] theorem litAt_withCount (n : BitVec 8) (j : Nat) : (r.withCount n).litAt j = r.litAt j := rfl
@[simp] theorem litAt_clearStage (j : Nat) : r.clearStage.litAt j = r.litAt j := rfl
@[simp] theorem litAt_bumpTail (j : Nat) : (r.bumpTail v).litAt j = r.litAt j := rfl
@[simp] theorem litAt_startStage_zero : (r.startStage v).litAt 0 = v := by
  simp [startStage, litAt, setLit]
@[simp] theorem litAt_startRepeat_zero : (r.startRepeat v).litAt 0 = v := by
  simp [startRepeat, litAt, setLit]

end EncRegs

/-! ### Sinks: `SinkSize` changes no answer (20_memory R57) -/

namespace Sink

variable (s : Sink)

@[simp] theorem size_history : s.size.2.history = s.history := by simp [size, history]
@[simp] theorem size_answer : s.size.2.answer = s.answer := by
  have := s.size_history
  simp only [answer, this]
  rfl
@[simp] theorem size_sizeNow : s.size.2.sizeNow = s.sizeNow := by
  have := s.size_history
  simp only [sizeNow, this]
  rfl
@[simp] theorem size_committed : s.size.2.committed = s.committed := by
  have := s.size_history
  simp only [committed, this]
  rfl
@[simp] theorem size_coords (bufLen bufPos : Count) (stride : Nat) :
    s.size.2.coords bufLen bufPos stride = s.coords bufLen bufPos stride := by
  have := s.size_history
  simp only [coords, this]
  rfl

end Sink

/-! ### Decoder registers -/

namespace DecRegs

variable (r : DecRegs) (k : BitVec 7) (v : Byte) (n : Nat)

@[simp] theorem loadRepeat_remainingValues : (r.loadRepeat k v).remainingValues = BitVec.ofNat 8 (repeatCount k) := rfl
@[simp] theorem loadRepeat_repeating : (r.loadRepeat k v).repeating = true := rfl
@[simp] theorem loadRepeat_value : (r.loadRepeat k v).value = v := rfl
@[simp] theorem loadRepeat_win : (r.loadRepeat k v).win = r.win := rfl
@[simp] theorem loadRepeat_winPos : (r.loadRepeat k v).winPos = r.winPos := rfl
@[simp] theorem loadRepeat_pendingSkip : (r.loadRepeat k v).pendingSkip = r.pendingSkip := rfl

@[simp] theorem loadLiteral_remainingValues : (r.loadLiteral k).remainingValues = BitVec.ofNat 8 (literalCount k) := rfl
@[simp] theorem loadLiteral_repeating : (r.loadLiteral k).repeating = false := rfl
@[simp] theorem loadLiteral_value : (r.loadLiteral k).value = r.value := rfl
@[simp] theorem loadLiteral_win : (r.loadLiteral k).win = r.win := rfl
@[simp] theorem loadLiteral_winPos : (r.loadLiteral k).winPos = r.winPos := rfl
@[simp] theorem loadLiteral_pendingSkip : (r.loadLiteral k).pendingSkip = r.pendingSkip := rfl

@[simp] theorem spend_remainingValues : (r.spend n).remainingValues = r.remainingValues - BitVec.ofNat 8 n := rfl
@[simp] theorem spend_repeating : (r.spend n).repeating = r.repeating := rfl
@[simp] theorem spend_value : (r.spend n).value = r.value := rfl
@[simp] theorem spend_win : (r.spend n).win = r.win := rfl
@[simp] theorem spend_winPos : (r.spend n).winPos = r.winPos := rfl
@[simp] theorem spend_pendingSkip : (r.spend n).pendingSkip = r.pendingSkip := rfl

@[simp] theorem invalidate_remainingValues : r.invalidate.remainingValues = 0 := rfl
@[simp] theorem invalidate_repeating : r.invalidate.repeating = r.repeating := rfl
@[simp] theorem invalidate_value : r.invalidate.value = r.value := rfl
@[simp] theorem invalidate_win : r.invalidate.win = [] := rfl
@[simp] theorem invalidate_winPos : r.invalidate.winPos = 0 := rfl
@[simp] theorem invalidate_pendingSkip : r.invalidate.pendingSkip = r.pendingSkip := rfl

end DecRegs

/-! ### The end of a command -/

namespace State

variable (s : State) (inst : Inst) (sh : Shared) (resp : Response) (r : Raise)

@[simp] theorem reply_slots : (s.reply inst sh resp).slots = s.slots.set s.cur (some inst) := rfl
@[simp] theorem reply_cur : (s.reply inst sh resp).cur = s.cur := rfl
@[simp] theorem reply_shared : (s.reply inst sh resp).shared = sh := rfl
@[simp] theorem reply_response : (s.reply inst sh resp).response = some resp := rfl
@[simp] theorem reply_inbox : (s.reply inst sh resp).inbox = s.inbox := rfl

/-- Where an instance is addressed, the addressed slot exists. -/
theorem cur_lt_of_addressed {s : State} {inst : Inst} (h : s.addressed = some inst) : s.cur < s.slots.length := by
  unfold addressed at h
  by_contra hn
  rw [List.getElem?_eq_none (Nat.le_of_not_lt hn)] at h
  simp at h

/-- After the end of a command its instance is the one addressed. -/
theorem addressed_reply {s : State} {old inst : Inst} (h : s.addressed = some old) (sh : Shared) (resp : Response) :
    (s.reply inst sh resp).addressed = some inst := by
  simp [addressed, cur_lt_of_addressed h]

/-- The end of a command touches no other slot. -/
theorem reply_other (j : Nat) (h : j ≠ s.cur) : (s.reply inst sh resp).slots[j]? = s.slots[j]? := by
  simp [Ne.symm h]

@[simp] theorem raiseError_cur : (s.raiseError inst sh r).cur = s.cur := by
  unfold raiseError; split <;> rfl
@[simp] theorem raiseError_inbox : (s.raiseError inst sh r).inbox = s.inbox := by
  unfold raiseError; split <;> rfl
@[simp] theorem raiseError_response :
    (s.raiseError inst sh r).response = some { status := r.kind.code, result := 0, diag := some (inst.codec.diag r) } := by
  unfold raiseError; split <;> rfl
@[simp] theorem raiseError_mem : (s.raiseError inst sh r).shared.mem = sh.mem := by
  unfold raiseError; split <;> rfl
@[simp] theorem raiseError_params : (s.raiseError inst sh r).shared.params = sh.params := by
  unfold raiseError; split <;> rfl
@[simp] theorem raiseError_holes : (s.raiseError inst sh r).shared.holes = sh.holes := by
  unfold raiseError; split <;> rfl
@[simp] theorem raiseError_recorded : (s.raiseError inst sh r).shared.recorded = sh.recorded := by
  unfold raiseError; split <;> rfl
@[simp] theorem raiseError_providers : (s.raiseError inst sh r).shared.providers = sh.providers := by
  unfold raiseError; split <;> rfl

/-- The instance that an error leaves behind (R268). -/
def failedInst (inst : Inst) (sh : Shared) (r : Raise) : Inst :=
  if r.kind.fatal then { status := { failed := true, err := r.kind.code }, codec := inst.codec.unspecified sh.freeCount }
  else { inst with status := { inst.status with err := r.kind.code } }

theorem raiseError_slots : (s.raiseError inst sh r).slots = s.slots.set s.cur (some (failedInst inst sh r)) := by
  unfold raiseError failedInst; split <;> rfl

theorem addressed_raiseError {s : State} {old inst : Inst} (h : s.addressed = some old) (sh : Shared) (r : Raise) :
    (s.raiseError inst sh r).addressed = some (failedInst inst sh r) := by
  simp [addressed, raiseError_slots, cur_lt_of_addressed h]

/-- An error touches no other slot. -/
theorem raiseError_other (j : Nat) (h : j ≠ s.cur) : (s.raiseError inst sh r).slots[j]? = s.slots[j]? := by
  simp [raiseError_slots, Ne.symm h]

end State

end Sys2Proof.Machine
end

