-- ==== Sys2Proof/Laws/Memory.lean ====
section
/-!
SUPPORT. The laws of caller memory: a read after a write, and the canonical form that every write keeps.
-/

namespace Sys2Proof.Machine

namespace Memory

/-- Every entry of `m` is beyond `a`. -/
def Above (a : Nat) (m : Memory) : Prop := ∀ c ∈ m, a < c.1

/-- The canonical form, entry by entry. -/
theorem wf_cons {c : Host.Cell} {m : Memory} :
    Memory.wf (c :: m) = true ↔ c.2 ≠ unlisted ∧ Above c.1 m ∧ Memory.wf m = true := by
  induction m generalizing c with
  | nil => simp [Memory.wf, Above]
  | cons d m ih =>
    simp only [Memory.wf, Bool.and_eq_true, bne_iff_ne, ne_eq, decide_eq_true_eq]
    constructor
    · rintro ⟨⟨h1, h2⟩, h3⟩
      refine ⟨h1, ?_, h3⟩
      intro e he
      rcases List.mem_cons.1 he with rfl | he
      · exact h2
      · exact Nat.lt_trans h2 ((ih.1 h3).2.1 e he)
    · rintro ⟨h1, h2, h3⟩
      exact ⟨⟨h1, h2 d (List.mem_cons_self ..)⟩, h3⟩

theorem read_of_above {m : Memory} {a : Nat} (h : Above a m) : m.read a = unlisted := by
  induction m with
  | nil => rfl
  | cons c m ih =>
    have hc := h c (List.mem_cons_self ..)
    simp only [read, if_neg (Nat.ne_of_lt hc)]
    exact ih fun e he => h e (List.mem_cons_of_mem _ he)

theorem above_mono {m : Memory} {a b : Nat} (hab : a ≤ b) (h : Above b m) : Above a m :=
  fun c hc => Nat.lt_of_le_of_lt hab (h c hc)

theorem above_write {m : Memory} {a b : Nat} {v : Byte} (h : Above a m) (hab : a < b) : Above a (m.write b v) := by
  induction m with
  | nil =>
    unfold write; split
    · exact h
    · intro c hc; simp at hc; subst hc; exact hab
  | cons d m ih =>
    have hm : Above a m := fun e he => h e (List.mem_cons_of_mem _ he)
    have hd := h d (List.mem_cons_self ..)
    unfold write
    split
    · split
      · exact h
      · intro c hc
        rcases List.mem_cons.1 hc with rfl | hc
        · exact hab
        · exact h c hc
    · split
      · split
        · exact hm
        · intro c hc
          rcases List.mem_cons.1 hc with rfl | hc
          · exact hab
          · exact hm c hc
      · intro c hc
        rcases List.mem_cons.1 hc with rfl | hc
        · exact hd
        · exact ih hm c hc

/-- A write keeps the canonical form. -/
theorem write_wf {m : Memory} (h : m.wf = true) (a : Nat) (v : Byte) : (m.write a v).wf = true := by
  induction m with
  | nil =>
    by_cases hv : v = unlisted
    · simp [write, hv, Memory.wf]
    · simpa [write, hv] using wf_cons.2 ⟨hv, by simp [Above], rfl⟩
  | cons d m ih =>
    obtain ⟨h1, h2, h3⟩ := wf_cons.1 h
    by_cases hlt : a < d.1
    · by_cases hv : v = unlisted
      · simpa [write, hlt, hv] using h
      · have hab : Above a (d :: m) := fun c hc => by
          rcases List.mem_cons.1 hc with rfl | hc
          · exact hlt
          · exact Nat.lt_trans hlt (h2 c hc)
        simpa [write, hlt, hv] using (wf_cons (c := (a, v))).2 ⟨hv, hab, h⟩
    · by_cases heq : a = d.1
      · by_cases hv : v = unlisted
        · simpa [write, heq, hv] using h3
        · simpa [write, heq, hv] using (wf_cons (c := (d.1, v))).2 ⟨hv, h2, h3⟩
      · have hab := above_write (v := v) h2 (Nat.lt_of_le_of_ne (Nat.le_of_not_lt hlt) (Ne.symm heq))
        simpa [write, hlt, heq] using wf_cons.2 ⟨h1, hab, ih h3⟩

/-- A read after a write in a canonical memory. -/
theorem read_write {m : Memory} (h : m.wf = true) (a b : Nat) (v : Byte) :
    (m.write a v).read b = if b = a then v else m.read b := by
  induction m with
  | nil =>
    unfold write
    by_cases hv : v = unlisted
    · simp [hv, read]
    · simp [hv, read]
  | cons d m ih =>
    obtain ⟨h1, h2, h3⟩ := wf_cons.1 h
    obtain ⟨da, dv⟩ := d
    simp only at h1 h2
    unfold write
    by_cases hlt : a < da
    · have hra : Memory.read m a = unlisted := read_of_above (above_mono (Nat.le_of_lt hlt) h2)
      by_cases hv : v = unlisted
      · simp only [hlt, hv, if_true]
        by_cases hb : b = a
        · subst hb; simpa [read, Nat.ne_of_lt hlt] using hra
        · simp [hb]
      · simp only [hlt, hv, if_true, if_false]
        by_cases hb : b = a
        · simp [read, hb]
        · simp [read, hb]
    · by_cases heq : a = da
      · subst heq
        by_cases hv : v = unlisted
        · simp only [lt_irrefl, if_false, if_true, hv]
          by_cases hb : b = a
          · subst hb; simpa using read_of_above h2
          · simp [read, hb]
        · simp only [lt_irrefl, if_false, if_true, hv]
          by_cases hb : b = a <;> simp [read, hb]
      · simp only [hlt, heq, if_false]
        by_cases hb : b = da
        · subst hb; simp [read, Ne.symm heq]
        · simp only [read, hb, if_false]
          exact ih h3

/-- Writes at offsets keep the canonical form. -/
theorem writeAt_wf {m : Memory} (h : m.wf = true) (base : Nat) (ws : List (Nat × Byte)) :
    (m.writeAt base ws).wf = true := by
  induction ws generalizing m with
  | nil => exact h
  | cons w ws ih => exact ih (write_wf h _ _)

/-- Writes leave every address alone that none of them names. -/
theorem read_writeAt_other {m : Memory} (h : m.wf = true) {base a : Nat} {ws : List (Nat × Byte)}
    (ha : ∀ w ∈ ws, a ≠ base + w.1) : (m.writeAt base ws).read a = m.read a := by
  induction ws generalizing m with
  | nil => rfl
  | cons w ws ih =>
    rw [writeAt, ih (write_wf h _ _) fun x hx => ha x (List.mem_cons_of_mem _ hx), read_write h,
      if_neg (ha w (List.mem_cons_self ..))]

/-- What a write at an offset leaves there, if no later one names the same offset. -/
theorem read_writeAt_mem {m : Memory} (h : m.wf = true) (base : Nat) {ws : List (Nat × Byte)}
    (hd : (ws.map Prod.fst).Nodup) {p : Nat} {v : Byte} (hp : (p, v) ∈ ws) :
    (m.writeAt base ws).read (base + p) = v := by
  induction ws generalizing m with
  | nil => cases hp
  | cons w ws ih =>
    simp only [List.map_cons, List.nodup_cons] at hd
    rw [writeAt]
    rcases List.mem_cons.1 hp with rfl | hp
    · rw [read_writeAt_other (write_wf h _ _), read_write h, if_pos rfl]
      intro x hx hx'
      exact hd.1 (List.mem_map.2 ⟨x, hx, by simp at hx'; exact hx'.symm⟩)
    · exact ih (write_wf h _ _) hd.2 hp

end Memory

end Sys2Proof.Machine
end

