-- ==== Sys2Proof/Laws/Stream.lean ====
section
/-!
SUPPORT. Procedures that end normally, and streams of segments: the relation "these bytes encode these values" with its
constructors for the two segment kinds, and its agreement with the decoder.
-/

namespace Sys2Proof.Machine

namespace Proc

variable {σ τ α β : Type}

@[simp] theorem bind_ok (a : α) (s : σ) (f : α → σ → Proc σ β) : (Proc.ok a s).bind f = f a s := rfl
@[simp] theorem bind_raised (r : Raise) (s : σ) (f : α → σ → Proc σ β) : (Proc.raised r s).bind f = .raised r s := rfl
@[simp] theorem bind_stuck (e : Fault) (f : α → σ → Proc σ β) : (Proc.stuck e).bind f = .stuck e := rfl
@[simp] theorem embed_ok (w : σ → τ) (a : α) (s : σ) : (Proc.ok a s).embed w = .ok a (w s) := rfl
@[simp] theorem embed_raised (w : σ → τ) (r : Raise) (s : σ) : (Proc.raised (α := α) r s).embed w = .raised r (w s) := rfl
@[simp] theorem embed_stuck (w : σ → τ) (e : Fault) : (Proc.stuck (α := α) e).embed w = .stuck e := rfl
@[simp] theorem yielding_ok (f : α → β) (a : α) (s : σ) : (Proc.ok a s).yielding f = .ok (f a) s := rfl
@[simp] theorem yielding_raised (f : α → β) (r : Raise) (s : σ) : (Proc.raised r s).yielding f = .raised r s := rfl
@[simp] theorem yielding_stuck (f : α → β) (e : Fault) : (Proc.stuck (σ := σ) e).yielding f = .stuck e := rfl

/-- A sequence ends normally when both parts do. -/
theorem bind_eq_ok {x : Proc σ α} {f : α → σ → Proc σ β} {b : β} {t : σ} :
    x.bind f = .ok b t ↔ ∃ a s, x = .ok a s ∧ f a s = .ok b t := by
  cases x <;> simp [bind]

/-- A sequence raises where one of its parts does. -/
theorem bind_eq_raised {x : Proc σ α} {f : α → σ → Proc σ β} {r : Raise} {t : σ} :
    x.bind f = .raised r t ↔ x = .raised r t ∨ ∃ a s, x = .ok a s ∧ f a s = .raised r t := by
  cases x <;> simp [bind]

theorem embed_eq_ok {x : Proc σ α} {w : σ → τ} {a : α} {t : τ} :
    x.embed w = .ok a t ↔ ∃ s, x = .ok a s ∧ w s = t := by
  cases x <;> simp [embed]

end Proc

/-! ### Headers -/

theorem decodeHeader_repeatHeader (k : BitVec 7) : decodeHeader (repeatHeader k) = .repeats k := by
  revert k; decide

theorem decodeHeader_literalHeader (m : BitVec 7) : decodeHeader (literalHeader m) = .literal m := by
  revert m; decide

theorem literalCount_pos (m : BitVec 7) : 1 ≤ literalCount m := by
  have := m.isLt; unfold literalCount; omega

theorem literalCount_le (m : BitVec 7) : literalCount m ≤ 128 := by unfold literalCount; omega

/-- A segment that is all there is decoded, with the bytes after it (R82). -/
theorem decodeSegment_rep (k : BitVec 7) (v : Byte) (rest : List Byte) :
    decodeSegment (repeatHeader k :: v :: rest) = .ok (.rep k v, rest) := by
  simp [decodeSegment, decodeHeader_repeatHeader]

/-- A literal that is all there is decoded, with the bytes after it (R83). -/
theorem decodeSegment_lit {m : BitVec 7} {p : List Byte} (hp : p.length = literalCount m) (rest : List Byte) :
    decodeSegment (literalHeader m :: (p ++ rest)) = .ok (.lit m p, rest) := by
  have hpos := literalCount_pos m
  simp only [decodeSegment, decodeHeader_literalHeader]
  have hd : (p ++ rest).drop (literalCount m - 1) = p[literalCount m - 1]'(by omega) :: rest := by
    rw [List.drop_append_of_le_length (by omega), List.drop_eq_getElem_cons (by omega),
      List.drop_of_length_le (by omega)]
    rfl
  rw [hd]
  simp [← hp]

/-! ### Streams -/

/-- The bytes are a concatenation of segments that stand for the values (R80). -/
inductive Encodes : List Byte → List Byte → Prop
  | nil : Encodes [] []
  | rep (k : BitVec 7) (v : Byte) {bs vs : List Byte} (h : Encodes bs vs) :
      Encodes (repeatHeader k :: v :: bs) (List.replicate (repeatCount k) v ++ vs)
  | lit (m : BitVec 7) {p : List Byte} (hp : p.length = literalCount m) {bs vs : List Byte} (h : Encodes bs vs) :
      Encodes (literalHeader m :: (p ++ bs)) (p ++ vs)

namespace Encodes

theorem append {as us bs vs : List Byte} (h : Encodes as us) (h' : Encodes bs vs) : Encodes (as ++ bs) (us ++ vs) := by
  induction h with
  | nil => exact h'
  | rep k v _ ih => simpa using Encodes.rep k v ih
  | lit m hp _ ih => simpa using Encodes.lit m hp ih

/-- The header of a repeat of `n` copies is `trunc_8(n - 3)` (R85). -/
theorem repeatOf {n : BitVec 8} (h3 : 3 ≤ n.toNat) (h130 : n.toNat ≤ 130) (v : Byte) :
    Encodes [n - BitVec.ofNat 8 minRepeat, v] (List.replicate n.toNat v) := by
  have h := Encodes.rep (BitVec.ofNat 7 (n.toNat - 3)) v Encodes.nil
  have e1 : repeatHeader (BitVec.ofNat 7 (n.toNat - 3)) = n - BitVec.ofNat 8 minRepeat := by
    apply BitVec.eq_of_toNat_eq
    simp [repeatHeader, BitVec.toNat_sub]
    omega
  have e2 : repeatCount (BitVec.ofNat 7 (n.toNat - 3)) = n.toNat := by
    simp [repeatCount]; omega
  rw [e1, e2] at h
  simpa using h

/-- The header of a literal of `n` bytes is `trunc_8(256 - n)` (R85). -/
theorem literalOf {bs : List Byte} (h1 : 1 ≤ bs.length) (h128 : bs.length ≤ 128) :
    Encodes ((0 - BitVec.ofNat 8 bs.length) :: bs) bs := by
  have hc : bs.length = literalCount (BitVec.ofNat 7 (128 - bs.length)) := by
    simp [literalCount]; omega
  have h := Encodes.lit (BitVec.ofNat 7 (128 - bs.length)) hc Encodes.nil
  have e1 : literalHeader (BitVec.ofNat 7 (128 - bs.length)) = 0 - BitVec.ofNat 8 bs.length := by
    have key : ∀ n : Fin 128, literalHeader (BitVec.ofNat 7 (128 - (n.val + 1))) = 0 - BitVec.ofNat 8 (n.val + 1) := by
      decide
    have := key ⟨bs.length - 1, by omega⟩
    simpa [Nat.sub_add_cancel h1] using this
  rw [e1] at h
  simpa using h

/-- The decoder reads the segments back, whatever bound on their number the length of the stream gives. -/
theorem decodeSegments {bs vs : List Byte} (h : Encodes bs vs) :
    ∀ fuel, bs.length ≤ fuel → ∃ is, Sys2Proof.decodeSegments fuel bs = .ok is ∧ is.flatMap Instr.values = vs := by
  induction h with
  | nil => intro fuel _; exact ⟨[], by cases fuel <;> rfl, rfl⟩
  | rep k v _ ih =>
    intro fuel hf
    cases fuel with
    | zero => simp at hf
    | succ fuel =>
      obtain ⟨is, h1, h2⟩ := ih fuel (by simp at hf; omega)
      exact ⟨.rep k v :: is, by simp [Sys2Proof.decodeSegments, decodeSegment_rep, h1, Except.map],
        by simp [Instr.values, h2]⟩
  | @lit m p hp _ _ _ ih =>
    intro fuel hf
    cases fuel with
    | zero => simp at hf
    | succ fuel =>
      obtain ⟨is, h1, h2⟩ := ih fuel (by simp at hf; omega)
      exact ⟨.lit m p :: is, by simp [Sys2Proof.decodeSegments, decodeSegment_lit hp, h1, Except.map],
        by simp [Instr.values, h2]⟩

/-- An encoding decodes to its values (R80). -/
theorem decodeStream_eq {bs vs : List Byte} (h : Encodes bs vs) : decodeStream bs = .ok vs := by
  obtain ⟨is, h1, h2⟩ := h.decodeSegments bs.length (Nat.le_refl _)
  simp [decodeStream, h1, h2, Except.map]

theorem segmentValues_eq {bs vs : List Byte} (h : Encodes bs vs) :
    ∀ fuel, bs.length ≤ fuel → segmentValues fuel bs = vs := by
  induction h with
  | nil => intro fuel _; cases fuel <;> rfl
  | rep k v _ ih =>
    intro fuel hf
    cases fuel with
    | zero => simp at hf
    | succ fuel => simp [segmentValues, decodeHeader_repeatHeader, ih fuel (by simp at hf; omega)]
  | lit m hp _ ih =>
    intro fuel hf
    cases fuel with
    | zero => simp at hf
    | succ fuel => simp [segmentValues, decodeHeader_literalHeader, ← hp, ih fuel (by simp at hf; omega)]

/-- The values of an encoding are what it stands for. -/
theorem streamValues_eq {bs vs : List Byte} (h : Encodes bs vs) : streamValues bs = vs :=
  h.segmentValues_eq _ (Nat.le_refl _)

end Encodes

end Sys2Proof.Machine
end

