-- ==== Sys2Proof/Laws/Encoder.lean ====
section
/-!
SUPPORT. What the byte encoder's procedures do: one byte, a run of bytes, one segment, one value. Each lemma says all that its
procedure does when it ends normally, and when it does.
-/

namespace Sys2Proof.Machine

theorem EncRegs.SameStage.trans {r r' r'' : EncRegs} (h : r.SameStage r') (h' : r'.SameStage r'') : r.SameStage r'' :=
  ⟨h'.1.trans h.1, h'.2.1.trans h.2.1, h'.2.2.1.trans h.2.2.1, h'.2.2.2.trans h.2.2.2⟩

namespace Enc

/-- A byte placed in a window with room: the written part of the stream grows by it. -/
theorem place_spec {e : Enc} (b : Byte) (hroom : e.regs.bufPos.toNat < e.regs.bufLen.toNat)
    (hwin : e.sink.winStart + e.regs.bufLen.toNat = e.sink.stream.length) :
    (e.place b).Coherent ∧ (e.place b).written = e.written ++ [some b] := by
  have hlen := e.regs.bufLen.isLt
  have hp : (e.regs.bufPos + 1).toNat = e.regs.bufPos.toNat + 1 := by
    rw [BitVec.toNat_add]; simp; omega
  refine ⟨⟨by simp only [place]; omega, Or.inr (by simp [place, Sink.put, hwin])⟩, ?_⟩
  simp only [written, place, Sink.put, List.length_set, hp]
  have h1 : e.sink.stream.length - (e.regs.bufLen.toNat - (e.regs.bufPos.toNat + 1)) =
      e.sink.winStart + e.regs.bufPos.toNat + 1 := by omega
  have h2 : e.sink.stream.length - (e.regs.bufLen.toNat - e.regs.bufPos.toNat) =
      e.sink.winStart + e.regs.bufPos.toNat := by omega
  have h3 : e.sink.winStart + e.regs.bufPos.toNat < e.sink.stream.length := by omega
  rw [h1, h2, List.take_succ_eq_append_getElem (by simpa using h3), List.take_set_of_le (Nat.le_refl _)]
  simp

/-- What `EmitByte` does when it ends normally (R101). -/
theorem emitByte_spec {e e' : Enc} {b : Byte} (hc : e.Coherent) (h : e.emitByte b = .ok () e') :
    e'.Coherent ∧ e'.written = e.written ++ [some b] ∧ e.regs.SameStage e'.regs := by
  unfold emitByte at h
  split at h
  · next hfull =>
    cases ha : e.sink.answer with
    | none => simp [Sink.next, ha] at h
    | some len =>
      simp only [Sink.next, ha] at h
      split at h
      · cases h
      · next hlen =>
        have hlen' : 0 < len.toNat := by
          rcases Nat.eq_zero_or_pos len.toNat with h0 | h0
          · exact absurd (BitVec.eq_of_toNat_eq (by simpa using h0)) hlen
          · exact h0
        cases h
        have key := place_spec (e := { regs := { e.regs with bufLen := len, bufPos := 0 }, sink := e.sink.next.2 }) b
          (by simpa using hlen') (by simp [Sink.next, ha])
        simp only [Sink.next, ha] at key
        refine ⟨key.1, key.2.trans ?_, rfl, rfl, rfl, rfl⟩
        have h0 : e.regs.bufLen.toNat - e.regs.bufPos.toNat = 0 := by rw [hfull]; omega
        simp [written, h0]
  · next hroom =>
    cases h
    have hne : e.regs.bufPos.toNat ≠ e.regs.bufLen.toNat := fun hq => hroom (BitVec.eq_of_toNat_eq hq)
    have hlt : e.regs.bufPos.toNat < e.regs.bufLen.toNat := by have := hc.1; omega
    have hwin : e.sink.winStart + e.regs.bufLen.toNat = e.sink.stream.length := by
      rcases hc.2 with h0 | h0
      · omega
      · exact h0
    have key := place_spec b hlt hwin
    exact ⟨key.1, key.2, rfl, rfl, rfl, rfl⟩

/-- What a run of `EmitByte` does when it ends normally. -/
theorem emitBytes_spec {e e' : Enc} {bs : List Byte} (hc : e.Coherent) (h : e.emitBytes bs = .ok () e') :
    e'.Coherent ∧ e'.written = e.written ++ bs.map some ∧ e.regs.SameStage e'.regs := by
  induction bs generalizing e with
  | nil => cases h; exact ⟨hc, by simp, rfl, rfl, rfl, rfl⟩
  | cons b bs ih =>
    obtain ⟨_, e1, h1, h2⟩ := Proc.bind_eq_ok.1 h
    obtain ⟨c1, w1, s1⟩ := emitByte_spec hc h1
    obtain ⟨c2, w2, s2⟩ := ih c1 h2
    exact ⟨c2, by simp [w2, w1], s1.trans s2⟩

/-- What `WriteValues` does when it ends normally (R102): the staged segment is written, the stage is empty. -/
theorem writeValues_spec {e e' : Enc} (hc : e.Coherent) (h : e.writeValues = .ok () e') :
    e'.Coherent ∧
      e'.written = e.written ++ (if e.regs.numLiterals = 0 then [] else e.regs.segment.map some) ∧
      e'.regs.lit = e.regs.lit ∧ e'.regs.numLiterals = 0 ∧
      (e.regs.numLiterals ≠ 0 → e'.regs.repeating = false ∧ e'.regs.tailRun = 0) ∧
      (e.regs.numLiterals = 0 → e' = e) := by
  unfold writeValues at h
  split at h
  · next h0 => cases h; exact ⟨hc, by simp [h0], rfl, h0, fun hn => absurd h0 hn, fun _ => rfl⟩
  · next h0 =>
    obtain ⟨_, e1, h1, h2⟩ := Proc.bind_eq_ok.1 h
    cases h2
    obtain ⟨c1, w1, s1⟩ := emitBytes_spec hc h1
    exact ⟨c1, by rw [if_neg h0]; exact w1, by simpa using s1.1, rfl, fun _ => ⟨rfl, rfl⟩, fun hn => absurd hn h0⟩

/-- The segment of a stage encodes the staged values (R85, R102). -/
theorem segment_encodes {r : EncRegs} (h0 : r.numLiterals ≠ 0)
    (hrep : r.repeating = true → 3 ≤ r.numLiterals.toNat ∧ r.numLiterals.toNat ≤ 130)
    (hlit : r.repeating = false → r.numLiterals.toNat ≤ 128) : Encodes r.segment r.stagedValues := by
  have hne : r.numLiterals.toNat ≠ 0 := fun h => h0 (BitVec.eq_of_toNat_eq (by simpa using h))
  unfold EncRegs.segment EncRegs.stagedValues
  cases hr : r.repeating with
  | true => simpa [hr] using Encodes.repeatOf (hrep hr).1 (hrep hr).2 (r.litAt 0)
  | false =>
    have := Encodes.literalOf (bs := r.stagedBytes) (by simp [EncRegs.stagedBytes]; omega)
      (by simpa [EncRegs.stagedBytes] using hlit hr)
    simpa [EncRegs.stagedBytes] using this

/-- What `WriteValues` writes stands for what was staged. -/
theorem writeValues_encodes {e e' : Enc} (hc : e.Coherent) (h : e.writeValues = .ok () e') (h0 : e.regs.numLiterals ≠ 0)
    (hrep : e.regs.repeating = true → 3 ≤ e.regs.numLiterals.toNat ∧ e.regs.numLiterals.toNat ≤ 130)
    (hlit : e.regs.repeating = false → e.regs.numLiterals.toNat ≤ 128) :
    ∃ bs, Encodes bs e.regs.stagedValues ∧ e'.written = e.written ++ bs.map some := by
  obtain ⟨_, hw, _⟩ := writeValues_spec hc h
  exact ⟨_, segment_encodes h0 hrep hlit, by rwa [if_neg h0] at hw⟩

/-- What one `Write` does when it ends normally (R103 to R109): the stage stays sound, and what is written and staged stands
for one value more. -/
def WriteSpec (e : Enc) (v : Byte) (e' : Enc) : Prop :=
  e'.regs.StageInv ∧ e'.Coherent ∧
    ∃ bs vs, Encodes bs vs ∧ e'.written = e.written ++ bs.map some ∧
      vs ++ e'.regs.stagedValues = e.regs.stagedValues ++ [v]

theorem ne_zero_of_toNat {w : Nat} {x : BitVec w} (h : x.toNat ≠ 0) : x ≠ 0 := by
  rintro rfl; simp at h

theorem toNat_ne_zero {w : Nat} {x : BitVec w} (h : x ≠ 0) : x.toNat ≠ 0 :=
  fun h0 => h (BitVec.eq_of_toNat_eq (by simpa using h0))

/-- Only the stage registers changed. -/
theorem coherent_of_window {e : Enc} {r : EncRegs} (hc : e.Coherent) (hl : r.bufLen = e.regs.bufLen)
    (hp : r.bufPos = e.regs.bufPos) : Coherent { e with regs := r } ∧ written { e with regs := r } = e.written := by
  simp only [Coherent, written, hl, hp] at hc ⊢
  exact ⟨hc, trivial⟩

theorem startStage_inv {r : EncRegs} (hr : r.repeating = false) (v : Byte) :
    (r.startStage v).StageInv ∧ (r.startStage v).stagedValues = [v] := by
  constructor
  · simp [EncRegs.StageInv, hr]
  · simp [EncRegs.stagedValues, EncRegs.stagedBytes, hr]

/-- Case *Start* (R104). -/
theorem startCase_spec {e e' : Enc} {v : Byte} (hi : e.regs.StageInv) (hc : e.Coherent) (h0 : e.regs.numLiterals = 0)
    (h : e.startCase v = .ok () e') : WriteSpec e v e' := by
  cases h
  have hr : e.regs.repeating = false := by
    cases hr : e.regs.repeating with
    | false => rfl
    | true => simp [EncRegs.StageInv, hr, h0] at hi
  have hs := startStage_inv hr v
  have hw := coherent_of_window (r := e.regs.startStage v) hc rfl rfl
  exact ⟨hs.1, hw.1, [], [], .nil, by rw [hw.2]; simp, by rw [hs.2]; simp [EncRegs.stagedValues, EncRegs.stagedBytes, hr, h0]⟩

/-- Case *Extend repeat* (R105). -/
theorem extendCase_spec {e e' : Enc} {v : Byte} (hi : e.regs.StageInv) (hc : e.Coherent) (hr : e.regs.repeating = true)
    (hv : v = e.regs.litAt 0) (h : e.extendCase = .ok () e') : WriteSpec e v e' := by
  simp only [EncRegs.StageInv, hr, if_true, minRepeat_eq, maxRepeat_eq] at hi
  have hn : (e.regs.numLiterals + 1).toNat = e.regs.numLiterals.toNat + 1 := by rw [BitVec.toNat_add]; simp; omega
  have hst : (List.replicate (e.regs.numLiterals.toNat + 1) (e.regs.litAt 0) : List Byte) =
      e.regs.stagedValues ++ [v] := by
    simp [EncRegs.stagedValues, hr, hv, List.replicate_succ']
  have hw := coherent_of_window (r := e.regs.withCount (e.regs.numLiterals + 1)) hc rfl rfl
  unfold extendCase at h
  simp only [EncRegs.withCount_numLiterals, hn, maxRepeat_eq] at h
  split at h
  · next h130 =>
    have h0 : e.regs.numLiterals + 1 ≠ 0 := ne_zero_of_toNat (by omega)
    obtain ⟨c, _, _, n0, hclear, _⟩ := writeValues_spec hw.1 h
    obtain ⟨bs, henc, hwr⟩ := writeValues_encodes hw.1 h h0 (fun _ => by simp only [EncRegs.withCount_numLiterals, hn]; omega)
      (fun hf => by simp [hr] at hf)
    refine ⟨?_, c, bs, _, henc, by rw [hwr, hw.2], ?_⟩
    · simp [EncRegs.StageInv, n0, hclear h0]
    · rw [← hst]
      simp only [EncRegs.stagedValues, EncRegs.stagedBytes, n0, hclear h0, hr, hn, EncRegs.withCount_numLiterals,
        EncRegs.withCount_repeating, EncRegs.litAt_withCount]
      simp
  · next h130 =>
    cases h
    refine ⟨?_, hw.1, [], [], .nil, by rw [hw.2]; simp, ?_⟩
    · simp only [EncRegs.StageInv, hr, if_true, minRepeat_eq, maxRepeat_eq, hn, EncRegs.withCount_numLiterals,
        EncRegs.withCount_repeating]
      omega
    · rw [← hst]
      simp only [EncRegs.stagedValues, hr, hn, EncRegs.withCount_numLiterals, EncRegs.withCount_repeating,
        EncRegs.litAt_withCount, if_true, List.nil_append]

/-- Case *Break repeat* (R106). -/
theorem breakCase_spec {e e' : Enc} {v : Byte} (hi : e.regs.StageInv) (hc : e.Coherent) (hr : e.regs.repeating = true)
    (h : e.breakCase v = .ok () e') : WriteSpec e v e' := by
  simp only [EncRegs.StageInv, hr, if_true, minRepeat_eq, maxRepeat_eq] at hi
  obtain ⟨_, e1, h1, h2⟩ := Proc.bind_eq_ok.1 h
  cases h2
  have h0 : e.regs.numLiterals ≠ 0 := ne_zero_of_toNat (by omega)
  obtain ⟨c, _, _, n0, hclear, _⟩ := writeValues_spec hc h1
  obtain ⟨bs, henc, hwr⟩ := writeValues_encodes hc h1 h0 (fun _ => by omega) (fun hf => by simp [hr] at hf)
  have hs := startStage_inv (hclear h0).1 v
  have hw := coherent_of_window (r := e1.regs.startStage v) c rfl rfl
  exact ⟨hs.1, hw.1, bs, _, henc, by rw [hw.2, hwr], by simp only [hs.2]⟩

/-- A stage of bytes, one longer. -/
theorem stagedBytes_snoc (r : EncRegs) (v : Byte) (hn : r.numLiterals.toNat < 128) :
    ((r.setLit r.numLiterals.toNat v).withCount (r.numLiterals + 1)).stagedBytes =
      r.stagedBytes ++ [v] := by
  have h1 : (r.numLiterals + 1).toNat = r.numLiterals.toNat + 1 := by rw [BitVec.toNat_add]; simp; omega
  simp only [EncRegs.stagedBytes, EncRegs.withCount_numLiterals, h1, List.range_succ, List.map_append, List.map_cons, List.map_nil]
  congr 1
  · apply List.map_congr_left
    intro j hj
    have hj := List.mem_range.1 hj
    have := EncRegs.litAt_setLit r v r.numLiterals.toNat j
    rw [if_neg (by omega)] at this
    exact this
  · have := EncRegs.litAt_setLit r v r.numLiterals.toNat r.numLiterals.toNat
    rw [if_pos ⟨rfl, hn⟩] at this
    simpa [EncRegs.litAt] using this

/-- The staged bytes of a stage that ends in two equal bytes. -/
theorem stagedBytes_pair (r : EncRegs) (k : Nat) (hn : r.numLiterals.toNat = k + 2) :
    r.stagedBytes = (List.range k).map r.litAt ++ [r.litAt k, r.litAt (k + 1)] := by
  simp [EncRegs.stagedBytes, hn, List.range_succ]

/-- The tail run is about to be one longer, or one (R107). -/
theorem bumpTail_tailRun {r : EncRegs} (v : Byte) (h2 : r.tailRun.toNat ≤ 2) :
    (r.bumpTail v).tailRun.toNat = if v = r.litAt (r.numLiterals.toNat - 1) then r.tailRun.toNat + 1 else 1 := by
  unfold EncRegs.bumpTail
  split
  · rw [BitVec.toNat_add]; simp; omega
  · rfl

/-- `Promote` (R108): the last two staged bytes are `v`. -/
theorem promote_spec {e e' : Enc} {v : Byte} {k : Nat} (hc : e.Coherent) (hr : e.regs.repeating = false)
    (hn : e.regs.numLiterals.toNat = k + 2) (hk : k + 2 ≤ 127) (h1 : e.regs.litAt k = v) (h2 : e.regs.litAt (k + 1) = v)
    (h : e.promote v = .ok () e') : WriteSpec e v e' := by
  obtain ⟨_, e1, ha, hb⟩ := Proc.bind_eq_ok.1 h
  cases hb
  have hst : e.regs.stagedValues ++ [v] = (List.range k).map e.regs.litAt ++ List.replicate 3 v := by
    simp [EncRegs.stagedValues, hr, stagedBytes_pair e.regs k hn, h1, h2, List.replicate]
  have hrs : ∀ r : EncRegs, (r.startRepeat v).StageInv ∧ (r.startRepeat v).stagedValues = List.replicate 3 v := by
    intro r
    constructor
    · simp [EncRegs.StageInv]
    · simp [EncRegs.stagedValues]
  unfold WriteSpec
  rw [hst, (hrs e1.regs).2]
  refine ⟨(hrs e1.regs).1, ?_⟩
  simp only [hn, minRepeat_eq] at ha
  split at ha
  · next hk0 =>
    have hsub : (e.regs.numLiterals - BitVec.ofNat 8 (3 - 1)).toNat = k := by
      rw [BitVec.toNat_sub]; simp; omega
    have hw := coherent_of_window (r := e.regs.withCount (e.regs.numLiterals - BitVec.ofNat 8 (3 - 1))) hc rfl rfl
    have h0 : e.regs.numLiterals - BitVec.ofNat 8 (3 - 1) ≠ 0 := ne_zero_of_toNat (by omega)
    obtain ⟨c, _⟩ := writeValues_spec hw.1 ha
    obtain ⟨bs, henc, hwr⟩ := writeValues_encodes hw.1 ha h0 (fun hf => by simp [hr] at hf)
      (fun _ => by simp only [EncRegs.withCount_numLiterals, hsub]; omega)
    have hw1 := coherent_of_window (r := e1.regs.startRepeat v) c rfl rfl
    refine ⟨hw1.1, bs, _, henc, by rw [hw1.2, hwr, hw.2], ?_⟩
    simp only [EncRegs.stagedValues, EncRegs.stagedBytes, EncRegs.withCount_numLiterals, EncRegs.withCount_repeating, hr,
      hsub, Bool.false_eq_true, if_false]
    rfl
  · next hk0 =>
    cases ha
    have hw1 := coherent_of_window (r := e.regs.startRepeat v) hc rfl rfl
    have : k = 0 := by omega
    exact ⟨hw1.1, [], [], .nil, by rw [hw1.2]; simp, by simp [this]⟩

/-- `Append` (R109): the stage is sound once `v` is in it. -/
theorem append_spec {e e' : Enc} {v : Byte} (hc : e.Coherent) (hr : e.regs.repeating = false)
    (hn : e.regs.numLiterals.toNat ≤ 127)
    (hi : e.regs.numLiterals.toNat < 127 →
      ((e.regs.setLit e.regs.numLiterals.toNat v).withCount (e.regs.numLiterals + 1)).StageInv)
    (h : e.append v = .ok () e') : WriteSpec e v e' := by
  have h1 : (e.regs.numLiterals + 1).toNat = e.regs.numLiterals.toNat + 1 := by rw [BitVec.toNat_add]; simp; omega
  have hw := coherent_of_window
    (r := (e.regs.setLit e.regs.numLiterals.toNat v).withCount (e.regs.numLiterals + 1)) hc rfl rfl
  have hst : ((e.regs.setLit e.regs.numLiterals.toNat v).withCount (e.regs.numLiterals + 1)).stagedValues =
      e.regs.stagedValues ++ [v] := by
    have := stagedBytes_snoc e.regs v (by omega)
    simpa [EncRegs.stagedValues, hr] using this
  unfold append at h
  simp only [EncRegs.setLit_numLiterals, EncRegs.withCount_numLiterals, h1, maxLiteral_eq] at h
  unfold WriteSpec
  rw [← hst]
  split at h
  · next h128 =>
    have h0 : e.regs.numLiterals + 1 ≠ 0 := ne_zero_of_toNat (by omega)
    obtain ⟨c, _, _, n0, hclear, _⟩ := writeValues_spec hw.1 h
    obtain ⟨bs, henc, hwr⟩ := writeValues_encodes hw.1 h h0 (fun hf => by simp [hr] at hf)
      (fun _ => by simp only [EncRegs.withCount_numLiterals, h1]; omega)
    refine ⟨?_, c, bs, _, henc, by rw [hwr, hw.2], ?_⟩
    · simp [EncRegs.StageInv, n0, hclear h0]
    · simp only [EncRegs.stagedValues, EncRegs.stagedBytes, n0, hclear h0]
      simp
  · next h128 =>
    cases h
    exact ⟨hi (by omega), hw.1, [], [], .nil, by rw [hw.2]; simp, by simp⟩

/-- Case *Literal* (R107). -/
theorem literalCase_spec {e e' : Enc} {v : Byte} (hi : e.regs.StageInv) (hc : e.Coherent)
    (h0 : e.regs.numLiterals ≠ 0) (hr : e.regs.repeating = false) (h : e.literalCase v = .ok () e') : WriteSpec e v e' := by
  have hn0 := toNat_ne_zero h0
  simp only [EncRegs.StageInv, hr, hn0, if_false, minRepeat_eq, maxLiteral_eq, Bool.false_eq_true] at hi
  obtain ⟨hn, ht1, ht2, htn, hpair, hdiff⟩ := hi
  have hw := coherent_of_window (r := e.regs.bumpTail v) hc rfl rfl
  have htail := bumpTail_tailRun v ht2
  have hback : WriteSpec { e with regs := e.regs.bumpTail v } v e' → WriteSpec e v e' := by
    unfold WriteSpec
    rw [hw.2]
    exact id
  apply hback
  have h : (if (e.regs.bumpTail v).tailRun.toNat = minRepeat then promote { e with regs := e.regs.bumpTail v } v
      else append { e with regs := e.regs.bumpTail v } v) = .ok () e' := h
  by_cases h3 : (e.regs.bumpTail v).tailRun.toNat = minRepeat
  · rw [if_pos h3] at h
    rw [htail, minRepeat_eq] at h3
    split at h3
    · next hv =>
      have hp := hpair (by omega)
      obtain ⟨k, hk⟩ : ∃ k, e.regs.numLiterals.toNat = k + 2 := ⟨e.regs.numLiterals.toNat - 2, by omega⟩
      rw [hk] at hv hp
      refine promote_spec (k := k) hw.1 hr hk (by omega) ?_ ?_ h
      · simpa using (hp.trans hv.symm)
      · simpa using hv.symm
    · omega
  · rw [if_neg h3] at h
    refine append_spec hw.1 hr (by simp; omega) ?_ h
    intro hlt
    simp only [EncRegs.bumpTail_numLiterals] at hlt
    have h1 : (e.regs.numLiterals + 1).toNat = e.regs.numLiterals.toNat + 1 := by rw [BitVec.toNat_add]; simp; omega
    have hget : ∀ j, (((e.regs.bumpTail v).setLit e.regs.numLiterals.toNat v).withCount (e.regs.numLiterals + 1)).litAt j =
        if e.regs.numLiterals.toNat = j ∧ j < 128 then v else e.regs.litAt j := fun j => by
      rw [EncRegs.litAt_withCount, EncRegs.litAt_setLit]
      rfl
    simp only [EncRegs.StageInv, EncRegs.withCount_repeating, EncRegs.setLit_repeating, EncRegs.bumpTail_repeating, hr,
      EncRegs.withCount_numLiterals, EncRegs.bumpTail_numLiterals, h1, EncRegs.withCount_tailRun, EncRegs.setLit_tailRun,
      htail, hget, minRepeat_eq, maxLiteral_eq, Bool.false_eq_true, if_false]
    rw [htail, minRepeat_eq] at h3
    rw [if_neg (by omega)]
    by_cases hv : v = e.regs.litAt (e.regs.numLiterals.toNat - 1)
    · simp only [if_pos hv] at h3 ⊢
      have ht : e.regs.tailRun.toNat = 1 := by omega
      simp only [ht, Nat.reduceAdd]
      refine ⟨by omega, by omega, by omega, by omega, fun _ => ?_, fun hlt' => ?_⟩
      · rw [if_neg (by omega), if_pos (by omega)]
        rw [show e.regs.numLiterals.toNat + 1 - 2 = e.regs.numLiterals.toNat - 1 by omega]
        exact hv.symm
      · rw [if_neg (by omega), if_pos (by omega)]
        have := hdiff (by omega)
        rw [ht] at this
        rw [show e.regs.numLiterals.toNat + 1 - 1 - 2 = e.regs.numLiterals.toNat - 1 - 1 by omega]
        rw [hv]
        exact this
    · simp only [if_neg hv]
      refine ⟨by omega, by omega, by omega, by omega, fun h => by omega, fun _ => ?_⟩
      rw [if_neg (by omega), if_pos (by omega)]
      rw [show e.regs.numLiterals.toNat + 1 - 1 - 1 = e.regs.numLiterals.toNat - 1 by omega]
      exact Ne.symm hv

/-- What one `Write` does when it ends normally (R103). -/
theorem write_spec {e e' : Enc} {v : Byte} (hi : e.regs.StageInv) (hc : e.Coherent) (h : e.write v = .ok () e') :
    WriteSpec e v e' := by
  unfold write at h
  split at h
  · next h0 => exact startCase_spec hi hc h0 h
  · next h0 =>
    split at h
    · next hr =>
      split at h
      · next hv => exact extendCase_spec hi hc hr hv h
      · exact breakCase_spec hi hc hr h
    · next hr => exact literalCase_spec hi hc h0 (by simpa using hr) h

/-- What a run of `Write` does when it ends normally: written and staged stand for the values given, in order. -/
theorem writeAll_spec {e e' : Enc} {vs : List Byte} (hi : e.regs.StageInv) (hc : e.Coherent)
    (h : e.writeAll vs = .ok () e') :
    e'.regs.StageInv ∧ e'.Coherent ∧
      ∃ bs us, Encodes bs us ∧ e'.written = e.written ++ bs.map some ∧
        us ++ e'.regs.stagedValues = e.regs.stagedValues ++ vs := by
  induction vs generalizing e with
  | nil => cases h; exact ⟨hi, hc, [], [], .nil, by simp, by simp⟩
  | cons v vs ih =>
    obtain ⟨_, e1, h1, h2⟩ := Proc.bind_eq_ok.1 h
    obtain ⟨i1, c1, bs1, us1, en1, w1, s1⟩ := write_spec hi hc h1
    obtain ⟨i2, c2, bs2, us2, en2, w2, s2⟩ := ih i1 c1 h2
    exact ⟨i2, c2, bs1 ++ bs2, us1 ++ us2, en1.append en2, by simp [w2, w1],
      by rw [List.append_assoc, s2, ← List.append_assoc, s1]; simp⟩

/-- One run after another. -/
theorem writeAll_append {e e1 e2 : Enc} {as bs : List Byte} (h1 : e.writeAll as = .ok () e1)
    (h2 : e1.writeAll bs = .ok () e2) : e.writeAll (as ++ bs) = .ok () e2 := by
  induction as generalizing e with
  | nil => cases h1; exact h2
  | cons a as ih =>
    obtain ⟨_, e', ha, hb⟩ := Proc.bind_eq_ok.1 h1
    simp only [List.cons_append, writeAll, ha, Proc.bind_ok, ih hb]

/-! ### A sink that serves (20_memory R63): no procedure raises -/

theorem serves_next {s : Sink} (h : s.Serves) : ∃ len, len ≠ 0 ∧ s.next.1 = some len ∧ s.next.2.Serves := by
  obtain ⟨hq, hs, w, hw, hm⟩ := h
  unfold Sink.next Sink.answer
  cases hsc : s.script with
  | nil => simp only [hm]; exact ⟨w, hw, rfl, hq, by simp, w, hw, rfl⟩
  | cons a rest =>
    rw [hsc] at hs
    have ha := hs a (List.mem_cons_self ..)
    cases a with
    | none => simp at ha
    | some len =>
      exact ⟨len, fun h0 => ha.2 (by rw [h0]), rfl, hq, fun b hb => hs b (List.mem_cons_of_mem _ hb), w, hw, hm⟩

/-- `EmitByte` on a sink that serves. -/
theorem emitByte_serves {e : Enc} (b : Byte) (h : e.sink.Serves) : ∃ e', e.emitByte b = .ok () e' ∧ e'.sink.Serves := by
  unfold emitByte
  split
  · obtain ⟨len, hl, h1, h2⟩ := serves_next h
    generalize e.sink.next = x at h1 h2
    obtain ⟨a, s⟩ := x
    simp only at h1 h2
    subst h1
    simp only [if_neg hl]
    exact ⟨_, rfl, h2⟩
  · exact ⟨_, rfl, h⟩

theorem emitBytes_serves {e : Enc} (bs : List Byte) (h : e.sink.Serves) :
    ∃ e', e.emitBytes bs = .ok () e' ∧ e'.sink.Serves := by
  induction bs generalizing e with
  | nil => exact ⟨e, rfl, h⟩
  | cons b bs ih =>
    obtain ⟨e1, h1, s1⟩ := emitByte_serves b h
    obtain ⟨e2, h2, s2⟩ := ih s1
    exact ⟨e2, by simp only [emitBytes, h1, Proc.bind_ok, h2], s2⟩

theorem writeValues_serves {e : Enc} (h : e.sink.Serves) : ∃ e', e.writeValues = .ok () e' ∧ e'.sink.Serves := by
  unfold writeValues
  split
  · exact ⟨e, rfl, h⟩
  · obtain ⟨e1, h1, s1⟩ := emitBytes_serves e.regs.segment h
    rw [h1]
    exact ⟨_, rfl, s1⟩

theorem promote_serves {e : Enc} (v : Byte) (h : e.sink.Serves) : ∃ e', e.promote v = .ok () e' ∧ e'.sink.Serves := by
  unfold promote
  split
  · obtain ⟨e1, h1, s1⟩ := writeValues_serves
      (e := { e with regs := e.regs.withCount (e.regs.numLiterals - BitVec.ofNat 8 (minRepeat - 1)) }) h
    rw [h1]
    exact ⟨_, rfl, s1⟩
  · exact ⟨_, rfl, h⟩

theorem append_serves {e : Enc} (v : Byte) (h : e.sink.Serves) : ∃ e', e.append v = .ok () e' ∧ e'.sink.Serves := by
  unfold append
  dsimp only
  split
  · exact writeValues_serves h
  · exact ⟨_, rfl, h⟩

/-- `Write` on a sink that serves. -/
theorem write_serves {e : Enc} (v : Byte) (h : e.sink.Serves) : ∃ e', e.write v = .ok () e' ∧ e'.sink.Serves := by
  unfold write
  split
  · exact ⟨_, rfl, h⟩
  · split
    · split
      · unfold extendCase
        dsimp only
        split
        · exact writeValues_serves h
        · exact ⟨_, rfl, h⟩
      · obtain ⟨e1, h1, s1⟩ := writeValues_serves h
        unfold breakCase
        rw [h1]
        exact ⟨_, rfl, s1⟩
    · unfold literalCase
      dsimp only
      split
      · exact promote_serves v h
      · exact append_serves v h

theorem writeAll_serves {e : Enc} (vs : List Byte) (h : e.sink.Serves) :
    ∃ e', e.writeAll vs = .ok () e' ∧ e'.sink.Serves := by
  induction vs generalizing e with
  | nil => exact ⟨e, rfl, h⟩
  | cons v vs ih =>
    obtain ⟨e1, h1, s1⟩ := write_serves v h
    obtain ⟨e2, h2, s2⟩ := ih s1
    exact ⟨e2, by simp only [writeAll, h1, Proc.bind_ok, h2], s2⟩

/-! ### `FLUSH` -/

/-- What giving the window back leaves (R114): the stream is what was written. -/
theorem release_spec {e : Enc} (hc : e.Coherent) :
    e.release.2.sink.stream = e.written ∧ e.release.2.regs = { e.regs with bufLen := 0, bufPos := 0 } ∧
      e.release.2.sink.script = e.sink.script ∧ e.release.2.sink.model = e.sink.model ∧
      (∀ w, e.sink.model = .reference w → e.release.1 = countBits e.written.length) := by
  have hsub : (e.regs.bufLen - e.regs.bufPos).toNat = e.regs.bufLen.toNat - e.regs.bufPos.toNat := by
    rw [BitVec.toNat_sub_of_le (BitVec.le_def.2 hc.1)]
  have hst : (e.sink.backUp (e.regs.bufLen - e.regs.bufPos)).stream = e.written := by
    simp only [Sink.backUp, written, hsub]
  refine ⟨hst, rfl, rfl, rfl, fun w hw => ?_⟩
  have hm : (e.sink.backUp (e.regs.bufLen - e.regs.bufPos)).model = .reference w := hw
  simp only [release, Sink.flush, Sink.committed, hm, hst]

/-- What `FLUSH` does when it ends normally (R114). -/
theorem flush_spec {e e' : Enc} {n : Count} (hi : e.regs.StageInv) (hc : e.Coherent) (h : e.flush = .ok n e') :
    e'.regs.numLiterals = 0 ∧ e'.regs.repeating = false ∧ e'.regs.tailRun = 0 ∧ e'.regs.bufLen = 0 ∧ e'.regs.bufPos = 0 ∧
      (∃ bs, Encodes bs e.regs.stagedValues ∧ e'.sink.stream = e.written ++ bs.map some) ∧
      (∀ w, e'.sink.model = .reference w → n = countBits e'.sink.stream.length) := by
  obtain ⟨_, e1, h1, h2⟩ := Proc.bind_eq_ok.1 h
  cases h2
  obtain ⟨c1, w1, _, n1, hcl, hsame⟩ := writeValues_spec hc h1
  obtain ⟨r1, r2, _, r4, r5⟩ := release_spec c1
  have hclear : e1.regs.repeating = false ∧ e1.regs.tailRun = 0 := by
    by_cases h0 : e.regs.numLiterals = 0
    · rw [hsame h0]
      unfold EncRegs.StageInv at hi
      cases hr : e.regs.repeating with
      | true => simp [hr, h0] at hi
      | false => simpa [hr, h0] using hi
    · exact hcl h0
  refine ⟨by rw [r2]; exact n1, by rw [r2]; exact hclear.1, by rw [r2]; exact hclear.2, by rw [r2], by rw [r2], ?_, ?_⟩
  · rw [r1, w1]
    by_cases h0 : e.regs.numLiterals = 0
    · exact ⟨[], by
        unfold EncRegs.StageInv at hi
        cases hr : e.regs.repeating with
        | true => simp [hr, h0] at hi
        | false => simpa [EncRegs.stagedValues, EncRegs.stagedBytes, hr, h0] using Encodes.nil, by simp [h0]⟩
    · rw [if_neg h0]
      refine ⟨_, segment_encodes h0 (fun hr => ?_) (fun hr => ?_), rfl⟩
      · simp only [EncRegs.StageInv, hr, if_true, minRepeat_eq, maxRepeat_eq] at hi; omega
      · simp only [EncRegs.StageInv, hr, toNat_ne_zero h0, if_false, maxLiteral_eq, Bool.false_eq_true] at hi; omega
  · intro w hw
    rw [r1]
    exact r5 w (r4.symm.trans hw)

theorem flush_serves {e : Enc} (h : e.sink.Serves) : ∃ n e', e.flush = .ok n e' ∧ e'.sink.Serves := by
  obtain ⟨e1, h1, s1⟩ := writeValues_serves h
  unfold flush
  rw [h1]
  exact ⟨_, _, rfl, s1⟩

end Enc

end Sys2Proof.Machine
end

