-- ==== Sys2Proof/Laws/BoolEncoder.lean ====
section
/-!
SUPPORT. What the boolean encoder's procedures do: the booleans given come out MSB first in the bytes handed to the inner byte
encoder and in the pending bits.
-/

namespace Sys2Proof.Machine

theorem msbBits_append (as bs : List Byte) : msbBits (as ++ bs) = msbBits as ++ msbBits bs := by
  simp [msbBits]

theorem msbBits_cons (b : Byte) (bs : List Byte) : msbBits (b :: bs) = msbBits [b] ++ msbBits bs := by
  simp [msbBits]

theorem msbBits_length (bs : List Byte) : (msbBits bs).length = 8 * bs.length := by
  induction bs with
  | nil => rfl
  | cons b bs ih => rw [msbBits_cons, List.length_append, ih]; simp [msbBits]; omega

namespace BoolEnc

/-- A fresh byte has no pending bit and meets the invariant. -/
theorem reset_inv : (⟨8, 0⟩ : BoolEncRegs).Inv ∧ pendingBits ⟨8, 0⟩ = [] := by decide

/-- One boolean goes to the bit below those written, and the bits below it stay 0 (R201; 10_state R32). -/
theorem pack_bits {b : BoolEncRegs} (h : b.Inv) (v : Bool) :
    (pack b v).bitsRemained.toNat = b.bitsRemained.toNat - 1 ∧
      (∀ t, t < 8 → (pack b v).current.getLsbD t =
        if t = b.bitsRemained.toNat - 1 then v else b.current.getLsbD t) := by
  obtain ⟨h1, h8, hz⟩ := h
  have hsub : (b.bitsRemained - 1).toNat = b.bitsRemained.toNat - 1 := by rw [BitVec.toNat_sub]; simp; omega
  refine ⟨hsub, fun t ht => ?_⟩
  simp only [pack, hsub, BitVec.getLsbD_or, BitVec.getLsbD_shiftLeft, BitVec.getLsbD_setWidth]
  by_cases hlt : t < b.bitsRemained.toNat - 1
  · have hb := hz ⟨t, ht⟩ (by simp only; omega)
    simp only at hb
    rw [if_neg (by omega)]
    simp [hlt]
  · by_cases heq : t = b.bitsRemained.toNat - 1
    · have hb := hz ⟨t, ht⟩ (by simp only; omega)
      simp only at hb
      rw [if_pos heq, hb, ← heq]
      simp [ht]
    · rw [if_neg heq]
      have : t - (b.bitsRemained.toNat - 1) ≠ 0 := by omega
      have hbig : (BitVec.ofBool v).getLsbD (t - (b.bitsRemained.toNat - 1)) = false :=
        BitVec.getLsbD_of_ge _ _ (by omega)
      simp [hbig]

theorem pendingBits_pack {b : BoolEncRegs} (h : b.Inv) (v : Bool) :
    (List.range (8 - (b.bitsRemained.toNat - 1))).map (fun t => (pack b v).current.getLsbD (7 - t)) =
      pendingBits b ++ [v] := by
  obtain ⟨_, hbits⟩ := pack_bits h v
  obtain ⟨h1, h8, _⟩ := h
  rw [show 8 - (b.bitsRemained.toNat - 1) = (8 - b.bitsRemained.toNat) + 1 by omega, List.range_succ, List.map_append]
  unfold pendingBits
  congr 1
  · apply List.map_congr_left
    intro t ht
    have ht := List.mem_range.1 ht
    rw [hbits _ (by omega), if_neg (by omega)]
  · simp only [List.map_cons, List.map_nil]
    rw [hbits _ (by omega), if_pos (by omega)]

/-- What one `WriteBool` does when it ends normally (R201). -/
theorem writeBool_spec {u u' : Enc × BoolEncRegs} {v : Bool} (hb : u.2.Inv) (h : writeBool u v = .ok () u') :
    u'.2.Inv ∧ ∃ bytes, u.1.writeAll bytes = .ok () u'.1 ∧ msbBits bytes ++ pendingBits u'.2 = pendingBits u.2 ++ [v] := by
  obtain ⟨hn, hbits⟩ := pack_bits hb v
  have hp := pendingBits_pack hb v
  have hInv := hb
  obtain ⟨h1, h8, hz⟩ := hb
  unfold writeBool at h
  dsimp only at h
  split at h
  · next h0 =>
    obtain ⟨_, s, hw, hk⟩ := Proc.bind_eq_ok.1 h
    obtain ⟨e', he, rfl⟩ := Proc.embed_eq_ok.1 hw
    cases hk
    have hone : u.2.bitsRemained.toNat - 1 = 0 := by
      have := congrArg BitVec.toNat h0
      rwa [hn] at this
    refine ⟨reset_inv.1, [(pack u.2 v).current], by simp only [Enc.writeAll, he, Proc.bind_ok], ?_⟩
    rw [reset_inv.2, List.append_nil, ← hp]
    simp [msbBits, hone]
  · next h0 =>
    cases h
    have hge : 2 ≤ u.2.bitsRemained.toNat := by
      by_contra hlt
      apply h0
      apply BitVec.eq_of_toNat_eq
      rw [hn]
      simp
      omega
    refine ⟨⟨by simp only [hn]; omega, by simp only [hn]; omega, fun t ht => ?_⟩, [], rfl, ?_⟩
    · simp only [hn] at ht
      rw [hbits _ t.isLt, if_neg (by omega)]
      exact hz t (by omega)
    · rw [← hp]
      simp only [msbBits, pendingBits, hn, List.flatMap_nil, List.nil_append]

/-- What a run of `WriteBool` does when it ends normally (R208). -/
theorem writeBools_spec {u u' : Enc × BoolEncRegs} {vs : List Bool} (hb : u.2.Inv) (h : writeBools u vs = .ok () u') :
    u'.2.Inv ∧ ∃ bytes, u.1.writeAll bytes = .ok () u'.1 ∧ msbBits bytes ++ pendingBits u'.2 = pendingBits u.2 ++ vs := by
  induction vs generalizing u with
  | nil => cases h; exact ⟨hb, [], rfl, by simp [msbBits]⟩
  | cons v vs ih =>
    obtain ⟨_, u1, h1, h2⟩ := Proc.bind_eq_ok.1 h
    obtain ⟨i1, b1, w1, p1⟩ := writeBool_spec hb h1
    obtain ⟨i2, b2, w2, p2⟩ := ih i1 h2
    refine ⟨i2, b1 ++ b2, Enc.writeAll_append w1 w2, ?_⟩
    rw [msbBits_append, List.append_assoc, p2, ← List.append_assoc, p1]
    simp

/-- `WriteBool` on a sink that serves. -/
theorem writeBool_serves {u : Enc × BoolEncRegs} (v : Bool) (h : u.1.sink.Serves) :
    ∃ u', writeBool u v = .ok () u' ∧ u'.1.sink.Serves := by
  unfold writeBool
  dsimp only
  split
  · obtain ⟨e1, h1, s1⟩ := Enc.write_serves (pack u.2 v).current h
    rw [h1]
    exact ⟨_, rfl, s1⟩
  · exact ⟨_, rfl, h⟩

theorem writeBools_serves {u : Enc × BoolEncRegs} (vs : List Bool) (h : u.1.sink.Serves) :
    ∃ u', writeBools u vs = .ok () u' ∧ u'.1.sink.Serves := by
  induction vs generalizing u with
  | nil => exact ⟨u, rfl, h⟩
  | cons v vs ih =>
    obtain ⟨u1, h1, s1⟩ := writeBool_serves v h
    obtain ⟨u2, h2, s2⟩ := ih s1
    exact ⟨u2, by simp only [writeBools, h1, Proc.bind_ok, h2], s2⟩

/-- What the partial byte of a flush does when it ends normally (R205): the pending bits are written, padded with zeros. -/
theorem flushBits_spec {u u' : Enc × BoolEncRegs} (hb : u.2.Inv) (h : flushBits u = .ok () u') :
    u'.2 = ⟨8, 0⟩ ∧ ∃ bytes, u.1.writeAll bytes = .ok () u'.1 ∧
      msbBits bytes = pendingBits u.2 ++ List.replicate (8 * bytes.length - (8 - u.2.bitsRemained.toNat)) false ∧
      bytes.length = (if u.2.bitsRemained.toNat < 8 then 1 else 0) := by
  obtain ⟨h1, h8, hz⟩ := hb
  unfold flushBits at h
  split at h
  · next hlt =>
    obtain ⟨_, s, hw, hk⟩ := Proc.bind_eq_ok.1 h
    obtain ⟨e', he, rfl⟩ := Proc.embed_eq_ok.1 hw
    cases hk
    refine ⟨rfl, [u.2.current], by simp only [Enc.writeAll, he, Proc.bind_ok], ?_, by simp [hlt]⟩
    have hsplit : 8 = (8 - u.2.bitsRemained.toNat) + u.2.bitsRemained.toNat := by omega
    have hrep : 8 * [u.2.current].length - (8 - u.2.bitsRemained.toNat) = u.2.bitsRemained.toNat := by simp; omega
    rw [hrep]
    apply List.ext_getElem
    · simp [msbBits, pendingBits]; omega
    · intro t ht1 ht2
      simp only [msbBits, List.flatMap_cons, List.flatMap_nil, List.append_nil, List.getElem_map, List.getElem_range]
      simp only [msbBits, List.flatMap_cons, List.flatMap_nil, List.append_nil, List.length_map, List.length_range] at ht1
      rw [List.getElem_append]
      split
      · simp [pendingBits]
      · next hge =>
        simp only [pendingBits, List.length_map, List.length_range] at hge
        simp only [List.getElem_replicate]
        exact hz ⟨7 - t, by omega⟩ (by simp only; omega)
  · next hge =>
    cases h
    have h8' : u.2.bitsRemained.toNat = 8 := by omega
    refine ⟨?_, [], rfl, by simp [msbBits, pendingBits, h8'], by simp [h8']⟩
    have hc : u.2.current = 0 := by
      apply BitVec.eq_of_getLsbD_eq
      intro t ht
      have := hz ⟨t, ht⟩ (by simp only; omega)
      simpa using this
    have hbr : u.2.bitsRemained = 8 := BitVec.eq_of_toNat_eq (by simpa using h8')
    cases hu : u.2
    simp_all

theorem flush_serves {u : Enc × BoolEncRegs} (h : u.1.sink.Serves) : ∃ n u', flush u = .ok n u' ∧ u'.1.sink.Serves := by
  unfold flush flushBits
  split
  · obtain ⟨e1, h1, s1⟩ := Enc.write_serves u.2.current h
    obtain ⟨n, e2, h2, s2⟩ := Enc.flush_serves s1
    refine ⟨n, (e2, ⟨8, 0⟩), ?_, s2⟩
    rw [h1]
    simp only [Proc.embed_ok, Proc.bind_ok, h2]
  · obtain ⟨n, e2, h2, s2⟩ := Enc.flush_serves h
    exact ⟨n, (e2, u.2), by simp only [Proc.bind_ok, h2, Proc.embed_ok], s2⟩

end BoolEnc

end Sys2Proof.Machine
end

