-- ==== Sys2Proof/Laws/Decoder.lean ====
section
/-!
SUPPORT. What the decoder's procedures do to the logical values before it (43_byte_decoder R174), on a source that fails only at
the end of its stream: each lemma says when a procedure ends normally and when it raises.
-/

namespace Sys2Proof.Machine

/-! ### The values of a stream, segment by segment -/

theorem segmentValues_fuel {f g : Nat} {bs : List Byte} (hf : bs.length ≤ f) (hg : bs.length ≤ g) :
    segmentValues f bs = segmentValues g bs := by
  induction f generalizing g bs with
  | zero =>
    have : bs = [] := List.eq_nil_of_length_eq_zero (by omega)
    subst this
    cases g <;> rfl
  | succ f ih =>
    cases bs with
    | nil => cases g <;> rfl
    | cons h rest =>
      cases g with
      | zero => simp at hg
      | succ g =>
        simp only [List.length_cons] at hf hg
        simp only [segmentValues]
        cases decodeHeader h with
        | repeats k =>
          cases rest with
          | nil => rfl
          | cons v rest =>
            simp only [List.length_cons] at hf hg ⊢
            rw [ih (g := g) (by omega) (by omega)]
        | literal m =>
          simp only
          rw [ih (g := g) (by simp; omega) (by simp; omega)]

@[simp] theorem streamValues_nil : streamValues [] = [] := rfl

theorem streamValues_rep {h v : Byte} {k : BitVec 7} (hh : decodeHeader h = .repeats k) (rest : List Byte) :
    streamValues (h :: v :: rest) = List.replicate (repeatCount k) v ++ streamValues rest := by
  unfold streamValues
  simp only [List.length_cons, segmentValues, hh]
  rw [segmentValues_fuel (by omega) (Nat.le_refl _)]

theorem streamValues_rep_short {h : Byte} {k : BitVec 7} (hh : decodeHeader h = .repeats k) : streamValues [h] = [] := by
  simp [streamValues, segmentValues, hh]

theorem streamValues_lit {h : Byte} {m : BitVec 7} (hh : decodeHeader h = .literal m) (rest : List Byte) :
    streamValues (h :: rest) = rest.take (literalCount m) ++ streamValues (rest.drop (literalCount m)) := by
  unfold streamValues
  simp only [List.length_cons, segmentValues, hh]
  rw [segmentValues_fuel (f := rest.length) (by simp) (Nat.le_refl _)]

/-! ### A source that serves -/

/-- What `SrcNext` answers (R65, R68): a window that is the front of what is left, or a failure if nothing is. -/
theorem Source.next_serves {s : Source} (h : s.Serves) :
    (s.stream.drop s.cursor = [] ∧ s.next.1 = none ∧ s.next.2.stream = s.stream ∧ s.next.2.cursor = s.cursor ∧ s.next.2.Serves) ∨
      ∃ w, w ≠ [] ∧ w.length < 2 ^ 64 ∧ s.next.1 = some w ∧ s.stream.drop s.cursor = w ++ s.next.2.stream.drop s.next.2.cursor ∧
        s.next.2.Serves := by
  obtain ⟨hq, hs, w, hw, hm⟩ := h
  have hans : ∃ len : Count, len ≠ 0 ∧ s.answer = some len := by
    unfold Source.answer
    cases hsc : s.script with
    | nil => simp only [hm]; exact ⟨w, hw, rfl⟩
    | cons a rest =>
      rw [hsc] at hs
      have ha := hs a (List.mem_cons_self ..)
      cases a with
      | none => simp at ha
      | some len => exact ⟨len, fun h0 => ha.2 (by rw [h0]), rfl⟩
  obtain ⟨len, hl, ha⟩ := hans
  have hpos : 0 < len.toNat := by
    rcases Nat.eq_zero_or_pos len.toNat with h0 | h0
    · exact absurd (BitVec.eq_of_toNat_eq (by simpa using h0)) hl
    · exact h0
  have hserves : ∀ (c : Nat) (l : List SrcEvent), Serves { s with cursor := c, script := s.script.tail, log := l } :=
    fun c l => ⟨hq, fun a h => hs a (List.mem_of_mem_tail h), w, hw, hm⟩
  have hwin : s.window = (s.stream.drop s.cursor).take len.toNat := by simp only [Source.window, ha]
  unfold Source.next
  cases hd : s.window with
  | nil =>
    left
    rw [hwin] at hd
    refine ⟨?_, rfl, rfl, rfl, hserves _ _⟩
    rcases List.take_eq_nil_iff.1 hd with h0 | h0
    · omega
    · exact h0
  | cons b w' =>
    right
    have hlt := len.isLt
    have hwl := congrArg List.length hd
    rw [hwin, List.length_take] at hwl
    refine ⟨b :: w', by simp, by rw [← hwl]; omega, rfl, ?_, hserves _ _⟩
    simp only
    rw [← List.drop_drop, ← hd, hwin]
    have hc : (s.stream.drop s.cursor).drop (w'.length + 1) = (s.stream.drop s.cursor).drop len.toNat := by
      simp only [List.length_cons] at hwl
      rcases Nat.le_total len.toNat (s.stream.drop s.cursor).length with hle | hle
      · rw [← hwl, Nat.min_eq_left hle]
      · rw [← hwl, Nat.min_eq_right hle, List.drop_length, List.drop_eq_nil_of_le hle]
    rw [hc, List.take_append_drop]

theorem Source.skip_serves {s : Source} (h : s.Serves) (n : Nat) : (s.skip n).Serves := h

namespace Dec

/-- A decoder between the steps of a command: its registers in range, its source serving. -/
def Good (d : Dec) : Prop := d.regs.Inv ∧ d.src.Serves

/-- Only the window and the source may differ. -/
def SameSegment (d d' : Dec) : Prop :=
  d'.regs.remainingValues = d.regs.remainingValues ∧ d'.regs.repeating = d.regs.repeating ∧ d'.regs.value = d.regs.value ∧
    d'.regs.pendingSkip = d.regs.pendingSkip ∧ d'.key = d.key

theorem SameSegment.refl (d : Dec) : d.SameSegment d := ⟨rfl, rfl, rfl, rfl, rfl⟩

theorem SameSegment.trans {d d' d'' : Dec} (h : d.SameSegment d') (h' : d'.SameSegment d'') : d.SameSegment d'' :=
  ⟨h'.1.trans h.1, h'.2.1.trans h.2.1, h'.2.2.1.trans h.2.2.1, h'.2.2.2.1.trans h.2.2.2.1, h'.2.2.2.2.trans h.2.2.2.2⟩

/-- An error of the parser (R141). -/
def ParseError (r : Raise) : Prop := r.kind = .ioFailure ∨ r.kind = .corrupt

theorem refillError_parse (ctx : ReadCtx) : ParseError (refillError ctx) := by cases ctx <;> simp [ParseError, refillError]

/-! ### One byte (R141, R142) -/

/-- `ReadByte` takes the next byte of the stream, or raises at its end. -/
theorem readByte_spec {d : Dec} (h : d.Good) (ctx : ReadCtx) :
    (∃ b rest d', d.upcoming = b :: rest ∧ d.readByte ctx = .ok b d' ∧ d'.upcoming = rest ∧ d'.Good ∧ d.SameSegment d') ∨
      (d.upcoming = [] ∧ ∃ d', d.readByte ctx = .raised (refillError ctx) d' ∧ d.SameSegment d') := by
  obtain ⟨⟨hrem, hpos, hlen⟩, hsrc⟩ := h
  have htake : ∀ d0 : Dec, d0.regs.remainingValues.toNat ≤ maxRepeat → d0.regs.winPos.toNat < d0.regs.win.length →
      d0.regs.win.length < 2 ^ 64 → d0.src.Serves →
      ∃ b rest d', d0.upcoming = b :: rest ∧ d0.takeByte = .ok b d' ∧ d'.upcoming = rest ∧ d'.Good ∧ d0.SameSegment d' := by
    intro d0 h1 h2 h3 h4
    have hp : (d0.regs.winPos + 1).toNat = d0.regs.winPos.toNat + 1 := by
      rw [BitVec.toNat_add]; simp; omega
    refine ⟨d0.regs.win[d0.regs.winPos.toNat], _, { d0 with regs := { d0.regs with winPos := d0.regs.winPos + 1 } }, ?_, ?_, rfl,
      ⟨⟨h1, by simp only [hp]; omega, h3⟩, h4⟩, rfl, rfl, rfl, rfl, rfl⟩
    · simp only [upcoming, unread, hp]
      rw [List.drop_eq_getElem_cons h2]
      rfl
    · simp only [takeByte, List.getElem?_eq_getElem h2, Option.getD_some]
  unfold readByte
  by_cases hfull : d.regs.winPos.toNat = d.regs.win.length
  · rw [if_pos hfull]
    have hun : d.unread = [] := by simp only [unread, hfull, List.drop_length]
    unfold refill
    rcases Source.next_serves hsrc with ⟨hend, hn, _, _, _⟩ | ⟨w, hw, hwl, hn, hst, hs⟩
    · right
      generalize d.src.next = x at hn
      obtain ⟨a, s⟩ := x
      simp only at hn
      subst hn
      exact ⟨by simp [upcoming, hun, hend], _, rfl, rfl, rfl, rfl, rfl, rfl⟩
    · left
      generalize d.src.next = x at hn hst hs
      obtain ⟨a, s⟩ := x
      simp only at hn hst hs
      subst hn
      simp only [Proc.bind_ok]
      obtain ⟨b, rest, d', h1, h2, h3, h4, h5⟩ := htake
        { d with src := s, regs := { d.regs with win := w, winPos := 0 } } hrem
        (by simpa using List.length_pos_iff.2 hw) hwl hs
      refine ⟨b, rest, d', ?_, h2, h3, h4, h5⟩
      rw [← h1]
      simp [upcoming, unread] at hst hun ⊢
      simp [hun, hst]
  · rw [if_neg hfull]
    left
    exact htake d hrem (by omega) hlen hsrc

/-! ### Headers (R143) -/

/-- The values before a decoder once `c` more of the current segment are spent. -/
def logicalAfter (d : Dec) (c : Nat) : List Byte :=
  if d.regs.repeating then
    List.replicate (d.regs.remainingValues.toNat - c) d.regs.value ++ streamValues d.upcoming
  else
    d.upcoming.take (d.regs.remainingValues.toNat - c) ++ streamValues (d.upcoming.drop (d.regs.remainingValues.toNat - c))

theorem logical_eq (d : Dec) : d.logical = d.logicalAfter 0 := rfl

theorem logical_spent {d : Dec} (h : d.regs.remainingValues = 0) : d.logical = streamValues d.upcoming := by
  unfold logical
  rw [h]
  split <;> simp

/-- `c` values spent. -/
theorem logical_spend {d : Dec} {c : Nat} (hc : c ≤ d.regs.remainingValues.toNat) :
    logical { d with regs := d.regs.spend c } = d.logicalAfter c := by
  have hlt := d.regs.remainingValues.isLt
  have : (d.regs.remainingValues - BitVec.ofNat 8 c).toNat = d.regs.remainingValues.toNat - c := by
    rw [BitVec.toNat_sub_of_le (by rw [BitVec.le_def, BitVec.toNat_ofNat]; omega), BitVec.toNat_ofNat]
    omega
  simp only [logical, logicalAfter, DecRegs.spend_repeating, DecRegs.spend_remainingValues, DecRegs.spend_value, this]
  rfl

theorem spend_toNat {r : DecRegs} {c : Nat} (hc : c ≤ r.remainingValues.toNat) :
    (r.spend c).remainingValues.toNat = r.remainingValues.toNat - c := by
  have hlt := r.remainingValues.isLt
  rw [DecRegs.spend_remainingValues, BitVec.toNat_sub_of_le (by rw [BitVec.le_def, BitVec.toNat_ofNat]; omega),
    BitVec.toNat_ofNat]
  omega

theorem Good.spend {d : Dec} (h : d.Good) {c : Nat} (hc : c ≤ d.regs.remainingValues.toNat) :
    Good { d with regs := d.regs.spend c } := by
  refine ⟨⟨?_, h.1.2⟩, h.2⟩
  rw [spend_toNat hc]
  have := h.1.1
  omega

/-- The fetch of a segment (R143): the header and a repeat's payload byte leave the stream, or the fetch raises. -/
theorem fetchSegment_spec {d : Dec} (h : d.Good) :
    (∃ hd k v rest d', d.upcoming = hd :: v :: rest ∧ decodeHeader hd = .repeats k ∧ d.fetchSegment = .ok (.rep k v) d' ∧
        d'.upcoming = rest ∧ d'.Good ∧ d.SameSegment d') ∨
      (∃ hd m rest d', d.upcoming = hd :: rest ∧ decodeHeader hd = .literal m ∧
        d.fetchSegment = .ok (.lit m (rest.take (literalCount m))) d' ∧ d'.upcoming = rest ∧ d'.Good ∧ d.SameSegment d') ∨
      (streamValues d.upcoming = [] ∧ ((d.upcoming = [] ∧ ∃ d', d.fetchSegment = .raised (refillError .header) d' ∧ d.SameSegment d') ∨
        ∃ hd k d', d.upcoming = [hd] ∧ decodeHeader hd = .repeats k ∧ d.fetchSegment = .raised (refillError .payload) d' ∧
          d.SameSegment d')) := by
  unfold fetchSegment
  rcases readByte_spec h .header with ⟨hd, rest, d1, hu, hr, hu1, hg, hs⟩ | ⟨hu, d1, hr, hs⟩
  · rw [hr]
    simp only [Proc.bind_ok]
    cases hh : decodeHeader hd with
    | repeats k =>
      simp only
      rcases readByte_spec hg .payload with ⟨v, rest', d2, hv, hr2, hu2, hg2, hs2⟩ | ⟨hv, d2, hr2, hs2⟩
      · left
        rw [hr2]
        exact ⟨hd, k, v, rest', d2, by rw [hu, ← hv, hu1], hh, rfl, hu2, hg2, hs.trans hs2⟩
      · right; right
        rw [hr2]
        rw [hu1] at hv
        subst hv
        exact ⟨by rw [hu]; exact streamValues_rep_short hh, Or.inr ⟨hd, k, d2, hu, hh, rfl, hs.trans hs2⟩⟩
    | literal m =>
      right; left
      simp only
      exact ⟨hd, m, rest, d1, hu, hh, by rw [hu1], hu1, hg, hs⟩
  · right; right
    rw [hr]
    exact ⟨by simp [hu], Or.inl ⟨hu, d1, rfl, hs⟩⟩

/-- A header if one is needed (R143, R148): the values before the decoder stay the same and a segment is current, or there is
none and the parser raises. -/
theorem needHeader_spec {d : Dec} (h : d.Good) :
    (∃ d', d.needHeader = .ok () d' ∧ d'.logical = d.logical ∧ 0 < d'.regs.remainingValues.toNat ∧ d'.Good ∧
        d'.regs.pendingSkip = d.regs.pendingSkip ∧ d'.key = d.key) ∨
      (d.logical = [] ∧ ∃ r d', d.needHeader = .raised r d' ∧ ParseError r) := by
  unfold needHeader
  by_cases h0 : d.regs.remainingValues = 0
  · rw [if_pos h0]
    unfold readHeader
    rcases fetchSegment_spec h with ⟨hd, k, v, rest, d', hu, hh, hf, hu', hg, hs⟩ | ⟨hd, m, rest, d', hu, hh, hf, hu', hg, hs⟩ |
      ⟨hv, ⟨hu, d', hf, hs⟩ | ⟨hd, k, d', hu, hh, hf, hs⟩⟩
    · left
      rw [hf]
      have hcnt : (BitVec.ofNat 8 (repeatCount k)).toNat = repeatCount k := by
        have := k.isLt
        simp [repeatCount]; omega
      refine ⟨loadSegment (.rep k v) d', rfl, ?_, ?_, ⟨⟨?_, hg.1.2⟩, hg.2⟩, hs.2.2.2.1, hs.2.2.2.2⟩
      · rw [logical_spent h0, hu, streamValues_rep hh]
        simp only [loadSegment, logical, DecRegs.loadRepeat_repeating, if_true, DecRegs.loadRepeat_remainingValues, hcnt,
          DecRegs.loadRepeat_value]
        rw [← hu']
        rfl
      · simp only [loadSegment, DecRegs.loadRepeat_remainingValues, hcnt]; simp [repeatCount]
      · simp only [loadSegment, DecRegs.loadRepeat_remainingValues, hcnt]
        have := k.isLt
        simp [repeatCount]; omega
    · left
      rw [hf]
      have hcnt : (BitVec.ofNat 8 (literalCount m)).toNat = literalCount m := by
        have := literalCount_le m
        simp; omega
      have hpos := literalCount_pos m
      have hle := literalCount_le m
      refine ⟨loadSegment (.lit m (rest.take (literalCount m))) d', rfl, ?_, ?_, ⟨⟨?_, hg.1.2⟩, hg.2⟩, hs.2.2.2.1, hs.2.2.2.2⟩
      · rw [logical_spent h0, hu, streamValues_lit hh]
        simp only [loadSegment, logical, DecRegs.loadLiteral_repeating, if_false, DecRegs.loadLiteral_remainingValues, hcnt,
          Bool.false_eq_true]
        rw [← hu']
        rfl
      · simp only [loadSegment, DecRegs.loadLiteral_remainingValues, hcnt]; omega
      · simp only [loadSegment, DecRegs.loadLiteral_remainingValues, hcnt, maxRepeat_eq]; omega
    · right
      rw [hf]
      exact ⟨by rw [logical_spent h0, hv], _, _, rfl, refillError_parse _⟩
    · right
      rw [hf]
      exact ⟨by rw [logical_spent h0, hv], _, _, rfl, refillError_parse _⟩
  · rw [if_neg h0]
    left
    exact ⟨d, rfl, rfl, Nat.pos_of_ne_zero fun h1 => h0 (BitVec.eq_of_toNat_eq (by simpa using h1)), h, rfl, rfl⟩

/-! ### Skipping (R147, R148) -/

/-- `SkipBytes` (R147) passes over bytes of the stream. -/
theorem skipBytes_spec {d : Dec} (h : d.Good) (c : Nat) :
    (d.skipBytes c).upcoming = d.upcoming.drop c ∧ (d.skipBytes c).Good ∧ d.SameSegment (d.skipBytes c) := by
  obtain ⟨⟨hrem, hpos, hlen⟩, hsrc⟩ := h
  have hk : (d.regs.winPos + BitVec.ofNat 64 (min c (d.regs.win.length - d.regs.winPos.toNat))).toNat =
      d.regs.winPos.toNat + min c (d.regs.win.length - d.regs.winPos.toNat) := by
    rw [BitVec.toNat_add, BitVec.toNat_ofNat]; omega
  unfold skipBytes
  dsimp only
  split
  · refine ⟨?_, ⟨⟨hrem, by simp only [hk]; omega, hlen⟩, Source.skip_serves hsrc _⟩, rfl, rfl, rfl, rfl, rfl⟩
    simp only [upcoming, unread, hk, Source.skip]
    rw [List.drop_append, List.drop_drop, List.drop_drop]
    congr 1
    · rw [List.drop_eq_nil_of_le (by omega), List.drop_eq_nil_of_le (by omega)]
    · rw [List.length_drop]
      congr 1
      omega
  · refine ⟨?_, ⟨⟨hrem, by simp only [hk]; omega, hlen⟩, hsrc⟩, rfl, rfl, rfl, rfl, rfl⟩
    simp only [upcoming, unread, hk]
    rw [List.drop_append, List.drop_drop]
    congr 1
    · congr 1
      omega
    · rw [List.length_drop, show c - (d.regs.win.length - d.regs.winPos.toNat) = 0 by omega, List.drop_zero]

/-- One turn of `SkipValues` (R148) drops `c` values. -/
theorem dropValues_spec {d : Dec} (h : d.Good) {c : Nat} (hc : c ≤ d.regs.remainingValues.toNat) :
    (d.dropValues c).logical = d.logical.drop c ∧ (d.dropValues c).Good ∧
      (d.dropValues c).regs.pendingSkip = d.regs.pendingSkip ∧ (d.dropValues c).key = d.key ∧
      (d.dropValues c).regs.remainingValues.toNat = d.regs.remainingValues.toNat - c := by
  have hg := h.spend hc
  unfold dropValues
  dsimp only
  by_cases hr : d.regs.repeating = true
  · rw [if_pos (by exact hr)]
    refine ⟨?_, hg, rfl, rfl, spend_toNat hc⟩
    rw [logical_spend hc]
    simp only [logicalAfter, logical, hr, if_true]
    rw [List.drop_append]
    simp [Nat.sub_eq_zero_of_le hc]
  · obtain ⟨hu, hg', hs⟩ := skipBytes_spec hg c
    rw [if_neg (by exact hr)]
    have hr : d.regs.repeating = false := by simpa using hr
    refine ⟨?_, hg', hs.2.2.2.1, hs.2.2.2.2, by rw [hs.1]; exact spend_toNat hc⟩
    have hn : (skipBytes c { d with regs := d.regs.spend c }).regs.remainingValues.toNat = d.regs.remainingValues.toNat - c := by
      rw [hs.1]; exact spend_toNat hc
    have hrep : (skipBytes c { d with regs := d.regs.spend c }).regs.repeating = false := by
      rw [hs.2.1]; exact hr
    simp only [logical, hrep, hr, Bool.false_eq_true, if_false, hn, hu]
    have hu0 : upcoming { d with regs := d.regs.spend c } = d.upcoming := rfl
    rw [hu0, List.drop_append]
    rcases Nat.le_total c d.upcoming.length with hle | hle
    · rw [List.drop_take, List.length_take, show c - min d.regs.remainingValues.toNat d.upcoming.length = 0 by omega,
        List.drop_zero, List.drop_drop, show c + (d.regs.remainingValues.toNat - c) = d.regs.remainingValues.toNat by omega]
    · rw [List.drop_eq_nil_of_le hle, List.drop_eq_nil_of_le (i := d.regs.remainingValues.toNat) (by omega)]
      simp
      omega

/-- The loop of `SkipValues` (R148): `k` values are dropped; if there are fewer, the parser may raise. -/
theorem skipLoop_spec {fuel k : Nat} {d : Dec} (h : d.Good) (hk : k ≤ fuel) :
    (∃ d', skipLoop fuel k d = .ok () d' ∧ d'.logical = d.logical.drop k ∧ d'.Good ∧
        d'.regs.pendingSkip = d.regs.pendingSkip ∧ d'.key = d.key) ∨
      (d.logical.length < k ∧ ∃ r d', skipLoop fuel k d = .raised r d' ∧ ParseError r) := by
  induction fuel generalizing k d with
  | zero =>
    obtain rfl : k = 0 := by omega
    exact Or.inl ⟨d, rfl, rfl, h, rfl, rfl⟩
  | succ fuel ih =>
    unfold skipLoop
    by_cases h0 : k = 0
    · subst h0
      rw [if_pos rfl]
      exact Or.inl ⟨d, rfl, rfl, h, rfl, rfl⟩
    · rw [if_neg h0]
      rcases needHeader_spec h with ⟨d1, hn, hl, hpos, hg, hp, hkey⟩ | ⟨hl, r, d1, hn, he⟩
      · rw [hn]
        simp only [Proc.bind_ok]
        have hc : min k d1.regs.remainingValues.toNat ≤ d1.regs.remainingValues.toNat := Nat.min_le_right ..
        obtain ⟨l2, g2, p2, k2, _⟩ := dropValues_spec hg hc
        rcases ih g2 (k := k - min k d1.regs.remainingValues.toNat) (by omega) with ⟨d3, h3, l3, g3, p3, k3⟩ | ⟨l3, r, d3, h3, e3⟩
        · left
          refine ⟨d3, h3, ?_, g3, by rw [p3, p2, hp], by rw [k3, k2, hkey]⟩
          rw [l3, l2, List.drop_drop, hl]
          congr 1
          omega
        · right
          refine ⟨?_, r, d3, h3, e3⟩
          rw [l2, List.length_drop, hl] at l3
          omega
      · right
        rw [hn]
        exact ⟨by rw [hl]; simp; omega, r, d1, rfl, he⟩

/-! ### Delivering (R144 to R146) -/

/-- The next value of the current segment (R144, R145), `c` of it being delivered and not yet counted off. -/
theorem nextValue_spec {d : Dec} (h : d.Good) {c : Nat} (hc : c < d.regs.remainingValues.toNat) :
    (∃ v rest d', d.logicalAfter c = v :: rest ∧ d.nextValue = .ok v d' ∧ d'.logicalAfter (c + 1) = rest ∧ d'.Good ∧
        d.SameSegment d') ∨
      (d.logicalAfter c = [] ∧ ∃ d', d.nextValue = .raised (refillError .payload) d') := by
  unfold nextValue
  cases hr : d.regs.repeating with
  | true =>
    left
    obtain ⟨n, hn⟩ : ∃ n, d.regs.remainingValues.toNat - c = n + 1 := ⟨d.regs.remainingValues.toNat - c - 1, by omega⟩
    refine ⟨d.regs.value, _, d, ?_, rfl, rfl, h, SameSegment.refl d⟩
    simp only [logicalAfter, hr, if_true, hn, show d.regs.remainingValues.toNat - (c + 1) = n by omega,
      List.replicate_succ, List.cons_append]
  | false =>
    obtain ⟨n, hn⟩ : ∃ n, d.regs.remainingValues.toNat - c = n + 1 := ⟨d.regs.remainingValues.toNat - c - 1, by omega⟩
    rw [if_neg (by simp)]
    rcases readByte_spec h .payload with ⟨b, rest, d', hu, hrd, hu', hg, hs⟩ | ⟨hu, d', hrd, hs⟩
    · left
      refine ⟨b, _, d', ?_, hrd, rfl, hg, hs⟩
      simp only [logicalAfter, hr, hs.2.1, Bool.false_eq_true, if_false, hs.1, hu', hn, hu,
        show d.regs.remainingValues.toNat - (c + 1) = n by omega, List.take_succ_cons, List.drop_succ_cons, List.cons_append]
    · right
      refine ⟨?_, d', hrd⟩
      simp [logicalAfter, hr, hu]

end Dec

/-- The non-null positions of `[pos, pos + n)`. -/
def nonNullFrom (isNull : Nat → Bool) (pos n : Nat) : List Nat := (List.range' pos n).filter fun i => !isNull i

theorem nonNullPositions_eq (isNull : Nat → Bool) (n : Nat) : nonNullPositions isNull n = nonNullFrom isNull 0 n := by
  simp [nonNullPositions, nonNullFrom, List.range_eq_range']

theorem nonNullFrom_length_le (isNull : Nat → Bool) (pos n : Nat) : (nonNullFrom isNull pos n).length ≤ n := by
  unfold nonNullFrom
  exact (List.length_filter_le _ _).trans (by simp)

theorem nonNullFrom_split (isNull : Nat → Bool) (pos a b : Nat) :
    nonNullFrom isNull pos (a + b) = nonNullFrom isNull pos a ++ nonNullFrom isNull (pos + a) b := by
  unfold nonNullFrom
  rw [← List.filter_append, ← List.range'_append (s := pos) (m := a) (n := b) (step := 1)]
  simp

theorem nonNullFrom_succ (isNull : Nat → Bool) (pos n : Nat) :
    nonNullFrom isNull pos (n + 1) = (if isNull pos then [] else [pos]) ++ nonNullFrom isNull (pos + 1) n := by
  unfold nonNullFrom
  rw [List.range'_succ, List.filter_cons]
  cases isNull pos <;> simp

theorem zip_append_drop {α β : Type} {as bs : List α} {cs : List β} (h : as.length ≤ cs.length) :
    (as ++ bs).zip cs = as.zip cs ++ bs.zip (cs.drop as.length) := by
  induction as generalizing cs with
  | nil => simp
  | cons a as ih =>
    cases cs with
    | nil => simp at h
    | cons c cs => simp [ih (by simpa using h)]

theorem zip_append_short {α β : Type} {as bs : List α} {cs : List β} (h : cs.length ≤ as.length) :
    (as ++ bs).zip cs = as.zip cs := by
  induction as generalizing cs with
  | nil => simp [List.eq_nil_of_length_eq_zero (Nat.le_zero.1 h)]
  | cons a as ih =>
    cases cs with
    | nil => simp
    | cons c cs => simp [ih (by simpa using h)]

namespace DecRun

/-- The loop of `TakeValues` (R146): the next values go to the non-null positions; if there are fewer, all of them do and the
parser raises. -/
theorem takeLoop_spec {isNull : Nat → Bool} {n pos c : Nat} {r : DecRun} (h : r.dec.Good)
    (hc : c + n ≤ r.dec.regs.remainingValues.toNat) :
    (∃ r', takeLoop isNull n pos c r = .ok (c + (nonNullFrom isNull pos n).length) r' ∧
        (nonNullFrom isNull pos n).length ≤ (r.dec.logicalAfter c).length ∧
        r'.out = r.out ++ (nonNullFrom isNull pos n).zip (r.dec.logicalAfter c) ∧
        r'.dec.logicalAfter (c + (nonNullFrom isNull pos n).length) =
          (r.dec.logicalAfter c).drop (nonNullFrom isNull pos n).length ∧
        r'.dec.Good ∧ r.dec.SameSegment r'.dec) ∨
      ((r.dec.logicalAfter c).length < (nonNullFrom isNull pos n).length ∧
        ∃ e r', takeLoop isNull n pos c r = .raised e r' ∧ Dec.ParseError e ∧
          r'.out = r.out ++ (nonNullFrom isNull pos n).zip (r.dec.logicalAfter c)) := by
  induction n generalizing pos c r with
  | zero => exact Or.inl ⟨r, rfl, Nat.zero_le _, by simp [nonNullFrom], by simp [nonNullFrom], h, Dec.SameSegment.refl _⟩
  | succ n ih =>
    rw [nonNullFrom_succ]
    unfold takeLoop
    cases hp : isNull pos with
    | true => simpa using ih (pos := pos + 1) h (by omega)
    | false =>
      rw [if_neg (by simp)]
      simp only [Bool.false_eq_true, if_false, List.cons_append, List.nil_append, List.length_cons]
      rcases Dec.nextValue_spec h (c := c) (by omega) with ⟨v, rest, d', hl, hv, hl', hg, hs⟩ | ⟨hl, d', hv⟩
      · rw [hv, hl]
        simp only [Proc.embed_ok, Proc.bind_ok, List.zip_cons_cons, List.drop_succ_cons, List.length_cons]
        rcases ih (pos := pos + 1) (c := c + 1) (r := { dec := d', out := r.out ++ [(pos, v)] }) hg
            (by simp only [hs.1]; omega) with ⟨r', h1, h2, h3, h4, h5, h6⟩ | ⟨h2, e, r', h1, he, h3⟩
        · left
          simp only [hl'] at h2 h3 h4
          refine ⟨r', by rw [h1]; congr 1; omega, by omega, by rw [h3]; simp, ?_, h5, hs.trans h6⟩
          rw [← h4]
          congr 1
          omega
        · right
          simp only [hl'] at h2 h3
          exact ⟨by omega, e, r', h1, he, by rw [h3]; simp⟩
      · right
        rw [hv, hl]
        exact ⟨by simp, _, _, rfl, Dec.refillError_parse _, by simp⟩

/-- `TakeValues` (R146). -/
theorem takeValues_spec {isNull : Nat → Bool} {n pos : Nat} {r : DecRun} (h : r.dec.Good)
    (hc : n ≤ r.dec.regs.remainingValues.toNat) :
    (∃ r', takeValues isNull pos n r = .ok () r' ∧
        (nonNullFrom isNull pos n).length ≤ r.dec.logical.length ∧
        r'.out = r.out ++ (nonNullFrom isNull pos n).zip r.dec.logical ∧
        r'.dec.logical = r.dec.logical.drop (nonNullFrom isNull pos n).length ∧
        r'.dec.Good ∧ r'.dec.regs.pendingSkip = r.dec.regs.pendingSkip ∧ r'.dec.key = r.dec.key ∧
        r'.dec.regs.remainingValues.toNat = r.dec.regs.remainingValues.toNat - (nonNullFrom isNull pos n).length ∧
        r'.dec.regs.repeating = r.dec.regs.repeating ∧ r'.dec.regs.value = r.dec.regs.value) ∨
      (r.dec.logical.length < (nonNullFrom isNull pos n).length ∧
        ∃ e r', takeValues isNull pos n r = .raised e r' ∧ Dec.ParseError e ∧
          r'.out = r.out ++ (nonNullFrom isNull pos n).zip r.dec.logical) := by
  unfold takeValues
  have hle := nonNullFrom_length_le isNull pos n
  rcases takeLoop_spec (isNull := isNull) (n := n) (pos := pos) (c := 0) h (by omega) with
    ⟨r', h1, h2, h3, h4, h5, h6⟩ | ⟨h2, e, r', h1, he, h3⟩
  · left
    rw [h1]
    simp only [Nat.zero_add] at h4 ⊢
    have hb : (nonNullFrom isNull pos n).length ≤ r'.dec.regs.remainingValues.toNat := by rw [h6.1]; omega
    refine ⟨_, rfl, h2, h3, ?_, h5.spend hb, h6.2.2.2.1, h6.2.2.2.2, ?_, h6.2.1, h6.2.2.1⟩
    · rw [Dec.logical_eq r.dec, ← h4]
      exact Dec.logical_spend hb
    · rw [Dec.spend_toNat hb, h6.1]
  · right
    rw [h1]
    exact ⟨h2, e, r', rfl, he, h3⟩

/-- The null positions passed over (R171, steps 2 and 4). -/
theorem skipNulls_spec (isNull : Nat → Bool) (left pos : Nat) :
    pos ≤ skipNulls isNull left pos ∧ skipNulls isNull left pos ≤ pos + left ∧
      (skipNulls isNull left pos < pos + left → isNull (skipNulls isNull left pos) = false) ∧
      nonNullFrom isNull pos left =
        nonNullFrom isNull (skipNulls isNull left pos) (pos + left - skipNulls isNull left pos) := by
  induction left generalizing pos with
  | zero => simp [skipNulls, nonNullFrom]
  | succ left ih =>
    unfold skipNulls
    cases hp : isNull pos with
    | true =>
      obtain ⟨h1, h2, h3, h4⟩ := ih (pos + 1)
      rw [if_pos rfl]
      refine ⟨by omega, by omega, fun h => h3 (by omega), ?_⟩
      rw [nonNullFrom_succ, hp, if_pos rfl, List.nil_append, h4]
      congr 1
      omega
    | false =>
      rw [if_neg (by simp)]
      exact ⟨Nat.le_refl _, by omega, fun _ => hp, by congr 1; omega⟩

/-- The loop of `ByteNext` (R171): the values before the decoder go to the non-null positions, in order; if there are fewer,
all of them do and the parser raises. -/
theorem nextLoop_spec {isNull : Nat → Bool} {numValues fuel pos : Nat} {r : DecRun} (h : r.dec.Good)
    (hf : numValues - pos ≤ fuel) (hpos : pos < numValues → isNull pos = false) :
    (∃ r', nextLoop isNull numValues fuel pos r = .ok () r' ∧
        (nonNullFrom isNull pos (numValues - pos)).length ≤ r.dec.logical.length ∧
        r'.out = r.out ++ (nonNullFrom isNull pos (numValues - pos)).zip r.dec.logical ∧
        r'.dec.logical = r.dec.logical.drop (nonNullFrom isNull pos (numValues - pos)).length ∧
        r'.dec.Good ∧ r'.dec.regs.pendingSkip = r.dec.regs.pendingSkip ∧ r'.dec.key = r.dec.key) ∨
      (r.dec.logical.length < (nonNullFrom isNull pos (numValues - pos)).length ∧
        ∃ e r', nextLoop isNull numValues fuel pos r = .raised e r' ∧ Dec.ParseError e ∧
          r'.out = r.out ++ (nonNullFrom isNull pos (numValues - pos)).zip r.dec.logical) := by
  induction fuel generalizing pos r with
  | zero =>
    have : numValues - pos = 0 := by omega
    rw [this]
    exact Or.inl ⟨r, rfl, Nat.zero_le _, by simp [nonNullFrom], by simp [nonNullFrom], h, rfl, rfl⟩
  | succ fuel ih =>
    unfold nextLoop
    by_cases hlt : pos < numValues
    · rw [if_pos hlt]
      rcases Dec.needHeader_spec h with ⟨d1, hn, hl, hrem, hg, hp, hkey⟩ | ⟨hl, e, d1, hn, he⟩
      · rw [hn]
        simp only [Proc.embed_ok, Proc.bind_ok]
        generalize hcnt : min (numValues - pos) d1.regs.remainingValues.toNat = count
        have hsplit : numValues - pos = count + (numValues - (pos + count)) := by omega
        rw [hsplit, nonNullFrom_split]
        rw [← hl]
        rcases takeValues_spec (isNull := isNull) (n := count) (pos := pos) (r := { dec := d1, out := r.out }) hg
            (by simp only; omega) with
          ⟨r2, h1, h2, h3, h4, h5, h6, h7, _, _, _⟩ | ⟨h2, e, r2, h1, he, h3⟩
        · rw [h1]
          simp only [Proc.bind_ok] at h2 h3 h4 h6 h7 ⊢
          obtain ⟨s1, s2, s3, s4⟩ := skipNulls_spec isNull (numValues - (pos + count)) (pos + count)
          have hend : pos + count + (numValues - (pos + count)) = numValues := by omega
          rw [hend] at s2 s3 s4
          rw [s4]
          rcases ih (pos := skipNulls isNull (numValues - (pos + count)) (pos + count)) (r := r2) h5 (by omega) s3 with
            ⟨r3, k1, k2, k3, k4, k5, k6, k7⟩ | ⟨k2, e, r3, k1, ke, k3⟩
          · left
            rw [h4] at k2 k3 k4
            rw [List.length_drop] at k2
            refine ⟨r3, k1, by rw [List.length_append]; omega, ?_, ?_, k5, by rw [k6, h6, hp], by rw [k7, h7, hkey]⟩
            · rw [k3, h3, List.append_assoc, ← zip_append_drop h2]
            · rw [k4, List.drop_drop, List.length_append]
          · right
            rw [h4] at k2 k3
            rw [List.length_drop] at k2
            refine ⟨by rw [List.length_append]; omega, e, r3, k1, ke, ?_⟩
            rw [k3, h3, List.append_assoc, ← zip_append_drop h2]
        · right
          rw [h1]
          simp only at h2 h3
          refine ⟨by rw [List.length_append]; omega, e, r2, rfl, he, ?_⟩
          rw [h3, zip_append_short (by omega)]
      · right
        rw [hn, hl]
        have hne : (nonNullFrom isNull pos (numValues - pos)).length ≠ 0 := by
          obtain ⟨n, hn⟩ : ∃ n, numValues - pos = n + 1 := ⟨numValues - pos - 1, by omega⟩
          rw [hn, nonNullFrom_succ, hpos hlt]
          simp
        exact ⟨Nat.pos_of_ne_zero hne, e, _, rfl, he, by simp⟩
    · rw [if_neg hlt]
      have : numValues - pos = 0 := by omega
      rw [this]
      exact Or.inl ⟨r, rfl, Nat.zero_le _, by simp [nonNullFrom], by simp [nonNullFrom], h, rfl, rfl⟩

end DecRun

/-- `ByteNext` (R171) in the terms of R174: the pending skip is dropped, then the values go to the non-null positions. -/
theorem byteNext_spec {isNull : Nat → Bool} {numValues : Nat} {d : Dec} (h : d.Good) :
    (∃ r, byteNext isNull numValues d = .ok () r ∧
        (nonNullPositions isNull numValues).length ≤ (d.logical.drop d.regs.pendingSkip.toNat).length ∧
        r.out = (nonNullPositions isNull numValues).zip (d.logical.drop d.regs.pendingSkip.toNat) ∧
        r.dec.logical = d.logical.drop (d.regs.pendingSkip.toNat + (nonNullPositions isNull numValues).length) ∧
        r.dec.Good ∧ r.dec.regs.pendingSkip = 0 ∧ r.dec.key = d.key) ∨
      (d.logical.length < d.regs.pendingSkip.toNat + (nonNullPositions isNull numValues).length ∧
        ∃ e r, byteNext isNull numValues d = .raised e r ∧ Dec.ParseError e ∧
          r.out = (nonNullPositions isNull numValues).zip (d.logical.drop d.regs.pendingSkip.toNat)) := by
  unfold byteNext Dec.skipValues
  dsimp only
  have h0 : Dec.Good { d with regs := { d.regs with pendingSkip := 0 } } := h
  rcases Dec.skipLoop_spec h0 (Nat.le_refl d.regs.pendingSkip.toNat) with ⟨d1, h1, l1, g1, p1, k1⟩ | ⟨l1, e, d1, h1, e1⟩
  · rw [h1]
    simp only [Proc.embed_ok, Proc.bind_ok]
    have hl : d1.logical = d.logical.drop d.regs.pendingSkip.toNat := l1
    obtain ⟨s1, s2, s3, s4⟩ := DecRun.skipNulls_spec isNull numValues 0
    simp only [Nat.zero_add] at s2 s3 s4
    rw [nonNullPositions_eq, s4, ← hl]
    rcases DecRun.nextLoop_spec (r := { dec := d1, out := [] }) g1 (fuel := numValues)
        (pos := DecRun.skipNulls isNull numValues 0) (by omega) s3 with
      ⟨r3, k1', k2, k3, k4, k5, k6, k7⟩ | ⟨k2, e, r3, k1', ke, k3⟩
    · left
      refine ⟨r3, k1', k2, by simpa using k3, ?_, k5, by rw [k6]; exact p1, by rw [k7]; exact k1⟩
      rw [k4]
      simp only [hl, List.drop_drop]
    · right
      simp only [hl, List.length_drop] at k2
      exact ⟨by omega, e, r3, k1', ke, by simpa using k3⟩
  · right
    have hl : d.logical.length < d.regs.pendingSkip.toNat := l1
    rw [h1]
    refine ⟨by omega, e, _, rfl, e1, ?_⟩
    rw [List.drop_eq_nil_of_le (by omega)]
    simp

end Sys2Proof.Machine
end

