-- ==== Sys2Proof/Laws/BoolDecoder.lean ====
section
/-!
SUPPORT. What the boolean decoder's procedures do to the logical bits before it (45_bool_decoder R235), on a source that fails only
at the end of its stream.
-/

namespace Sys2Proof.Machine

theorem ceilDiv_eight (n : Nat) : ceilDiv n 8 = (n + 7) / 8 := rfl

theorem msbBits_take (bs : List Byte) (n : Nat) : msbBits (bs.take n) = (msbBits bs).take (8 * n) := by
  induction bs generalizing n with
  | nil => simp [msbBits]
  | cons b bs ih =>
    cases n with
    | zero => simp [msbBits]
    | succ n =>
      rw [List.take_succ_cons, msbBits_cons, ih, msbBits_cons b bs, List.take_append]
      have h8 : (msbBits [b]).length = 8 := by simp [msbBits]
      rw [List.take_of_length_le (l := msbBits [b]) (by rw [h8]; omega), h8, show 8 * (n + 1) - 8 = 8 * n by omega]

theorem msbBits_drop (bs : List Byte) (n : Nat) : msbBits (bs.drop n) = (msbBits bs).drop (8 * n) := by
  induction bs generalizing n with
  | nil => simp [msbBits]
  | cons b bs ih =>
    cases n with
    | zero => simp
    | succ n =>
      rw [List.drop_succ_cons, ih, msbBits_cons b bs, List.drop_append]
      have h8 : (msbBits [b]).length = 8 := by simp [msbBits]
      rw [List.drop_eq_nil_of_le (as := msbBits [b]) (by rw [h8]; omega), List.nil_append, h8,
        show 8 * (n + 1) - 8 = 8 * n by omega]

/-- Bit `k` of the logical bits of a byte sequence (R230): MSB first. -/
theorem msbBits_getElem (bs : List Byte) (k : Nat) (hk : k < (msbBits bs).length) :
    (msbBits bs)[k] = ((bs[k / 8]?).getD 0).getLsbD (7 - k % 8) := by
  induction bs generalizing k with
  | nil => simp [msbBits] at hk
  | cons b bs ih =>
    have h8 : (msbBits [b]).length = 8 := by simp [msbBits]
    have hc := msbBits_cons b bs
    simp only [hc] at hk ⊢
    rw [List.getElem_append]
    split
    · next hlt =>
      rw [h8] at hlt
      have h0 : k / 8 = 0 := by omega
      have hm : k % 8 = k := by omega
      simp [msbBits, h0, hm]
    · next hge =>
      rw [h8] at hge
      rw [ih]
      have h0 : k / 8 = (k - 8) / 8 + 1 := by omega
      have hm : k % 8 = (k - 8) % 8 := by omega
      simp only [h8, h0, hm, List.getElem?_cons_succ]

theorem reverse8_getLsbD (b : Byte) (t : Nat) (ht : t < 8) : (reverse8 b).getLsbD t = b.getLsbD (7 - t) := by
  unfold reverse8
  rw [BitVec.getLsbD_reverse, BitVec.getMsbD_eq_getLsbD]
  simp [ht]

/-- The same bits read LSB first from the reversed bytes (R88). -/
theorem bitOf_reverse (bs : List Byte) (k : Nat) (hk : k < (msbBits bs).length) :
    bitOf (bs.map reverse8) k = (msbBits bs)[k] := by
  rw [msbBits_getElem]
  have hlen := msbBits_length bs
  have hlt : k / 8 < bs.length := by omega
  simp only [bitOf, List.getElem?_map, List.getElem?_eq_getElem hlt, Option.map_some, Option.getD_some]
  exact reverse8_getLsbD _ _ (by omega)

namespace BoolDec

/-- A boolean decoder between the steps of a command. -/
def Good (u : Dec × BoolDecRegs) : Prop := u.1.Good ∧ u.2.Inv

theorem bufferedBits_length (b : BoolDecRegs) (n : Nat) : (bufferedBits b n).length = n := by simp [bufferedBits]

theorem logicalBits_length (d : Dec) (b : BoolDecRegs) :
    (logicalBits d b).length = b.remainingBits.toNat + 8 * d.logical.length := by
  simp [logicalBits, bufferedBits_length, msbBits_length]

/-- Buffered bits taken: those that are left (R39). -/
theorem bufferedBits_drop (b : BoolDecRegs) {n : Nat} (hb : b.Inv) (hn : n ≤ b.remainingBits.toNat) :
    (bufferedBits b b.remainingBits.toNat).drop n =
      bufferedBits { b with remainingBits := BitVec.ofNat 4 (b.remainingBits.toNat - n) }
        (BitVec.ofNat 4 (b.remainingBits.toNat - n)).toNat := by
  have hlt := b.remainingBits.isLt
  have hr : (BitVec.ofNat 4 (b.remainingBits.toNat - n)).toNat = b.remainingBits.toNat - n := by
    rw [BitVec.toNat_ofNat]; omega
  apply List.ext_getElem
  · simp [bufferedBits, hr]
  · intro k h1 h2
    simp only [bufferedBits, List.getElem_drop, List.getElem_map, List.getElem_range, hr]
    congr 1
    omega

theorem bufferedBits_take (b : BoolDecRegs) {n m : Nat} (hn : n ≤ m) : (bufferedBits b m).take n = bufferedBits b n := by
  apply List.ext_getElem
  · simp [bufferedBits]; omega
  · intro k h1 h2
    simp [bufferedBits]

/-- The last `r` bits of a byte, held reversed (R39, R231). -/
theorem bufferedBits_reversed (b : Byte) {r : Nat} (hr : r ≤ 8) (x : BoolDecRegs) (h1 : x.remainingBits.toNat = r)
    (h2 : x.reversedLastByte = reverse8 b) : bufferedBits x r = (msbBits [b]).drop (8 - r) := by
  apply List.ext_getElem
  · simp [bufferedBits, msbBits]; omega
  · intro k hk1 hk2
    simp only [bufferedBits_length] at hk1
    simp only [bufferedBits, List.getElem_map, List.getElem_range, h1, h2, List.getElem_drop]
    rw [reverse8_getLsbD _ _ (by omega)]
    simp [msbBits]

/-- `ByteNext` into internal bytes (R231, R232). -/
theorem fetchBytes_spec {d : Dec} (h : d.Good) (hp : d.regs.pendingSkip = 0) (n : Nat) :
    (∃ d', fetchBytes n d = .ok (d.logical.take n) d' ∧ n ≤ d.logical.length ∧ d'.logical = d.logical.drop n ∧ d'.Good ∧
        d'.regs.pendingSkip = 0 ∧ d'.key = d.key) ∨
      (d.logical.length < n ∧ ∃ e d', fetchBytes n d = .raised e d' ∧ Dec.ParseError e) := by
  have hps : nonNullPositions (fun _ => false) n = List.range n := by simp [nonNullPositions]
  unfold fetchBytes
  rcases byteNext_spec (isNull := fun _ => false) (numValues := n) h with ⟨r, h1, h2, h3, h4, h5, h6, h7⟩ | ⟨h2, e, r, h1, he, _⟩
  · left
    rw [hps] at h2 h3 h4
    simp only [hp, BitVec.toNat_zero, BitVec.ofNat_eq_ofNat, List.drop_zero, List.length_range, Nat.zero_add] at h2 h3 h4
    rw [h1]
    refine ⟨r.dec, ?_, h2, h4, h5, h6, h7⟩
    simp only [h3]
    congr 1
    rw [← List.map_snd_zip (l₁ := List.range n) (l₂ := d.logical.take n) (by simp)]
    congr 1
    rw [List.zip_eq_zip_take_min, List.length_range, Nat.min_eq_left h2, List.take_of_length_le (l := List.range n) (by simp)]
  · right
    rw [hps] at h2
    simp only [hp, BitVec.toNat_zero, BitVec.ofNat_eq_ofNat, List.length_range, Nat.zero_add] at h2
    rw [h1]
    exact ⟨h2, e, r.dec, rfl, he⟩

/-- `BoolSkipPending` (R231) in the terms of R235: the pending bits are dropped. -/
theorem skipPending_spec {u : Dec × BoolDecRegs} (h : Good u) :
    (∃ u', skipPending u = .ok () u' ∧ logicalBits u'.1 u'.2 = (logicalBits u.1 u.2).drop u.1.regs.pendingSkip.toNat ∧ Good u' ∧
        u'.1.regs.pendingSkip = 0 ∧ u'.1.key = u.1.key) ∨
      ((logicalBits u.1 u.2).length < u.1.regs.pendingSkip.toNat ∧
        ∃ e u', skipPending u = .raised e u' ∧ Dec.ParseError e) := by
  obtain ⟨hg, hb⟩ := h
  have h0 : Dec.Good { u.1 with regs := { u.1.regs with pendingSkip := 0 } } := hg
  have hl0 : Dec.logical { u.1 with regs := { u.1.regs with pendingSkip := 0 } } = u.1.logical := rfl
  have hlt := u.2.remainingBits.isLt
  unfold skipPending
  dsimp only
  by_cases hn : u.1.regs.pendingSkip.toNat ≤ u.2.remainingBits.toNat
  · rw [if_pos hn]
    left
    have hsub : u.2.remainingBits - BitVec.ofNat 4 u.1.regs.pendingSkip.toNat =
        BitVec.ofNat 4 (u.2.remainingBits.toNat - u.1.regs.pendingSkip.toNat) := by
      apply BitVec.eq_of_toNat_eq
      rw [BitVec.toNat_sub, BitVec.toNat_ofNat, BitVec.toNat_ofNat]
      omega
    refine ⟨_, rfl, ?_, ⟨h0, ?_⟩, rfl, rfl⟩
    · simp only [logicalBits, hl0, hsub]
      rw [List.drop_append, bufferedBits_length, Nat.sub_eq_zero_of_le hn, List.drop_zero, bufferedBits_drop _ hb hn]
    · simp only [BoolDecRegs.Inv, hsub, BitVec.toNat_ofNat] at hb ⊢
      omega
  · rw [if_neg hn]
    generalize hN : u.1.regs.pendingSkip.toNat = N at hn ⊢
    have hdropN : (logicalBits u.1 u.2).drop N = (msbBits u.1.logical).drop (N - u.2.remainingBits.toNat) := by
      simp only [logicalBits]
      rw [List.drop_append, bufferedBits_length, List.drop_eq_nil_of_le (by rw [bufferedBits_length]; omega), List.nil_append]
    generalize hk : N - u.2.remainingBits.toNat = k at hdropN ⊢
    unfold Dec.skipValues
    rcases Dec.skipLoop_spec h0 (Nat.le_refl (k / 8)) with ⟨d1, h1, l1, g1, p1, k1⟩ | ⟨l1, e, d1, h1, e1⟩
    · rw [h1]
      simp only [Proc.embed_ok, Proc.bind_ok]
      rw [hl0] at l1
      have p1 : d1.regs.pendingSkip = 0 := p1
      have hsk : (msbBits u.1.logical).drop k = (msbBits d1.logical).drop (k % 8) := by
        rw [l1, msbBits_drop, List.drop_drop]
        congr 1
        omega
      unfold skipTail
      by_cases ht : k % 8 > 0
      · rw [if_pos ht]
        rcases fetchBytes_spec g1 p1 1 with ⟨d2, h2, n2, l2, g2, p2, k2⟩ | ⟨n2, e, d2, h2, e2⟩
        · left
          rw [h2]
          simp only [Proc.embed_ok, Proc.bind_ok]
          obtain ⟨b, L, hL⟩ : ∃ b L, d1.logical = b :: L := by
            cases hc : d1.logical with
            | nil => rw [hc] at n2; simp at n2
            | cons b L => exact ⟨b, L, rfl⟩
          have hr : (BitVec.ofNat 4 (8 - k % 8)).toNat = 8 - k % 8 := by rw [BitVec.toNat_ofNat]; omega
          refine ⟨_, rfl, ?_, ⟨g2, ?_⟩, p2, k2.trans k1⟩
          · rw [hdropN, hsk, hL, msbBits_cons, List.drop_append]
            have h8 : (msbBits [b]).length = 8 := by simp [msbBits]
            simp only [logicalBits, l2, hL, List.take_succ_cons, List.headD_cons, List.drop_succ_cons, List.drop_zero, hr]
            rw [bufferedBits_reversed b (r := 8 - k % 8) (by omega) _ hr rfl, h8, show k % 8 - 8 = 0 by omega, List.drop_zero,
              show 8 - (8 - k % 8) = k % 8 by omega]
          · simp only [BoolDecRegs.Inv, hr]
            omega
        · right
          rw [h2]
          refine ⟨?_, e, _, rfl, e2⟩
          rw [l1, List.length_drop] at n2
          rw [logicalBits_length]
          omega
      · rw [if_neg ht]
        left
        refine ⟨_, rfl, ?_, ⟨g1, by simp [BoolDecRegs.Inv]⟩, p1, k1⟩
        rw [hdropN, hsk, show k % 8 = 0 by omega, List.drop_zero]
        simp [logicalBits, bufferedBits]
    · right
      rw [h1]
      refine ⟨?_, e, _, rfl, e1⟩
      rw [hl0] at l1
      rw [logicalBits_length]
      omega

/-- Steps 3 to 6 of R232: the next bits are taken. -/
theorem takeBits_spec {u : Dec × BoolDecRegs} (h : Good u) (hp : u.1.regs.pendingSkip = 0) (m : Nat) :
    (∃ u', takeBits m u = .ok ((logicalBits u.1 u.2).take m) u' ∧ m ≤ (logicalBits u.1 u.2).length ∧
        logicalBits u'.1 u'.2 = (logicalBits u.1 u.2).drop m ∧ Good u' ∧ u'.1.regs.pendingSkip = 0 ∧ u'.1.key = u.1.key) ∨
      ((logicalBits u.1 u.2).length < m ∧ ∃ e u', takeBits m u = .raised e u' ∧ Dec.ParseError e) := by
  obtain ⟨hg, hb⟩ := h
  have hlt := u.2.remainingBits.isLt
  have hlen := logicalBits_length u.1 u.2
  unfold takeBits
  dsimp only
  by_cases hr : u.2.remainingBits.toNat ≥ m
  · rw [if_pos hr]
    left
    refine ⟨(u.1, { u.2 with remainingBits := BitVec.ofNat 4 (u.2.remainingBits.toNat - m) }), ?_, by omega, ?_, ⟨hg, ?_⟩, hp, rfl⟩
    · congr 1
      simp only [logicalBits]
      rw [List.take_append_of_le_length (by rw [bufferedBits_length]; exact hr), bufferedBits_take _ hr]
    · simp only [logicalBits]
      rw [List.drop_append, bufferedBits_length, Nat.sub_eq_zero_of_le hr, List.drop_zero, bufferedBits_drop _ hb hr]
    · simp only [BoolDecRegs.Inv, BitVec.toNat_ofNat] at hb ⊢
      omega
  · rw [if_neg hr]
    rw [ceilDiv_eight]
    generalize hq : (m - u.2.remainingBits.toNat + 7) / 8 = q
    rcases fetchBytes_spec hg hp q with ⟨d1, h1, n1, l1, g1, p1, k1⟩ | ⟨n1, e, d1, h1, e1⟩
    · left
      rw [h1]
      simp only [Proc.embed_ok, Proc.bind_ok]
      have hbits : (msbBits (u.1.logical.take q)).length = 8 * q := by
        rw [msbBits_length, List.length_take, Nat.min_eq_left n1]
      have hrem : (BitVec.ofNat 4 (q * 8 + u.2.remainingBits.toNat - m)).toNat = q * 8 + u.2.remainingBits.toNat - m := by
        rw [BitVec.toNat_ofNat]; omega
      have hlast : ∃ b, (List.map reverse8 (u.1.logical.take q)).getLastD 0 = reverse8 b ∧
          u.1.logical.take q = u.1.logical.take (q - 1) ++ [b] := by
        have hq1 : q - 1 < u.1.logical.length := by omega
        refine ⟨u.1.logical[q - 1], ?_, ?_⟩
        · rw [List.getLastD_eq_getLast?, List.getLast?_map, List.getLast?_eq_getElem?, List.length_take, Nat.min_eq_left n1,
            List.getElem?_take_of_lt (by omega), List.getElem?_eq_getElem hq1]
          rfl
        · have := List.take_succ_eq_append_getElem hq1
          rwa [show q - 1 + 1 = q by omega] at this
      obtain ⟨b, hb1, hb2⟩ := hlast
      refine ⟨(d1, { remainingBits := BitVec.ofNat 4 (q * 8 + u.2.remainingBits.toNat - m)
                     reversedLastByte := (List.map reverse8 (u.1.logical.take q)).getLastD 0 }), ?_, by omega, ?_, ⟨g1, ?_⟩, p1, k1⟩
      · congr 1
        simp only [logicalBits]
        rw [List.take_append, bufferedBits_length,
          List.take_of_length_le (l := bufferedBits u.2 u.2.remainingBits.toNat) (by rw [bufferedBits_length]; omega)]
        congr 1
        apply List.ext_getElem
        · simp only [List.length_map, List.length_range, List.length_take, msbBits_length]
          omega
        · intro k hk1 hk2
          simp only [List.length_map, List.length_range] at hk1
          simp only [List.getElem_map, List.getElem_range, List.getElem_take]
          rw [bitOf_reverse _ _ (by omega)]
          simp only [msbBits_take, List.getElem_take]
      · simp only [logicalBits, hrem, l1]
        rw [List.drop_append, bufferedBits_length,
          List.drop_eq_nil_of_le (as := bufferedBits u.2 u.2.remainingBits.toNat) (by rw [bufferedBits_length]; omega),
          List.nil_append]
        rw [bufferedBits_reversed b (r := q * 8 + u.2.remainingBits.toNat - m) (by omega) _ hrem hb1, msbBits_drop]
        have hsplit : msbBits u.1.logical = msbBits (u.1.logical.take (q - 1)) ++ (msbBits [b] ++ (msbBits u.1.logical).drop (8 * q)) := by
          rw [← msbBits_drop, ← msbBits_append, ← msbBits_append, ← List.append_assoc, ← hb2, List.take_append_drop]
        conv_rhs => rw [hsplit]
        have h8 : (msbBits [b]).length = 8 := by simp [msbBits]
        have hl' : (msbBits (u.1.logical.take (q - 1))).length = 8 * (q - 1) := by
          rw [msbBits_length, List.length_take, Nat.min_eq_left (by omega)]
        rw [List.drop_append, List.drop_eq_nil_of_le (as := msbBits (u.1.logical.take (q - 1))) (by rw [hl']; omega),
          List.nil_append, List.drop_append, hl', h8,
          show m - u.2.remainingBits.toNat - 8 * (q - 1) - 8 = 0 by omega, List.drop_zero,
          show m - u.2.remainingBits.toNat - 8 * (q - 1) = 8 - (q * 8 + u.2.remainingBits.toNat - m) by omega]
      · simp only [BoolDecRegs.Inv, hrem]
        omega
    · right
      rw [h1]
      refine ⟨by omega, e, _, rfl, e1⟩

/-! ### The output (R232, steps 7 and 8) -/

theorem byteOfBits_getLsbD (f : Nat → Bool) (t : Nat) (ht : t < 8) : (byteOfBits f).getLsbD t = f t := by
  unfold byteOfBits
  rw [BitVec.getLsbD_ofFnLE]
  simp [ht]

theorem scatterBits_length (isNull : Nat → Bool) (n left i : Nat) (bits : List Bool) :
    (scatterBits isNull n left i bits).length = left := by
  induction left generalizing i bits with
  | zero => rfl
  | succ left ih => unfold scatterBits; split <;> simp [ih]

/-- Bit `p` of the packed output. -/
theorem bitOf_packBits {n : Nat} {bits : List Bool} (p : Nat) (hp : p < 8 * n) (hl : bits.length = 8 * n) :
    bitOf (packBits n bits) p = bits[p]'(by omega) := by
  have hq : p / 8 < n := by omega
  simp only [bitOf, packBits, List.getElem?_map, List.getElem?_range hq, Option.map_some, Option.getD_some]
  rw [byteOfBits_getLsbD _ _ (by omega), Nat.div_add_mod, List.getElem?_eq_getElem (by omega), Option.getD_some]

theorem packBits_length (n : Nat) (bits : List Bool) : (packBits n bits).length = n := by simp [packBits]

/-- The scattered bits: 0 at the null positions and past the end, the compact bits elsewhere, in order. -/
theorem scatterBits_spec (isNull : Nat → Bool) (n left i : Nat) (bits : List Bool) :
    (∀ j (h : j < (scatterBits isNull n left i bits).length), (i + j ≥ n ∨ isNull (i + j) = true) →
        (scatterBits isNull n left i bits)[j] = false) ∧
      ((nonNullFrom isNull i (min left (n - i))).length ≤ bits.length →
        (nonNullFrom isNull i (min left (n - i))).map (fun p => (scatterBits isNull n left i bits)[p - i]?.getD false) =
          bits.take (nonNullFrom isNull i (min left (n - i))).length) := by
  induction left generalizing i bits with
  | zero => simp [scatterBits, nonNullFrom]
  | succ left ih =>
    unfold scatterBits
    by_cases hc : i ≥ n ∨ isNull i = true
    · simp only [if_pos hc]
      obtain ⟨h1, h2⟩ := ih (i + 1) bits
      refine ⟨fun j hj hcond => ?_, fun hlen => ?_⟩
      · cases j with
        | zero => rfl
        | succ j => exact h1 j (by simpa using hj) (by rwa [show i + 1 + j = i + (j + 1) by omega])
      · have hps : nonNullFrom isNull i (min (left + 1) (n - i)) = nonNullFrom isNull (i + 1) (min left (n - (i + 1))) := by
          rcases Nat.lt_or_ge i n with hi | hi
          · rcases hc with hc | hc
            · omega
            · rw [show min (left + 1) (n - i) = min left (n - (i + 1)) + 1 by omega, nonNullFrom_succ, hc]
              simp
          · rw [show min (left + 1) (n - i) = 0 by omega, show min left (n - (i + 1)) = 0 by omega]
            simp [nonNullFrom]
        rw [hps] at hlen ⊢
        rw [← h2 hlen]
        apply List.map_congr_left
        intro p hp
        have hp' : i + 1 ≤ p := (List.mem_range'_1.1 (List.mem_filter.1 hp).1).1
        rw [show p - i = (p - (i + 1)) + 1 by omega, List.getElem?_cons_succ]
    · simp only [if_neg hc]
      have hi : i < n := by omega
      have hnull : isNull i = false := by
        cases h : isNull i with
        | true => exact absurd (Or.inr h) hc
        | false => rfl
      obtain ⟨h1, h2⟩ := ih (i + 1) bits.tail
      refine ⟨fun j hj hcond => ?_, fun hlen => ?_⟩
      · cases j with
        | zero => exact absurd hcond hc
        | succ j => exact h1 j (by simpa using hj) (by rwa [show i + 1 + j = i + (j + 1) by omega])
      · rw [show min (left + 1) (n - i) = min left (n - (i + 1)) + 1 by omega, nonNullFrom_succ, hnull] at hlen ⊢
        simp only [Bool.false_eq_true, if_false, List.cons_append, List.nil_append, List.length_cons, List.map_cons,
          Nat.sub_self] at hlen ⊢
        cases bits with
        | nil => simp at hlen
        | cons b bits =>
          simp only [List.tail_cons, List.length_cons] at h2 hlen ⊢
          rw [List.take_succ_cons, ← h2 (by omega)]
          congr 1
          apply List.map_congr_left
          intro p hp
          have hp' : i + 1 ≤ p := (List.mem_range'_1.1 (List.mem_filter.1 hp).1).1
          rw [show p - i = (p - (i + 1)) + 1 by omega, List.getElem?_cons_succ]

/-- What `BOOLDEC.NEXT` makes of the bits before it (R232, R235). -/
def OutputSpec (isNull : Nat → Bool) (n : Nat) (bits : List Bool) (bytes : List Byte) : Prop :=
  bytes.length = ceilDiv n 8 ∧
    (nonNullPositions isNull n).map (bitOf bytes) = bits ∧
    ∀ p, p < 8 * ceilDiv n 8 → (p ≥ n ∨ isNull p = true) → bitOf bytes p = false

theorem output_spec (isNull : Nat → Bool) (n : Nat) {bits : List Bool}
    (hb : bits.length = (nonNullPositions isNull n).length) :
    OutputSpec isNull n bits (packBits (ceilDiv n 8) (scatterBits isNull n (8 * ceilDiv n 8) 0 bits)) := by
  have hl := scatterBits_length isNull n (8 * ceilDiv n 8) 0 bits
  have hle : n ≤ 8 * ceilDiv n 8 := by rw [ceilDiv_eight]; omega
  obtain ⟨h1, h2⟩ := scatterBits_spec isNull n (8 * ceilDiv n 8) 0 bits
  refine ⟨packBits_length _ _, ?_, fun p hp hc => ?_⟩
  · have hmin : min (8 * ceilDiv n 8) (n - 0) = n := by omega
    rw [hmin, ← nonNullPositions_eq] at h2
    have h2 := h2 (by omega)
    rw [← hb, List.take_length] at h2
    refine Eq.trans ?_ h2
    apply List.map_congr_left
    intro p hp
    have hp' := List.mem_range.1 (List.mem_filter.1 hp).1
    rw [bitOf_packBits p (by omega) hl, Nat.sub_zero, List.getElem?_eq_getElem (by omega), Option.getD_some]
  · rw [bitOf_packBits p hp hl]
    exact h1 p (by omega) (by simpa using hc)

theorem zeros_spec (isNull : Nat → Bool) (n : Nat) (h : nonNullPositions isNull n = []) :
    OutputSpec isNull n [] (List.replicate (ceilDiv n 8) 0) := by
  refine ⟨by simp, by simp [h], fun p hp _ => ?_⟩
  have hq : p / 8 < ceilDiv n 8 := by omega
  simp [bitOf, hq]

/-- `BOOLDEC.NEXT` up to its writes (R232, R235): the pending bits are dropped and the next ones taken; if there are fewer, the
parser raises unless none is asked for. -/
theorem nextBytes_spec {isNull : Nat → Bool} {n : Nat} {u : Dec × BoolDecRegs} (h : Good u) :
    (∃ bytes u', nextBytes isNull n (nonNullPositions isNull n).length u = .ok bytes u' ∧
        OutputSpec isNull n (((logicalBits u.1 u.2).drop u.1.regs.pendingSkip.toNat).take (nonNullPositions isNull n).length) bytes ∧
        (nonNullPositions isNull n).length ≤ ((logicalBits u.1 u.2).drop u.1.regs.pendingSkip.toNat).length ∧
        logicalBits u'.1 u'.2 =
          (logicalBits u.1 u.2).drop (u.1.regs.pendingSkip.toNat + (nonNullPositions isNull n).length) ∧
        Good u' ∧ u'.1.regs.pendingSkip = 0 ∧ u'.1.key = u.1.key) ∨
      ((logicalBits u.1 u.2).length < u.1.regs.pendingSkip.toNat + (nonNullPositions isNull n).length ∧
        ∃ e u', nextBytes isNull n (nonNullPositions isNull n).length u = .raised e u' ∧ Dec.ParseError e) := by
  unfold nextBytes
  rcases skipPending_spec h with ⟨u1, h1, l1, g1, p1, k1⟩ | ⟨l1, e, u1, h1, e1⟩
  · rw [h1]
    simp only [Proc.bind_ok]
    rw [← l1]
    by_cases h0 : (nonNullPositions isNull n).length = 0
    · left
      rw [if_pos h0, h0, List.take_zero]
      exact ⟨_, u1, rfl, zeros_spec isNull n (List.eq_nil_of_length_eq_zero h0), Nat.zero_le _, by rw [Nat.add_zero, l1], g1, p1, k1⟩
    · rw [if_neg h0]
      rcases takeBits_spec g1 p1 (nonNullPositions isNull n).length with ⟨u2, h2, n2, l2, g2, p2, k2⟩ | ⟨n2, e, u2, h2, e2⟩
      · left
        rw [h2]
        refine ⟨_, u2, rfl, ?_, n2, by rw [l2, l1, List.drop_drop], g2, p2, k2.trans k1⟩
        exact output_spec isNull n (by rw [List.length_take, Nat.min_eq_left n2])
      · right
        rw [h2]
        rw [l1, List.length_drop] at n2
        exact ⟨by omega, e, u2, rfl, e2⟩
  · right
    rw [h1]
    exact ⟨by omega, e, u1, rfl, e1⟩

end BoolDec

end Sys2Proof.Machine
end

