-- ==== Sys2Proof/Laws/Commands.lean ====
section
/-!
SUPPORT. How a command on a READY instance ends, and the loop of the callback form of add.
-/

namespace Sys2Proof.Machine

/-! ### A READY instance runs the body (60_exceptions R270) -/

theorem withAddressed_ready {s : State} {inst : Inst} (h : s.Ready inst) (f : Inst → Host.Outcome State Fault Refusal) :
    withAddressed s f = f inst := by
  simp [withAddressed, h.1, h.2]

theorem withAddressed_failed {s : State} {inst : Inst} (h : s.addressed = some inst) (hf : inst.status.failed = true)
    (f : Inst → Host.Outcome State Fault Refusal) : withAddressed s f = .fault .failedInstance := by
  simp [withAddressed, h, hf]

theorem onByteEnc_ready {s : State} {inst : Inst} {e : Enc} (h : s.Ready inst) (hc : inst.codec = .byteEnc e)
    (body : Enc → Shared → Proc (Enc × Shared) Count) :
    onByteEnc s body = complete s inst .byteEnc (body e s.shared) := by
  simp [onByteEnc, withAddressed_ready h, hc]

theorem onBoolEnc_ready {s : State} {inst : Inst} {e : Enc} {b : BoolEncRegs} (h : s.Ready inst)
    (hc : inst.codec = .boolEnc e b) (body : Enc × BoolEncRegs → Shared → Proc ((Enc × BoolEncRegs) × Shared) Count) :
    onBoolEnc s body = complete s inst (fun u => .boolEnc u.1 u.2) (body (e, b) s.shared) := by
  simp [onBoolEnc, withAddressed_ready h, hc]

theorem onByteDec_ready {s : State} {inst : Inst} {d : Dec} (h : s.Ready inst) (hc : inst.codec = .byteDec d)
    (body : Dec → Shared → Proc (Dec × Shared) Count) :
    onByteDec s body = complete s inst .byteDec (body d s.shared) := by
  simp [onByteDec, withAddressed_ready h, hc]

theorem onBoolDec_ready {s : State} {inst : Inst} {d : Dec} {b : BoolDecRegs} (h : s.Ready inst)
    (hc : inst.codec = .boolDec d b) (body : Dec × BoolDecRegs → Shared → Proc ((Dec × BoolDecRegs) × Shared) Count) :
    onBoolDec s body = complete s inst (fun u => .boolDec u.1 u.2) (body (d, b) s.shared) := by
  simp [onBoolDec, withAddressed_ready h, hc]

/-- An agent that leaves its own instance alone re-enters nothing. -/
@[simp] theorem Codec.reenters_of_none {c : Codec} (h : c.reentersAt = none) (c' : Codec) : c.reenters c' = false := by
  simp [Codec.reenters, h]

/-- Without a transaction nothing is re-entered. -/
theorem Codec.reenters_same {c c' : Codec} (h : c'.transactions = c.transactions) : c.reenters c' = false := by
  unfold Codec.reenters
  cases c.reentersAt with
  | none => rfl
  | some k => simp; omega

/-- One transaction is re-entered only if it is the one named. -/
theorem Codec.reenters_one {c c' : Codec} (h : c'.transactions = c.transactions + 1)
    (hk : c.reentersAt ≠ some c.transactions) : c.reenters c' = false := by
  unfold Codec.reenters
  cases hc : c.reentersAt with
  | none => rfl
  | some k =>
    rw [hc] at hk
    have : k ≠ c.transactions := fun h => hk (by rw [h])
    simp; omega

@[simp] theorem complete_ok {υ : Type} {s : State} {inst : Inst} {wrap : υ → Codec} {n : Count} {u : υ} {sh : Shared}
    (h : inst.codec.reenters (wrap u) = false) : complete s inst wrap (.ok n (u, sh)) =
      .next (s.reply { inst with codec := wrap u } sh { status := 0, result := n, diag := none }) := by
  simp [complete, h]

@[simp] theorem complete_raised {υ : Type} {s : State} {inst : Inst} {wrap : υ → Codec} {r : Raise} {u : υ} {sh : Shared}
    (h : inst.codec.reenters (wrap u) = false) :
    complete s inst wrap (.raised r (u, sh)) = .next (s.raiseError { inst with codec := wrap u } sh r) := by
  simp [complete, h]

/-- A command in which the agent on the port re-entered has no meaning, however its body ended (60_exceptions R272 item 4). -/
theorem complete_reenters {υ : Type} {s : State} {inst : Inst} {wrap : υ → Codec} {x : Proc (υ × Shared) Count} {us : υ × Shared}
    (hx : (∃ n, x = .ok n us) ∨ ∃ r, x = .raised r us) (h : inst.codec.reenters (wrap us.1) = true) :
    complete s inst wrap x = .fault .reentrantAgent := by
  rcases hx with ⟨n, rfl⟩ | ⟨r, rfl⟩ <;> simp [complete, h]

@[simp] theorem complete_stuck {υ : Type} (s : State) (inst : Inst) (wrap : υ → Codec) (f : Fault) :
    complete s inst wrap (.stuck f) = .fault f := rfl

/-- How a command can end in a next state: with a result, or with an error. -/
theorem complete_eq_next {υ : Type} {s t : State} {inst : Inst} {wrap : υ → Codec} {x : Proc (υ × Shared) Count}
    (h : complete s inst wrap x = .next t) :
    (∃ n u sh, x = .ok n (u, sh) ∧ inst.codec.reenters (wrap u) = false ∧
        t = s.reply { inst with codec := wrap u } sh { status := 0, result := n, diag := none }) ∨
      ∃ r u sh, x = .raised r (u, sh) ∧ inst.codec.reenters (wrap u) = false ∧
        t = s.raiseError { inst with codec := wrap u } sh r := by
  cases x with
  | ok n us =>
    obtain ⟨u, sh⟩ := us
    cases hr : inst.codec.reenters (wrap u) with
    | false => rw [complete_ok hr] at h; cases h; exact Or.inl ⟨n, u, sh, rfl, hr, rfl⟩
    | true => rw [complete_reenters (Or.inl ⟨n, rfl⟩) hr] at h; cases h
  | raised r us =>
    obtain ⟨u, sh⟩ := us
    cases hr : inst.codec.reenters (wrap u) with
    | false => rw [complete_raised hr] at h; cases h; exact Or.inr ⟨r, u, sh, rfl, hr, rfl⟩
    | true => rw [complete_reenters (Or.inr ⟨r, rfl⟩) hr] at h; cases h
  | stuck f => cases h

/-! ### The loop of the callback form (41_byte_encoder R112) -/

/-- A write for each value in order. -/
def writeList {υ : Type} (write : υ → Byte → Proc υ Unit) (u : υ) : List Byte → Proc υ Unit
  | [] => .ok () u
  | v :: vs => (write u v).bind fun _ u' => writeList write u' vs

theorem writeList_enc (e : Enc) (vs : List Byte) : writeList Enc.write e vs = e.writeAll vs := by
  induction vs generalizing e with
  | nil => rfl
  | cons v vs ih => simp only [writeList, Enc.writeAll, ih]

theorem writeList_bool (u : Enc × BoolEncRegs) (vs : List Byte) :
    writeList BoolEnc.writeByteAsBool u vs = BoolEnc.writeBools u (vs.map fun v => v != 0) := by
  induction vs generalizing u with
  | nil => rfl
  | cons v vs ih => simp only [writeList, BoolEnc.writeBools, List.map_cons, ih, BoolEnc.writeByteAsBool]

theorem Proc.bind_assoc {σ α β γ : Type} (x : Proc σ α) (f : α → σ → Proc σ β) (g : β → σ → Proc σ γ) :
    (x.bind f).bind g = x.bind fun a s => (f a s).bind g := by
  cases x <;> rfl

/-- The loop over positions one list after another. -/
theorem addFnLoop_append {υ : Type} (write : υ → Byte → Proc υ Unit) (valueAt isNullAt : Handle) (ps qs : List Nat) (count : Nat)
    (u : υ) (sh : Shared) : addFnLoop write valueAt isNullAt (ps ++ qs) count u sh =
      (addFnLoop write valueAt isNullAt ps count u sh).bind fun n us => addFnLoop write valueAt isNullAt qs n us.1 us.2 := by
  induction ps generalizing count u sh with
  | nil => rfl
  | cons i ps ih =>
    simp only [List.cons_append, addFnLoop, Proc.bind_assoc]
    congr 1
    funext null us
    split
    · exact ih ..
    · rw [Proc.bind_assoc]
      congr 1
      funext v us'
      rw [Proc.bind_assoc]
      congr 1
      funext _ us''
      exact ih ..

/-- Accessors that return: the loop writes the values of the positions that are not null, in order. -/
theorem addFnLoop_returns {υ : Type} {write : υ → Byte → Proc υ Unit} {valueAt isNullAt : Handle} {f : Nat → Byte}
    {g : Nat → Bool} {ps : List Nat} {count : Nat} {u u' : υ} {sh : Shared}
    (hn : ∀ i ∈ ps, (sh.nullFns[isNullAt]?.bind fun a => a.answer i) = some (.returns (g i)))
    (hv : ∀ i ∈ ps, g i = false → (sh.valueFns[valueAt]?.bind fun a => a.answer i) = some (.returns (f i)))
    (hw : writeList write u ((ps.filter fun i => !g i).map f) = .ok () u') :
    addFnLoop write valueAt isNullAt ps count u sh =
      .ok (count + (ps.filter fun i => !g i).length)
        (u', { sh with calls := sh.calls ++ ps.flatMap (questions valueAt isNullAt g) }) := by
  induction ps generalizing count u sh with
  | nil => cases hw; simp [addFnLoop]
  | cons i ps ih =>
    have hi := hn i (List.mem_cons_self ..)
    unfold addFnLoop
    simp only [askNull, hi, Answer.settle, Proc.embed_ok, Proc.bind_ok]
    cases hg : g i with
    | true =>
      rw [List.filter_cons_of_neg (by simp [hg])] at hw ⊢
      rw [if_pos rfl, ih (sh := { sh with calls := sh.calls ++ [.isNullAt isNullAt i] })
        (fun j hj => hn j (List.mem_cons_of_mem _ hj)) (fun j hj => hv j (List.mem_cons_of_mem _ hj)) hw]
      simp [questions, hg]
    | false =>
      have hvi := hv i (List.mem_cons_self ..) hg
      rw [List.filter_cons_of_pos (by simp [hg])] at hw ⊢
      simp only [List.map_cons, writeList] at hw
      obtain ⟨_, u1, h1, h2⟩ := Proc.bind_eq_ok.1 hw
      rw [if_neg (by simp)]
      simp only [askValue, hvi, Answer.settle, Proc.embed_ok, Proc.bind_ok, h1]
      rw [ih (sh := { sh with calls := sh.calls ++ [.isNullAt isNullAt i] ++ [.valueAt valueAt i] })
        (fun j hj => hn j (List.mem_cons_of_mem _ hj)) (fun j hj => hv j (List.mem_cons_of_mem _ hj)) h2]
      simp [questions, hg]
      omega

/-- The loop changes nothing outside the unit it writes to but the record of the questions. -/
theorem addFnLoop_shared {υ : Type} {write : υ → Byte → Proc υ Unit} {valueAt isNullAt : Handle} {ps : List Nat} {count : Nat}
    {u : υ} {sh : Shared} {us : υ × Shared}
    (h : (∃ n, addFnLoop write valueAt isNullAt ps count u sh = .ok n us) ∨
      ∃ r, addFnLoop write valueAt isNullAt ps count u sh = .raised r us) : us.2 = { sh with calls := us.2.calls } := by
  induction ps generalizing count u sh with
  | nil =>
    unfold addFnLoop at h
    rcases h with ⟨n, h⟩ | ⟨r, h⟩ <;> cases h
    rfl
  | cons i ps ih =>
    unfold addFnLoop askNull at h
    have settle : ∀ {α : Type} (a : Option (Answer α)) (free : α) (sh : Shared),
        (∃ v, Answer.settle a free sh = .ok v sh) ∨ ∃ f, Answer.settle a free sh = .stuck f := by
      intro α a free sh
      rcases a with _ | ⟨v⟩ | _ | _
      · exact Or.inl ⟨_, rfl⟩
      · exact Or.inl ⟨_, rfl⟩
      · exact Or.inr ⟨_, rfl⟩
      · exact Or.inr ⟨_, rfl⟩
    rcases settle (sh.nullFns[isNullAt]?.bind fun a => a.answer i) (Config.isNullAt isNullAt sh.calls i)
        { sh with calls := sh.calls ++ [.isNullAt isNullAt i] } with ⟨b, hb⟩ | ⟨f, hb⟩
    · rw [hb] at h
      simp only [Proc.embed_ok, Proc.bind_ok] at h
      cases b with
      | true => simpa using ih h
      | false =>
        simp only [Bool.false_eq_true, if_false, askValue] at h
        rcases settle (sh.valueFns[valueAt]?.bind fun a => a.answer i)
            (Config.valueAt valueAt (sh.calls ++ [.isNullAt isNullAt i]) i)
            { sh with calls := sh.calls ++ [.isNullAt isNullAt i] ++ [.valueAt valueAt i] } with ⟨v, hv⟩ | ⟨f, hv⟩
        · rw [hv] at h
          simp only [Proc.embed_ok, Proc.bind_ok] at h
          cases hw : write u v with
          | ok x u' =>
            rw [hw] at h
            simp only [Proc.embed_ok, Proc.bind_ok] at h
            simpa using ih h
          | raised r u' =>
            rw [hw] at h
            simp only [Proc.embed_raised, Proc.bind_raised] at h
            rcases h with ⟨n, h⟩ | ⟨r, h⟩ <;> cases h
            rfl
          | stuck f =>
            rw [hw] at h
            simp at h
        · rw [hv] at h
          simp at h
    · rw [hb] at h
      simp at h

/-- What the loop leaves of the unit: whatever every write leaves. -/
theorem addFnLoop_unit {υ : Type} {P : υ → Prop} {write : υ → Byte → Proc υ Unit} {valueAt isNullAt : Handle}
    (hw : ∀ u v u', P u → write u v = .ok () u' → P u') {ps : List Nat} {count n : Nat} {u : υ} {sh : Shared} {us : υ × Shared}
    (hu : P u) (h : addFnLoop write valueAt isNullAt ps count u sh = .ok n us) : P us.1 := by
  induction ps generalizing count u sh with
  | nil =>
    unfold addFnLoop at h
    cases h
    exact hu
  | cons i ps ih =>
    unfold addFnLoop at h
    obtain ⟨b, s1, h1, h2⟩ := Proc.bind_eq_ok.1 h
    obtain ⟨sh1, _, rfl⟩ := Proc.embed_eq_ok.1 h1
    cases b with
    | true => exact ih hu (by simpa using h2)
    | false =>
      simp only [Bool.false_eq_true, if_false] at h2
      obtain ⟨v, s2, h3, h4⟩ := Proc.bind_eq_ok.1 h2
      obtain ⟨sh2, _, rfl⟩ := Proc.embed_eq_ok.1 h3
      obtain ⟨_, s3, h5, h6⟩ := Proc.bind_eq_ok.1 h4
      obtain ⟨u3, hu3, rfl⟩ := Proc.embed_eq_ok.1 h5
      exact ih (hw _ _ _ hu hu3) h6

end Sys2Proof.Machine
end

