-- ==== Sys2Proof/Laws/Invariant.lean ====
section
/-!
SUPPORT. What every command keeps, whatever the agents answer: the invariants between commands, the kind of an instance and what
it is bound to, the other instances, and the parameters. `exec_shape` says it once for all instructions.
-/

namespace Sys2Proof.Machine

namespace Proc

variable {σ τ α β : Type}

/-- Where a procedure can end: normally in `Q`, by an error in `R`. -/
def Ends (x : Proc σ α) (Q : α → σ → Prop) (R : Raise → σ → Prop) : Prop :=
  match x with
  | .ok a s => Q a s
  | .raised r s => R r s
  | .stuck _ => True

theorem Ends.bind {x : Proc σ α} {f : α → σ → Proc σ β} {P : α → σ → Prop} {Q : β → σ → Prop} {R : Raise → σ → Prop}
    (h : x.Ends P R) (hf : ∀ a s, P a s → (f a s).Ends Q R) : (x.bind f).Ends Q R := by
  cases x with
  | ok a s => exact hf a s h
  | raised r s => exact h
  | stuck e => trivial

theorem Ends.embed {x : Proc σ α} {w : σ → τ} {P : α → σ → Prop} {S : Raise → σ → Prop} {Q : α → τ → Prop}
    {R : Raise → τ → Prop} (h : x.Ends P S) (hq : ∀ a s, P a s → Q a (w s)) (hr : ∀ r s, S r s → R r (w s)) :
    (x.embed w).Ends Q R := by
  cases x with
  | ok a s => exact hq a s h
  | raised r s => exact hr r s h
  | stuck e => trivial

theorem Ends.yielding {x : Proc σ α} {f : α → β} {P : α → σ → Prop} {Q : β → σ → Prop} {R : Raise → σ → Prop}
    (h : x.Ends P R) (hq : ∀ a s, P a s → Q (f a) s) : (x.yielding f).Ends Q R := by
  cases x with
  | ok a s => exact hq a s h
  | raised r s => exact h
  | stuck e => trivial

theorem Ends.mono {x : Proc σ α} {Q Q' : α → σ → Prop} {R R' : Raise → σ → Prop} (h : x.Ends Q R)
    (hq : ∀ a s, Q a s → Q' a s) (hr : ∀ r s, R r s → R' r s) : x.Ends Q' R' := by
  cases x with
  | ok a s => exact hq a s h
  | raised r s => exact hr r s h
  | stuck e => trivial

end Proc

/-! ### What an encoder is bound to -/

/-- The same sink as `e0`'s (70_reset R291). -/
def Enc.Bound (e0 e : Enc) : Prop := e.sink.ident = e0.sink.ident

namespace Enc

/-- The ends of an encoder procedure. -/
def Fine {α : Type} (e0 : Enc) (x : Proc Enc α) : Prop :=
  x.Ends (fun _ e => Bound e0 e) fun r e => r.kind.fatal = true ∧ Bound e0 e

theorem next_ident (s : Sink) : s.next.2.ident = s.ident := by
  unfold Sink.next; split <;> rfl

theorem emitByte_fine {e0 e : Enc} (b : Byte) (h : Bound e0 e) : Fine e0 (e.emitByte b) := by
  have hn : e.sink.next.2.ident = e0.sink.ident := (next_ident _).trans h
  unfold emitByte
  split
  · generalize e.sink.next = x at hn
    obtain ⟨a, s⟩ := x
    cases a with
    | none => exact ⟨rfl, hn⟩
    | some len =>
      simp only
      split
      · exact ⟨rfl, hn⟩
      · exact hn
  · exact h

theorem emitBytes_fine {e0 e : Enc} (bs : List Byte) (h : Bound e0 e) : Fine e0 (e.emitBytes bs) := by
  induction bs generalizing e with
  | nil => exact h
  | cons b bs ih => exact (emitByte_fine b h).bind fun _ _ h' => ih h'

theorem writeValues_fine {e0 e : Enc} (h : Bound e0 e) : Fine e0 e.writeValues := by
  unfold writeValues
  split
  · exact h
  · exact (emitBytes_fine _ h).bind fun _ _ h' => h'

theorem write_fine {e0 e : Enc} (v : Byte) (h : Bound e0 e) : Fine e0 (e.write v) := by
  unfold write
  split
  · exact h
  · split
    · split
      · unfold extendCase
        dsimp only
        split
        · exact writeValues_fine h
        · exact h
      · exact (writeValues_fine h).bind fun _ _ h' => h'
    · unfold literalCase
      dsimp only
      split
      · unfold promote
        refine Proc.Ends.bind (P := fun _ e => Bound e0 e) ?_ fun _ _ h' => h'
        split
        · exact writeValues_fine h
        · exact h
      · unfold append
        dsimp only
        split
        · exact writeValues_fine h
        · exact h

theorem writeAll_fine {e0 e : Enc} (vs : List Byte) (h : Bound e0 e) : Fine e0 (e.writeAll vs) := by
  induction vs generalizing e with
  | nil => exact h
  | cons v vs ih => exact (write_fine v h).bind fun _ _ h' => ih h'

theorem flush_fine {e0 e : Enc} (h : Bound e0 e) : Fine e0 e.flush := (writeValues_fine h).bind fun _ _ h' => h'

/-- A flushed encoder meets its invariant. -/
theorem flush_inv {e e' : Enc} {n : Count} (hi : e.Inv) (h : e.flush = .ok n e') : e'.Inv := by
  obtain ⟨h1, h2, h3, h4, h5, _, _⟩ := flush_spec hi.1 hi.2 h
  refine ⟨?_, ?_, Or.inl ?_⟩
  · simp [EncRegs.StageInv, h1, h2, h3]
  · rw [h5]; simp
  · rw [h4]; rfl

theorem writeAll_inv {e e' : Enc} {vs : List Byte} (hi : e.Inv) (h : e.writeAll vs = .ok () e') : e'.Inv := by
  obtain ⟨h1, h2, _⟩ := writeAll_spec hi.1 hi.2 h
  exact ⟨h1, h2⟩

end Enc

namespace BoolEnc

/-- The ends of a boolean encoder procedure. -/
def Fine {α : Type} (e0 : Enc) (x : Proc (Enc × BoolEncRegs) α) : Prop :=
  x.Ends (fun _ u => Enc.Bound e0 u.1) fun r u => r.kind.fatal = true ∧ Enc.Bound e0 u.1

theorem writeBool_fine {e0 : Enc} {u : Enc × BoolEncRegs} (v : Bool) (h : Enc.Bound e0 u.1) : Fine e0 (writeBool u v) := by
  unfold writeBool
  dsimp only
  split
  · exact Proc.Ends.bind (P := fun _ u => Enc.Bound e0 u.1)
      ((Enc.write_fine _ h).embed (fun _ _ h => h) fun _ _ h => h) fun _ _ h' => by exact h'
  · exact h

theorem writeBools_fine {e0 : Enc} {u : Enc × BoolEncRegs} (vs : List Bool) (h : Enc.Bound e0 u.1) :
    Fine e0 (writeBools u vs) := by
  induction vs generalizing u with
  | nil => exact h
  | cons v vs ih => exact (writeBool_fine v h).bind fun _ _ h' => ih h'

theorem flush_fine {e0 : Enc} {u : Enc × BoolEncRegs} (h : Enc.Bound e0 u.1) : Fine e0 (flush u) := by
  unfold flush
  refine Proc.Ends.bind (P := fun _ u => Enc.Bound e0 u.1) ?_ fun _ _ h' => by
    refine Proc.Ends.embed (Enc.flush_fine h') ?_ ?_ <;> exact fun _ _ h => h
  unfold flushBits
  split
  · exact Proc.Ends.bind (P := fun _ u => Enc.Bound e0 u.1)
      ((Enc.write_fine _ h).embed (fun _ _ h => h) fun _ _ h => h) fun _ _ h' => by exact h'
  · exact h

theorem writeBools_inv {u u' : Enc × BoolEncRegs} {vs : List Bool} (hi : u.1.Inv ∧ u.2.Inv) (h : writeBools u vs = .ok () u') :
    u'.1.Inv ∧ u'.2.Inv := by
  obtain ⟨h1, bytes, h2, _⟩ := writeBools_spec hi.2 h
  exact ⟨Enc.writeAll_inv hi.1 h2, h1⟩

theorem writeBool_inv {u u' : Enc × BoolEncRegs} {v : Bool} (hi : u.1.Inv ∧ u.2.Inv) (h : writeBool u v = .ok () u') :
    u'.1.Inv ∧ u'.2.Inv := by
  obtain ⟨h1, bytes, h2, _⟩ := writeBool_spec hi.2 h
  exact ⟨Enc.writeAll_inv hi.1 h2, h1⟩

theorem flush_inv {u u' : Enc × BoolEncRegs} {n : Count} (hi : u.1.Inv ∧ u.2.Inv) (h : flush u = .ok n u') :
    u'.1.Inv ∧ u'.2.Inv := by
  obtain ⟨_, u1, h1, h2⟩ := Proc.bind_eq_ok.1 h
  obtain ⟨hb, bytes, hw, _⟩ := flushBits_spec hi.2 h1
  obtain ⟨e', he, rfl⟩ := Proc.embed_eq_ok.1 h2
  exact ⟨Enc.flush_inv (Enc.writeAll_inv hi.1 hw) he, by simp only [hb]; exact reset_inv.1⟩

end BoolEnc

/-! ### What a decoder is bound to -/

/-- The same source, with the same stream, and the same key as `d0`'s (10_state R24; 70_reset R291). -/
def Dec.Bound (d0 d : Dec) : Prop :=
  d.key = d0.key ∧ d.src.ident = d0.src.ident ∧ d.src.name = d0.src.name ∧ d.src.stream = d0.src.stream

namespace Dec

/-- The ends of a decoder procedure: the binding stays, and so, under the premise `P`, do the invariants. -/
def Fine {α : Type} (P : Prop) (d0 : Dec) (x : Proc Dec α) : Prop :=
  x.Ends (fun _ d => (P → d.regs.Inv) ∧ Bound d0 d) fun r d => r.kind.fatal = true ∧ Bound d0 d

theorem next_bound (s : Source) :
    s.next.2.ident = s.ident ∧ s.next.2.name = s.name ∧ s.next.2.stream = s.stream ∧
      ∀ w, s.next.1 = some w → 0 < w.length ∧ w.length < 2 ^ 64 := by
  unfold Source.next
  cases hw : s.window with
  | nil => simp
  | cons b w =>
    refine ⟨rfl, rfl, rfl, ?_⟩
    rintro _ ⟨⟩
    have hl : s.window.length < 2 ^ 64 := by
      unfold Source.window
      cases s.answer with
      | none => simp
      | some len =>
        have := len.isLt
        simp only [List.length_take]
        omega
    rw [hw] at hl
    exact ⟨by simp, hl⟩

variable {P : Prop}

theorem readByte_ends {d0 d : Dec} (ctx : ReadCtx) (hi : P → d.regs.Inv) (hb : Bound d0 d) :
    (d.readByte ctx).Ends
      (fun _ d' => (P → d'.regs.Inv) ∧ Bound d0 d' ∧ d'.regs.remainingValues = d.regs.remainingValues ∧
        d'.regs.pendingSkip = d.regs.pendingSkip)
      fun r d' => r.kind.fatal = true ∧ Bound d0 d' := by
  have htake : ∀ x : Dec, (P → x.regs.Inv ∧ x.regs.winPos.toNat < x.regs.win.length) → Bound d0 x →
      x.takeByte.Ends
        (fun _ d' => (P → d'.regs.Inv) ∧ Bound d0 d' ∧ d'.regs.remainingValues = x.regs.remainingValues ∧
          d'.regs.pendingSkip = x.regs.pendingSkip)
        fun r d' => r.kind.fatal = true ∧ Bound d0 d' := by
    intro x hp hx
    refine ⟨fun p => ?_, hx, rfl, rfl⟩
    obtain ⟨⟨h1, h2, h3⟩, hlt⟩ := hp p
    have hp : (x.regs.winPos + 1).toNat = x.regs.winPos.toNat + 1 := by
      rw [BitVec.toNat_add]; simp; omega
    exact ⟨h1, by simp only [hp]; omega, h3⟩
  obtain ⟨n1, n2, n3, n4⟩ := next_bound d.src
  unfold readByte
  split
  · unfold refill
    generalize d.src.next = x at n1 n2 n3 n4
    obtain ⟨a, s⟩ := x
    simp only at n1 n2 n3 n4
    have hs : Bound d0 { d with src := s } := ⟨hb.1, n1.trans hb.2.1, n2.trans hb.2.2.1, n3.trans hb.2.2.2⟩
    cases a with
    | none => exact ⟨by cases ctx <;> rfl, hs⟩
    | some w =>
      obtain ⟨w1, w2⟩ := n4 w rfl
      exact htake _ (fun p => ⟨⟨(hi p).1, by simp, w2⟩, by simpa using w1⟩) hs
  · next hne => exact htake d (fun p => ⟨hi p, by have := (hi p).2.1; omega⟩) hb

theorem fetchSegment_ends {d0 d : Dec} (hi : P → d.regs.Inv) (hb : Bound d0 d) :
    d.fetchSegment.Ends
      (fun i d' => (P → d'.regs.Inv) ∧ Bound d0 d' ∧ d'.regs.remainingValues = d.regs.remainingValues ∧
        d'.regs.pendingSkip = d.regs.pendingSkip ∧ ((∃ k v, i = .rep k v) ∨ ∃ m p, i = .lit m p))
      fun r d' => r.kind.fatal = true ∧ Bound d0 d' := by
  unfold fetchSegment
  refine (readByte_ends .header hi hb).bind ?_
  rintro h d1 ⟨i1, b1, r1, p1⟩
  cases decodeHeader h with
  | repeats k =>
    refine (readByte_ends .payload i1 b1).bind ?_
    rintro v d2 ⟨i2, b2, r2, p2⟩
    exact ⟨i2, b2, r2.trans r1, p2.trans p1, Or.inl ⟨k, v, rfl⟩⟩
  | literal m => exact ⟨i1, b1, r1, p1, Or.inr ⟨m, _, rfl⟩⟩

theorem loadSegment_inv {d : Dec} (hi : d.regs.Inv) (i : Instr) : (loadSegment i d).regs.Inv := by
  cases i <;> try exact hi
  · refine ⟨?_, hi.2⟩
    simp only [loadSegment, DecRegs.loadRepeat_remainingValues, BitVec.toNat_ofNat, repeatCount, maxRepeat_eq, minRepeat_eq]
    omega
  · next m _ =>
    refine ⟨?_, hi.2⟩
    have := literalCount_le m
    simp only [loadSegment, DecRegs.loadLiteral_remainingValues, BitVec.toNat_ofNat, maxRepeat_eq]
    omega

theorem loadSegment_bound {d0 d : Dec} (hb : Bound d0 d) (i : Instr) : Bound d0 (loadSegment i d) := by
  cases i <;> exact hb

theorem loadSegment_pendingSkip (d : Dec) (i : Instr) : (loadSegment i d).regs.pendingSkip = d.regs.pendingSkip := by
  cases i <;> rfl

theorem needHeader_ends {d0 d : Dec} (hi : P → d.regs.Inv) (hb : Bound d0 d) : Fine P d0 d.needHeader := by
  unfold needHeader
  split
  · exact (fetchSegment_ends hi hb).bind fun i d' h => ⟨fun p => loadSegment_inv (h.1 p) i, loadSegment_bound h.2.1 i⟩
  · exact ⟨hi, hb⟩

theorem skipBytes_inv {d : Dec} (c : Nat) (hi : d.regs.Inv) : (d.skipBytes c).regs.Inv := by
  obtain ⟨h1, h2, h3⟩ := hi
  have hk : (d.regs.winPos + BitVec.ofNat 64 (min c (d.regs.win.length - d.regs.winPos.toNat))).toNat =
      d.regs.winPos.toNat + min c (d.regs.win.length - d.regs.winPos.toNat) := by
    rw [BitVec.toNat_add, BitVec.toNat_ofNat]; omega
  unfold skipBytes
  dsimp only
  split
  · exact ⟨h1, by simp only [hk]; omega, h3⟩
  · exact ⟨h1, by simp only [hk]; omega, h3⟩

theorem skipBytes_bound {d0 d : Dec} (c : Nat) (hb : Bound d0 d) : Bound d0 (d.skipBytes c) := by
  unfold skipBytes
  dsimp only
  split <;> exact hb

theorem spend_inv {d : Dec} {c : Nat} (hi : d.regs.Inv) (hc : c ≤ d.regs.remainingValues.toNat) : (d.regs.spend c).Inv := by
  refine ⟨?_, hi.2⟩
  rw [spend_toNat hc]
  have := hi.1
  omega

theorem dropValues_inv {d : Dec} {c : Nat} (hi : d.regs.Inv) (hc : c ≤ d.regs.remainingValues.toNat) :
    (d.dropValues c).regs.Inv := by
  unfold dropValues
  dsimp only
  split
  · exact spend_inv hi hc
  · exact skipBytes_inv (d := { d with regs := d.regs.spend c }) c (spend_inv hi hc)

theorem dropValues_bound {d0 d : Dec} (c : Nat) (hb : Bound d0 d) : Bound d0 (d.dropValues c) := by
  unfold dropValues
  dsimp only
  split
  · exact hb
  · exact skipBytes_bound (d := { d with regs := d.regs.spend c }) c hb

theorem skipLoop_ends {d0 d : Dec} {fuel k : Nat} (hi : P → d.regs.Inv) (hb : Bound d0 d) : Fine P d0 (skipLoop fuel k d) := by
  induction fuel generalizing k d with
  | zero => exact ⟨hi, hb⟩
  | succ fuel ih =>
    unfold skipLoop
    split
    · exact ⟨hi, hb⟩
    · refine (needHeader_ends hi hb).bind ?_
      rintro _ d1 ⟨i1, b1⟩
      exact ih (fun p => dropValues_inv (i1 p) (Nat.min_le_right ..)) (dropValues_bound _ b1)

theorem nextValue_ends {d0 d : Dec} (hi : P → d.regs.Inv) (hb : Bound d0 d) :
    d.nextValue.Ends (fun _ d' => (P → d'.regs.Inv) ∧ Bound d0 d' ∧ d'.regs.remainingValues = d.regs.remainingValues)
      fun r d' => r.kind.fatal = true ∧ Bound d0 d' := by
  unfold nextValue
  split
  · exact ⟨hi, hb, rfl⟩
  · exact (readByte_ends .payload hi hb).mono (fun _ _ h => ⟨h.1, h.2.1, h.2.2.1⟩) fun _ _ h => h

end Dec

variable {P : Prop}

namespace DecRun

theorem takeLoop_ends {d0 : Dec} {isNull : Nat → Bool} {n pos c : Nat} {r : DecRun} (hi : P → r.dec.regs.Inv)
    (hb : Dec.Bound d0 r.dec) :
    (takeLoop isNull n pos c r).Ends
      (fun m r' => (P → r'.dec.regs.Inv) ∧ Dec.Bound d0 r'.dec ∧ r'.dec.regs.remainingValues = r.dec.regs.remainingValues ∧
        m ≤ c + n)
      fun e r' => e.kind.fatal = true ∧ Dec.Bound d0 r'.dec := by
  induction n generalizing pos c r with
  | zero => exact ⟨hi, hb, rfl, Nat.le_refl _⟩
  | succ n ih =>
    unfold takeLoop
    split
    · exact (ih (pos := pos + 1) (c := c) hi hb).mono (fun _ _ h => ⟨h.1, h.2.1, h.2.2.1, by have := h.2.2.2; omega⟩) fun _ _ h => h
    · refine Proc.Ends.bind
        (P := fun _ r' => (P → r'.dec.regs.Inv) ∧ Dec.Bound d0 r'.dec ∧ r'.dec.regs.remainingValues = r.dec.regs.remainingValues)
        ((Dec.nextValue_ends hi hb).embed (fun _ _ h => h) fun _ _ h => h) ?_
      rintro v r1 ⟨i1, b1, e1⟩
      refine (ih (r := { r1 with out := r1.out ++ [(pos, v)] }) (pos := pos + 1) (c := c + 1) i1 b1).mono ?_ fun _ _ h => h
      exact fun _ _ h => ⟨h.1, h.2.1, h.2.2.1.trans e1, by have := h.2.2.2; omega⟩

/-- The ends of a decoder at work. -/
def Fine {α : Type} (P : Prop) (d0 : Dec) (x : Proc DecRun α) : Prop :=
  x.Ends (fun _ r => (P → r.dec.regs.Inv) ∧ Dec.Bound d0 r.dec) fun e r => e.kind.fatal = true ∧ Dec.Bound d0 r.dec

theorem takeValues_ends {d0 : Dec} {isNull : Nat → Bool} {n pos : Nat} {r : DecRun} (hi : P → r.dec.regs.Inv)
    (hb : Dec.Bound d0 r.dec) (hn : n ≤ r.dec.regs.remainingValues.toNat) : Fine P d0 (takeValues isNull pos n r) := by
  refine (takeLoop_ends (c := 0) hi hb).bind ?_
  rintro m r' ⟨i1, b1, e1, hm⟩
  exact ⟨fun p => Dec.spend_inv (i1 p) (by rw [e1]; omega), b1⟩

theorem nextLoop_ends {d0 : Dec} {isNull : Nat → Bool} {numValues fuel pos : Nat} {r : DecRun} (hi : P → r.dec.regs.Inv)
    (hb : Dec.Bound d0 r.dec) : Fine P d0 (nextLoop isNull numValues fuel pos r) := by
  induction fuel generalizing pos r with
  | zero => exact ⟨hi, hb⟩
  | succ fuel ih =>
    unfold nextLoop
    split
    · refine Proc.Ends.bind (P := fun _ r' => (P → r'.dec.regs.Inv) ∧ Dec.Bound d0 r'.dec)
        ((Dec.needHeader_ends hi hb).embed (fun _ _ h => h) fun _ _ h => h) ?_
      rintro _ r1 ⟨i1, b1⟩
      refine (takeValues_ends i1 b1 (Nat.min_le_right ..)).bind ?_
      rintro _ r2 ⟨i2, b2⟩
      exact ih i2 b2
    · exact ⟨hi, hb⟩

end DecRun

theorem byteNext_ends {d0 d : Dec} {isNull : Nat → Bool} {numValues : Nat} (hi : P → d.regs.Inv) (hb : Dec.Bound d0 d) :
    DecRun.Fine P d0 (byteNext isNull numValues d) := by
  unfold byteNext Dec.skipValues
  dsimp only
  refine Proc.Ends.bind (P := fun _ r => (P → r.dec.regs.Inv) ∧ Dec.Bound d0 r.dec)
    ((Dec.skipLoop_ends (d := { d with regs := { d.regs with pendingSkip := 0 } }) hi hb).embed
      (fun _ _ h => h) fun _ _ h => h) ?_
  rintro _ r ⟨i1, b1⟩
  exact DecRun.nextLoop_ends i1 b1

namespace BoolDec

/-- The ends of a boolean decoder procedure. -/
def Fine {α : Type} (P : Prop) (d0 : Dec) (x : Proc (Dec × BoolDecRegs) α) : Prop :=
  x.Ends (fun _ u => (P → u.1.regs.Inv ∧ u.2.Inv) ∧ Dec.Bound d0 u.1) fun r u => r.kind.fatal = true ∧ Dec.Bound d0 u.1

theorem fetchBytes_ends {d0 d : Dec} {n : Nat} (hi : P → d.regs.Inv) (hb : Dec.Bound d0 d) : Dec.Fine P d0 (fetchBytes n d) := by
  have h := byteNext_ends (isNull := fun _ => false) (numValues := n) hi hb
  unfold fetchBytes
  cases hx : byteNext (fun _ => false) n d <;> rw [hx] at h <;> exact h

theorem skipPending_ends {d0 : Dec} {u : Dec × BoolDecRegs} (hi : P → u.1.regs.Inv ∧ u.2.Inv) (hb : Dec.Bound d0 u.1) :
    Fine P d0 (skipPending u) := by
  have hlt := u.2.remainingBits.isLt
  unfold skipPending Dec.skipValues
  dsimp only
  split
  · next hn =>
    refine ⟨fun p => ⟨(hi p).1, ?_⟩, hb⟩
    have hr := (hi p).2
    simp only [BoolDecRegs.Inv] at hr ⊢
    rw [BitVec.toNat_sub, BitVec.toNat_ofNat]
    omega
  · refine Proc.Ends.bind (P := fun _ u' => (P → u'.1.regs.Inv ∧ u'.2.Inv) ∧ Dec.Bound d0 u'.1) ?_ ?_
    · refine Proc.Ends.embed (Dec.skipLoop_ends (d := { u.1 with regs := { u.1.regs with pendingSkip := 0 } })
        (fun p => (hi p).1) hb) ?_ ?_
      · exact fun _ _ h => ⟨fun p => ⟨h.1 p, by simp [BoolDecRegs.Inv]⟩, h.2⟩
      · exact fun _ _ h => h
    · rintro _ u1 ⟨i1, b1⟩
      unfold skipTail
      split
      · next ht =>
        refine Proc.Ends.bind (P := fun _ u' => (P → u'.1.regs.Inv) ∧ Dec.Bound d0 u'.1)
          ((fetchBytes_ends (fun p => (i1 p).1) b1).embed (fun _ _ h => h) fun _ _ h => h) ?_
        rintro bs u2 ⟨i2, b2⟩
        refine ⟨fun p => ⟨i2 p, ?_⟩, b2⟩
        simp only [BoolDecRegs.Inv, BitVec.toNat_ofNat]
        omega
      · exact ⟨i1, b1⟩

theorem takeBits_ends {d0 : Dec} {u : Dec × BoolDecRegs} {m : Nat} (hi : P → u.1.regs.Inv ∧ u.2.Inv) (hb : Dec.Bound d0 u.1) :
    Fine P d0 (takeBits m u) := by
  have hlt := u.2.remainingBits.isLt
  unfold takeBits
  dsimp only
  split
  · refine ⟨fun p => ⟨(hi p).1, ?_⟩, hb⟩
    have hr := (hi p).2
    simp only [BoolDecRegs.Inv, BitVec.toNat_ofNat] at hr ⊢
    omega
  · refine Proc.Ends.bind (P := fun _ u' => (P → u'.1.regs.Inv) ∧ Dec.Bound d0 u'.1)
      ((fetchBytes_ends (fun p => (hi p).1) hb).embed (fun _ _ h => h) fun _ _ h => h) ?_
    rintro bs u2 ⟨i2, b2⟩
    refine ⟨fun p => ⟨i2 p, ?_⟩, b2⟩
    simp only [BoolDecRegs.Inv, BitVec.toNat_ofNat, ceilDiv_eight]
    omega

theorem nextBytes_ends {d0 : Dec} {isNull : Nat → Bool} {n m : Nat} {u : Dec × BoolDecRegs}
    (hi : P → u.1.regs.Inv ∧ u.2.Inv) (hb : Dec.Bound d0 u.1) : Fine P d0 (nextBytes isNull n m u) := by
  unfold nextBytes
  refine (skipPending_ends hi hb).bind ?_
  rintro _ u1 ⟨i1, b1⟩
  split
  · exact ⟨i1, b1⟩
  · exact (takeBits_ends i1 b1).yielding fun _ _ h => h

end BoolDec

end Sys2Proof.Machine
end

