-- ==== Sys2Proof/Laws/DecoderWindows.lean ====
section
/-!
SUPPORT. Two decoders over the same stream with other windows (42_segment_parser R149): every procedure delivers the same from both.
-/

namespace Sys2Proof.Machine

/-- Two procedures that end alike: the same result in related states, or the same error in related states. -/
def Both {σ α : Type} (R S : σ → σ → Prop) (x y : Proc σ α) : Prop :=
  (∃ a s t, x = .ok a s ∧ y = .ok a t ∧ R s t) ∨ ∃ e s t, x = .raised e s ∧ y = .raised e t ∧ S s t

/-- Procedures that end alike, one after another. -/
theorem Both.bind {σ α β : Type} {R S Q : σ → σ → Prop} {x y : Proc σ α} {f : α → σ → Proc σ β} (h : Both R S x y)
   (hf : ∀ a s t, R s t → Both Q S (f a s) (f a t)) : Both Q S (x.bind f) (y.bind f) := by
  rcases h with ⟨a, s, t, rfl, rfl, hr⟩ | ⟨e, s, t, rfl, rfl, hs⟩
  · exact hf a s t hr
  · exact Or.inr ⟨e, s, t, rfl, rfl, hs⟩

/-- Procedures that end alike on a part of a larger state. -/
theorem Both.embed {σ τ α : Type} {R S : σ → σ → Prop} {R' S' : τ → τ → Prop} {x y : Proc σ α} {f g : σ → τ} (h : Both R S x y)
   (hr : ∀ s t, R s t → R' (f s) (g t)) (hs : ∀ s t, S s t → S' (f s) (g t)) : Both R' S' (x.embed f) (y.embed g) := by
  rcases h with ⟨a, s, t, rfl, rfl, h⟩ | ⟨e, s, t, rfl, rfl, h⟩
  · exact Or.inl ⟨a, _, _, rfl, rfl, hr _ _ h⟩
  · exact Or.inr ⟨e, _, _, rfl, rfl, hs _ _ h⟩

/-- Two decoders over the same stream, with the registers that R149 names equal. -/
def DRel (d d' : Dec) : Prop := d.Good ∧ d'.Good ∧ d.SameView d'

/-- Nothing is asked of the two states of a raise. -/
def Any (_ _ : Dec) : Prop := True

/-- Windows moved in both decoders keep the view. -/
theorem rel_seg {d d' e e' : Dec} (h : d.SameView d') (he : d.SameSegment e) (he' : d'.SameSegment e') (hu : e'.upcoming = e.upcoming) : e.SameView e' := by
  obtain ⟨a1, a2, a3, a4, _⟩ := he
  obtain ⟨b1, b2, b3, b4, _⟩ := he'
  obtain ⟨c1, c2, c3, c4, _⟩ := h
  exact ⟨by rw [b1, c1, a1], by rw [b2, c2, a2], by rw [b3, c3, a3], by rw [b4, c4, a4], hu⟩

/-- `ReadByte` in both. -/
theorem readByte_both {d d' : Dec} (h : DRel d d') (ctx : ReadCtx) : Both DRel Any (d.readByte ctx) (d'.readByte ctx) := by
  obtain ⟨g, g', hv⟩ := h
  have hu := hv.2.2.2.2
  rcases Dec.readByte_spec g ctx with ⟨b, r, e, u1, r1, v1, g1, s1⟩ | ⟨u1, e, r1, s1⟩ <;>
  rcases Dec.readByte_spec g' ctx with ⟨b', r', e', u2, r2, v2, g2, s2⟩ | ⟨u2, e', r2, s2⟩
  · rw [u1, u2] at hu
    simp only [List.cons.injEq] at hu
    obtain ⟨rfl, rfl⟩ := hu
    exact Or.inl ⟨_, _, _, r1, r2, g1, g2, rel_seg hv s1 s2 (by rw [v1, v2])⟩
  · rw [u1, u2] at hu; cases hu
  · rw [u1, u2] at hu; cases hu
  · exact Or.inr ⟨_, _, _, r1, r2, trivial⟩

/-- An update of the registers R149 names, in both. -/
theorem drel_update {d d' : Dec} (h : DRel d d') (f : DecRegs → DecRegs)
   (hf : ∀ r : DecRegs, (f r).win = r.win ∧ (f r).winPos = r.winPos)
   (hs : ∀ r r' : DecRegs, r'.remainingValues = r.remainingValues → r'.repeating = r.repeating → r'.value = r.value → r'.pendingSkip = r.pendingSkip →
     (f r').remainingValues = (f r).remainingValues ∧ (f r').repeating = (f r).repeating ∧ (f r').value = (f r).value ∧ (f r').pendingSkip = (f r).pendingSkip)
   (hi : ((f d.regs).remainingValues.toNat ≤ maxRepeat)) : DRel { d with regs := f d.regs } { d' with regs := f d'.regs } := by
  obtain ⟨g, g', v1, v2, v3, v4, v5⟩ := h
  obtain ⟨s1, s2, s3, s4⟩ := hs d.regs d'.regs v1 v2 v3 v4
  refine ⟨⟨⟨hi, ?_⟩, g.2⟩, ⟨⟨by rw [s1]; exact hi, ?_⟩, g'.2⟩, s1, s2, s3, s4, ?_⟩
  · simp only [(hf _).1, (hf _).2]; exact g.1.2
  · simp only [(hf _).1, (hf _).2]; exact g'.1.2
  · simp only [Dec.upcoming, Dec.unread, (hf _).1, (hf _).2] at v5 ⊢
    exact v5

/-- The same segment loaded in both. -/
theorem load_both {d d' : Dec} (h : DRel d d') (i : Instr) : DRel (Dec.loadSegment i d) (Dec.loadSegment i d') := by
  cases i <;> first | exact h | skip
  · next k v =>
    exact drel_update h (fun r => r.loadRepeat k v) (fun _ => ⟨rfl, rfl⟩) (fun r r' _ _ _ h => ⟨rfl, rfl, rfl, h⟩)
      (Dec.loadSegment_inv h.1.1 (.rep k v)).1
  · next m p =>
    exact drel_update h (fun r => r.loadLiteral m) (fun _ => ⟨rfl, rfl⟩) (fun r r' _ _ h3 h => ⟨rfl, rfl, h3, h⟩)
      (Dec.loadSegment_inv h.1.1 (.lit m p)).1

/-- A header if the segment is spent, in both. -/
theorem needHeader_both {d d' : Dec} (h : DRel d d') : Both DRel Any d.needHeader d'.needHeader := by
  have h0 : d'.regs.remainingValues = d.regs.remainingValues := h.2.2.1
  unfold Dec.needHeader
  rw [h0]
  split
  · unfold Dec.readHeader
    refine Both.bind (R := DRel) ?_ fun i s t hr => Or.inl ⟨(), _, _, rfl, rfl, load_both hr i⟩
    unfold Dec.fetchSegment
    refine (readByte_both h _).bind fun hd s t hr => ?_
    cases decodeHeader hd with
    | repeats k => exact (readByte_both hr _).bind fun v s t hr => Or.inl ⟨_, _, _, rfl, rfl, hr⟩
    | literal m =>
      have := hr.2.2.2.2.2.2
      exact Or.inl ⟨.lit m (s.upcoming.take (literalCount m)), _, _, rfl, by simp only [this], hr⟩
  · exact Or.inl ⟨(), _, _, rfl, rfl, h⟩

/-- Values spent in both. -/
theorem spend_both {d d' : Dec} (h : DRel d d') {c : Nat} (hc : c ≤ d.regs.remainingValues.toNat) :
   DRel { d with regs := d.regs.spend c } { d' with regs := d'.regs.spend c } :=
  drel_update h (fun r => r.spend c) (fun _ => ⟨rfl, rfl⟩) (fun r r' h1 h2 h3 h4 => ⟨by simp [h1], h2, h3, h4⟩) (h.1.spend hc).1.1

/-- `SkipBytes` in both. -/
theorem skipBytes_both {d d' : Dec} (h : DRel d d') (c : Nat) : DRel (d.skipBytes c) (d'.skipBytes c) := by
  obtain ⟨u1, g1, s1⟩ := Dec.skipBytes_spec h.1 c
  obtain ⟨u2, g2, s2⟩ := Dec.skipBytes_spec h.2.1 c
  exact ⟨g1, g2, rel_seg h.2.2 s1 s2 (by rw [u1, u2, h.2.2.2.2.2.2])⟩

/-- One turn of `SkipValues` in both. -/
theorem dropValues_both {d d' : Dec} (h : DRel d d') {c : Nat} (hc : c ≤ d.regs.remainingValues.toNat) : DRel (d.dropValues c) (d'.dropValues c) := by
  have hk := spend_both h hc
  have hr : d'.regs.repeating = d.regs.repeating := h.2.2.2.1
  unfold Dec.dropValues
  dsimp only
  by_cases hx : d.regs.repeating = true
  · rw [if_pos (by exact hx), if_pos (by exact hr.trans hx)]
    exact hk
  · rw [if_neg (by exact hx), if_neg (by show ¬ d'.regs.repeating = true; rw [hr]; exact hx)]
    exact skipBytes_both hk c

/-- `SkipValues` in both. -/
theorem skipLoop_both {f k : Nat} {d d' : Dec} (h : DRel d d') : Both DRel Any (Dec.skipLoop f k d) (Dec.skipLoop f k d') := by
  induction f generalizing k d d' with
  | zero => exact Or.inl ⟨(), _, _, rfl, rfl, h⟩
  | succ f ih =>
    unfold Dec.skipLoop
    split
    · exact Or.inl ⟨(), _, _, rfl, rfl, h⟩
    · refine (needHeader_both h).bind fun _ s t hr => ?_
      have h0 : t.regs.remainingValues = s.regs.remainingValues := hr.2.2.1
      dsimp only
      rw [h0]
      exact ih (dropValues_both hr (Nat.min_le_right _ _))

/-- The next value in both. -/
theorem nextValue_both {d d' : Dec} (h : DRel d d') : Both DRel Any d.nextValue d'.nextValue := by
  have hr : d'.regs.repeating = d.regs.repeating := h.2.2.2.1
  have hv : d'.regs.value = d.regs.value := h.2.2.2.2.1
  unfold Dec.nextValue
  rw [hr, hv]
  split
  · exact Or.inl ⟨_, _, _, rfl, rfl, h⟩
  · exact readByte_both h _

/-- Two runs of decoders alike, which have delivered the same. -/
def RRel (r r' : DecRun) : Prop := DRel r.dec r'.dec ∧ r.out = r'.out

/-- Two runs that have delivered the same. -/
def ROut (r r' : DecRun) : Prop := r.out = r'.out

/-- The loop of `TakeValues` in both. -/
theorem takeLoop_both {isNull : Nat → Bool} {n pos c : Nat} {r r' : DecRun} (h : RRel r r') :
   Both RRel ROut (DecRun.takeLoop isNull n pos c r) (DecRun.takeLoop isNull n pos c r') := by
  induction n generalizing pos c r r' with
  | zero => exact Or.inl ⟨_, _, _, rfl, rfl, h⟩
  | succ n ih =>
    unfold DecRun.takeLoop
    split
    · exact ih h
    · refine Both.bind (R := RRel) ((nextValue_both h.1).embed (fun s t hh => ⟨hh, h.2⟩) fun s t _ => h.2) fun v s t hh => ?_
      exact ih ⟨hh.1, by simp [hh.2]⟩

/-- `TakeValues` spends no more than the segment holds. -/
theorem takeLoop_rem {isNull : Nat → Bool} {n pos c a : Nat} {r r' : DecRun} (hg : r.dec.Good) (hc : c + n ≤ r.dec.regs.remainingValues.toNat) (h : DecRun.takeLoop isNull n pos c r = .ok a r') :
   a ≤ r'.dec.regs.remainingValues.toNat := by
  rcases DecRun.takeLoop_spec (isNull := isNull) (n := n) (pos := pos) (c := c) hg hc with ⟨r1, h1, _, _, _, _, s⟩ | ⟨_, e, r1, h1, _⟩
  · rw [h1] at h
    cases h
    rw [s.1]
    have := nonNullFrom_length_le isNull pos n
    omega
  · rw [h1] at h; cases h

/-- `TakeValues` in both. -/
theorem takeValues_both {isNull : Nat → Bool} {n pos : Nat} {r r' : DecRun} (h : RRel r r') (hn : n ≤ r.dec.regs.remainingValues.toNat) :
   Both RRel ROut (DecRun.takeValues isNull pos n r) (DecRun.takeValues isNull pos n r') := by
  unfold DecRun.takeValues
  rcases takeLoop_both (isNull := isNull) (n := n) (pos := pos) (c := 0) h with ⟨a, s, t, h1, h2, h3⟩ | ⟨e, s, t, h1, h2, h3⟩
  · rw [h1, h2]
    exact Or.inl ⟨(), _, _, rfl, rfl, spend_both h3.1 (takeLoop_rem h.1.1 (by omega) h1), h3.2⟩
  · rw [h1, h2]
    exact Or.inr ⟨e, _, _, rfl, rfl, h3⟩

/-- The loop of `ByteNext` in both. -/
theorem nextLoop_both {isNull : Nat → Bool} {nv f pos : Nat} {r r' : DecRun} (h : RRel r r') :
   Both RRel ROut (DecRun.nextLoop isNull nv f pos r) (DecRun.nextLoop isNull nv f pos r') := by
  induction f generalizing pos r r' with
  | zero => exact Or.inl ⟨(), _, _, rfl, rfl, h⟩
  | succ f ih =>
    unfold DecRun.nextLoop
    split
    · refine Both.bind (R := RRel) ((needHeader_both h.1).embed (fun s t hh => ⟨hh, h.2⟩) fun s t _ => h.2) fun _ s t hh => ?_
      have h0 : t.dec.regs.remainingValues = s.dec.regs.remainingValues := hh.1.2.2.1
      dsimp only
      rw [h0]
      exact (takeValues_both hh (Nat.min_le_right _ _)).bind fun _ s t hh => ih hh
    · exact Or.inl ⟨(), _, _, rfl, rfl, h⟩

end Sys2Proof.Machine
end

