-- ==== Sys2Proof/Laws/Deliver.lean ====
section
/-!
SUPPORT. What a next delivers and where (43_byte_decoder R171, 45_bool_decoder R232): the bytes read back after the writes, the output
positions, and the buffer of the boolean next.
-/

namespace Sys2Proof.Machine

/-- A header byte below 128, decoded (R82). -/
theorem hdr_lt {h : Byte} (hh : h.toNat < 128) : decodeHeader h = .repeats (h.setWidth 7) ∧ repeatCount (h.setWidth 7) = h.toNat + 3 := by
  constructor
  · revert hh; revert h; decide
  · simp [repeatCount]; omega

/-- A header byte from 128 on, decoded (R83). -/
theorem hdr_ge {h : Byte} (hh : 128 ≤ h.toNat) : decodeHeader h = .literal (h.setWidth 7) ∧ literalCount (h.setWidth 7) = 256 - h.toNat := by
  constructor
  · revert hh; revert h; decide
  · have := h.isLt; simp [literalCount]; omega

/-- The non-null positions from `pos` on, by their offsets. -/
theorem nonNullFrom_eq (isNull : Nat → Bool) (pos n : Nat) :
   nonNullFrom isNull pos n = ((List.range n).filter fun j => !isNull (pos + j)).map (pos + ·) := by
  unfold nonNullFrom
  rw [List.range'_eq_map_range, List.filter_map]
  rfl

/-- Values written at distinct positions read back, and nothing else changes. -/
theorem read_writeAt_zip {m : Memory} (hm : m.wf = true) (data : Addr) {ps : List Nat} (hnd : ps.Nodup) (vs : List Byte) :
   (ps.take vs.length).map (fun p => (m.writeAt data (ps.zip vs)).read (data + p)) = vs.take ps.length ∧
   ∀ a, (∀ p ∈ ps.take vs.length, a ≠ data + p) → (m.writeAt data (ps.zip vs)).read a = m.read a := by
  have hfst : (ps.zip vs).map Prod.fst = ps.take vs.length := by
    clear hnd
    induction ps generalizing vs with
    | nil => simp
    | cons p ps ih => cases vs with
      | nil => simp
      | cons v vs => simp [ih vs]
  constructor
  · apply List.ext_getElem
    · simp; omega
    · intro j h1 h2
      simp at h1 h2
      simp only [List.getElem_map, List.getElem_take]
      apply Memory.read_writeAt_mem hm
      · rw [hfst]; exact hnd.sublist (List.take_sublist _ _)
      · rw [List.mem_iff_getElem]
        exact ⟨j, by simp; omega, by simp⟩
  · intro a ha
    apply Memory.read_writeAt_other hm
    intro w hw
    apply ha
    rw [← hfst]
    exact List.mem_map_of_mem hw

/-- The non-null positions are distinct. -/
theorem nnp_nodup (isNull : Nat → Bool) (n : Nat) : (nonNullPositions isNull n).Nodup := List.nodup_range.filter _

/-- Step 1 of R232 counts the non-null positions. -/
theorem nonNullCount_eq (sh : Shared) (n : Nat) (nulls : Option Addr) : nonNullCount sh n nulls = (nonNullPositions (isNull sh nulls) n).length := by
  cases nulls with
  | none => simp [nonNullCount, nonNullPositions, isNull]
  | some b => rfl

/-- The lanes hold every output byte (20_memory R55). -/
theorem lane_ge (n : Nat) : ceilDiv n 8 ≤ 8 * ceilDiv n 64 := by unfold ceilDiv; omega

/-- The free writes stay in their range. -/
theorem freeWrites_mem {n lo len : Nat} {w : Nat × Byte} (h : w ∈ freeWrites n lo len) : lo ≤ w.1 ∧ w.1 < lo + len := by
  simp only [freeWrites, List.mem_map, List.mem_range] at h
  obtain ⟨j, hj, rfl⟩ := h
  exact ⟨by simp, by simp; omega⟩

/-- The writes of whole bytes stay in their range. -/
theorem zip_range_mem {bytes : List Byte} {w : Nat × Byte} (h : w ∈ (List.range bytes.length).zip bytes) : w.1 < bytes.length := by
  obtain ⟨a, b⟩ := w
  exact List.mem_range.1 (List.of_mem_zip h).1

/-- What `deliver` leaves in caller memory: the bytes at the front of the buffer, and nothing changed outside the lanes. -/
theorem deliver_spec {sh : Shared} (hm : sh.mem.wf = true) (data : Addr) (n : Nat) {bytes : List Byte} (hl : bytes.length = ceilDiv n 8) :
   (∀ p, p < 8 * ceilDiv n 8 → bitRead (BoolDec.deliver sh data n bytes).mem data p = bitOf bytes p) ∧
   (∀ a, (a < data ∨ data + 8 * ceilDiv n 64 ≤ a) → (BoolDec.deliver sh data n bytes).mem.read a = sh.mem.read a) ∧
   (BoolDec.deliver sh data n bytes).mem.wf = true := by
  have hw := Memory.writeAt_wf hm data ((List.range bytes.length).zip bytes)
  have hle := lane_ge n
  refine ⟨fun p hp => ?_, fun a ha => ?_, Memory.writeAt_wf hw _ _⟩
  · unfold bitRead bitOf BoolDec.deliver
    dsimp only
    have hp8 : p / 8 < bytes.length := by rw [hl]; omega
    rw [Memory.read_writeAt_other hw]
    · rw [List.getElem?_eq_getElem hp8]
      rw [Memory.read_writeAt_mem hm (v := bytes[p/8])]
      · rfl
      · rw [List.map_fst_zip (by simp)]; exact List.nodup_range
      · rw [List.mem_iff_getElem]
        exact ⟨p / 8, by simp; omega, by simp⟩
    · intro w hwm
      have := freeWrites_mem hwm
      omega
  · unfold BoolDec.deliver
    dsimp only
    rw [Memory.read_writeAt_other hw, Memory.read_writeAt_other hm]
    · intro w hwm
      have := zip_range_mem hwm
      intro (heq : @Eq Nat a (data + w.1))
      have ha : @LT.lt Nat _ a data ∨ @LE.le Nat _ (data + 8 * ceilDiv n 64) a := ha
      omega
    · intro w hwm
      have := freeWrites_mem hwm
      unfold BoolDec.laneBytes at this
      intro (heq : @Eq Nat a (data + w.1))
      have ha : @LT.lt Nat _ a data ∨ @LE.le Nat _ (data + 8 * ceilDiv n 64) a := ha
      omega

/-- Everything delivered is at a non-null position below `n`. -/
def OutIn (n : Nat) (isNull : Nat → Bool) (r : DecRun) : Prop := ∀ w ∈ r.out, w.1 < n ∧ isNull w.1 = false

/-- A procedure on the decoder alone delivers nothing. -/
theorem Proc.ends_of_embed {α : Type} {x : Proc Dec α} {r : DecRun} {P : DecRun → Prop} (h : ∀ d, P { r with dec := d }) :
   (x.embed fun d => { r with dec := d }).Ends (fun _ r => P r) fun _ r => P r := by
  cases x <;> first | exact h _ | trivial

/-- `TakeValues` delivers to non-null positions only. -/
theorem takeLoop_out {N : Nat} {isNull : Nat → Bool} {n pos c : Nat} {r : DecRun} (h : OutIn N isNull r) (hp : pos + n ≤ N) :
   (DecRun.takeLoop isNull n pos c r).Ends (fun _ r => OutIn N isNull r) fun _ r => OutIn N isNull r := by
  induction n generalizing pos c r with
  | zero => exact h
  | succ n ih =>
    unfold DecRun.takeLoop
    split
    · exact ih h (by omega)
    · next hn =>
      refine Proc.Ends.bind (P := fun _ r => OutIn N isNull r) (Proc.ends_of_embed fun d => h) fun v r' h' => ?_
      refine ih ?_ (by omega)
      intro w hw
      rcases List.mem_append.1 hw with hw | hw
      · exact h' w hw
      · simp only [List.mem_singleton] at hw
        subst hw
        exact ⟨by simp only; omega, by simpa using hn⟩

/-- The loop of `ByteNext` delivers to non-null positions only. -/
theorem nextLoop_out {N : Nat} {isNull : Nat → Bool} {f pos : Nat} {r : DecRun} (h : OutIn N isNull r) :
   (DecRun.nextLoop isNull N f pos r).Ends (fun _ r => OutIn N isNull r) fun _ r => OutIn N isNull r := by
  induction f generalizing pos r with
  | zero => exact h
  | succ f ih =>
    unfold DecRun.nextLoop
    split
    · refine Proc.Ends.bind (P := fun _ r => OutIn N isNull r) (Proc.ends_of_embed fun d => h) fun v r1 h1 => ?_
      refine Proc.Ends.bind (P := fun _ r => OutIn N isNull r) ?_ fun v r2 h2 => ih h2
      unfold DecRun.takeValues
      exact (takeLoop_out h1 (by omega)).bind fun c r' h' => h'
    · exact h

/-- `ByteNext` delivers to non-null positions only (R171). -/
theorem byteNext_out {isNull : Nat → Bool} {n : Nat} {d : Dec} : (byteNext isNull n d).Ends (fun _ r => OutIn n isNull r) fun _ r => OutIn n isNull r := by
  unfold byteNext
  dsimp only
  refine Proc.Ends.bind (P := fun _ r => OutIn n isNull r) ?_ fun _ r h => nextLoop_out h
  generalize Dec.skipValues _ _ = x
  cases x <;> first | trivial | (intro w hw; cases hw)

/-- A boolean next delivers one byte for eight positions (R232). -/
theorem nextBytes_length {isNull : Nat → Bool} {n m : Nat} {u u' : Dec × BoolDecRegs} {bytes : List Byte} (h : BoolDec.nextBytes isNull n m u = .ok bytes u') : bytes.length = ceilDiv n 8 := by
  unfold BoolDec.nextBytes at h
  obtain ⟨_, u1, h1, h2⟩ := Proc.bind_eq_ok.1 h
  split at h2
  · cases h2; simp
  · cases hx : BoolDec.takeBits m u1 with
    | ok a s => rw [hx] at h2; cases h2; exact BoolDec.packBits_length _ _
    | raised => rw [hx] at h2; cases h2
    | stuck => rw [hx] at h2; cases h2

end Sys2Proof.Machine
end

