-- ==== Sys2Proof/Laws/EncoderErrors.lean ====
section
/-!
SUPPORT. The encoder where a window is refused, and what its stage looks like case by case: the errors that emission raises
(41_byte_encoder R101 to R109), what a raise leaves, and the registers after a write.
-/

namespace Sys2Proof.Machine

/-- `EmitByte` raises `IoFailure` only, and then the stage is as it was. -/
theorem emitByte_raised {e e' : Enc} {b : Byte} {r : Raise} (h : e.emitByte b = .raised r e') :
    r.kind = .ioFailure ∧ e.regs.SameStage e'.regs := by
  unfold Enc.emitByte at h
  split at h
  · generalize e.sink.next = x at h
    obtain ⟨a, s⟩ := x
    cases a with
    | none => cases h; exact ⟨rfl, rfl, rfl, rfl, rfl⟩
    | some len =>
      simp only at h
      split at h
      · cases h; exact ⟨rfl, rfl, rfl, rfl, rfl⟩
      · cases h
  · cases h

/-- `EmitByte` leaves the stage as it was. -/
theorem emitByte_stage {e e' : Enc} {b : Byte} (h : e.emitByte b = .ok () e') : e.regs.SameStage e'.regs := by
  unfold Enc.emitByte at h
  split at h
  · generalize e.sink.next = x at h
    obtain ⟨a, s⟩ := x
    cases a with
    | none => cases h
    | some len =>
      simp only at h
      split at h
      · cases h
      · cases h; exact ⟨rfl, rfl, rfl, rfl⟩
  · cases h; exact ⟨rfl, rfl, rfl, rfl⟩

/-- The same for bytes in a row. -/
theorem emitBytes_raised {e e' : Enc} {bs : List Byte} {r : Raise} (h : e.emitBytes bs = .raised r e') :
    r.kind = .ioFailure ∧ e.regs.SameStage e'.regs := by
  induction bs generalizing e with
  | nil => cases h
  | cons b bs ih =>
    rcases Proc.bind_eq_raised.1 h with h1 | ⟨_, e1, h1, h2⟩
    · exact emitByte_raised h1
    · have := ih h2
      exact ⟨this.1, (emitByte_stage h1).trans this.2⟩

/-- `WriteValues` raises `IoFailure` only, and then the stage is as it was (R102). -/
theorem writeValues_raised {e e' : Enc} {r : Raise} (h : e.writeValues = .raised r e') :
    r.kind = .ioFailure ∧ e.regs.SameStage e'.regs := by
  unfold Enc.writeValues at h
  split at h
  · cases h
  · rcases Proc.bind_eq_raised.1 h with h1 | ⟨_, e1, h1, h2⟩
    · exact emitBytes_raised h1
    · cases h2

/-- `Write` raises `IoFailure` only (60_exceptions R263). -/
theorem write_raised {e e' : Enc} {v : Byte} {r : Raise} (h : e.write v = .raised r e') : r.kind = .ioFailure := by
  unfold Enc.write at h
  split at h
  · cases h
  · split at h
    · split at h
      · unfold Enc.extendCase at h
        dsimp only at h
        split at h
        · exact (writeValues_raised h).1
        · cases h
      · rcases Proc.bind_eq_raised.1 h with h1 | ⟨_, e1, h1, h2⟩
        · exact (writeValues_raised h1).1
        · cases h2
    · unfold Enc.literalCase at h
      dsimp only at h
      split at h
      · rcases Proc.bind_eq_raised.1 h with h1 | ⟨_, e1, h1, h2⟩
        · split at h1
          · exact (writeValues_raised h1).1
          · cases h1
        · cases h2
      · unfold Enc.append at h
        dsimp only at h
        split at h
        · exact (writeValues_raised h).1
        · cases h

/-- Registers that agree on `LIT` and whose stage is empty are the old ones cleared, up to the window. -/
theorem regs_cleared {r r' : EncRegs} (hl : r'.lit = r.lit) (h0 : r'.numLiterals = 0) (hr : r'.repeating = false) (ht : r'.tailRun = 0) :
   r' = { r with repeating := false, tailRun := 0, numLiterals := 0, bufLen := r'.bufLen, bufPos := r'.bufPos } := by
  cases r'; simp_all

/-- `Write` in literal state is the case *Literal* (R103, R107). -/
theorem write_literal {e : Enc} {v : Byte} (h0 : e.regs.numLiterals ≠ 0) (hr : e.regs.repeating = false) : e.write v = e.literalCase v := by
  unfold Enc.write; rw [if_neg h0, if_neg (by simp [hr])]

/-- A byte that needs a window, where the sink grants none: one transaction, and `IoFailure` (R101). -/
theorem emitByte_refused {e : Enc} (b : Byte) (h : e.regs.bufPos = e.regs.bufLen) (ha : e.sink.answer = none ∨ e.sink.answer = some 0) :
   e.sink.next.2.stream = e.sink.stream ∧ e.sink.next.2.log = e.sink.log ++ [.next e.sink.answer] ∧
     e.emitByte b = .raised { kind := .ioFailure, text := "sink next" } { e with sink := e.sink.next.2 } := by
  unfold Enc.emitByte
  rw [if_pos h]
  rcases ha with ha | ha <;> simp [Sink.next, ha]

/-- The same for a stage that is not empty (R102). -/
theorem writeValues_refused {e : Enc} (h : e.regs.bufPos = e.regs.bufLen) (ha : e.sink.answer = none ∨ e.sink.answer = some 0)
   (h0 : e.regs.numLiterals ≠ 0) : e.writeValues = .raised { kind := .ioFailure, text := "sink next" } { e with sink := e.sink.next.2 } := by
  unfold Enc.writeValues
  rw [if_neg h0]
  obtain ⟨b, bs, hb⟩ : ∃ b bs, e.regs.segment = b :: bs := by
    unfold EncRegs.segment; split <;> exact ⟨_, _, rfl⟩
  rw [hb]
  unfold Enc.emitBytes
  rw [(emitByte_refused b h ha).2.2]
  rfl

/-- With `NUM_LITERALS = 0` nothing is staged. -/
theorem staged_empty {e : Enc} (hi : e.Inv) (h0 : e.regs.numLiterals = 0) : e.regs.stagedValues = [] := by
  have := hi.1
  unfold EncRegs.StageInv at this
  cases hr : e.regs.repeating with
  | true => simp [hr, h0] at this
  | false => simp [EncRegs.stagedValues, EncRegs.stagedBytes, hr, h0]

/-- With `NUM_LITERALS = 0` the stage is no repeat (10_state R30). -/
theorem not_repeating {e : Enc} (hi : e.Inv) (h0 : e.regs.numLiterals = 0) : e.regs.repeating = false := by
  have := hi.1
  unfold EncRegs.StageInv at this
  cases hr : e.regs.repeating with
  | true => simp [hr, h0] at this
  | false => rfl

/-- `NUM_LITERALS` counts the values staged (10_state R26). -/
theorem staged_length (r : EncRegs) : r.stagedValues.length = r.numLiterals.toNat := by
  unfold EncRegs.stagedValues EncRegs.stagedBytes; split <;> simp

/-- Everything a `FLUSH` that succeeds does (R114). -/
theorem flush_regs {e e' : Enc} {n : Count} (hi : e.Inv) (h : e.flush = .ok n e') (hs : e.sink.Serves) :
   e'.sink.stream = e.written ++ (if e.regs.numLiterals = 0 then [] else e.regs.segment.map some) ∧
   e'.regs = { lit := e.regs.lit, numLiterals := 0, repeating := false, tailRun := 0, bufLen := 0, bufPos := 0 } ∧
   e'.sink.Serves ∧ n = countBits e'.sink.stream.length := by
  obtain ⟨_, e1, h1, h2⟩ := Proc.bind_eq_ok.1 h
  obtain ⟨n', e'', h', s''⟩ := Enc.flush_serves hs
  rw [h] at h'; cases h'
  obtain ⟨f1, f2, f3, f4, f5, _, f7⟩ := Enc.flush_spec hi.1 hi.2 h
  obtain ⟨c, w, l, _⟩ := Enc.writeValues_spec hi.2 h1
  cases h2
  obtain ⟨r1, r2, _⟩ := Enc.release_spec c
  refine ⟨by rw [r1, w], ?_, s'', ?_⟩
  · rw [r2] at f1 f2 f3 ⊢
    simp only at f1 f2 f3
    simp [f1, f2, f3, l]
  · obtain ⟨_, _, w, _, hm⟩ := s''
    exact f7 w hm

/-- The third equal byte of a stage of two becomes a repeat, with nothing emitted (R107, R108). -/
theorem write_third {e : Enc} {v : Byte} (hr : e.regs.repeating = false) (hn : e.regs.numLiterals = 2) (ht : e.regs.tailRun = 2)
   (hv : e.regs.litAt 1 = v) : e.write v = .ok () { e with regs := (e.regs.bumpTail v).startRepeat v } := by
  have hn' : e.regs.numLiterals.toNat = 2 := by rw [hn]; rfl
  rw [write_literal (by rw [hn]; decide) hr]
  have h3 : (e.regs.bumpTail v).tailRun.toNat = minRepeat := by
    rw [Enc.bumpTail_tailRun v (by rw [ht]; decide), hn', if_pos hv.symm, ht]; rfl
  refine (if_pos h3).trans ?_
  unfold Enc.promote
  rw [if_neg (by simp [hn'])]
  rfl

/-- `FLUSH` on a sink that serves succeeds, and the stream gains the staged segment. -/
theorem flush_written {e : Enc} (hi : e.Inv) (hs : e.sink.Serves) : ∃ size e', e.flush = .ok size e' ∧
    e'.sink.stream = e.written ++ (if e.regs.numLiterals = 0 then [] else e.regs.segment.map some) := by
  obtain ⟨n, e', h, s'⟩ := Enc.flush_serves hs
  exact ⟨n, e', h, (flush_regs hi h hs).1⟩

end Sys2Proof.Machine
end

