-- ==== Sys2Proof/Laws/EncoderWindows.lean ====
section
/-!
SUPPORT. Two encoders with the same stage and other windows (41_byte_encoder R110): every procedure emits the same bytes from both.
-/

namespace Sys2Proof.Machine

/-- The same stage is the same registers up to the window. -/
theorem sameStage_iff {r r' : EncRegs} (h : r.SameStage r') : r' = { r with bufLen := r'.bufLen, bufPos := r'.bufPos } := by
  obtain ⟨h1, h2, h3, h4⟩ := h
  cases r'; simp_all

/-- Two encoders with the same stage, each with a coherent window and a sink that serves. -/
def Pair (e₁ e₂ : Enc) : Prop := e₁.Coherent ∧ e₂.Coherent ∧ e₁.sink.Serves ∧ e₂.sink.Serves ∧ e₁.regs.SameStage e₂.regs

/-- A procedure that succeeds from both encoders, emits the same bytes and leaves a pair. -/
def PairStep (e₁ e₂ : Enc) (f : Enc → Proc Enc Unit) : Prop :=
  ∃ (e₁' e₂' : Enc) (bs : List Byte), f e₁ = .ok () e₁' ∧ f e₂ = .ok () e₂' ∧
      e₁'.written = e₁.written ++ bs.map some ∧ e₂'.written = e₂.written ++ bs.map some ∧ Pair e₁' e₂'

/-- An update of the registers that does not look at the window keeps a pair and what is written. -/
theorem pair_update {e₁ e₂ : Enc} (h : Pair e₁ e₂) (f : EncRegs → EncRegs)
   (hf : ∀ r : EncRegs, ∀ l p, f { r with bufLen := l, bufPos := p } = { f r with bufLen := l, bufPos := p }) :
   (Pair { e₁ with regs := f e₁.regs } { e₂ with regs := f e₂.regs }) ∧ Enc.written { e₁ with regs := f e₁.regs } = e₁.written ∧
     Enc.written { e₂ with regs := f e₂.regs } = e₂.written := by
  obtain ⟨c1, c2, s1, s2, hs⟩ := h
  have hb : ∀ r : EncRegs, (f r).bufLen = r.bufLen ∧ (f r).bufPos = r.bufPos := by
    intro r
    have h2 := hf r r.bufLen r.bufPos
    exact ⟨(congrArg EncRegs.bufLen h2 :), (congrArg EncRegs.bufPos h2 :)⟩
  have k1 := Enc.coherent_of_window (r := f e₁.regs) c1 (hb _).1 (hb _).2
  have k2 := Enc.coherent_of_window (r := f e₂.regs) c2 (hb _).1 (hb _).2
  refine ⟨⟨k1.1, k2.1, s1, s2, ?_⟩, k1.2, k2.2⟩
  have : f e₂.regs = { f e₁.regs with bufLen := e₂.regs.bufLen, bufPos := e₂.regs.bufPos } := by
    conv_lhs => rw [sameStage_iff hs]
    exact hf _ _ _
  show (f e₁.regs).SameStage (f e₂.regs)
  rw [this]
  exact ⟨rfl, rfl, rfl, rfl⟩

/-- `WriteValues` on a pair. -/
theorem pair_writeValues {e₁ e₂ : Enc} (h : Pair e₁ e₂) : PairStep e₁ e₂ Enc.writeValues := by
  have hp := h
  obtain ⟨c1, c2, s1, s2, hs⟩ := h
  by_cases h0 : e₁.regs.numLiterals = 0
  · have h0' : e₂.regs.numLiterals = 0 := hs.2.1.trans h0
    exact ⟨e₁, e₂, [], by simp [Enc.writeValues, h0], by simp [Enc.writeValues, h0'], by simp, by simp, hp⟩
  · have h0' : e₂.regs.numLiterals ≠ 0 := fun hz => h0 (hs.2.1.symm.trans hz)
    obtain ⟨e1, a1, b1⟩ := Enc.writeValues_serves s1
    obtain ⟨e2, a2, b2⟩ := Enc.writeValues_serves s2
    obtain ⟨k1, w1, l1, n1, r1, _⟩ := Enc.writeValues_spec c1 a1
    obtain ⟨k2, w2, l2, n2, r2, _⟩ := Enc.writeValues_spec c2 a2
    rw [if_neg h0] at w1
    rw [if_neg h0'] at w2
    have : e₂.regs.segment = e₁.regs.segment := by rw [sameStage_iff hs]; rfl
    rw [this] at w2
    exact ⟨e1, e2, _, a1, a2, w1, w2, k1, k2, b1, b2, by rw [l1, l2, hs.1], by rw [n1, n2], by rw [(r1 h0).1, (r2 h0').1],
      by rw [(r1 h0).2, (r2 h0').2]⟩

/-- An update of the registers as a step of a pair. -/
theorem pairStep_ok {e₁ e₂ : Enc} (h : Pair e₁ e₂) (f : EncRegs → EncRegs)
   (hf : ∀ r : EncRegs, ∀ l p, f { r with bufLen := l, bufPos := p } = { f r with bufLen := l, bufPos := p }) :
   PairStep e₁ e₂ fun e => .ok () { e with regs := f e.regs } := by
  obtain ⟨k, w1, w2⟩ := pair_update h f hf
  exact ⟨_, _, [], rfl, rfl, by simp [w1], by simp [w2], k⟩

/-- One step of a pair after another. -/
theorem pairStep_bind {e₁ e₂ : Enc} {f g : Enc → Proc Enc Unit} (h : PairStep e₁ e₂ f) (hg : ∀ a b, Pair a b → PairStep a b g) :
   PairStep e₁ e₂ fun e => (f e).bind fun _ e' => g e' := by
  obtain ⟨a, b, bs, h1, h2, w1, w2, p⟩ := h
  obtain ⟨c, d, cs, h3, h4, w3, w4, p'⟩ := hg a b p
  exact ⟨c, d, bs ++ cs, by simp only [h1, Proc.bind_ok, h3], by simp only [h2, Proc.bind_ok, h4], by simp [w3, w1], by simp [w4, w2], p'⟩

/-- A step of a pair after an update of the registers. -/
theorem pairStep_pre {e₁ e₂ : Enc} {g : Enc → Proc Enc Unit} (h : Pair e₁ e₂) (f : EncRegs → EncRegs)
   (hf : ∀ r : EncRegs, ∀ l p, f { r with bufLen := l, bufPos := p } = { f r with bufLen := l, bufPos := p })
   (hg : ∀ a b, Pair a b → PairStep a b g) : PairStep e₁ e₂ fun e => g { e with regs := f e.regs } :=
  pairStep_bind (f := fun e => .ok () { e with regs := f e.regs }) (pairStep_ok h f hf) hg

/-- A step of a pair from procedures that agree on the two encoders. -/
theorem pairStep_congr {e₁ e₂ : Enc} {f g : Enc → Proc Enc Unit} (h : PairStep e₁ e₂ f) (h1 : g e₁ = f e₁) (h2 : g e₂ = f e₂) : PairStep e₁ e₂ g := by
  obtain ⟨a, b, bs, h3, h4, r⟩ := h
  exact ⟨a, b, bs, h1.trans h3, h2.trans h4, r⟩

/-- A choice that does not look at the window. -/
theorem pairStep_ite {e₁ e₂ : Enc} (h : Pair e₁ e₂) {c : EncRegs → Prop} [DecidablePred c] {f g : Enc → Proc Enc Unit}
   (hc : ∀ r : EncRegs, ∀ l p, c { r with bufLen := l, bufPos := p } ↔ c r)
   (h1 : c e₁.regs → PairStep e₁ e₂ f) (h2 : ¬ c e₁.regs → PairStep e₁ e₂ g) : PairStep e₁ e₂ fun e => if c e.regs then f e else g e := by
  have hcc : c e₂.regs ↔ c e₁.regs := by rw [sameStage_iff h.2.2.2.2]; exact hc _ _ _
  by_cases hx : c e₁.regs
  · exact pairStep_congr (h1 hx) (if_pos hx) (if_pos (hcc.2 hx))
  · exact pairStep_congr (h2 hx) (if_neg hx) (if_neg fun hy => hx (hcc.1 hy))

/-- `Append` on a pair. -/
theorem pair_append {e₁ e₂ : Enc} (v : Byte) (h : Pair e₁ e₂) : PairStep e₁ e₂ fun e => e.append v := by
  refine pairStep_congr (f := fun e => (fun e : Enc => if e.regs.numLiterals.toNat = maxLiteral then e.writeValues else .ok () e)
    { e with regs := (e.regs.setLit e.regs.numLiterals.toNat v).withCount (e.regs.numLiterals + 1) }) ?_ rfl rfl
  refine pairStep_pre (g := fun e : Enc => if e.regs.numLiterals.toNat = maxLiteral then e.writeValues else .ok () e) h (fun r => (r.setLit r.numLiterals.toNat v).withCount (r.numLiterals + 1)) (fun _ _ _ => rfl) fun a b p => ?_
  exact pairStep_ite p (c := fun r => r.numLiterals.toNat = maxLiteral) (fun _ _ _ => Iff.rfl) (fun _ => pair_writeValues p)
    fun _ => pairStep_ok p id fun _ _ _ => rfl

/-- `Promote` on a pair. -/
theorem pair_promote {e₁ e₂ : Enc} (v : Byte) (h : Pair e₁ e₂) : PairStep e₁ e₂ fun e => e.promote v := by
  refine pairStep_bind (f := fun e : Enc => if e.regs.numLiterals.toNat + 1 > minRepeat then
      Enc.writeValues { e with regs := e.regs.withCount (e.regs.numLiterals - BitVec.ofNat 8 (minRepeat - 1)) }
    else .ok () e) (g := fun e' => .ok () { e' with regs := e'.regs.startRepeat v }) ?_ fun a b p => pairStep_ok p (fun r => r.startRepeat v) fun _ _ _ => rfl
  exact pairStep_ite h (c := fun r => r.numLiterals.toNat + 1 > minRepeat) (fun _ _ _ => Iff.rfl)
    (fun _ => pairStep_pre h (fun r => r.withCount (r.numLiterals - BitVec.ofNat 8 (minRepeat - 1))) (fun _ _ _ => rfl) fun a b p => pair_writeValues p)
    fun _ => pairStep_ok h id fun _ _ _ => rfl

/-- `Write` on a pair. -/
theorem pair_write {e₁ e₂ : Enc} (v : Byte) (h : Pair e₁ e₂) : PairStep e₁ e₂ fun e => e.write v := by
  unfold Enc.write
  refine pairStep_ite h (c := fun r => r.numLiterals = 0) (fun _ _ _ => Iff.rfl) (fun _ => pairStep_ok h (fun r => r.startStage v) fun _ _ _ => rfl) fun _ => ?_
  refine pairStep_ite h (c := fun r => r.repeating = true) (fun _ _ _ => Iff.rfl) (fun _ => ?_) fun _ => ?_
  · refine pairStep_ite h (c := fun r => v = r.litAt 0) (fun _ _ _ => Iff.rfl) (fun _ => ?_) fun _ => ?_
    · refine pairStep_pre (g := fun e => if e.regs.numLiterals.toNat = maxRepeat then e.writeValues else .ok () e) h (fun r => r.withCount (r.numLiterals + 1)) (fun _ _ _ => rfl) fun a b p => ?_
      exact pairStep_ite p (c := fun r => r.numLiterals.toNat = maxRepeat) (fun _ _ _ => Iff.rfl) (fun _ => pair_writeValues p) fun _ => pairStep_ok p id fun _ _ _ => rfl
    · exact pairStep_bind (pair_writeValues h) (g := fun e' => .ok () { e' with regs := e'.regs.startStage v }) fun a b p => pairStep_ok p (fun r => r.startStage v) fun _ _ _ => rfl
  · refine pairStep_pre (g := fun e => if e.regs.tailRun.toNat = minRepeat then e.promote v else e.append v) h (fun r => r.bumpTail v) (fun _ _ _ => rfl) fun a b p => ?_
    exact pairStep_ite p (c := fun r => r.tailRun.toNat = minRepeat) (fun _ _ _ => Iff.rfl) (fun _ => pair_promote v p) fun _ => pair_append v p

end Sys2Proof.Machine
end

