-- ==== Sys2Proof/Laws/Shape.lean ====
section
/-!
SUPPORT. The shape of every command: `exec_shape` says once what an instruction can change; `step_shape`, in Laws/Frames.lean, says
it of a step.
-/

namespace Sys2Proof.Machine

/-- What no command changes outside the instances, and the canonical form of caller memory. -/
def Shared.Keeps (sh sh' : Shared) : Prop :=
  sh'.params = sh.params ∧ sh'.holes = sh.holes ∧ sh'.valueFns = sh.valueFns ∧ sh'.nullFns = sh.nullFns ∧
    (sh.mem.wf = true → sh'.mem.wf = true)

theorem Shared.Keeps.refl (sh : Shared) : sh.Keeps sh := ⟨rfl, rfl, rfl, rfl, id⟩

/-- How the end of a command shows in `STATUS` and in the response (30_encoding R95; 60_exceptions R268). -/
def Reported (inst inst' : Inst) (sh sh' : Shared) (resp : Response) : Prop :=
  (resp.status = 0 ∧ inst'.status = inst.status) ∨
    ((resp.status = 1 ∨ resp.status = 5) ∧ resp.result = 0 ∧ sh' = sh ∧ inst'.codec = inst.codec ∧
      inst'.status = { inst.status with err := resp.status }) ∨
    ((resp.status = 2 ∨ resp.status = 3 ∨ resp.status = 4 ∨ resp.status = 6) ∧ resp.result = 0 ∧
      inst'.status = { failed := true, err := resp.status })

/-- What an instruction did to a state, given the instance it ran on. -/
structure Shape (s t : State) (inst inst' : Inst) : Prop where
  slots : t.slots = s.slots.set s.cur (some inst')
  binding : inst'.binding = inst.binding
  inv : inst.Inv → inst'.Inv
  cur : t.cur = s.cur
  inbox : t.inbox = s.inbox
  released : t.released = s.released
  shared : s.shared.Keeps t.shared

theorem unspecified_binding (st : Status) (c : Codec) (n : Nat) :
    Inst.binding { status := st, codec := c.unspecified n } = Inst.binding { status := st, codec := c } := by
  cases c <;> simp [Inst.binding, Codec.unspecified, Codec.kind]

theorem binding_status (st st' : Status) (c : Codec) :
    Inst.binding { status := st, codec := c } = Inst.binding { status := st', codec := c } := by
  cases c <;> rfl

/-- Raising an error (R268). -/
theorem raiseError_shape {s : State} {inst inst' : Inst} {sh : Shared} {r : Raise} (hf : inst.status.failed = false)
    (hst : inst'.status = inst.status) (hb : inst'.binding = inst.binding) (hsh : s.shared.Keeps sh)
    (hr : r.kind.fatal = true ∨ inst'.codec = inst.codec ∧ sh = s.shared) :
    ∃ j resp, Shape s (s.raiseError inst' sh r) inst j ∧ (s.raiseError inst' sh r).response = some resp ∧
      Reported inst j s.shared (s.raiseError inst' sh r).shared resp := by
  refine ⟨State.failedInst inst' sh r, _, ⟨State.raiseError_slots .., ?_, ?_, by simp, by simp, ?_, ?_⟩,
    State.raiseError_response .., ?_⟩
  · unfold State.failedInst
    split
    · rw [unspecified_binding, binding_status _ inst'.status]
      exact hb
    · rw [binding_status _ inst'.status]
      exact hb
  · intro hi
    unfold State.failedInst
    split
    · next hfat =>
      refine ⟨?_, by simp⟩
      cases hk : r.kind <;> simp_all [ErrKind.fatal] <;> decide
    · next hfat =>
      rcases hr with hr | ⟨hc, _⟩
      · exact absurd hr hfat
      · refine ⟨⟨?_, ?_⟩, ?_⟩
        · cases hk : r.kind <;> simp_all [ErrKind.fatal] <;> decide
        · simp [hst, hf]
        · intro _
          simp only [hc]
          exact hi.2 hf
  · unfold State.raiseError; split <;> rfl
  · unfold State.raiseError
    split
    · exact hsh
    · exact hsh
  · unfold State.failedInst State.raiseError
    split
    · next hfat =>
      refine Or.inr (Or.inr ⟨?_, rfl, rfl⟩)
      cases hk : r.kind <;> simp_all [ErrKind.fatal] <;> decide
    · next hfat =>
      rcases hr with hr | ⟨hc, hs⟩
      · exact absurd hr hfat
      · refine Or.inr (Or.inl ⟨?_, rfl, hs, hc, by simp [hst]⟩)
        cases hk : r.kind <;> simp_all [ErrKind.fatal] <;> decide

/-- The end of a command's body. -/
theorem complete_shape {υ : Type} {s t : State} {inst : Inst} {wrap : υ → Codec} {x : Proc (υ × Shared) Count}
    (hf : inst.status.failed = false)
    (hx : x.Ends
      (fun _ us => (inst.codec.Inv → (wrap us.1).Inv) ∧
        Inst.binding { inst with codec := wrap us.1 } = inst.binding ∧ s.shared.Keeps us.2)
      fun r us => Inst.binding { inst with codec := wrap us.1 } = inst.binding ∧ s.shared.Keeps us.2 ∧
        (r.kind.fatal = true ∨ wrap us.1 = inst.codec ∧ us.2 = s.shared))
    (h : complete s inst wrap x = .next t) :
    ∃ j resp, Shape s t inst j ∧ t.response = some resp ∧ Reported inst j s.shared t.shared resp := by
  rcases complete_eq_next h with ⟨n, u, sh, rfl, -, rfl⟩ | ⟨r, u, sh, rfl, -, rfl⟩
  · obtain ⟨h1, h2, h3⟩ := hx
    exact ⟨{ inst with codec := wrap u }, _, ⟨rfl, h2, fun hi => ⟨hi.1, fun _ => h1 (hi.2 hf)⟩, rfl, rfl, rfl, h3⟩, rfl,
      Or.inl ⟨rfl, rfl⟩⟩
  · obtain ⟨h1, h2, h3⟩ := hx
    exact raiseError_shape hf rfl h1 h2 h3

/-- An illegal command (R266). -/
theorem illegalCommand_shape {s t : State} {inst : Inst} (hf : inst.status.failed = false)
    (h : illegalCommand s inst = .next t) :
    ∃ j resp, Shape s t inst j ∧ t.response = some resp ∧ Reported inst j s.shared t.shared resp := by
  unfold illegalCommand at h
  cases h
  exact raiseError_shape hf rfl rfl (Shared.Keeps.refl _) (Or.inr ⟨rfl, rfl⟩)

/-- What runs on an instance runs on a READY one. -/
theorem ready_of_next {s t : State} {f : Inst → Host.Outcome State Fault Refusal} (h : withAddressed s f = .next t) :
    ∃ inst, s.Ready inst ∧ f inst = .next t := by
  unfold withAddressed at h
  cases ha : s.addressed with
  | none => simp [ha] at h
  | some inst =>
    simp only [ha] at h
    split at h
    · cases h
    · next hf => exact ⟨inst, ⟨ha, by simpa using hf⟩, h⟩

/-- The commands of a byte encoder. -/
theorem onByteEnc_shape {s t : State} {body : Enc → Shared → Proc (Enc × Shared) Count}
    (hbody : ∀ e, (body e s.shared).Ends
      (fun _ us => (e.Inv → us.1.Inv) ∧ Enc.Bound e us.1 ∧ s.shared.Keeps us.2)
      fun r us => Enc.Bound e us.1 ∧ s.shared.Keeps us.2 ∧ (r.kind.fatal = true ∨ us = (e, s.shared)))
    (h : onByteEnc s body = .next t) :
    ∃ inst j resp, s.Ready inst ∧ Shape s t inst j ∧ t.response = some resp ∧ Reported inst j s.shared t.shared resp := by
  obtain ⟨inst, hr, hn⟩ := ready_of_next h
  refine ⟨inst, ?_⟩
  cases hc : inst.codec with
  | byteEnc e =>
    simp only [hc] at hn
    obtain ⟨j, resp, h1, h2, h3⟩ := complete_shape hr.2 ((hbody e).mono
      (fun _ us h => ⟨by rw [hc]; exact h.1, by simp only [Inst.binding, hc, Codec.kind]; rw [h.2.1], h.2.2⟩)
      fun r us h => ⟨by simp only [Inst.binding, hc, Codec.kind]; rw [h.1], h.2.1,
        h.2.2.imp id fun hu => by rw [hu, hc]; exact ⟨rfl, rfl⟩⟩) hn
    exact ⟨j, resp, hr, h1, h2, h3⟩
  | boolEnc e b => simp only [hc] at hn; obtain ⟨j, resp, h⟩ := illegalCommand_shape hr.2 hn; exact ⟨j, resp, hr, h⟩
  | byteDec d => simp only [hc] at hn; obtain ⟨j, resp, h⟩ := illegalCommand_shape hr.2 hn; exact ⟨j, resp, hr, h⟩
  | boolDec d b => simp only [hc] at hn; obtain ⟨j, resp, h⟩ := illegalCommand_shape hr.2 hn; exact ⟨j, resp, hr, h⟩

/-- The commands of a boolean encoder. -/
theorem onBoolEnc_shape {s t : State} {body : Enc × BoolEncRegs → Shared → Proc ((Enc × BoolEncRegs) × Shared) Count}
    (hbody : ∀ u, (body u s.shared).Ends
      (fun _ us => (u.1.Inv ∧ u.2.Inv → us.1.1.Inv ∧ us.1.2.Inv) ∧ Enc.Bound u.1 us.1.1 ∧ s.shared.Keeps us.2)
      fun r us => r.kind.fatal = true ∧ Enc.Bound u.1 us.1.1 ∧ s.shared.Keeps us.2)
    (h : onBoolEnc s body = .next t) :
    ∃ inst j resp, s.Ready inst ∧ Shape s t inst j ∧ t.response = some resp ∧ Reported inst j s.shared t.shared resp := by
  obtain ⟨inst, hr, hn⟩ := ready_of_next h
  refine ⟨inst, ?_⟩
  cases hc : inst.codec with
  | boolEnc e b =>
    simp only [hc] at hn
    obtain ⟨j, resp, h1, h2, h3⟩ := complete_shape hr.2 ((hbody (e, b)).mono
      (fun _ us h => ⟨by rw [hc]; exact h.1, by simp only [Inst.binding, hc, Codec.kind]; rw [h.2.1], h.2.2⟩)
      fun r us h => ⟨by simp only [Inst.binding, hc, Codec.kind]; rw [h.2.1], h.2.2, Or.inl h.1⟩) hn
    exact ⟨j, resp, hr, h1, h2, h3⟩
  | byteEnc e => simp only [hc] at hn; obtain ⟨j, resp, h⟩ := illegalCommand_shape hr.2 hn; exact ⟨j, resp, hr, h⟩
  | byteDec d => simp only [hc] at hn; obtain ⟨j, resp, h⟩ := illegalCommand_shape hr.2 hn; exact ⟨j, resp, hr, h⟩
  | boolDec d b => simp only [hc] at hn; obtain ⟨j, resp, h⟩ := illegalCommand_shape hr.2 hn; exact ⟨j, resp, hr, h⟩

theorem dec_binding {inst : Inst} {d d' : Dec} (hc : inst.codec = .byteDec d) (h : Dec.Bound d d') :
    Inst.binding { inst with codec := .byteDec d' } = inst.binding := by
  simp only [Inst.binding, hc, Codec.kind]
  rw [h.1, h.2.1, h.2.2.1, h.2.2.2]

theorem boolDec_binding {inst : Inst} {d d' : Dec} {b b' : BoolDecRegs} (hc : inst.codec = .boolDec d b) (h : Dec.Bound d d') :
    Inst.binding { inst with codec := .boolDec d' b' } = inst.binding := by
  simp only [Inst.binding, hc, Codec.kind]
  rw [h.1, h.2.1, h.2.2.1, h.2.2.2]

/-- The commands of a byte decoder. -/
theorem onByteDec_shape {s t : State} {body : Dec → Shared → Proc (Dec × Shared) Count}
    (hbody : ∀ d, (body d s.shared).Ends
      (fun _ us => (d.regs.Inv → us.1.regs.Inv) ∧ Dec.Bound d us.1 ∧ s.shared.Keeps us.2)
      fun r us => r.kind.fatal = true ∧ Dec.Bound d us.1 ∧ s.shared.Keeps us.2)
    (h : onByteDec s body = .next t) :
    ∃ inst j resp, s.Ready inst ∧ Shape s t inst j ∧ t.response = some resp ∧ Reported inst j s.shared t.shared resp := by
  obtain ⟨inst, hr, hn⟩ := ready_of_next h
  refine ⟨inst, ?_⟩
  cases hc : inst.codec with
  | byteDec d =>
    simp only [hc] at hn
    obtain ⟨j, resp, h1, h2, h3⟩ := complete_shape hr.2 ((hbody d).mono
      (fun _ us h => ⟨by rw [hc]; exact h.1, dec_binding hc h.2.1, h.2.2⟩)
      fun r us h => ⟨dec_binding hc h.2.1, h.2.2, Or.inl h.1⟩) hn
    exact ⟨j, resp, hr, h1, h2, h3⟩
  | byteEnc e => simp only [hc] at hn; obtain ⟨j, resp, h⟩ := illegalCommand_shape hr.2 hn; exact ⟨j, resp, hr, h⟩
  | boolEnc e b => simp only [hc] at hn; obtain ⟨j, resp, h⟩ := illegalCommand_shape hr.2 hn; exact ⟨j, resp, hr, h⟩
  | boolDec d b => simp only [hc] at hn; obtain ⟨j, resp, h⟩ := illegalCommand_shape hr.2 hn; exact ⟨j, resp, hr, h⟩

/-- The commands of a boolean decoder. -/
theorem onBoolDec_shape {s t : State} {body : Dec × BoolDecRegs → Shared → Proc ((Dec × BoolDecRegs) × Shared) Count}
    (hbody : ∀ u, (body u s.shared).Ends
      (fun _ us => (u.1.regs.Inv ∧ u.2.Inv → us.1.1.regs.Inv ∧ us.1.2.Inv) ∧ Dec.Bound u.1 us.1.1 ∧ s.shared.Keeps us.2)
      fun r us => r.kind.fatal = true ∧ Dec.Bound u.1 us.1.1 ∧ s.shared.Keeps us.2)
    (h : onBoolDec s body = .next t) :
    ∃ inst j resp, s.Ready inst ∧ Shape s t inst j ∧ t.response = some resp ∧ Reported inst j s.shared t.shared resp := by
  obtain ⟨inst, hr, hn⟩ := ready_of_next h
  refine ⟨inst, ?_⟩
  cases hc : inst.codec with
  | boolDec d b =>
    simp only [hc] at hn
    obtain ⟨j, resp, h1, h2, h3⟩ := complete_shape hr.2 ((hbody (d, b)).mono
      (fun _ us h => ⟨by rw [hc]; exact h.1, boolDec_binding hc h.2.1, h.2.2⟩)
      fun r us h => ⟨boolDec_binding hc h.2.1, h.2.2, Or.inl h.1⟩) hn
    exact ⟨j, resp, hr, h1, h2, h3⟩
  | byteEnc e => simp only [hc] at hn; obtain ⟨j, resp, h⟩ := illegalCommand_shape hr.2 hn; exact ⟨j, resp, hr, h⟩
  | boolEnc e b => simp only [hc] at hn; obtain ⟨j, resp, h⟩ := illegalCommand_shape hr.2 hn; exact ⟨j, resp, hr, h⟩
  | byteDec d => simp only [hc] at hn; obtain ⟨j, resp, h⟩ := illegalCommand_shape hr.2 hn; exact ⟨j, resp, hr, h⟩

/-! ### One lemma per shape of body -/

theorem keeps_record (sh : Shared) (recorder : Handle) (stride : Nat) (cs : List Count) :
    sh.Keeps (sh.record recorder stride cs) := ⟨rfl, rfl, rfl, rfl, id⟩

theorem keeps_calls (sh : Shared) (calls : List AccessorCall) : sh.Keeps { sh with calls := calls } := ⟨rfl, rfl, rfl, rfl, id⟩

theorem Shared.Keeps.trans {a b c : Shared} (h : a.Keeps b) (h' : b.Keeps c) : a.Keeps c :=
  ⟨h'.1.trans h.1, h'.2.1.trans h.2.1, h'.2.2.1.trans h.2.2.1, h'.2.2.2.1.trans h.2.2.2.1, fun hm => h'.2.2.2.2 (h.2.2.2.2 hm)⟩

theorem keeps_advance (sh : Shared) (h : Handle) (n : Nat) : sh.Keeps (sh.advance h n) := ⟨rfl, rfl, rfl, rfl, id⟩

theorem keeps_provNext (sh : Shared) (h : Handle) : sh.Keeps (sh.provNext h).2 := by
  unfold Shared.provNext
  split
  · exact Shared.Keeps.refl _
  · exact keeps_advance _ _ _

theorem keeps_writeAt (sh : Shared) (base : Addr) (ws : List (Nat × Byte)) (n : Nat) :
    sh.Keeps { sh with mem := sh.mem.writeAt base ws, freeCount := n } :=
  ⟨rfl, rfl, rfl, rfl, fun h => Memory.writeAt_wf h _ _⟩

/-- The loop of the callback form (41_byte_encoder R112): whatever every write keeps. -/
theorem addFnLoop_ends {υ : Type} {P : υ → Prop} {R : Raise → υ → Prop} {write : υ → Byte → Proc υ Unit}
    (hw : ∀ u v, P u → (write u v).Ends (fun _ u' => P u') R) {valueAt isNullAt : Handle} {ps : List Nat} {count : Nat} {u : υ}
    {sh : Shared} (hu : P u) :
    (addFnLoop write valueAt isNullAt ps count u sh).Ends (fun _ us => P us.1) fun r us => R r us.1 := by
  induction ps generalizing count u sh with
  | nil => exact hu
  | cons i ps ih =>
    unfold addFnLoop
    have settle : ∀ {α : Type} (a : Option (Answer α)) (free : α) (sh : Shared),
        (Answer.settle a free sh).Ends (fun _ _ => True) fun _ _ => False := by
      intro α a free sh
      rcases a with _ | ⟨v⟩ | _ | _ <;> trivial
    refine Proc.Ends.bind (P := fun _ (us : υ × Shared) => P us.1)
      (((settle _ _ _).embed (fun _ _ _ => hu) fun _ _ h => h.elim)) fun null us hus => ?_
    split
    · exact ih hus
    · refine Proc.Ends.bind (P := fun _ (us' : υ × Shared) => P us'.1)
        (((settle _ _ _).embed (fun _ _ _ => hus) fun _ _ h => h.elim)) fun v us' hus' => ?_
      refine Proc.Ends.bind (P := fun _ (us'' : υ × Shared) => P us''.1) ?_ fun _ us'' h => ih h
      exact (hw _ _ hus').embed (fun _ _ h => h) fun _ _ h => h

/-- A procedure's ends, together with what its normal end and its error tell by themselves. -/
theorem Proc.Ends.and_eq {σ α : Type} {x : Proc σ α} {Q : α → σ → Prop} {R : Raise → σ → Prop} (h : x.Ends Q R) :
    x.Ends (fun a s => x = .ok a s ∧ Q a s) fun r s => x = .raised r s ∧ R r s := by
  cases x with
  | ok a s => exact ⟨rfl, h⟩
  | raised r s => exact ⟨rfl, h⟩
  | stuck e => trivial

theorem addFn_body {υ : Type} {B I : υ → Prop} {write : υ → Byte → Proc υ Unit} {valueAt isNullAt : Handle}
    (hw : ∀ u v, B u → (write u v).Ends (fun _ u' => B u') fun r u' => r.kind.fatal = true ∧ B u')
    (hi : ∀ u v u', I u → write u v = .ok () u' → I u') {ps : List Nat} {u : υ} {sh : Shared} (hu : B u) (f : Nat → Count) :
    ((addFnLoop write valueAt isNullAt ps 0 u sh).yielding f).Ends (fun _ us => (I u → I us.1) ∧ B us.1 ∧ sh.Keeps us.2)
      fun r us => r.kind.fatal = true ∧ B us.1 ∧ sh.Keeps us.2 := by
  have h := (addFnLoop_ends (valueAt := valueAt) (isNullAt := isNullAt) (ps := ps) (count := 0) (sh := sh) hw hu).and_eq
  refine Proc.Ends.yielding (P := fun _ us => (I u → I us.1) ∧ B us.1 ∧ sh.Keeps us.2) (h.mono ?_ ?_) fun _ _ h => h
  · rintro n us ⟨he, hb⟩
    refine ⟨fun hiu => addFnLoop_unit hi hiu he, hb, ?_⟩
    rw [addFnLoop_shared (Or.inl ⟨n, he⟩)]
    exact keeps_calls _ _
  · rintro r us ⟨he, hr, hb⟩
    refine ⟨hr, hb, ?_⟩
    rw [addFnLoop_shared (Or.inr ⟨r, he⟩)]
    exact keeps_calls _ _

theorem writeAll_body {e : Enc} {vs : List Byte} {sh : Shared} (n : Count) :
    (((e.writeAll vs).embed fun e' => (e', sh)).yielding fun _ => n).Ends
      (fun _ us => (e.Inv → us.1.Inv) ∧ Enc.Bound e us.1 ∧ sh.Keeps us.2)
      fun r us => r.kind.fatal = true ∧ Enc.Bound e us.1 ∧ sh.Keeps us.2 := by
  have h := (Enc.writeAll_fine (e0 := e) (e := e) vs rfl).and_eq
  refine Proc.Ends.yielding (P := fun _ us => (e.Inv → us.1.Inv) ∧ Enc.Bound e us.1 ∧ sh.Keeps us.2)
    (h.embed ?_ ?_) fun _ _ h => h
  · rintro _ e' ⟨he, hb⟩
    exact ⟨fun hi => Enc.writeAll_inv hi he, hb, Shared.Keeps.refl _⟩
  · rintro r e' ⟨he, hr, hb⟩
    exact ⟨hr, hb, Shared.Keeps.refl _⟩

theorem writeBools_body {u : Enc × BoolEncRegs} {vs : List Bool} {sh : Shared} (n : Count) :
    (((BoolEnc.writeBools u vs).embed fun u' => (u', sh)).yielding fun _ => n).Ends
      (fun _ us => (u.1.Inv ∧ u.2.Inv → us.1.1.Inv ∧ us.1.2.Inv) ∧ Enc.Bound u.1 us.1.1 ∧ sh.Keeps us.2)
      fun r us => r.kind.fatal = true ∧ Enc.Bound u.1 us.1.1 ∧ sh.Keeps us.2 := by
  have h := (BoolEnc.writeBools_fine (e0 := u.1) (u := u) vs rfl).and_eq
  refine Proc.Ends.yielding
    (P := fun _ us => (u.1.Inv ∧ u.2.Inv → us.1.1.Inv ∧ us.1.2.Inv) ∧ Enc.Bound u.1 us.1.1 ∧ sh.Keeps us.2)
    (h.embed ?_ ?_) fun _ _ h => h
  · rintro _ e' ⟨he, hb⟩
    exact ⟨fun hi => BoolEnc.writeBools_inv hi he, hb, Shared.Keeps.refl _⟩
  · rintro r e' ⟨he, hr, hb⟩
    exact ⟨hr, hb, Shared.Keeps.refl _⟩

theorem seek_body (provider : Handle) (d : Dec) (sh : Shared) :
    (d.seek provider sh).Ends (fun _ us => (d.regs.Inv → us.1.regs.Inv) ∧ Dec.Bound d us.1 ∧ sh.Keeps us.2)
      fun r us => r.kind.fatal = true ∧ Dec.Bound d us.1 ∧ sh.Keeps us.2 := by
  have hb : Dec.Bound d { d with src := (d.src.seek (sh.provided provider)).2.2 } := by
    unfold Source.seek
    dsimp only
    split <;> exact ⟨rfl, rfl, rfl, rfl⟩
  unfold Dec.seek
  dsimp only
  split
  · exact ⟨rfl, hb, Shared.Keeps.refl _⟩
  · split
    · unfold Dec.reseat
      dsimp only
      have hk := keeps_provNext (sh.advance provider (d.src.seek (sh.provided provider)).2.1) provider
      generalize (sh.advance provider (d.src.seek (sh.provided provider)).2.1).provNext provider = x at hk
      obtain ⟨c, sh'⟩ := x
      cases c with
      | none => exact ⟨rfl, hb, (keeps_advance _ _ _).trans hk⟩
      | some c => exact ⟨fun _ => ⟨by simp, by simp, by simp⟩, hb, (keeps_advance _ _ _).trans hk⟩
    · exact ⟨rfl, hb, keeps_advance _ _ _⟩

theorem addSkip_body (n : Count) (d : Dec) :
    (d.addSkip n).Ends (fun _ d' => (d.regs.Inv → d'.regs.Inv) ∧ Dec.Bound d d')
      fun r d' => r.kind.fatal = true ∧ Dec.Bound d d' := by
  unfold Dec.addSkip
  split
  · exact ⟨rfl, rfl, rfl, rfl, rfl⟩
  · exact ⟨id, rfl, rfl, rfl, rfl⟩

/-- The run of a segment (42_segment_parser R144, R145). -/
theorem onParser_shape {s t : State} {i : Instr} (h : onParser s (Dec.loadSegment i) = .next t) :
    ∃ inst j, s.Ready inst ∧ Shape s t inst j ∧ j.status = inst.status ∧ t.response = s.response ∧ t.shared = s.shared := by
  obtain ⟨inst, hr, hn⟩ := ready_of_next h
  refine ⟨inst, ?_⟩
  cases hc : inst.codec with
  | byteEnc e => simp [hc] at hn
  | boolEnc e b => simp [hc] at hn
  | byteDec d =>
    simp only [hc] at hn
    split at hn
    · cases hn
      refine ⟨_, hr, ⟨rfl, dec_binding hc (Dec.loadSegment_bound ⟨rfl, rfl, rfl, rfl⟩ i), fun hi => ⟨hi.1, fun hf => ?_⟩, rfl, rfl,
        rfl, Shared.Keeps.refl _⟩, rfl, rfl, rfl⟩
      have := hi.2 hf
      rw [hc] at this
      exact Dec.loadSegment_inv this i
    · cases hn
  | boolDec d b =>
    simp only [hc] at hn
    split at hn
    · cases hn
      refine ⟨_, hr, ⟨rfl, boolDec_binding hc (Dec.loadSegment_bound ⟨rfl, rfl, rfl, rfl⟩ i), fun hi => ⟨hi.1, fun hf => ?_⟩, rfl,
        rfl, rfl, Shared.Keeps.refl _⟩, rfl, rfl, rfl⟩
      have := hi.2 hf
      rw [hc] at this
      exact ⟨Dec.loadSegment_inv this.1 i, this.2⟩
    · cases hn

/-- What an instruction that ends in a next state did. -/
theorem exec_shape {i : Instr} {s t : State} (h : exec i s = .next t) :
    ∃ inst j, s.Ready inst ∧ Shape s t inst j ∧
      (i.kind ≠ none → ∃ resp, t.response = some resp ∧ Reported inst j s.shared t.shared resp) ∧
      (i.kind = none → j.status = inst.status ∧ t.response = s.response ∧ t.shared = s.shared) := by
  have cmd : (∃ inst j resp, s.Ready inst ∧ Shape s t inst j ∧ t.response = some resp ∧
      Reported inst j s.shared t.shared resp) → i.kind ≠ none → ∃ inst j, s.Ready inst ∧ Shape s t inst j ∧
      (i.kind ≠ none → ∃ resp, t.response = some resp ∧ Reported inst j s.shared t.shared resp) ∧
      (i.kind = none → j.status = inst.status ∧ t.response = s.response ∧ t.shared = s.shared) := by
    rintro ⟨inst, j, resp, h1, h2, h3, h4⟩ hk
    exact ⟨inst, j, h1, h2, fun _ => ⟨resp, h3, h4⟩, fun hn => absurd hn hk⟩
  cases i with
  | rep k v =>
    obtain ⟨inst, j, h1, h2, h3⟩ := onParser_shape h
    exact ⟨inst, j, h1, h2, fun hk => absurd rfl hk, fun _ => h3⟩
  | lit m p =>
    obtain ⟨inst, j, h1, h2, h3⟩ := onParser_shape h
    exact ⟨inst, j, h1, h2, fun hk => absurd rfl hk, fun _ => h3⟩
  | bencAdd data ranges nulls =>
    have h : execBencAdd data ranges nulls s = .next t := h
    unfold execBencAdd at h
    refine cmd (onByteEnc_shape (fun e => ?_) h) (by simp [Instr.kind])
    dsimp only
    split
    · exact (writeAll_body _).mono (fun _ _ h => h) fun _ _ h => ⟨h.2.1, h.2.2, Or.inl h.1⟩
    · trivial
  | bencAddFn valueAt isNullAt ranges =>
    have h : execBencAddFn valueAt isNullAt ranges s = .next t := h
    unfold execBencAddFn at h
    refine cmd (onByteEnc_shape (fun e => ?_) h) (by simp [Instr.kind])
    exact (addFn_body (B := Enc.Bound e) (I := Enc.Inv) (fun u v hb => Enc.write_fine v hb)
      (fun u v u' hi hw => Enc.writeAll_inv (vs := [v]) hi (by simp [Enc.writeAll, hw])) rfl _).mono (fun _ _ h => h)
      fun _ _ h => ⟨h.2.1, h.2.2, Or.inl h.1⟩
  | bencAddBits data ranges nulls invert =>
    have h : execBencAddBits data ranges nulls invert s = .next t := h
    unfold execBencAddBits at h
    exact cmd (onByteEnc_shape (fun e => by exact ⟨rfl, Shared.Keeps.refl _, Or.inr rfl⟩) h) (by simp [Instr.kind])
  | bencFlush =>
    have h : execBencFlush s = .next t := h
    unfold execBencFlush at h
    refine cmd (onByteEnc_shape (fun e => ?_) h) (by simp [Instr.kind])
    refine Proc.Ends.embed (Enc.flush_fine (e0 := e) rfl).and_eq ?_ ?_
    · exact fun n e' h => ⟨fun hi => Enc.flush_inv hi h.1, h.2, Shared.Keeps.refl _⟩
    · exact fun r e' h => ⟨h.2.2, Shared.Keeps.refl _, Or.inl h.2.1⟩
  | bencRecpos recorder stride =>
    have h : execBencRecpos recorder stride s = .next t := h
    unfold execBencRecpos at h
    exact cmd (onByteEnc_shape (fun e => by exact ⟨id, rfl, keeps_record _ _ _ _⟩) h) (by simp [Instr.kind])
  | bencGetsize =>
    have h : execBencGetsize s = .next t := h
    unfold execBencGetsize at h
    exact cmd (onByteEnc_shape (fun e => by exact ⟨id, rfl, Shared.Keeps.refl _⟩) h) (by simp [Instr.kind])
  | boolencAdd data ranges nulls =>
    have h : execBoolencAdd data ranges nulls s = .next t := h
    unfold execBoolencAdd at h
    refine cmd (onBoolEnc_shape (fun u => ?_) h) (by simp [Instr.kind])
    dsimp only
    split
    · exact writeBools_body _
    · trivial
  | boolencAddFn valueAt isNullAt ranges =>
    have h : execBoolencAddFn valueAt isNullAt ranges s = .next t := h
    unfold execBoolencAddFn at h
    refine cmd (onBoolEnc_shape (fun u => ?_) h) (by simp [Instr.kind])
    exact addFn_body (B := fun u' : Enc × BoolEncRegs => Enc.Bound u.1 u'.1) (I := fun u => u.1.Inv ∧ u.2.Inv)
      (fun u' v hb => BoolEnc.writeBool_fine (e0 := u.1) (u := u') (v != 0) hb) (fun u v u' hi hw => BoolEnc.writeBool_inv hi hw) rfl _
  | boolencAddBits data ranges nulls invert =>
    have h : execBoolencAddBits data ranges nulls invert s = .next t := h
    unfold execBoolencAddBits at h
    refine cmd (onBoolEnc_shape (fun u => ?_) h) (by simp [Instr.kind])
    dsimp only
    split
    · exact writeBools_body _
    · trivial
  | boolencFlush =>
    have h : execBoolencFlush s = .next t := h
    unfold execBoolencFlush at h
    refine cmd (onBoolEnc_shape (fun u => ?_) h) (by simp [Instr.kind])
    refine Proc.Ends.embed (BoolEnc.flush_fine (e0 := u.1) (u := u) rfl).and_eq ?_ ?_
    · exact fun n u' h => ⟨fun hi => BoolEnc.flush_inv hi h.1, h.2, Shared.Keeps.refl _⟩
    · exact fun r u' h => ⟨h.2.1, h.2.2, Shared.Keeps.refl _⟩
  | boolencRecpos recorder stride =>
    have h : execBoolencRecpos recorder stride s = .next t := h
    unfold execBoolencRecpos at h
    exact cmd (onBoolEnc_shape (fun u => by exact ⟨id, rfl, (keeps_record _ _ _ _).trans (keeps_record _ _ _ _)⟩) h) (by simp [Instr.kind])
  | boolencGetsize =>
    have h : execBoolencGetsize s = .next t := h
    unfold execBoolencGetsize at h
    exact cmd (onBoolEnc_shape (fun u => by exact ⟨id, rfl, Shared.Keeps.refl _⟩) h) (by simp [Instr.kind])
  | bdecNext data numValues nulls =>
    have h : execBdecNext data numValues nulls s = .next t := h
    unfold execBdecNext at h
    refine cmd (onByteDec_shape (fun d => ?_) h) (by simp [Instr.kind])
    split
    · trivial
    · refine Proc.Ends.yielding (P := fun _ us => (d.regs.Inv → us.1.regs.Inv) ∧ Dec.Bound d us.1 ∧ s.shared.Keeps us.2)
        (Proc.Ends.embed (byteNext_ends (P := d.regs.Inv) (d0 := d) id ⟨rfl, rfl, rfl, rfl⟩) ?_ ?_) fun _ _ h => h
      · exact fun _ r h => ⟨h.1, h.2, keeps_writeAt _ _ _ _⟩
      · exact fun _ r h => ⟨h.1, h.2, keeps_writeAt _ _ _ _⟩
  | bdecSkip n =>
    have h : execBdecSkip n s = .next t := h
    unfold execBdecSkip at h
    refine cmd (onByteDec_shape (fun d => ?_) h) (by simp [Instr.kind])
    refine Proc.Ends.yielding (P := fun _ us => (d.regs.Inv → us.1.regs.Inv) ∧ Dec.Bound d us.1 ∧ s.shared.Keeps us.2)
      (Proc.Ends.embed (addSkip_body n d) ?_ ?_) fun _ _ h => h
    · exact fun _ _ h => ⟨h.1, h.2, Shared.Keeps.refl _⟩
    · exact fun _ _ h => ⟨h.1, h.2, Shared.Keeps.refl _⟩
  | bdecSeek provider =>
    have h : execBdecSeek provider s = .next t := h
    unfold execBdecSeek at h
    refine cmd (onByteDec_shape (fun d => ?_) h) (by simp [Instr.kind])
    exact (seek_body provider d s.shared).yielding fun _ _ h => h
  | booldecNext data numValues nulls =>
    have h : execBooldecNext data numValues nulls s = .next t := h
    unfold execBooldecNext at h
    refine cmd (onBoolDec_shape (fun u => ?_) h) (by simp [Instr.kind])
    split
    · trivial
    · split
      · trivial
      · have hx := BoolDec.nextBytes_ends (P := u.1.regs.Inv ∧ u.2.Inv) (d0 := u.1) (isNull := isNull s.shared nulls)
          (n := numValues.toNat) (m := nonNullCount s.shared numValues.toNat nulls) (u := u) id ⟨rfl, rfl, rfl, rfl⟩
        generalize BoolDec.nextBytes (isNull s.shared nulls) numValues.toNat
          (nonNullCount s.shared numValues.toNat nulls) u = x at hx
        cases x with
        | ok bytes u' =>
          exact ⟨hx.1, hx.2, rfl, rfl, rfl, rfl, fun hm => Memory.writeAt_wf (Memory.writeAt_wf hm _ _) _ _⟩
        | raised r u' => exact ⟨hx.1, hx.2, keeps_writeAt _ _ _ _⟩
        | stuck f => trivial
  | booldecSkip n =>
    have h : execBooldecSkip n s = .next t := h
    unfold execBooldecSkip at h
    refine cmd (onBoolDec_shape (fun u => ?_) h) (by simp [Instr.kind])
    refine Proc.Ends.yielding
      (P := fun _ us => (u.1.regs.Inv ∧ u.2.Inv → us.1.1.regs.Inv ∧ us.1.2.Inv) ∧ Dec.Bound u.1 us.1.1 ∧ s.shared.Keeps us.2)
      (Proc.Ends.embed (addSkip_body n u.1) ?_ ?_) fun _ _ h => h
    · exact fun _ _ h => ⟨fun hi => ⟨h.1 hi.1, hi.2⟩, h.2, Shared.Keeps.refl _⟩
    · exact fun _ _ h => ⟨h.1, h.2, Shared.Keeps.refl _⟩
  | booldecSeek provider =>
    have h : execBooldecSeek provider s = .next t := h
    unfold execBooldecSeek at h
    refine cmd (onBoolDec_shape (fun u => ?_) h) (by simp [Instr.kind])
    refine Proc.Ends.yielding
      (P := fun _ us => (u.1.regs.Inv ∧ u.2.Inv → us.1.1.regs.Inv ∧ us.1.2.Inv) ∧ Dec.Bound u.1 us.1.1 ∧ s.shared.Keeps us.2)
      (Proc.Ends.bind
        (P := fun _ us => (u.1.regs.Inv ∧ u.2.Inv → us.1.1.regs.Inv ∧ us.1.2.Inv) ∧ Dec.Bound u.1 us.1.1 ∧ s.shared.Keeps us.2)
        (Proc.Ends.embed (seek_body provider u.1 s.shared) ?_ ?_) ?_) fun _ _ h => h
    · exact fun _ _ h => ⟨fun hi => ⟨h.1 hi.1, hi.2⟩, h.2.1, h.2.2⟩
    · exact fun _ _ h => h
    · rintro _ ⟨⟨d, b⟩, sh⟩ ⟨h1, h2, h3⟩
      unfold BoolDec.fuse
      have hk := h3.trans (keeps_provNext sh provider)
      simp only
      generalize sh.provNext provider = x at hk
      obtain ⟨c, sh'⟩ := x
      cases c with
      | none => exact ⟨rfl, h2, hk⟩
      | some c =>
        dsimp only
        split
        · exact ⟨rfl, h2, hk⟩
        · split
          · exact ⟨rfl, h2, hk⟩
          · exact ⟨fun hi => ⟨(h1 hi).1, by simp [BoolDecRegs.Inv]⟩, h2, hk⟩

end Sys2Proof.Machine
end

