-- ==== Sys2Proof/Laws/Frames.lean ====
section
/-!
SUPPORT. Frames of a command from the frame of its body, the ends of an error, fetching a segment, two states that agree on the addressed
instance (10_state R20), and the shape of a step.
-/

namespace Sys2Proof.Machine

/-- What the body keeps of the shared state the command keeps, as a raise changes the counter of free values only. -/
theorem complete_frame {υ : Type} {s t : State} {inst : Inst} {wrap : υ → Codec} {x : Proc (υ × Shared) Count} {Q : Shared → Prop}
   (hx : x.Ends (fun _ us => Q us.2) fun _ us => Q us.2) (hQ : ∀ sh n, Q sh → Q { sh with freeCount := n }) (h : complete s inst wrap x = .next t) : Q t.shared := by
  rcases complete_eq_next h with ⟨n, u, sh, rfl, -, rfl⟩ | ⟨r, u, sh, rfl, -, rfl⟩
  · exact hx
  · unfold State.raiseError
    dsimp only
    split
    · exact hQ _ _ hx
    · exact hx

/-- An illegal command leaves the shared state. -/
theorem illegal_frame {s t : State} {inst : Inst} (h : illegalCommand s inst = .next t) : t.shared = s.shared := by
  cases h; rfl

/-- A command of a byte encoder keeps what its body keeps. -/
theorem onByteEnc_frame {s t : State} {body : Enc → Shared → Proc (Enc × Shared) Count} {Q : Shared → Prop}
   (hx : ∀ e, (body e s.shared).Ends (fun _ us => Q us.2) fun _ us => Q us.2) (hQ : ∀ sh n, Q sh → Q { sh with freeCount := n })
   (h0 : Q s.shared) (h : onByteEnc s body = .next t) : Q t.shared := by
  obtain ⟨inst, hr, hn⟩ := ready_of_next h
  cases hc : inst.codec <;> simp only [hc] at hn
  · exact complete_frame (hx _) hQ hn
  all_goals rw [illegal_frame hn]; exact h0

/-- A command of a boolean encoder keeps what its body keeps. -/
theorem onBoolEnc_frame {s t : State} {body : Enc × BoolEncRegs → Shared → Proc ((Enc × BoolEncRegs) × Shared) Count} {Q : Shared → Prop}
   (hx : ∀ e, (body e s.shared).Ends (fun _ us => Q us.2) fun _ us => Q us.2) (hQ : ∀ sh n, Q sh → Q { sh with freeCount := n })
   (h0 : Q s.shared) (h : onBoolEnc s body = .next t) : Q t.shared := by
  obtain ⟨inst, hr, hn⟩ := ready_of_next h
  cases hc : inst.codec <;> simp only [hc] at hn
  · rw [illegal_frame hn]; exact h0
  · exact complete_frame (hx _) hQ hn
  all_goals rw [illegal_frame hn]; exact h0

/-- A command of a byte decoder keeps what its body keeps. -/
theorem onByteDec_frame {s t : State} {body : Dec → Shared → Proc (Dec × Shared) Count} {Q : Shared → Prop}
   (hx : ∀ e, (body e s.shared).Ends (fun _ us => Q us.2) fun _ us => Q us.2) (hQ : ∀ sh n, Q sh → Q { sh with freeCount := n })
   (h0 : Q s.shared) (h : onByteDec s body = .next t) : Q t.shared := by
  obtain ⟨inst, hr, hn⟩ := ready_of_next h
  cases hc : inst.codec <;> simp only [hc] at hn
  case byteDec d => exact complete_frame (hx _) hQ hn
  all_goals rw [illegal_frame hn]; exact h0

/-- A command of a boolean decoder keeps what its body keeps. -/
theorem onBoolDec_frame {s t : State} {body : Dec × BoolDecRegs → Shared → Proc ((Dec × BoolDecRegs) × Shared) Count} {Q : Shared → Prop}
   (hx : ∀ e, (body e s.shared).Ends (fun _ us => Q us.2) fun _ us => Q us.2) (hQ : ∀ sh n, Q sh → Q { sh with freeCount := n })
   (h0 : Q s.shared) (h : onBoolDec s body = .next t) : Q t.shared := by
  obtain ⟨inst, hr, hn⟩ := ready_of_next h
  cases hc : inst.codec <;> simp only [hc] at hn
  case boolDec d => exact complete_frame (hx _) hQ hn
  all_goals rw [illegal_frame hn]; exact h0

/-- A body that does not touch the shared state keeps all of it. -/
theorem ends_const {σ α : Type} {x : Proc σ α} {sh : Shared} {Q : Shared → Prop} (h : Q sh) :
   (x.embed fun u => (u, sh)).Ends (fun _ us => Q us.2) fun _ us => Q us.2 := by
  cases x <;> first | exact h | trivial

/-- The callback form changes the log of questions only. -/
theorem addFn_frame {υ : Type} {write : υ → Byte → Proc υ Unit} {v n : Handle} {ps : List Nat} {c : Nat} {u : υ} {sh : Shared} (f : Nat → Count)
   {Q : Shared → Prop} (h : ∀ calls, Q { sh with calls := calls }) :
   ((addFnLoop write v n ps c u sh).yielding f).Ends (fun _ us => Q us.2) fun _ us => Q us.2 := by
  cases hx : addFnLoop write v n ps c u sh with
  | ok a us => show Q us.2; rw [addFnLoop_shared (Or.inl ⟨a, hx⟩)]; exact h _
  | raised r us => show Q us.2; rw [addFnLoop_shared (Or.inr ⟨r, hx⟩)]; exact h _
  | stuck => trivial

/-- No instruction touches another slot, the inbox or the released agents. -/
theorem exec_frame {i : Instr} {s t : State} (h : exec i s = .next t) :
   (∀ k, k ≠ s.cur → t.slots[k]? = s.slots[k]?) ∧ t.cur = s.cur ∧ t.inbox = s.inbox ∧ t.released = s.released := by
  obtain ⟨inst, j, h1, h2, _⟩ := exec_shape h
  exact ⟨fun k hk => by rw [h2.slots, List.getElem?_set_ne (Ne.symm hk)], h2.cur, h2.inbox, h2.released⟩

/-- An instance with decoder registers is a byte or a boolean decoder. -/
theorem ofDec_cases {c : Codec} {d : Dec} {b : Option BoolDecRegs} (h : c = Codec.ofDec d b) :
   (b = none ∧ c = .byteDec d) ∨ ∃ x, b = some x ∧ c = .boolDec d x := by
  cases b with
  | none => exact Or.inl ⟨rfl, h⟩
  | some x => exact Or.inr ⟨x, rfl, h⟩

/-- The command addresses the instance in the slot it names. -/
theorem slot_addressed {s : State} {k : Nat} {inst : Inst} (h : s.slots[k]? = some (some inst)) (rest : List Input) :
   ({ s with cur := k, inbox := rest } : State).addressed = some inst := by
  simp [State.addressed, h]

/-- `IllegalCommand`, written out (60_exceptions R266). -/
theorem illegalCommand_next (s : State) (inst : Inst) : ∃ dg, illegalCommand s inst = .next { s with
        slots := s.slots.set s.cur (some { inst with status := { inst.status with err := 5 } })
        response := some { status := 5, result := 0, diag := dg } } := by
  exact ⟨_, rfl⟩

/-- The errors of the parser are fatal, with codes 2 and 3. -/
theorem raise_kind {r : Raise} (h : Dec.ParseError r) : r.kind.fatal = true ∧ (r.kind.code = 2 ∨ r.kind.code = 3) := by
  rcases h with h | h <;> rw [h] <;> decide

/-- `STATUS` after a fatal error (60_exceptions R268). -/
theorem failed_status {inst : Inst} {sh : Shared} {r : Raise} (h : r.kind.fatal = true) :
   (State.failedInst inst sh r).status = { failed := true, err := r.kind.code } := by
  unfold State.failedInst; rw [if_pos h]

/-- After a success the instance is READY. -/
theorem reply_ready {s : State} {inst inst' : Inst} (h : s.Ready inst) (hs : inst'.status = inst.status) (sh : Shared) (resp : Response) :
   (s.reply inst' sh resp).Ready inst' := ⟨State.addressed_reply h.1 _ _, by rw [hs]; exact h.2⟩

/-- The end of a body that raises a fatal error (60_exceptions R268). -/
theorem bad_reply {s : State} {inst : Inst} {υ : Type} {wrap : υ → Codec} {r : Raise} {u : υ × Shared} (hr : s.Ready inst) (hq : inst.codec.reenters (wrap u.1) = false)
   (hk : r.kind.fatal = true) :
   ∃ (t : State) (dg : Option Diag) (inst' : Inst),
          complete s inst wrap (.raised r u) = .next t ∧ t.response = some { status := r.kind.code, result := 0, diag := dg } ∧
          t.addressed = some inst' ∧ inst'.status = { failed := true, err := r.kind.code } :=
  ⟨_, _, _, complete_raised hq, State.raiseError_response .., State.addressed_raiseError hr.1 .., failed_status hk⟩

/-- Two outcomes that agree, seen from the addressed instance and the shared state; `P` says when the responses agree too. -/
def Sim (o₁ o₂ : Host.Outcome State Fault Refusal) (resp : Prop) : Prop :=
  ∀ t₁, o₁ = .next t₁ → ∃ t₂, o₂ = .next t₂ ∧ t₂.addressed = t₁.addressed ∧ t₂.shared = t₁.shared ∧ (resp → t₂.response = t₁.response)

/-- A success, from both states. -/
theorem sim_reply {s₁ s₂ : State} {inst₀ inst : Inst} (h1 : s₁.addressed = some inst₀) (h2 : s₂.addressed = some inst₀) (sh : Shared) (resp : Response) {P : Prop} :
   Sim (.next (s₁.reply inst sh resp)) (.next (s₂.reply inst sh resp)) P := by
  intro t ht; cases ht
  exact ⟨_, rfl, by rw [State.addressed_reply h1, State.addressed_reply h2], rfl, fun _ => rfl⟩

/-- An error, from both states. -/
theorem sim_raise {s₁ s₂ : State} {inst₀ inst : Inst} (h1 : s₁.addressed = some inst₀) (h2 : s₂.addressed = some inst₀) (sh : Shared) (r : Raise) {P : Prop} :
   Sim (.next (s₁.raiseError inst sh r)) (.next (s₂.raiseError inst sh r)) P := by
  unfold State.raiseError
  split <;> exact sim_reply h1 h2 _ _

/-- A fault agrees with anything, as it gives no next state. -/
theorem sim_fault {f : Fault} {o : Host.Outcome State Fault Refusal} {P : Prop} : Sim (.fault f) o P := by intro t ht; cases ht

/-- The end of a body, from both states. -/
theorem sim_complete {υ : Type} {s₁ s₂ : State} {inst : Inst} {wrap : υ → Codec} {x : Proc (υ × Shared) Count} (h1 : s₁.addressed = some inst) (h2 : s₂.addressed = some inst) {P : Prop} :
   Sim (complete s₁ inst wrap x) (complete s₂ inst wrap x) P := by
  cases x with
  | ok a us =>
    unfold complete
    dsimp only
    split
    · exact sim_fault
    · exact sim_reply h1 h2 _ _
  | raised r us =>
    unfold complete
    dsimp only
    split
    · exact sim_fault
    · exact sim_raise h1 h2 _ _
  | stuck => exact sim_fault

/-- The first checks of a command, from both states. -/
theorem sim_with {s₁ s₂ : State} {f₁ f₂ : Inst → Host.Outcome State Fault Refusal} {P : Prop} (h : s₁.addressed = s₂.addressed)
   (hf : ∀ inst, s₁.addressed = some inst → s₂.addressed = some inst → Sim (f₁ inst) (f₂ inst) P) : Sim (withAddressed s₁ f₁) (withAddressed s₂ f₂) P := by
  unfold withAddressed
  rw [← h]
  cases ha : s₁.addressed with
  | none => exact sim_fault
  | some inst =>
    dsimp only
    split
    · exact sim_fault
    · exact hf inst ha (by rw [← h]; exact ha)

/-- An illegal command, from both states. -/
theorem sim_illegal {s₁ s₂ : State} {inst : Inst} (h1 : s₁.addressed = some inst) (h2 : s₂.addressed = some inst) (hs : s₁.shared = s₂.shared) {P : Prop} :
   Sim (illegalCommand s₁ inst) (illegalCommand s₂ inst) P := by
  unfold illegalCommand
  rw [hs]
  exact sim_raise h1 h2 _ _

/-- A segment, from both states. -/
theorem sim_parser {s₁ s₂ : State} (f : Dec → Dec) (h : s₁.addressed = s₂.addressed) (hs : s₁.shared = s₂.shared) : Sim (onParser s₁ f) (onParser s₂ f) False := by
  refine sim_with h fun inst h1 h2 => ?_
  have hadd : ∀ j : Inst, State.addressed { s₂ with slots := s₂.slots.set s₂.cur (some j) } = State.addressed { s₁ with slots := s₁.slots.set s₁.cur (some j) } := by
    intro j; simp [State.addressed, State.cur_lt_of_addressed h1, State.cur_lt_of_addressed h2]
  cases inst.codec <;> dsimp only
  · exact sim_fault
  · exact sim_fault
  · split
    · intro t ht; cases ht; exact ⟨_, rfl, hadd _, hs.symm, False.elim⟩
    · exact sim_fault
  · split
    · intro t ht; cases ht; exact ⟨_, rfl, hadd _, hs.symm, False.elim⟩
    · exact sim_fault

/-- A fresh instance meets its invariants (70_reset R290). -/
theorem make_inv (f : Factory) : f.make.Inv := by
  have hs : EncRegs.reset.StageInv := by decide
  have hd : DecRegs.reset.Inv := by decide
  have hb : BoolEncRegs.reset.Inv := by decide
  have hbd : BoolDecRegs.reset.Inv := by decide
  cases f with
  | byteEncoder sink => exact ⟨⟨Nat.zero_le _, by intro h; cases h⟩, fun _ => ⟨hs, Nat.le_refl _, Or.inl rfl⟩⟩
  | boolEncoder sink => exact ⟨⟨Nat.zero_le _, by intro h; cases h⟩, fun _ => ⟨⟨hs, Nat.le_refl _, Or.inl rfl⟩, hb⟩⟩
  | byteDecoder src key => exact ⟨⟨Nat.zero_le _, by intro h; cases h⟩, fun _ => hd⟩
  | boolDecoder src key => exact ⟨⟨Nat.zero_le _, by intro h; cases h⟩, fun _ => ⟨hd, hbd⟩⟩

/-- What a step did, by the kind of the input it took. -/
inductive StepShape (s t : State) : Prop
  /-- A command or a segment ran on a READY instance: its slot changes, and its binding stays. -/
  | runs (k : Nat) (inst j : Inst) (hslot : s.slots[k]? = some (some inst)) (hready : inst.status.failed = false)
      (hin : (∃ cmd ops rest, s.inbox = .command k cmd ops :: rest) ∨ ∃ rest, s.inbox = .segment k :: rest)
      (slots : t.slots = s.slots.set k (some j)) (binding : j.binding = inst.binding) (inv : inst.Inv → j.Inv)
      (shared : s.shared.Keeps t.shared)
  /-- Nothing ran, or the caller acted outside the instances. -/
  | idle (slots : t.slots = s.slots) (shared : s.shared.Keeps t.shared)
  /-- A factory operation added a slot. -/
  | builds (f : Factory) (slots : t.slots = s.slots ++ [some f.make]) (shared : t.shared = s.shared)
  /-- An instance was destroyed. -/
  | drops (k : Nat) (rest : List Input) (hin : s.inbox = .destroy k :: rest) (slots : t.slots = s.slots.set k none)
      (shared : t.shared = s.shared)

/-- The instance a command addresses is in the slot it names. -/
theorem slot_of_ready {s : State} {k : Nat} {rest : List Input} {inst : Inst}
    (h : State.Ready { s with cur := k, inbox := rest } inst) : s.slots[k]? = some (some inst) := by
  have := h.1
  unfold State.addressed at this
  simpa using Option.join_eq_some_iff.1 this

/-- A guarded stop that gives a next state was not taken. -/
theorem ite_eq_right_of_next {c : Prop} [Decidable c] {f : Fault} {o : Host.Outcome State Fault Refusal} {t : State}
    (h : (if c then .fault f else o) = .next t) : ¬c ∧ o = .next t := by
  split at h
  · cases h
  · exact ⟨‹_›, h⟩

/-- A segment step changes one slot, and keeps the instance's binding and invariants. -/
theorem fetchAndRun_shape {s t : State} {inst : Inst} {d : Dec} {wrap : Dec → Codec} (hr : s.Ready inst)
    (hw : ∀ d', Dec.Bound d d' → Inst.binding { inst with codec := wrap d' } = inst.binding)
    (hi : ∀ d', (d.regs.Inv → d'.regs.Inv) → inst.codec.Inv → (wrap d').Inv)
    (h : fetchAndRun s inst d wrap = .next t) :
    ∃ j, t.slots = s.slots.set s.cur (some j) ∧ j.binding = inst.binding ∧ (inst.Inv → j.Inv) ∧ s.shared.Keeps t.shared := by
  have hf := Dec.fetchSegment_ends (d0 := d) (d := d) (P := d.regs.Inv) id ⟨rfl, rfl, rfl, rfl⟩
  unfold fetchAndRun at h
  cases hx : d.fetchSegment with
  | ok i d' =>
    rw [hx] at h hf
    replace h := (ite_eq_right_of_next h).2
    obtain ⟨inst1, j, h1, h2, _⟩ := exec_shape h
    have hlt := State.cur_lt_of_addressed hr.1
    have hadd : inst1 = { inst with codec := wrap d' } := by
      have := h1.1
      simp [State.addressed, hlt] at this
      exact this.symm
    subst hadd
    refine ⟨j, by rw [h2.slots]; simp, h2.binding.trans (hw _ hf.2.1), fun hii => h2.inv ⟨hii.1, fun hff => hi _ hf.1 (hii.2 hff)⟩, h2.shared⟩
  | raised r d' =>
    rw [hx] at h hf
    cases (ite_eq_right_of_next h).2
    obtain ⟨j, resp, h2, _⟩ := raiseError_shape (s := s) (inst := inst) (inst' := { inst with codec := wrap d' }) (sh := s.shared) (r := r) hr.2 rfl (hw _ hf.2) (Shared.Keeps.refl _) (Or.inl hf.1)
    exact ⟨j, h2.slots, h2.binding, h2.inv, h2.shared⟩
  | stuck => rw [hx] at h; cases h

/-- The one lemma about a step: what it did. -/
theorem step_shape {s t : State} (h : step s = .next t) : StepShape s t := by
  unfold step at h
  cases hin : s.inbox with
  | nil => simp only [hin] at h; cases h; exact .idle rfl (Shared.Keeps.refl _)
  | cons x rest =>
    cases x with
    | command k cmd ops =>
      simp only [hin, stepCommand] at h
      have key : ∃ inst j, State.Ready { s with cur := k, inbox := rest } inst ∧ Shape { s with cur := k, inbox := rest } t inst j := by
        cases hd : decodeCommand cmd ops with
        | ok i =>
          simp only [hd] at h
          obtain ⟨inst, j, h1, h2, _⟩ := exec_shape h
          exact ⟨inst, j, h1, h2⟩
        | error e =>
          simp only [hd] at h
          obtain ⟨inst, hr, hn⟩ := ready_of_next h
          obtain ⟨j, resp, h2, _⟩ := illegalCommand_shape hr.2 hn
          exact ⟨inst, j, hr, h2⟩
      obtain ⟨inst, j, h1, h2⟩ := key
      exact .runs k inst j (slot_of_ready h1) h1.2 (Or.inl ⟨cmd, ops, rest, hin⟩) h2.slots h2.binding h2.inv h2.shared
    | segment k =>
      simp only [hin, stepSegment] at h
      obtain ⟨inst, hr, hn⟩ := ready_of_next h
      have key : ∃ j, t.slots = s.slots.set k (some j) ∧ j.binding = inst.binding ∧ (inst.Inv → j.Inv) ∧ s.shared.Keeps t.shared := by
        cases hc : inst.codec with
        | byteDec d =>
          simp only [hc] at hn
          split at hn
          · exact fetchAndRun_shape hr (fun d' hb => dec_binding hc hb) (fun d' hi h => by rw [hc] at h; exact hi h) hn
          · cases hn
        | boolDec d b =>
          simp only [hc] at hn
          split at hn
          · exact fetchAndRun_shape hr (fun d' hb => boolDec_binding hc hb) (fun d' hi h => by rw [hc] at h; exact ⟨hi h.1, h.2⟩) hn
          · cases hn
        | byteEnc e => simp only [hc] at hn; cases hn
        | boolEnc e b => simp only [hc] at hn; cases hn
      obtain ⟨j, h1, h2, h3, h4⟩ := key
      exact .runs k inst j (slot_of_ready hr) hr.2 (Or.inr ⟨rest, hin⟩) h1 h2 h3 h4
    | construct f =>
      simp only [hin, construct] at h
      split at h
      · cases h
      · cases h; exact .builds f rfl rfl
    | destroy k =>
      simp only [hin, destroy] at h
      split at h
      · cases h
      · cases h; exact .drops k rest hin rfl rfl
    | callerWrite a b =>
      simp only [hin, stepCallerWrite] at h
      split at h
      · cases h; exact .idle rfl ⟨rfl, rfl, rfl, rfl, fun hm => Memory.write_wf hm _ _⟩
      · cases h
    | callerProvide cs =>
      simp only [hin, stepCallerProvide] at h
      cases h; exact .idle rfl ⟨rfl, rfl, rfl, rfl, id⟩

end Sys2Proof.Machine
end

