-- ==== Sys2Proof/Laws/Seek.lean ====
section
/-!
SUPPORT. The seek of both decoders on a source that serves (43_byte_decoder R173; 20_memory R67 to R70): which coordinates are taken,
and where the source and the skip end up.
-/

namespace Sys2Proof.Machine

/-- A provider that holds a coordinate exists. -/
theorem provided_some {sh : Shared} {h : Handle} {c : Count} {cs : List Count} (hp : sh.provided h = c :: cs) :
   ∃ p, sh.providers[h]? = some p ∧ p.coords.drop p.cursor = c :: cs := by
  unfold Shared.provided at hp
  cases hq : sh.providers[h]? with
  | none => simp [hq] at hp
  | some p => exact ⟨p, rfl, by simpa [hq] using hp⟩

/-- Coordinates taken from a provider. -/
theorem advance_provided {sh : Shared} {h : Handle} {n : Nat} (hn : n ≤ (sh.provided h).length) (h0 : 0 < n) :
   (sh.advance h n).provided h = (sh.provided h).drop n ∧
   (sh.advance h n) = { sh with providers := sh.providers.modify h fun p => { p with cursor := p.cursor + n } } := by
  unfold Shared.provided Shared.advance at *
  cases hq : sh.providers[h]? with
  | none => simp [hq] at hn; omega
  | some p =>
    simp only [hq] at hn
    rw [List.length_drop] at hn
    have hmin : min (p.cursor + n) p.coords.length = p.cursor + n := by omega
    constructor
    · simp [hq, hmin]
    · congr 1
      apply List.ext_getElem?
      intro k
      rw [List.getElem?_modify, List.getElem?_modify]
      by_cases hk : h = k
      · subst hk; simp [hq, hmin]
      · simp [hk]

/-- The reference source takes two coordinates and adds them, or fails on fewer (20_memory R68). -/
theorem src_seek {s : Source} (hs : s.Serves) (coords : List Count) :
   (∀ c0 c1 more, coords = c0 :: c1 :: more → ∃ s', s.seek coords = (true, 2, s') ∧ s'.cursor = c0.toNat + c1.toNat ∧ s'.stream = s.stream ∧ s'.Serves) ∧
   (coords.length < 2 → ∃ s', s.seek coords = (false, coords.length, s')) := by
  obtain ⟨hq, h, w, hw, hm⟩ := hs
  constructor
  · rintro c0 c1 more rfl
    refine ⟨{ s with cursor := c0.toNat + c1.toNat, log := s.log ++ [.seek (some (c0.toNat + c1.toNat))] }, ?_, rfl, rfl, hq, h, w, hw, hm⟩
    simp [Source.seek, Source.seekAnswer, hm]
  · intro hl
    refine ⟨{ s with log := s.log ++ [.seek none] }, ?_⟩
    match coords, hl with
    | [], _ => simp [Source.seek, Source.seekAnswer, hm]
    | [c], _ => simp [Source.seek, Source.seekAnswer, hm]

/-- The seek with three coordinates left (R173). -/
theorem dec_seek_ok {d : Dec} {sh : Shared} {h : Handle} {c0 c1 c2 : Count} {more : List Count} (hs : d.src.Serves) (hp : sh.provided h = c0 :: c1 :: c2 :: more) :
   ∃ d', d.seek h sh = .ok () (d', { sh with providers := sh.providers.modify h fun p => { p with cursor := p.cursor + 3 } }) ∧
     d'.regs = { d.regs with win := [], winPos := 0, remainingValues := 0, pendingSkip := c2 } ∧
        d'.src.cursor = c0.toNat + c1.toNat ∧ d'.src.stream = d.src.stream ∧ d'.src.Serves ∧ d'.key = d.key := by
  obtain ⟨s', h1, h2, h3, h4⟩ := (src_seek hs (sh.provided h)).1 _ _ _ hp
  refine ⟨{ d with src := s', regs := { d.regs.invalidate with pendingSkip := c2 } }, ?_, rfl, h2, h3, h4, rfl⟩
  unfold Dec.seek
  dsimp only
  rw [h1]
  have ha := advance_provided (sh := sh) (h := h) (n := 2) (by rw [hp]; simp) (by omega)
  rw [hp] at ha ⊢
  simp only [if_true]
  unfold Dec.reseat
  dsimp only
  have hp2 : (sh.advance h 2).provided h = c2 :: more := by rw [ha.1]; rfl
  have hb := advance_provided (sh := sh.advance h 2) (h := h) (n := 1) (by rw [hp2]; simp) (by omega)
  have : (sh.advance h 2).provNext h = (some c2, (sh.advance h 2).advance h 1) := by
    unfold Shared.provNext; rw [hp2]
  rw [this]
  simp only
  rw [hb.2, ha.2]
  congr 2
  simp only
  congr 1
  apply List.ext_getElem?
  intro k
  simp only [List.getElem?_modify]
  by_cases hk : h = k
  · subst hk; cases sh.providers[h]? <;> simp
  · simp [hk]

/-- The seek with fewer ends in `BadPosition` (R173; 60_exceptions R265). -/
theorem dec_seek_bad {d : Dec} {sh : Shared} {h : Handle} (hs : d.src.Serves) (hp : (sh.provided h).length < 3) :
   ∃ r u, d.seek h sh = .raised r u ∧ r.kind = .badPosition := by
  unfold Dec.seek
  dsimp only
  match hc : sh.provided h, hp with
  | [], _ => exact ⟨_, _, rfl, rfl⟩
  | [c], _ =>
    obtain ⟨s', h1⟩ := (src_seek hs [c]).2 (by simp)
    simp only [h1]
    exact ⟨_, _, rfl, rfl⟩
  | [c0, c1], _ =>
    obtain ⟨s', h1, _⟩ := (src_seek hs [c0, c1]).1 _ _ _ rfl
    simp only [h1, if_true]
    have ha := advance_provided (sh := sh) (h := h) (n := 2) (by rw [hc]; simp) (by omega)
    have hp2 : (sh.advance h 2).provided h = [] := by rw [ha.1, hc]; rfl
    unfold Dec.reseat
    have : (sh.advance h 2).provNext h = (none, sh.advance h 2) := by
      unfold Shared.provNext; rw [hp2]
    simp only [this]
    exact ⟨_, _, rfl, rfl⟩

end Sys2Proof.Machine
end

