-- ==== Sys2Proof/Laws/Segments.lean ====
section
/-!
SUPPORT. The segments of a stream as the spec lays them out (30_encoding R80 to R86): what a header decides, and how a stream that
decodes, or does not, splits into segments.
-/

namespace Sys2Proof.Machine

/-- A header byte below 128 is a repeat of three more than it says (R82). -/
theorem header_repeats {h : Byte} (hh : h.toNat ≤ 0x7F) : ∃ k, h = repeatHeader k ∧ repeatCount k = h.toNat + 3 := by
  refine ⟨h.setWidth 7, ?_, ?_⟩
  · apply BitVec.eq_of_toNat_eq; simp [repeatHeader]; omega
  · simp [repeatCount]; omega

/-- A header byte from 128 on is a literal of 256 less it (R83). -/
theorem header_literal {h : Byte} (hh : 0x80 ≤ h.toNat) : ∃ m, h = literalHeader m ∧ literalCount m = 256 - h.toNat := by
  refine ⟨h.setWidth 7, ?_, ?_⟩
  · revert hh; revert h; decide
  · have := h.isLt
    simp [literalCount]; omega

/-- Every header byte is a repeat's or a literal's (R81, R84). -/
theorem header_cases (h : Byte) : (∃ k, h = repeatHeader k ∧ decodeHeader h = .repeats k) ∨ ∃ m, h = literalHeader m ∧ decodeHeader h = .literal m := by
  by_cases hh : h.toNat ≤ 0x7F
  · obtain ⟨k, rfl, hk⟩ := header_repeats hh
    exact Or.inl ⟨k, rfl, decodeHeader_repeatHeader k⟩
  · obtain ⟨k, rfl, hk⟩ := header_literal (h := h) (by omega)
    exact Or.inr ⟨k, rfl, decodeHeader_literalHeader k⟩

/-- What a decoded segment was in the stream: a header and a payload byte, or a header and the payload. -/
theorem decodeSegment_inv {bs rest : List Byte} {i : Instr} (h : decodeSegment bs = .ok (i, rest)) :
    (∃ k v, i = .rep k v ∧ bs = repeatHeader k :: v :: rest) ∨
      ∃ m p, i = .lit m p ∧ p.length = literalCount m ∧ bs = literalHeader m :: (p ++ rest) := by
  unfold decodeSegment at h
  cases bs with
  | nil => cases h
  | cons h0 r =>
    rcases header_cases h0 with ⟨k, hk, hd⟩ | ⟨m, hk, hd⟩
    · simp only [hd] at h
      cases r with
      | nil => simp at h
      | cons v r' => simp at h; left; exact ⟨k, v, h.1.symm, by rw [hk, h.2]⟩
    · simp only [hd] at h
      right
      have hpos := literalCount_pos m
      split at h
      · cases h
      · next x rest' hdrop =>
        simp only [Except.ok.injEq, Prod.mk.injEq] at h
        obtain ⟨rfl, rfl⟩ := h
        have hl : literalCount m - 1 < r.length := by
          by_contra hc
          rw [List.drop_eq_nil_of_le (by omega)] at hdrop
          cases hdrop
        refine ⟨m, _, rfl, by simp; omega, ?_⟩
        have : rest' = r.drop (literalCount m) := by
          have := congrArg List.tail hdrop
          simp only [List.tail_drop, List.tail_cons] at this
          rw [← this]; congr 1; omega
        rw [hk, this, List.take_append_drop]

/-- Every byte sequence is a stream that decodes, or such a stream and a truncated segment (R86). -/
theorem stream_split (n : Nat) (bs : List Byte) (hn : bs.length ≤ n) : ∃ a b vs, bs = a ++ b ∧ Encodes a vs ∧
    (b = [] ∨ decodeSegment b = .error .truncated ∧ b ≠ []) := by
  induction n generalizing bs with
  | zero => exact ⟨[], [], [], by simp [List.eq_nil_of_length_eq_zero (Nat.le_zero.1 hn)], .nil, Or.inl rfl⟩
  | succ n ih =>
    cases hb : decodeSegment bs with
    | error e =>
      cases bs with
      | nil => exact ⟨[], [], [], rfl, .nil, Or.inl rfl⟩
      | cons h r =>
        refine ⟨[], h :: r, [], rfl, .nil, Or.inr ⟨?_, by simp⟩⟩
        unfold decodeSegment at hb ⊢
        rcases header_cases h with ⟨k, hk, hd⟩ | ⟨m, hk, hd⟩ <;> simp only [hd] at hb ⊢
        · cases r with
          | nil => rfl
          | cons => cases hb
        · split at hb
          · rfl
          · cases hb
    | ok x =>
      obtain ⟨i, rest⟩ := x
      rcases decodeSegment_inv hb with ⟨k, v, rfl, rfl⟩ | ⟨m, p, rfl, hp, rfl⟩
      · obtain ⟨a, b, vs, rfl, h1, h2⟩ := ih rest (by simp at hn; omega)
        exact ⟨_, b, _, by simp, .rep k v h1, h2⟩
      · obtain ⟨a, b, vs, rfl, h1, h2⟩ := ih rest (by simp at hn; omega)
        exact ⟨_, b, _, by simp, .lit m hp h1, h2⟩

/-- A truncated segment after a stream makes the whole truncated. -/
theorem Encodes.append_bad {a vs b : List Byte} (h : Encodes a vs) (hb : decodeSegment b = .error .truncated) (hne : b ≠ [])
    (f : Nat) (hf : (a ++ b).length ≤ f) : Sys2Proof.decodeSegments f (a ++ b) = .error .truncated := by
  induction h generalizing f with
  | nil =>
    cases b with
    | nil => exact absurd rfl hne
    | cons x y =>
      cases f with
      | zero => rfl
      | succ f => simp only [List.nil_append, Sys2Proof.decodeSegments, hb]
  | rep k v _ ih =>
    cases f with
    | zero => simp at hf
    | succ f =>
      simp only [List.cons_append, Sys2Proof.decodeSegments, decodeSegment_rep]
      rw [ih f (by simp at hf ⊢; omega)]; rfl
  | lit m hp _ ih =>
    cases f with
    | zero => simp at hf
    | succ f =>
      simp only [List.cons_append, List.append_assoc, Sys2Proof.decodeSegments, decodeSegment_lit hp]
      rw [ih f (by simp at hf ⊢; omega)]; rfl

/-- The unit tag of a command word is that of the kind the command addresses (R90). -/
theorem decodeCommand_kind {cmd : Byte} {ops : Operands} {i : Instr} (h : decodeCommand cmd ops = .ok i) :
   ∃ k, i.kind = some k ∧ cmd.toNat / 16 = k.tag := by
  unfold decodeCommand at h
  split at h
  all_goals first | (next hn => cases h; rw [hn]; exact ⟨_, rfl, by decide⟩) | cases h

end Sys2Proof.Machine
end

