-- ==== Sys2Proof/Laws/SinkLog.lean ====
section
/-!
SUPPORT. What the encoders' procedures do on the port (20_memory R60, R61): every byte placed and every window granted is an event of
the sink's log, and a request that is refused is the last one (60_exceptions R263, R268). And that no procedure of an encoder stops
without a meaning but where an accessor does.
-/

namespace Sys2Proof.Machine

/-- From `e₀` to `e` bytes were placed and windows granted, and nothing else happened on the port. -/
def Enc.Emits (e₀ e : Enc) : Prop :=
  ∃ events, e.sink.log = e₀.sink.log ++ events ∧ (∀ x ∈ events, x.Emission) ∧
    (e₀.Coherent → e.Coherent ∧ e.written = e₀.written ++ (events.filterMap SinkEvent.byte?).map some)

/-- From `e₀` on, a request for a window was refused, after bytes placed and windows granted; the bytes placed stand. -/
def Enc.Refused (e₀ : Enc) (r : Raise) (e : Enc) : Prop :=
  r.kind = .ioFailure ∧ ∃ before ev, e.sink.log = e₀.sink.log ++ (before ++ [ev]) ∧ ev.Refusal ∧ (∀ x ∈ before, x.Emission) ∧
    (e₀.Coherent → e.sink.stream = e₀.written ++ (before.filterMap SinkEvent.byte?).map some)

theorem SinkEvent.Emission.not_refusal {ev : SinkEvent} (h : ev.Emission) : ¬ev.Refusal := by
  rintro (rfl | rfl) <;> rcases h with ⟨_, _, h⟩ | ⟨len, h0, h⟩ <;> cases h
  exact h0 rfl

namespace Enc

theorem Emits.refl (e : Enc) : Emits e e := ⟨[], by simp, by simp, fun h => ⟨h, by simp⟩⟩

/-- A change of the stage is none on the port. -/
theorem Emits.stage {e₀ e : Enc} (h : Emits e₀ e) {r : EncRegs} (hl : r.bufLen = e.regs.bufLen) (hp : r.bufPos = e.regs.bufPos) :
    Emits e₀ { e with regs := r } := by
  obtain ⟨events, h1, h2, h3⟩ := h
  refine ⟨events, h1, h2, fun hc => ?_⟩
  have := coherent_of_window (r := r) (h3 hc).1 hl hp
  exact ⟨this.1, by rw [this.2]; exact (h3 hc).2⟩

variable {e₀ e : Enc}

theorem emitByte_emits (b : Byte) (h : Emits e₀ e) : (e.emitByte b).Ends (fun _ e' => Emits e₀ e') e₀.Refused := by
  obtain ⟨events, h1, h2, h3⟩ := h
  by_cases hfull : e.regs.bufPos = e.regs.bufLen
  · by_cases ha : e.sink.answer = none ∨ e.sink.answer = some 0
    · obtain ⟨hs, hl, he⟩ := emitByte_refused b hfull ha
      rw [he]
      refine ⟨rfl, events, .next e.sink.answer, by rw [hl, h1]; simp, by simpa [SinkEvent.Refusal] using ha, h2, fun hc => ?_⟩
      rw [hs, ← (h3 hc).2]
      simp [written, hfull]
    · have he : ∃ e', e.emitByte b = .ok () e' ∧ ∃ len : Count, len ≠ 0 ∧ e'.sink.log = e.sink.log ++ [.next (some len), .put 0 b] := by
        unfold emitByte
        rw [if_pos hfull]
        cases hans : e.sink.answer with
        | none => exact absurd (Or.inl hans) ha
        | some len =>
          have h0 : len ≠ 0 := fun h => ha (Or.inr (by rw [hans, h]))
          simp only [Sink.next, hans, h0, if_false]
          exact ⟨_, rfl, len, h0, by simp [place, Sink.put]⟩
      obtain ⟨e', he, len, h0, hl⟩ := he
      rw [he]
      refine ⟨events ++ [.next (some len), .put 0 b], by rw [hl, h1]; simp, ?_, fun hc => ?_⟩
      · intro x hx
        rcases List.mem_append.1 hx with hx | hx
        · exact h2 x hx
        · rcases List.mem_cons.1 hx with rfl | hx
          · exact Or.inr ⟨len, h0, rfl⟩
          · rw [List.mem_singleton.1 hx]; exact Or.inl ⟨0, b, rfl⟩
      · obtain ⟨c, w, _⟩ := emitByte_spec (h3 hc).1 he
        exact ⟨c, by rw [w, (h3 hc).2]; simp [List.filterMap_cons, SinkEvent.byte?]⟩
  · have he : e.emitByte b = .ok () (e.place b) := by unfold emitByte; rw [if_neg hfull]
    rw [he]
    refine ⟨events ++ [.put e.regs.bufPos b], by simp [place, Sink.put, h1], ?_, fun hc => ?_⟩
    · intro x hx
      rcases List.mem_append.1 hx with hx | hx
      · exact h2 x hx
      · rw [List.mem_singleton.1 hx]; exact Or.inl ⟨_, b, rfl⟩
    · obtain ⟨c, w, _⟩ := emitByte_spec (h3 hc).1 he
      exact ⟨c, by rw [w, (h3 hc).2]; simp [SinkEvent.byte?]⟩

theorem emitBytes_emits (bs : List Byte) (h : Emits e₀ e) : (e.emitBytes bs).Ends (fun _ e' => Emits e₀ e') e₀.Refused := by
  induction bs generalizing e with
  | nil => exact h
  | cons b bs ih => exact (emitByte_emits b h).bind fun _ _ h' => ih h'

theorem writeValues_emits (h : Emits e₀ e) : e.writeValues.Ends (fun _ e' => Emits e₀ e') e₀.Refused := by
  unfold writeValues
  split
  · exact h
  · exact (emitBytes_emits _ h).bind fun _ _ h' => h'.stage rfl rfl

theorem write_emits (v : Byte) (h : Emits e₀ e) : (e.write v).Ends (fun _ e' => Emits e₀ e') e₀.Refused := by
  unfold write
  split
  · exact h.stage rfl rfl
  · split
    · split
      · unfold extendCase
        dsimp only
        split
        · exact writeValues_emits (h.stage rfl rfl)
        · exact h.stage rfl rfl
      · exact (writeValues_emits h).bind fun _ _ h' => h'.stage rfl rfl
    · unfold literalCase
      dsimp only
      split
      · unfold promote
        refine Proc.Ends.bind (P := fun _ e' => Emits e₀ e') ?_ fun _ _ h' => h'.stage rfl rfl
        split
        · exact writeValues_emits ((h.stage rfl rfl).stage rfl rfl)
        · exact h.stage rfl rfl
      · unfold append
        dsimp only
        split
        · exact writeValues_emits ((h.stage rfl rfl).stage rfl rfl)
        · exact (h.stage rfl rfl).stage rfl rfl

theorem writeAll_emits (vs : List Byte) (h : Emits e₀ e) : (e.writeAll vs).Ends (fun _ e' => Emits e₀ e') e₀.Refused := by
  induction vs generalizing e with
  | nil => exact h
  | cons v vs ih => exact (write_emits v h).bind fun _ _ h' => ih h'

end Enc

/-- From `e₀` to `e` no request was refused, whatever else happened on the port. -/
def Enc.Served (e₀ e : Enc) : Prop := ∃ events, e.sink.log = e₀.sink.log ++ events ∧ ∀ x ∈ events, ¬x.Refusal

theorem Enc.Emits.served {e₀ e : Enc} (h : Emits e₀ e) : Served e₀ e :=
  let ⟨events, h1, h2, _⟩ := h
  ⟨events, h1, fun x hx => SinkEvent.Emission.not_refusal (h2 x hx)⟩

/-- The end of a `FLUSH` (41_byte_encoder R114). -/
theorem Enc.flush_emits {e₀ e : Enc} (h : Enc.Emits e₀ e) : e.flush.Ends (fun _ e' => Enc.Served e₀ e') e₀.Refused :=
  (Enc.writeValues_emits h).bind fun _ e' h' => by
    obtain ⟨events, h1, h2⟩ := h'.served
    refine ⟨events ++ [.backUp (e'.regs.bufLen - e'.regs.bufPos), .flush e'.release.1], ?_, ?_⟩
    · simp [Enc.release, Sink.flush, Sink.backUp, h1]
    · intro x hx
      rcases List.mem_append.1 hx with hx | hx
      · exact h2 x hx
      · rcases List.mem_cons.1 hx with rfl | hx
        · simp [SinkEvent.Refusal]
        · rw [List.mem_singleton.1 hx]; simp [SinkEvent.Refusal]

namespace BoolEnc

variable {e₀ : Enc} {u : Enc × BoolEncRegs}

theorem writeBool_emits (v : Bool) (h : Enc.Emits e₀ u.1) :
    (writeBool u v).Ends (fun _ u' => Enc.Emits e₀ u'.1) fun r u' => e₀.Refused r u'.1 := by
  unfold writeBool
  dsimp only
  split
  · refine Proc.Ends.bind (P := fun _ (u' : Enc × BoolEncRegs) => Enc.Emits e₀ u'.1) ?_ fun _ _ h' => h'
    exact (Enc.write_emits _ h).embed (fun _ _ h => h) fun _ _ h => h
  · exact h

theorem writeBools_emits (vs : List Bool) (h : Enc.Emits e₀ u.1) :
    (writeBools u vs).Ends (fun _ u' => Enc.Emits e₀ u'.1) fun r u' => e₀.Refused r u'.1 := by
  induction vs generalizing u with
  | nil => exact h
  | cons v vs ih => exact (writeBool_emits v h).bind fun _ _ h' => ih h'

theorem flush_emits (h : Enc.Emits e₀ u.1) :
    (flush u).Ends (fun _ u' => Enc.Served e₀ u'.1) fun r u' => e₀.Refused r u'.1 := by
  unfold flush
  refine Proc.Ends.bind (P := fun _ (u' : Enc × BoolEncRegs) => Enc.Emits e₀ u'.1) ?_ fun _ _ h' =>
    (Enc.flush_emits h').embed (fun _ _ h => h) fun _ _ h => h
  unfold flushBits
  split
  · refine Proc.Ends.bind (P := fun _ (u' : Enc × BoolEncRegs) => Enc.Emits e₀ u'.1) ?_ fun _ _ h' => h'
    exact (Enc.write_emits _ h).embed (fun _ _ h => h) fun _ _ h => h
  · exact h

end BoolEnc

/-! ### Procedures that do not stop -/

/-- The procedure has a meaning. -/
def Proc.Runs {σ α : Type} (x : Proc σ α) : Prop := ∀ f, x ≠ .stuck f

namespace Proc.Runs

variable {σ τ α β : Type}

theorem ok (a : α) (s : σ) : (Proc.ok a s).Runs := fun _ h => by cases h

theorem bind {x : Proc σ α} {f : α → σ → Proc σ β} (h : x.Runs) (hf : ∀ a s, (f a s).Runs) : (x.bind f).Runs := by
  cases x with
  | ok a s => exact hf a s
  | raised r s => intro g h; cases h
  | stuck g => exact absurd rfl (h g)

theorem embed {x : Proc σ α} {w : σ → τ} (h : x.Runs) : (x.embed w).Runs := by
  cases x with
  | ok a s => intro g h; cases h
  | raised r s => intro g h; cases h
  | stuck g => exact absurd rfl (h g)

theorem yielding {x : Proc σ α} {f : α → β} (h : x.Runs) : (x.yielding f).Runs := by
  cases x with
  | ok a s => intro g h; cases h
  | raised r s => intro g h; cases h
  | stuck g => exact absurd rfl (h g)

end Proc.Runs

theorem Enc.emitBytes_runs (e : Enc) (bs : List Byte) : (e.emitBytes bs).Runs := by
  induction bs generalizing e with
  | nil => exact .ok _ _
  | cons b bs ih =>
    refine Proc.Runs.bind ?_ fun _ e' => ih e'
    unfold emitByte
    repeat' split
    all_goals intro g h; cases h

theorem Enc.writeValues_runs (e : Enc) : e.writeValues.Runs := by
  unfold writeValues
  split
  · exact .ok _ _
  · exact (emitBytes_runs _ _).bind fun _ _ => .ok _ _

theorem Enc.write_runs (e : Enc) (v : Byte) : (e.write v).Runs := by
  unfold write startCase extendCase breakCase literalCase promote append
  dsimp only
  split
  · exact .ok _ _
  · split
    · split
      · split
        · exact writeValues_runs _
        · exact .ok _ _
      · exact (writeValues_runs _).bind fun _ _ => .ok _ _
    · split
      · refine Proc.Runs.bind ?_ fun _ _ => .ok _ _
        split
        · exact writeValues_runs _
        · exact .ok _ _
      · split
        · exact writeValues_runs _
        · exact .ok _ _

theorem Enc.writeAll_runs (e : Enc) (vs : List Byte) : (e.writeAll vs).Runs := by
  induction vs generalizing e with
  | nil => exact .ok _ _
  | cons v vs ih => exact (write_runs e v).bind fun _ e' => ih e'

theorem Enc.flush_runs (e : Enc) : e.flush.Runs := (writeValues_runs e).bind fun _ _ => .ok _ _

theorem BoolEnc.writeBool_runs (u : Enc × BoolEncRegs) (v : Bool) : (writeBool u v).Runs := by
  unfold writeBool
  dsimp only
  split
  · exact (Enc.write_runs _ _).embed.bind fun _ _ => .ok _ _
  · exact .ok _ _

theorem BoolEnc.writeBools_runs (u : Enc × BoolEncRegs) (vs : List Bool) : (writeBools u vs).Runs := by
  induction vs generalizing u with
  | nil => exact .ok _ _
  | cons v vs ih => exact (writeBool_runs u v).bind fun _ u' => ih u'

theorem BoolEnc.flush_runs (u : Enc × BoolEncRegs) : (flush u).Runs := by
  refine Proc.Runs.bind ?_ fun _ u' => (Enc.flush_runs _).embed
  unfold flushBits
  split
  · exact (Enc.write_runs _ _).embed.bind fun _ _ => .ok _ _
  · exact .ok _ _

/-- An accessor that neither re-enters nor diverges is asked, and that is all that happens. -/
theorem Answer.settle_runs {α : Type} {a : Option (Answer α)} (h1 : a ≠ some .reenters) (h2 : a ≠ some .diverges) (free : α)
    (sh : Shared) : ∃ v, Answer.settle a free sh = .ok v sh := by
  rcases a with _ | ⟨v⟩ | _ | _
  · exact ⟨_, rfl⟩
  · exact ⟨_, rfl⟩
  · exact absurd rfl h1
  · exact absurd rfl h2

/-- The loop of the callback form stops only where an accessor does (60_exceptions R272 items 4 and 8). -/
theorem addFnLoop_runs {υ : Type} {write : υ → Byte → Proc υ Unit} (hw : ∀ u v, (write u v).Runs) {valueAt isNullAt : Handle}
    {ps : List Nat} {count : Nat} {u : υ} {sh : Shared} (h : sh.AccessorsReturn valueAt isNullAt ps) :
    (addFnLoop write valueAt isNullAt ps count u sh).Runs := by
  induction ps generalizing count u sh with
  | nil => exact .ok _ _
  | cons i ps ih =>
    obtain ⟨n1, n2, v1, v2⟩ := h i (List.mem_cons_self ..)
    have hrest : ∀ sh' : Shared, sh'.nullFns = sh.nullFns → sh'.valueFns = sh.valueFns →
        sh'.AccessorsReturn valueAt isNullAt ps := by
      intro sh' e1 e2 j hj
      rw [e1, e2]
      exact h j (List.mem_cons_of_mem _ hj)
    unfold addFnLoop askNull
    obtain ⟨b, hb⟩ := Answer.settle_runs n1 n2 (Config.isNullAt isNullAt sh.calls i)
      { sh with calls := sh.calls ++ [.isNullAt isNullAt i] }
    rw [hb]
    simp only [Proc.embed_ok, Proc.bind_ok]
    split
    · exact ih (hrest _ rfl rfl)
    · obtain ⟨v, hv⟩ := Answer.settle_runs v1 v2 (Config.valueAt valueAt (sh.calls ++ [.isNullAt isNullAt i]) i)
        { sh with calls := sh.calls ++ [.isNullAt isNullAt i] ++ [.valueAt valueAt i] }
      simp only [askValue]
      rw [hv]
      simp only [Proc.embed_ok, Proc.bind_ok]
      cases hwr : write u v with
      | ok x u' => simp only [Proc.embed_ok, Proc.bind_ok]; exact ih (hrest _ rfl rfl)
      | raised r u' => intro g h; cases h
      | stuck f => exact absurd hwr (hw u v f)

/-- A body that runs completes, if the agent on the port leaves the instance alone. -/
theorem complete_runs {υ : Type} {s : State} {inst : Inst} {wrap : υ → Codec} {x : Proc (υ × Shared) Count} (h : x.Runs)
    (hq : inst.codec.reentersAt = none) : ∃ t, complete s inst wrap x = .next t := by
  cases x with
  | ok n us => exact ⟨_, complete_ok (Codec.reenters_of_none hq _)⟩
  | raised r us => exact ⟨_, complete_raised (Codec.reenters_of_none hq _)⟩
  | stuck f => exact absurd rfl (h f)

end Sys2Proof.Machine
end

