-- ==== Sys2Proof/Machine/Listing.lean ====
section
/-!
DEFINITION. The assembler syntax of the spec's listings (30_encoding R96, R97): segments assembled from a count and bytes, and
every instruction written as a line. It has no effect on the machine.
-/

namespace Sys2Proof

/-- `REP count, v` (R96); nothing outside `3..130`. -/
def assembleRep (count : Nat) (v : Byte) : Option Instr :=
  if minRepeat ≤ count ∧ count ≤ maxRepeat then some (.rep (BitVec.ofNat 7 (count - minRepeat)) v) else none

/-- `LIT b0, …` (R96); nothing outside `1..128` bytes. -/
def assembleLit (bytes : List Byte) : Option Instr :=
  if 1 ≤ bytes.length ∧ bytes.length ≤ maxLiteral then some (.lit (BitVec.ofNat 7 (128 - bytes.length)) bytes) else none

/-- A byte in hex, two digits. -/
def hexByte (b : Byte) : String :=
  "0x" ++ String.ofList [Nat.digitChar (b.toNat / 16), Nat.digitChar (b.toNat % 16)]

/-- A half-open interval (R97). -/
def Range.listing (r : Range) : String := "[" ++ toString r.b.toNat ++ "," ++ toString r.e.toNat ++ ")"

namespace Listing

/-- Parts of a line with a separator between. -/
def joined (sep : String) : List String → String
  | [] => ""
  | [x] => x
  | x :: y :: rest => x ++ sep ++ joined sep (y :: rest)

/-- `ranges=…`. -/
def ranges (rs : List Range) : String := "ranges=" ++ joined "+" (rs.map Range.listing)

/-- `nulls=…`. -/
def nulls : Option Addr → String
  | none => "nulls=NONE"
  | some a => "nulls=" ++ toString a

/-- `name=number`. -/
def field (name : String) (n : Nat) : String := name ++ "=" ++ toString n

end Listing

namespace Instr

/-- The mnemonic of the opcode table (R91, R96). -/
def mnemonic : Instr → String
  | .rep _ _ => "REP"
  | .lit _ _ => "LIT"
  | .bencAdd _ _ _ => "BENC.ADD"
  | .bencAddFn _ _ _ => "BENC.ADD_FN"
  | .bencAddBits _ _ _ _ => "BENC.ADD_BITS"
  | .bencFlush => "BENC.FLUSH"
  | .bencRecpos _ _ => "BENC.RECPOS"
  | .bencGetsize => "BENC.GETSIZE"
  | .boolencAdd _ _ _ => "BOOLENC.ADD"
  | .boolencAddFn _ _ _ => "BOOLENC.ADD_FN"
  | .boolencAddBits _ _ _ _ => "BOOLENC.ADD_BITS"
  | .boolencFlush => "BOOLENC.FLUSH"
  | .boolencRecpos _ _ => "BOOLENC.RECPOS"
  | .boolencGetsize => "BOOLENC.GETSIZE"
  | .bdecNext _ _ _ => "BDEC.NEXT"
  | .bdecSkip _ => "BDEC.SKIP"
  | .bdecSeek _ => "BDEC.SEEK"
  | .booldecNext _ _ _ => "BOOLDEC.NEXT"
  | .booldecSkip _ => "BOOLDEC.SKIP"
  | .booldecSeek _ => "BOOLDEC.SEEK"

/-- The operands of a line, in the order of R92. -/
def operandListing : Instr → List String
  | .rep k v => [toString (repeatCount k), hexByte v]
  | .lit _ payload => payload.map hexByte
  | .bencAdd data rs ns | .boolencAdd data rs ns => [Listing.field "data" data, Listing.ranges rs, Listing.nulls ns]
  | .bencAddFn valueAt isNullAt rs | .boolencAddFn valueAt isNullAt rs =>
    [Listing.field "valueAt" valueAt, Listing.field "isNullAt" isNullAt, Listing.ranges rs]
  | .bencAddBits data rs ns invert | .boolencAddBits data rs ns invert =>
    [Listing.field "data" data, Listing.ranges rs, Listing.nulls ns, Listing.field "invert" invert.toNat]
  | .bencRecpos recorder stride | .boolencRecpos recorder stride =>
    [Listing.field "recorder" recorder, Listing.field "stride" stride]
  | .bdecNext data n ns | .booldecNext data n ns =>
    [Listing.field "data" data, Listing.field "numValues" n.toNat, Listing.nulls ns]
  | .bdecSkip n | .booldecSkip n => [Listing.field "n" n.toNat]
  | .bdecSeek provider | .booldecSeek provider => [Listing.field "provider" provider]
  | .bencFlush | .bencGetsize | .boolencFlush | .boolencGetsize => []

/-- One line of a listing (R96, R97). -/
def listing (i : Instr) : String :=
  match i.operandListing with
  | [] => i.mnemonic
  | x :: xs => i.mnemonic ++ " " ++ Listing.joined ", " (x :: xs)

end Instr

end Sys2Proof
end

