-- ==== Sys2Proof/Tests/Slice0.lean ====
section
/-!
SUPPORT. Tests of the model against the spec's own words and vectors (95_test_vectors), and for every statement with hypotheses a
witness that meets them. Expected values are the spec's: a vector's number, or a rule's example, stands beside each.
-/

namespace Sys2Proof.Tests

-- One theorem after another: each waits for the kernel, and many waiting at once would take a thread each.
set_option Elab.async false

open Sys2Proof.Machine

/-! ### Small states -/

/-- The reference sink of window length `w` (20_memory R63). -/
def sinkOf (w : Nat) : Sink := { Sink.unknown 0 with model := .reference (BitVec.ofNat 64 w) }

/-- The reference source of window length `w` over `t` (20_memory R68). -/
def srcOf (w : Nat) (t : List Byte) : Source :=
  { Source.unknown 0 with model := .reference (BitVec.ofNat 64 w), stream := t }

/-- A byte encoder with a fresh stage. -/
def freshEnc (w : Nat) : Enc := { regs := .reset, sink := sinkOf w }

/-- An encoder with a literal stage of these bytes and this tail run. -/
def literalEnc (w : Nat) (bs : List Byte) (tail : Nat) : Enc :=
  { regs := { ((List.range bs.length).zip bs).foldl (fun r iv => r.setLit iv.1 iv.2) EncRegs.reset with
      numLiterals := BitVec.ofNat 8 bs.length
      tailRun := BitVec.ofNat 2 tail }
    sink := sinkOf w }

/-- An encoder with a repeat stage of `n` copies of `v`. -/
def repeatEnc (w n : Nat) (v : Byte) : Enc :=
  { regs := { EncRegs.reset.setLit 0 v with repeating := true, numLiterals := BitVec.ofNat 8 n }, sink := sinkOf w }

/-- A fresh byte decoder over a stream. -/
def freshDec (w : Nat) (t : List Byte) : Dec := { key := "k", regs := .reset, src := srcOf w t }

/-- A READY instance. -/
def ready (c : Codec) : Inst := { status := .reset, codec := c }

/-- The state whose one instance is this, with `bytes` in caller memory from `base` on. -/
def stateOf (c : Codec) (base : Addr := 0) (bytes : List Byte := []) : State :=
  { State.reset with
    slots := [some (ready c)]
    shared := { Shared.reset with mem := Memory.writeAt [] base ((List.range bytes.length).zip bytes) } }

/-- That state with one provider. -/
def providing (s : State) (coords : List Count) : State :=
  { s with shared := { s.shared with providers := [{ coords := coords, cursor := 0 }] } }

/-- That state with one accessor of each kind, which return what these functions say of the positions below 8. -/
def asking (s : State) (value : Nat → Byte) (null : Nat → Bool) : State :=
  { s with shared := { s.shared with
      valueFns := [{ table := (List.range 8).map fun i => (i, .returns (value i)), otherwise := none }]
      nullFns := [{ table := (List.range 8).map fun i => (i, .returns (null i)), otherwise := none }] } }

/-- Does the outcome give a next state that passes the test? -/
def passes (o : Host.Outcome State Fault Refusal) (p : State → Bool) : Bool :=
  match o with
  | .next t => p t
  | .fault _ | .refused _ => false

/-- Does the outcome give a next state? -/
def runs (o : Host.Outcome State Fault Refusal) : Bool := passes o fun _ => true

/-- Does the outcome stop with this fault? -/
def faults (o : Host.Outcome State Fault Refusal) (f : Fault) : Bool :=
  match o with
  | .fault g => decide (g = f)
  | .next _ | .refused _ => false

/-- The response has this status and result. -/
def answers (t : State) (status result : Nat) : Bool :=
  t.response.any fun r => decide (r.status.toNat = status ∧ r.result.toNat = result)

/-- The instance's encoder registers pass the test. -/
def encRegs (t : State) (p : EncRegs → Bool) : Bool :=
  t.addressed.any fun i => match i.codec with
    | .byteEnc e | .boolEnc e _ => p e.regs
    | .byteDec _ | .boolDec _ _ => false

/-- The instance's boolean encoder registers pass the test. -/
def boolEncRegs (t : State) (p : BoolEncRegs → Bool) : Bool :=
  t.addressed.any fun i => match i.codec with
    | .boolEnc _ b => p b
    | .byteEnc _ | .byteDec _ | .boolDec _ _ => false

/-- The stream of the instance's sink. -/
def stream (t : State) : List (Option Byte) :=
  match t.addressed with
  | some ⟨_, .byteEnc e⟩ | some ⟨_, .boolEnc e _⟩ => e.sink.stream
  | some ⟨_, .byteDec _⟩ | some ⟨_, .boolDec _ _⟩ | none => []

/-- The instance's decoder passes the test. -/
def decRegs (t : State) (p : Dec → Bool) : Bool :=
  t.addressed.any fun i => match i.codec with
    | .byteDec d | .boolDec d _ => p d
    | .byteEnc _ | .boolEnc _ _ => false

/-- The instance's boolean decoder registers pass the test. -/
def boolDecRegs (t : State) (p : BoolDecRegs → Bool) : Bool :=
  t.addressed.any fun i => match i.codec with
    | .boolDec _ b => p b
    | .byteEnc _ | .boolEnc _ _ | .byteDec _ => false

/-- `n` bytes of caller memory. -/
def peek (t : State) (base n : Nat) : List Byte := (List.range n).map fun i => t.shared.mem.read (base + i)

/-- The coordinates and stride tags recorded. -/
def recorded (t : State) : List (Count × Nat) := t.shared.recorded.map fun r => (r.coord, r.stride)

/-! ### The well-formedness check refuses by name -/

theorem test_wellFormed : Instr.check Machine.Params.reset (.bencAdd (2 ^ 64 - 1) [] (some 0)) = none := by decide
theorem test_illFormed_data : Instr.check Machine.Params.reset (.bencAdd (2 ^ 64) [] none) = some .addressTooWide := by decide
theorem test_illFormed_nulls : Instr.check Machine.Params.reset (.booldecNext 0 8 (some (2 ^ 64))) = some .addressTooWide := by decide
theorem test_illFormed_stride : Instr.check Machine.Params.reset (.boolencRecpos 0 (2 ^ 64)) = some .strideTooWide := by decide
theorem test_illFormed_literal : Instr.check Machine.Params.reset (.lit 126 [0x42]) = some .literalLength := by decide

/-! ### Decoding: words written out from 30_encoding R81 to R83 and R91 -/

/-- R82: bit 7 clear, `k = 2`, then the payload byte. -/
theorem test_decode_rep : decode (.segment [0b00000010, 0b01000001]) = .ok (.rep 2 0x41) := by decide
/-- R83: bit 7 set, `256 - 0xFE = 2` payload bytes. -/
theorem test_decode_lit : decode (.segment [0b11111110, 0x42, 0x43]) = .ok (.lit 0b1111110 [0x42, 0x43]) := by decide
/-- V1: `0x7F` is a repeat of 130, `0x80` a literal of 128, `0xFF` a literal of 1. -/
theorem test_decode_boundaries :
    decodeHeader 0b01111111 = .repeats 127 ∧ repeatCount 127 = 130 ∧ decodeHeader 0b10000000 = .literal 0 ∧
      literalCount 0 = 128 ∧ decodeHeader 0b11111111 = .literal 127 ∧ literalCount 127 = 1 := by decide
theorem test_decode_truncated : decode (.segment [0xFE, 0x01]) = .error .truncated := by decide
theorem test_decode_noHeader : decode (.segment []) = .error .noHeader := by decide
theorem test_decode_trailing : decode (.segment [0x00, 0x07, 0x00]) = .error .trailing := by decide

/-- Operand fields that are all different. -/
def someOps : Operands :=
  { data := 1, nulls := some 2, ranges := [⟨3, 4⟩], invert := true, valueAt := 5, isNullAt := 6, numValues := 7, n := 8,
    recorder := 9, stride := 10, provider := 11 }

/-- Tag 1 in bits 7:4, the operation in bits 3:0 (R90, R91). -/
theorem test_decode_benc :
    decode (.command 0b00010001 someOps) = .ok (.bencAdd 1 [⟨3, 4⟩] (some 2)) ∧
      decode (.command 0b00010010 someOps) = .ok (.bencAddFn 5 6 [⟨3, 4⟩]) ∧
      decode (.command 0b00010011 someOps) = .ok (.bencAddBits 1 [⟨3, 4⟩] (some 2) true) ∧
      decode (.command 0b00010100 someOps) = .ok .bencFlush ∧
      decode (.command 0b00010101 someOps) = .ok (.bencRecpos 9 10) ∧
      decode (.command 0b00010110 someOps) = .ok .bencGetsize := by decide
/-- Tag 2. -/
theorem test_decode_boolenc :
    decode (.command 0b00100001 someOps) = .ok (.boolencAdd 1 [⟨3, 4⟩] (some 2)) ∧
      decode (.command 0b00100010 someOps) = .ok (.boolencAddFn 5 6 [⟨3, 4⟩]) ∧
      decode (.command 0b00100011 someOps) = .ok (.boolencAddBits 1 [⟨3, 4⟩] (some 2) true) ∧
      decode (.command 0b00100100 someOps) = .ok .boolencFlush ∧
      decode (.command 0b00100101 someOps) = .ok (.boolencRecpos 9 10) ∧
      decode (.command 0b00100110 someOps) = .ok .boolencGetsize := by decide
/-- Tags 3 and 4. -/
theorem test_decode_decoders :
    decode (.command 0b00110001 someOps) = .ok (.bdecNext 1 7 (some 2)) ∧
      decode (.command 0b00110010 someOps) = .ok (.bdecSkip 8) ∧
      decode (.command 0b00110011 someOps) = .ok (.bdecSeek 11) ∧
      decode (.command 0b01000001 someOps) = .ok (.booldecNext 1 7 (some 2)) ∧
      decode (.command 0b01000010 someOps) = .ok (.booldecSkip 8) ∧
      decode (.command 0b01000011 someOps) = .ok (.booldecSeek 11) := by decide
/-- V81: `0x17` and `0x10` are no commands; nor are the tags 0 and 5 to 15 (R94). -/
theorem test_decode_illegal :
    ∀ c ∈ [0x00#8, 0x10, 0x17, 0x20, 0x27, 0x30, 0x34, 0x40, 0x44, 0x51, 0x91, 0xFF],
      decode (.command c someOps) = .error .illegalCommand := by decide
theorem test_encode :
    encode (.rep 2 0x41) = .segment [0x02, 0x41] ∧ encode (.lit 126 [0x42, 0x43]) = .segment [0xFE, 0x42, 0x43] ∧
      encode (.bdecSkip 8) = .command 0x32 { Operands.zero with n := 8 } := by decide
/-- R96, R97, with the examples of those rules. -/
theorem test_listing :
    (assembleRep 5 0x41).map encode = some (.segment [0x02, 0x41]) ∧
      (assembleLit [0x42, 0x43]).map encode = some (.segment [0xFE, 0x42, 0x43]) ∧
      assembleRep 2 7 = none ∧ assembleRep 131 7 = none ∧ assembleLit [] = none ∧
      (Instr.bencAdd 16 [⟨0, 3⟩, ⟨7, 9⟩] none).listing = "BENC.ADD data=16, ranges=[0,3)+[7,9), nulls=NONE" ∧
      (Instr.rep 2 0x41).listing = "REP 5, 0x41" ∧ Instr.bencFlush.listing = "BENC.FLUSH" := by decide +kernel
/-- R82, R83 and R91 as the rows of the opcode table. -/
theorem test_decodeTableWord :
    decodeTableWord 8 0x00 = some (.rep 0 0) ∧ decodeTableWord 8 0xFE = some (.lit 126 [0, 0]) ∧
      decodeTableWord 8 0x14 = some .bencFlush ∧ decodeTableWord 8 0x43 = some (.booldecSeek 0) := by decide
/-- The next step runs the word placed (log 19). -/
theorem test_withFetchWord :
    ([0x00, 0x80, 0x11, 0x12, 0x13, 0x14, 0x15, 0x16, 0x21, 0x22, 0x23, 0x24, 0x25, 0x26, 0x31, 0x32, 0x33, 0x41, 0x42,
      0x43].all fun w => passes (step (State.reset.withFetchWord 8 w)) fun _ => true) = true := by decide

/-! ### One step of each instruction -/

/-- V1: `0x02` is a repeat of 5. -/
theorem test_rep :
    passes (exec (.rep 2 0x41) (stateOf (.byteDec (freshDec 8 [])))) (fun t => decRegs t fun d =>
      d.regs.remainingValues == 5 && d.regs.repeating && d.regs.value == 0x41) = true := by decide +kernel
/-- V1: `0xFE` is a literal of 2, whose payload is still in the stream (R143, R145). -/
theorem test_lit :
    passes (step { stateOf (.byteDec (freshDec 2 [0xFE, 0x42, 0x43])) with inbox := [.segment 0] }) (fun t => decRegs t fun d =>
      d.regs.remainingValues == 2 && !d.regs.repeating && d.upcoming == [0x42, 0x43]) = true := by decide +kernel
/-- V29: position 1 is null, the stage is `[5, 5]`. -/
theorem test_bencAdd_nulls :
    passes (exec (.bencAdd 16 [⟨0, 3⟩] (some 19)) (stateOf (.byteEnc (freshEnc 8)) 16 [5, 6, 5, 0b010])) (fun t =>
      answers t 0 2 && encRegs t fun r => r.stagedValues == [5, 5] && r.tailRun == 2 && !r.repeating) = true := by decide +kernel
/-- V29: overlapping ranges give a repeat of three. -/
theorem test_bencAdd_overlap :
    passes (exec (.bencAdd 16 [⟨0, 1⟩, ⟨0, 1⟩, ⟨0, 1⟩] none) (stateOf (.byteEnc (freshEnc 8)) 16 [5])) (fun t =>
      answers t 0 3 && encRegs t fun r => r.stagedValues == [5, 5, 5] && r.repeating) = true := by decide +kernel
/-- V30: `ValueAt` is asked of the positions 0, 2 and 3 only. -/
theorem test_bencAddFn :
    passes (exec (.bencAddFn 0 0 [⟨0, 4⟩]) (asking (stateOf (.byteEnc (freshEnc 8))) (fun _ => 7) (· == 1))) (fun t =>
      answers t 0 3 && (encRegs t fun r => r.stagedValues == [7, 7, 7] && r.repeating) &&
        t.shared.calls == [.isNullAt 0 0, .valueAt 0 0, .isNullAt 0 1, .isNullAt 0 2, .valueAt 0 2, .isNullAt 0 3,
          .valueAt 0 3]) = true := by decide +kernel
/-- V31, P4: `Unsupported`; the instance stays READY. -/
theorem test_bencAddBits :
    passes (exec (.bencAddBits 16 [⟨0, 8⟩] none false) (stateOf (.byteEnc (literalEnc 8 [1, 2] 1)))) (fun t =>
      answers t 1 0 && (t.addressed.map fun i => i.status.toByte) == some 1 &&
        encRegs t fun r => r.stagedValues == [1, 2]) = true := by decide +kernel
/-- V28: the literal of one is emitted, four positions go back, and the size is 4. -/
theorem test_bencFlush :
    passes (exec .bencFlush (stateOf (.byteEnc
        { regs := { (literalEnc 8 [0xFF] 1).regs with bufLen := 8, bufPos := 2 }
          sink := { sinkOf 8 with stream := [some 0x7F, some 0xFF] ++ List.replicate 6 none } }))) (fun t =>
      answers t 0 4 && stream t == [some 0x7F, some 0xFF, some 0xFF, some 0xFF] &&
        encRegs t fun r => r.bufLen == 0 && r.bufPos == 0 && r.numLiterals == 0) = true := by decide +kernel
/-- V26: the header of a literal of 125 is `0x83`. -/
theorem test_bencFlush_header :
    passes (exec .bencFlush (stateOf (.byteEnc (literalEnc 200 (List.replicate 125 1) 1)))) (fun t =>
      answers t 0 126 && (stream t).head? == some (some 0x83)) = true := by decide +kernel
/-- V32: `[0, 0, 4]`, each with the stride. -/
theorem test_bencRecpos :
    passes (exec (.bencRecpos 0 5) (stateOf (.byteEnc (literalEnc 8 [1, 2, 3, 3] 2)))) (fun t =>
      answers t 0 0 && recorded t == [(0, 5), (0, 5), (4, 5)]) = true := by decide +kernel
/-- V32: no window is held. -/
theorem test_bencGetsize :
    passes (exec .bencGetsize (stateOf (.byteEnc (literalEnc 8 [1, 2, 3, 3] 2)))) (fun t => answers t 0 0) = true := by decide +kernel
/-- V51: the booleans 1, 0, 1, 1. -/
theorem test_boolencAdd :
    passes (exec (.boolencAdd 16 [⟨0, 4⟩] none) (stateOf (.boolEnc (freshEnc 8) .reset) 16 [0x80, 0, 0xFF, 1])) (fun t =>
      answers t 0 4 && boolEncRegs t fun b => b.current == 0xB0 && b.bitsRemained == 4) = true := by decide +kernel
/-- V50: `i mod 2` for eight positions is the byte `0x55`. -/
theorem test_boolencAddFn :
    passes (exec (.boolencAddFn 0 0 [⟨0, 8⟩])
        (asking (stateOf (.boolEnc (freshEnc 8) .reset)) (fun i => BitVec.ofNat 8 (i % 2)) (fun _ => false))) (fun t =>
      (boolEncRegs t fun b => b.current == 0 && b.bitsRemained == 8) &&
        encRegs t fun r => r.stagedValues == [0x55]) = true := by decide +kernel
/-- V52: the dense bitmap is read LSB first, inverted, at the non-null positions. -/
theorem test_boolencAddBits :
    passes (exec (.boolencAddBits 16 [⟨0, 8⟩] (some 17) true) (stateOf (.boolEnc (freshEnc 8) .reset) 16 [0xB2, 5])) (fun t =>
      answers t 0 6 && boolEncRegs t fun b => b.current == 0x48 && b.bitsRemained == 2) = true := by decide +kernel
/-- V55: three pending bits go out as `0xE0`. -/
theorem test_boolencFlush :
    passes (exec .boolencFlush (stateOf (.boolEnc (freshEnc 8) ⟨5, 0xE0⟩))) (fun t =>
      answers t 0 2 && stream t == [some 0xFF, some 0xE0] && boolEncRegs t fun b => b.bitsRemained == 8) = true := by decide +kernel
/-- V54: after three booleans, `[0, 0, 0, 3]`. -/
theorem test_boolencRecpos :
    passes (exec (.boolencRecpos 0 5) (stateOf (.boolEnc (freshEnc 8) ⟨5, 0xE0⟩))) (fun t =>
      recorded t == [(0, 5), (0, 5), (0, 5), (3, 5)]) = true := by decide +kernel
/-- R207, R63: the size of the stream, window tail and all. -/
theorem test_boolencGetsize :
    passes (exec .boolencGetsize (stateOf (.boolEnc { freshEnc 8 with sink := { sinkOf 8 with stream := [some 1, none] } }
      .reset))) (fun t => answers t 0 2) = true := by decide +kernel
/-- V40: null positions are left alone and the values go to the others. -/
theorem test_bdecNext :
    passes (exec (.bdecNext 32 10 (some 16)) (stateOf (.byteDec (freshDec 5 [0x02, 0x41, 0xFE, 0x42, 0x43])) 16
        ([0x2A, 0] ++ List.replicate 14 0 ++ List.replicate 10 0xEE))) (fun t =>
      answers t 0 0 && peek t 32 10 == [0x41, 0xEE, 0x41, 0xEE, 0x41, 0xEE, 0x41, 0x41, 0x42, 0x43] &&
        decRegs t fun d => d.regs.remainingValues == 0) = true := by decide +kernel
/-- P4 step 5: `IoFailure` at the fourth value; the three already delivered stay. -/
theorem test_bdecNext_fails :
    passes (exec (.bdecNext 32 4 none) (stateOf (.byteDec (freshDec 8 [0x00, 0x09])))) (fun t =>
      answers t 2 0 && peek t 32 4 == [9, 9, 9, 0] &&
        (t.addressed.map fun i => i.status.toByte) == some 0x82) = true := by decide +kernel
/-- V46: a sum of `2^64` is `Overflow`. -/
theorem test_bdecSkip :
    let s := stateOf (.byteDec { freshDec 8 [] with regs := { DecRegs.reset with pendingSkip := BitVec.allOnes 64 } })
    passes (exec (.bdecSkip 1) s) (fun t => answers t 6 0) = true ∧ passes (exec (.bdecSkip 0) s) (fun t => answers t 0 0) = true := by
  decide +kernel
/-- V44: `seek→2`, one value to skip. -/
theorem test_bdecSeek :
    passes (exec (.bdecSeek 0) (providing (stateOf (.byteDec (freshDec 5 [0x02, 0x41, 0xFE, 0x42, 0x43]))) [0, 2, 1])) (fun t =>
      answers t 0 0 && decRegs t fun d =>
        d.src.cursor == 2 && d.regs.pendingSkip == 1 && d.regs.remainingValues == 0 && d.regs.win == []) = true := by decide +kernel
/-- V82: the skip coordinate is missing. -/
theorem test_bdecSeek_exhausted :
    passes (exec (.bdecSeek 0) (providing (stateOf (.byteDec (freshDec 5 []))) [0, 0])) (fun t => answers t 4 0) = true := by
  decide +kernel
/-- V60: nine booleans, LSB first; seven bits stay buffered. -/
theorem test_booldecNext :
    passes (exec (.booldecNext 32 9 none) (stateOf (.boolDec (freshDec 3 [0xFE, 0xAA, 0x80]) .reset))) (fun t =>
      answers t 0 0 && peek t 32 2 == [0x55, 0x01] &&
        boolDecRegs t fun b => b.remainingBits == 7 && b.reversedLastByte == 0x01) = true := by decide +kernel
/-- V64: positions 1 and 3 are null. -/
theorem test_booldecNext_nulls :
    passes (exec (.booldecNext 32 8 (some 16)) (stateOf (.boolDec (freshDec 3 [0xFE, 0xAA, 0x80]) .reset) 16 [0x0A])) (fun t =>
      peek t 32 1 == [0x51] && boolDecRegs t fun b => b.remainingBits == 2 && b.reversedLastByte == 0x55) = true := by decide +kernel
/-- R233: only the pending skip moves. -/
theorem test_booldecSkip :
    passes (exec (.booldecSkip 3) (stateOf (.boolDec (freshDec 3 [0xFE, 0xAA, 0x80]) .reset))) (fun t =>
      answers t 0 0 && decRegs t fun d => d.regs.pendingSkip == 3 && d.src.log == []) = true := by decide +kernel
/-- P3 step 5: one byte and three bits are eleven bits. -/
theorem test_booldecSeek :
    passes (exec (.booldecSeek 0) (providing (stateOf (.boolDec (freshDec 2 [0xFD, 0xD3, 0xA1, 0xE0]) .reset)) [0, 0, 1, 3])) (fun t =>
      answers t 0 0 && (decRegs t fun d => d.regs.pendingSkip == 11 && d.src.cursor == 0) &&
        boolDecRegs t fun b => b.remainingBits == 0) = true := by decide +kernel
/-- V68: a bit offset of nine. -/
theorem test_booldecSeek_bad :
    passes (exec (.booldecSeek 0) (providing (stateOf (.boolDec (freshDec 2 []) .reset)) [0, 0, 0, 9])) (fun t =>
      answers t 4 0) = true := by decide +kernel
/-- R111, R202: a byte placed before the refusal stays in the sink, and the command ends in `IoFailure`. -/
theorem test_bencAdd_refused :
    passes (exec (.bencAdd 16 [⟨0, 1⟩] none) (stateOf (.byteEnc { repeatEnc 8 129 7 with
        sink := { sinkOf 8 with script := [some 1, none] } }) 16 [7])) (fun t =>
      answers t 2 0 && stream t == [some 0x7F]) = true := by decide +kernel
/-- R301: a sink that issues a command to its own encoder inside the second window request. -/
theorem test_reentrantAgent :
    let e : Enc := { repeatEnc 1 129 7 with sink := { sinkOf 1 with reentersAt := some 2 } }
    faults (exec .bencFlush (stateOf (.byteEnc e))) .reentrantAgent = true ∧
      runs (exec .bencGetsize (stateOf (.byteEnc e))) = true := by decide +kernel
/-- The register map of R43 at construction, number by number. -/
theorem test_registerMap_encoders :
    ([0x00, 0x01, 0x02, 0x10, 0x11, 0x12, 0x13, 0x14, 0x15, 0x20, 0x21, 0x30].map (Factory.boolEncoder (Sink.unknown 0)).make.view) =
      [some (.number 2 1), some (.number 8 0), none, some (.number 8 0), some (.number 1 0), some (.number 2 0),
        some (.number 64 0), some (.number 64 0), some (.bytes (List.replicate 128 0)), some (.number 4 8),
        some (.number 8 0), none] := by decide +kernel
theorem test_registerMap_decoders :
    ([0x00, 0x01, 0x02, 0x10, 0x30, 0x31, 0x32, 0x33, 0x34, 0x40, 0x41].map
        (Factory.boolDecoder (Source.unknown 0) "key").make.view) =
      [some (.number 2 3), some (.number 8 0), some (.text "key"), none, some (.number 8 0), some (.number 1 0),
        some (.number 8 0), some (.window [] 0), some (.number 64 0), some (.number 4 0), some (.number 8 0)] := by
  decide +kernel
/-- V81: another kind's command, and a word that is no command. -/
theorem test_illegalCommand :
    ([0x21#8, 0x17, 0x10].all fun c =>
      passes (step { stateOf (.byteEnc (freshEnc 8)) with inbox := [.command 0 c .zero] }) fun t =>
        answers t 5 0 && (t.addressed.map fun i => i.status.toByte) == some 5) = true := by decide +kernel

/-! ### Witnesses: for every statement with hypotheses, values that meet them all

A clause of a statement has its own values, at a boundary of its range. -/

/-- A test that passes shows a next state. -/
theorem next_of_passes {o : Host.Outcome State Fault Refusal} {p : State → Bool} (h : passes o p = true) : ∃ t, o = .next t := by
  cases o with
  | next t => exact ⟨t, rfl⟩
  | fault f => cases h
  | refused r => cases h

theorem next_of_runs {o : Host.Outcome State Fault Refusal} (h : runs o = true) : ∃ t, o = .next t := next_of_passes h

/-- Instructions that each give a next state at their state. -/
theorem all_next {l : List (Instr × State)} (h : (l.all fun x => runs (exec x.1 x.2)) = true) :
    ∀ x ∈ l, ∃ t, exec x.1 x.2 = .next t := fun x hx => next_of_runs (List.all_eq_true.1 h x hx)

/-- Does a procedure raise? -/
def raises {σ α : Type} (x : Proc σ α) : Bool :=
  match x with
  | .raised _ _ => true
  | .ok _ _ | .stuck _ => false

theorem sink_serves : (sinkOf 8).Serves ∧ (sinkOf 1).Serves :=
  ⟨⟨rfl, by simp [sinkOf, Sink.unknown], 8, by decide, rfl⟩, rfl, by simp [sinkOf, Sink.unknown], 1, by decide, rfl⟩
theorem src_serves (t : List Byte) : (srcOf 1 t).Serves ∧ (srcOf 8 t).Serves :=
  ⟨⟨rfl, by simp [srcOf, Source.unknown], 1, by decide, rfl⟩, rfl, by simp [srcOf, Source.unknown], 8, by decide, rfl⟩
theorem stateOf_ready (c : Codec) (base : Addr) (bytes : List Byte) : (stateOf c base bytes).Ready (ready c) := ⟨rfl, rfl⟩

/-- A sink that refuses its next window, and one that grants an empty one. -/
def refusing (a : Option Count) : Sink := { sinkOf 8 with script := [a] }

/-- A FAILED instance. -/
def failed : Inst := { status := { failed := true, err := 2 }, codec := .byteEnc (freshEnc 8) }

theorem witness_DecodeOfEncodeIsTheInstruction :
    Instr.WellFormed Machine.Params.reset (.rep 127 0xFF) ∧
      Instr.WellFormed Machine.Params.reset (.lit 0 (List.replicate 128 1)) ∧
      Instr.WellFormed Machine.Params.reset (.bencAdd (2 ^ 64 - 1) [⟨BitVec.allOnes 64, 0⟩] (some (2 ^ 64 - 1))) ∧
      Instr.WellFormed Machine.Params.reset (.boolencRecpos 7 (2 ^ 64 - 1)) := by decide +kernel
theorem witness_EncodeOfDecodeIsTheCode :
    decode (.segment [0x7F, 0xFF]) = .ok (.rep 127 0xFF) ∧ decode (.segment [0xFF, 0x41]) = .ok (.lit 127 [0x41]) ∧
      decode (.command 0x43 someOps) = .ok (.booldecSeek 11) := by decide +kernel
theorem witness_HeaderDecidesTheSegment :
    (0x7F#8).toNat ≤ 0x7F ∧ 0x80 ≤ (0x80#8).toNat ∧ (List.replicate 128 7#8).length = 256 - (0x80#8).toNat ∧
      [7#8].length = 256 - (0xFF#8).toNat := by decide +kernel
theorem witness_CommandCodesAreComplete : decodeCommand 0x43 someOps = .ok (.booldecSeek 11) := by decide +kernel
theorem witness_StreamIsAConcatenationOfSegments :
    ∀ i ∈ [Instr.rep 0 7, .lit 127 [1], .rep 127 7], i.kind = none ∧ i.WellFormed Machine.Params.reset := by decide +kernel
theorem witness_LogicalValuesAreTheDecodedValues : decodeStream [0x00, 0x07, 0xFF, 0x08] = .ok [7, 7, 7, 8] := by decide +kernel
theorem witness_StepRunsTheDecodedCommand :
    ({ stateOf (.byteDec (freshDec 8 [])) with inbox := [.command 0 0x32 someOps] } : State).inbox = .command 0 0x32 someOps :: [] ∧
      decode (.command 0x32 someOps) = .ok (.bdecSkip 8) := by decide +kernel
theorem witness_StepRunsTheFetchedSegment :
    ∀ b ∈ [none, some BoolDecRegs.reset], ∃ (s : State) (inst : Inst) (d : Dec),
      s.inbox = .segment 0 :: [] ∧ s.slots[0]? = some (some inst) ∧ inst.status.failed = false ∧
        inst.codec = Codec.ofDec d b ∧ d.regs.Inv ∧ d.src.Serves ∧ d.regs.remainingValues = 0 ∧
        decodeSegment d.upcoming = .ok (.lit 126 [0x42, 0x43], [0x00]) := by
  intro b _
  exact ⟨{ stateOf (Codec.ofDec (freshDec 1 [0xFE, 0x42, 0x43, 0x00]) b) with inbox := [.segment 0] }, _,
    freshDec 1 [0xFE, 0x42, 0x43, 0x00], rfl, rfl, rfl, rfl, by decide +kernel, (src_serves _).1, rfl, by decide +kernel⟩
theorem witness_IllegalCommandIsReportedOnly :
    let s := { stateOf (.byteEnc (freshEnc 8)) with inbox := [.command 0 0x21 someOps] }
    s.inbox = .command 0 0x21 someOps :: [] ∧ s.slots[0]? = some (some (ready (.byteEnc (freshEnc 8)))) ∧
      (ready (.byteEnc (freshEnc 8))).status.failed = false ∧
      (0x21#8).toNat / 16 ≠ (ready (.byteEnc (freshEnc 8))).codec.kind.num.toNat + 1 ∧
      decodeCommand 0x17 someOps = .error .illegalCommand := ⟨rfl, rfl, rfl, by decide +kernel⟩
theorem witness_IdleBlockStaysAsItIs : State.reset.inbox = [] := rfl
theorem witness_MemoryReadsBackWhatIsWritten : Memory.wf [] = true ∧ Memory.wf [(0, 1), (2 ^ 64 - 1, 0xFF)] = true := by decide +kernel
theorem witness_EmitByteRequestsAWindowLazily :
    ({ (freshEnc 8).regs with bufLen := 8, bufPos := 7 } : EncRegs).bufPos ≠ 8 ∧
      (freshEnc 8).regs.bufPos = (freshEnc 8).regs.bufLen ∧ (sinkOf 8).next.1 = some 8 ∧ (8 : Count) ≠ 0 ∧
      (refusing none).next.1 = none ∧ (refusing (some 0)).next.1 = some 0 := by decide +kernel
theorem witness_WriteValuesEmitsTheStage :
    (literalEnc 8 [1] 1).sink.Serves ∧ (freshEnc 8).Coherent ∧ (freshEnc 8).regs.numLiterals = 0 ∧
      (literalEnc 8 [1] 1).Coherent ∧ (literalEnc 8 [1] 1).regs.numLiterals ≠ 0 ∧
      raises (Enc.writeValues { literalEnc 8 [1] 1 with sink := refusing none }) = true := ⟨sink_serves.1, by decide +kernel⟩
theorem witness_WriteStartsAStage : (freshEnc 8).regs.numLiterals = 0 := rfl
theorem witness_WriteExtendsARepeat :
    (repeatEnc 8 129 7).sink.Serves ∧
      (∀ n ∈ [128, 129], (repeatEnc 8 n 7).Coherent ∧ (repeatEnc 8 n 7).regs.repeating = true ∧
        (repeatEnc 8 n 7).regs.numLiterals ≠ 0 ∧ 7 = (repeatEnc 8 n 7).regs.litAt 0 ∧
        (repeatEnc 8 n 7).regs.numLiterals.toNat = n) ∧
      raises (Enc.write { repeatEnc 8 129 7 with sink := refusing none } 7) = true := ⟨sink_serves.1, by decide +kernel⟩
theorem witness_WriteBreaksARepeat :
    (repeatEnc 8 3 7).sink.Serves ∧ (repeatEnc 8 3 7).Coherent ∧ (repeatEnc 8 3 7).regs.repeating = true ∧
      (repeatEnc 8 3 7).regs.numLiterals ≠ 0 ∧ 8 ≠ (repeatEnc 8 3 7).regs.litAt 0 ∧
      raises (Enc.write { repeatEnc 8 3 7 with sink := refusing (some 0) } 8) = true := ⟨sink_serves.1, by decide +kernel⟩
/-- With nothing before the run, and with one byte before it. -/
theorem witness_WritePromotesARunOfThree :
    (literalEnc 8 [3, 3] 2).Inv ∧ (literalEnc 8 [3, 3] 2).regs.repeating = false ∧
      (literalEnc 8 [3, 3] 2).regs.numLiterals.toNat = 0 + 2 ∧ (literalEnc 8 [3, 3] 2).regs.tailRun = 2 ∧
      3 = (literalEnc 8 [3, 3] 2).regs.litAt (0 + 1) ∧
      (literalEnc 8 [1, 3, 3] 2).Inv ∧ (literalEnc 8 [1, 3, 3] 2).regs.numLiterals.toNat = 1 + 2 ∧
      (literalEnc 8 [1, 3, 3] 2).regs.tailRun = 2 ∧ 3 = (literalEnc 8 [1, 3, 3] 2).regs.litAt (1 + 1) ∧
      raises (Enc.write { literalEnc 8 [1, 3, 3] 2 with sink := refusing none } 3) = true := by decide +kernel
/-- A stage of one, a stage of 126 (the last that stays), and a stage of 127 (the 128th byte emits). -/
theorem witness_WriteAppendsToALiteral :
    (∀ n ∈ [0, 125, 126],
      (literalEnc 8 ((List.range (n + 1)).map (BitVec.ofNat 8)) 1).Inv ∧
      (literalEnc 8 ((List.range (n + 1)).map (BitVec.ofNat 8)) 1).regs.repeating = false ∧
      (literalEnc 8 ((List.range (n + 1)).map (BitVec.ofNat 8)) 1).regs.numLiterals.toNat = n + 1 ∧
      ¬(0xAA = (literalEnc 8 ((List.range (n + 1)).map (BitVec.ofNat 8)) 1).regs.litAt n ∧
        (literalEnc 8 ((List.range (n + 1)).map (BitVec.ofNat 8)) 1).regs.tailRun = 2)) ∧
      raises (Enc.write
        { literalEnc 8 ((List.range 127).map (BitVec.ofNat 8)) 1 with sink := refusing none } 0xAA) = true := by decide +kernel
/-- A literal stage, and a buffer that ends where the address space ends. -/
theorem witness_BencAddWritesTheNonNullBytes :
    (stateOf (.byteEnc (literalEnc 8 [3, 3] 2))).Ready (ready (.byteEnc (literalEnc 8 [3, 3] 2))) ∧
      (literalEnc 8 [3, 3] 2).Inv ∧ (literalEnc 8 [3, 3] 2).sink.Serves ∧
      addBuffersOwned (stateOf (.byteEnc (literalEnc 8 [3, 3] 2))).shared (2 ^ 64 - 4) [⟨0, 4⟩] (some (2 ^ 64 - 1)) = true :=
  ⟨stateOf_ready _ _ _, by decide +kernel, sink_serves.1, by decide +kernel⟩
theorem witness_BencAddFnAsksAndWrites :
    let s := asking (stateOf (.byteEnc (freshEnc 8))) (fun _ => 7) (· == 1)
    s.Ready (ready (.byteEnc (freshEnc 8))) ∧ (freshEnc 8).sink.Serves ∧ (freshEnc 8).Inv ∧
      (∀ i ∈ positions [⟨0, 4⟩], (s.shared.nullFns[0]?.bind fun a => a.answer i) = some (.returns (i == 1))) ∧
      ∀ i ∈ positions [⟨0, 4⟩], (i == 1) = false → (s.shared.valueFns[0]?.bind fun a => a.answer i) = some (.returns 7) :=
  ⟨⟨rfl, rfl⟩, sink_serves.1, by decide +kernel⟩
theorem witness_BencAddBitsIsUnsupported :
    (stateOf (.byteEnc (freshEnc 8))).Ready (ready (.byteEnc (freshEnc 8))) := stateOf_ready _ _ _
theorem witness_BencFlushCompletesTheStream :
    ∀ e ∈ [freshEnc 8, literalEnc 8 [1] 1, repeatEnc 8 129 7],
      (stateOf (.byteEnc e)).Ready (ready (.byteEnc e)) ∧ e.Inv ∧ e.sink.Serves := by
  intro e he
  simp only [List.mem_cons, List.not_mem_nil, or_false] at he
  rcases he with rfl | rfl | rfl <;> exact ⟨stateOf_ready _ _ _, by decide +kernel, sink_serves.1⟩
theorem witness_RecposRecordsThePosition :
    (stateOf (.byteEnc (freshEnc 8))).Ready (ready (.byteEnc (freshEnc 8))) ∧
      (stateOf (.boolEnc (freshEnc 8) ⟨1, 0xFE⟩)).Ready (ready (.boolEnc (freshEnc 8) ⟨1, 0xFE⟩)) ∧
      (⟨1, 0xFE⟩ : BoolEncRegs).Inv ∧ BoolEncRegs.reset.Inv ∧
      (freshEnc 8).sink.reentersAt ≠ some (freshEnc 8).sink.log.length :=
  ⟨stateOf_ready _ _ _, stateOf_ready _ _ _, by decide +kernel⟩
theorem witness_GetsizeReportsTheSinkSize :
    (stateOf (.byteEnc (freshEnc 8))).Ready (ready (.byteEnc (freshEnc 8))) ∧
      (stateOf (.boolEnc (freshEnc 8) .reset)).Ready (ready (.boolEnc (freshEnc 8) .reset)) ∧
      (freshEnc 8).sink.model = .reference 8 ∧ (freshEnc 8).sink.reentersAt ≠ some (freshEnc 8).sink.log.length ∧
      (freshEnc 8).sink.reentersAt ≠ some ((freshEnc 8).sink.log.length + 1) ∧
      (∃ t, exec .bencGetsize (stateOf (.byteEnc (freshEnc 8))) = .next t) ∧
      ∃ t, exec .boolencGetsize (stateOf (.boolEnc (freshEnc 8) .reset)) = .next t :=
  ⟨stateOf_ready _ _ _, stateOf_ready _ _ _, by decide, by decide, by decide, next_of_runs (by decide +kernel),
    next_of_runs (by decide +kernel)⟩
theorem witness_RefusedWindowFailsTheFlush :
    (∀ a ∈ [none, some (0 : Count)],
      let e : Enc := { literalEnc 8 [1] 1 with sink := refusing a }
      (stateOf (.byteEnc e)).Ready (ready (.byteEnc e)) ∧ e.regs.numLiterals ≠ 0 ∧ e.regs.bufPos = e.regs.bufLen ∧
        (e.sink.answer = none ∨ e.sink.answer = some 0) ∧ e.sink.reentersAt ≠ some e.sink.log.length ∧ e.Coherent) ∧
      (∃ t, exec (.bencAdd 16 [⟨0, 1⟩] none) (stateOf (.byteEnc { repeatEnc 8 129 7 with sink := refusing none }) 16 [7]) = .next t) ∧
      (∃ t, exec .boolencFlush (stateOf (.boolEnc (freshEnc 8) ⟨1, 0xFE⟩)) = .next t) ∧
      (freshEnc 8).sink.reentersAt = none ∧ (refusing none).reentersAt = none ∧
      addBuffersOwned (stateOf (.byteEnc (freshEnc 8))).shared (2 ^ 64 - 1) [⟨0, 1⟩] none = true ∧
      addBitsBuffersOwned (stateOf (.boolEnc (freshEnc 8) .reset)).shared (2 ^ 64 - 1) [⟨0, 8⟩] none = true ∧
      (asking (stateOf (.byteEnc (freshEnc 8))) (fun _ => 7) (· == 1)).shared.AccessorsReturn 0 0 (positions [⟨0, 9⟩]) := by
  refine ⟨fun a ha => ?_, next_of_runs (by decide +kernel), next_of_runs (by decide +kernel), by decide +kernel⟩
  simp only [List.mem_cons, List.not_mem_nil, or_false] at ha
  rcases ha with rfl | rfl <;> exact ⟨stateOf_ready _ _ _, by decide +kernel⟩
theorem witness_EncoderCommandsFrame :
    ∀ x ∈ [(Instr.bencRecpos 0 0, stateOf (.byteEnc (freshEnc 8))),
        (.bencAddFn 0 0 [⟨0, 4⟩], asking (stateOf (.byteEnc (freshEnc 8))) (fun _ => 7) (· == 1)),
        (.boolencAdd 16 [⟨0, 4⟩] none, stateOf (.boolEnc (freshEnc 8) .reset))],
      (x.1.kind = some .byteEnc ∨ x.1.kind = some .boolEnc) ∧ ∃ t, exec x.1 x.2 = .next t :=
  fun x hx => ⟨by revert x; decide +kernel, all_next (by decide +kernel) x hx⟩
theorem witness_AddedBytesDecodeAfterFlush :
    (stateOf (.byteEnc (freshEnc 1)) 16 [5, 5, 5, 6]).Ready (ready (.byteEnc (freshEnc 1))) ∧ (freshEnc 1).Inv ∧
      (freshEnc 1).sink.Serves ∧ (freshEnc 1).regs.numLiterals = 0 ∧
      addBuffersOwned (stateOf (.byteEnc (freshEnc 1)) 16 [5, 5, 5, 6]).shared 16 [⟨0, 4⟩, ⟨0, 4⟩] none = true :=
  ⟨stateOf_ready _ _ _, by decide +kernel, sink_serves.2, rfl, by decide +kernel⟩
theorem witness_EmittedBytesIgnoreWindowLengths :
    (literalEnc 1 [3, 3] 2).sink.Serves ∧ (literalEnc 8 [3, 3] 2).sink.Serves ∧ (literalEnc 1 [3, 3] 2).Inv ∧
      (literalEnc 8 [3, 3] 2).Inv ∧ (literalEnc 1 [3, 3] 2).regs.SameStage (literalEnc 8 [3, 3] 2).regs :=
  ⟨sink_serves.2, sink_serves.1, by decide +kernel⟩
theorem witness_RunsEncodeAsTheSpecSays :
    (freshEnc 8).Inv ∧ (freshEnc 8).sink.Serves ∧ (freshEnc 8).regs.numLiterals = 0 ∧
      ∀ n ∈ [2, 3, 130, 131], n = 2 ∨ (3 ≤ n ∧ n ≤ 130) ∨ n = 131 := ⟨by decide +kernel, sink_serves.1, rfl, by decide +kernel⟩
theorem witness_WriteBoolPacksMsbFirst :
    (⟨2, 0xFC⟩ : BoolEncRegs).Inv ∧ 2 ≤ (⟨2, 0xFC⟩ : BoolEncRegs).bitsRemained.toNat ∧ (⟨1, 0xFE⟩ : BoolEncRegs).Inv ∧
      (⟨1, 0xFE⟩ : BoolEncRegs).bitsRemained.toNat = 1 ∧
      (freshEnc 8).write 0xFF = .ok () { freshEnc 8 with regs := (freshEnc 8).regs.startStage 0xFF } ∧
      raises (Enc.write { repeatEnc 8 129 0xFF with sink := refusing none } 0xFF) = true := by decide +kernel
theorem witness_BoolencAddPacksTheNonNullBytes :
    (stateOf (.boolEnc (freshEnc 8) ⟨1, 0xFE⟩) 16 [1, 0]).Ready (ready (.boolEnc (freshEnc 8) ⟨1, 0xFE⟩)) ∧
      (freshEnc 8).sink.Serves ∧ (freshEnc 8).Inv ∧ (⟨1, 0xFE⟩ : BoolEncRegs).Inv ∧
      addBuffersOwned (stateOf (.boolEnc (freshEnc 8) ⟨1, 0xFE⟩) 16 [1, 0]).shared (2 ^ 64 - 2) [⟨0, 2⟩] (some 16) = true :=
  ⟨stateOf_ready _ _ _, sink_serves.1, by decide +kernel⟩
theorem witness_BoolencAddFnAsksAndPacks :
    let s := asking (stateOf (.boolEnc (freshEnc 8) .reset)) (fun i => BitVec.ofNat 8 (i % 2)) (· == 1)
    s.Ready (ready (.boolEnc (freshEnc 8) .reset)) ∧ (freshEnc 8).sink.Serves ∧ (freshEnc 8).Inv ∧ BoolEncRegs.reset.Inv ∧
      (∀ i ∈ positions [⟨0, 4⟩], (s.shared.nullFns[0]?.bind fun a => a.answer i) = some (.returns (i == 1))) ∧
      ∀ i ∈ positions [⟨0, 4⟩], (i == 1) = false →
        (s.shared.valueFns[0]?.bind fun a => a.answer i) = some (.returns (BitVec.ofNat 8 (i % 2))) :=
  ⟨⟨rfl, rfl⟩, sink_serves.1, by decide +kernel⟩
theorem witness_BoolencAddBitsPacksTheBitmap :
    (stateOf (.boolEnc (freshEnc 8) .reset)).Ready (ready (.boolEnc (freshEnc 8) .reset)) ∧ (freshEnc 8).sink.Serves ∧
      (freshEnc 8).Inv ∧ BoolEncRegs.reset.Inv ∧
      addBitsBuffersOwned (stateOf (.boolEnc (freshEnc 8) .reset)).shared (2 ^ 64 - 2) [⟨0, 16⟩] (some (2 ^ 64 - 2)) = true :=
  ⟨stateOf_ready _ _ _, sink_serves.1, by decide +kernel⟩
theorem witness_BoolencFlushCompletesTheStream :
    ∀ b ∈ [BoolEncRegs.reset, ⟨7, 0x80⟩, ⟨1, 0xFE⟩],
      (stateOf (.boolEnc (freshEnc 8) b)).Ready (ready (.boolEnc (freshEnc 8) b)) ∧
        (freshEnc 8).sink.Serves ∧ (freshEnc 8).Inv ∧ b.Inv := by
  intro b hb
  simp only [List.mem_cons, List.not_mem_nil, or_false] at hb
  rcases hb with rfl | rfl | rfl <;> exact ⟨stateOf_ready _ _ _, sink_serves.1, by decide +kernel⟩
theorem witness_SegmentsBecomeTheCurrentOne :
    ∀ b ∈ [none, some BoolDecRegs.reset],
      (stateOf (Codec.ofDec (freshDec 8 []) b)).Ready (ready (Codec.ofDec (freshDec 8 []) b)) ∧
        (freshDec 8 []).regs.remainingValues = 0 := fun _ _ => ⟨stateOf_ready _ _ _, rfl⟩
/-- A byte left in the window, a window exhausted with more to come, and one with nothing more. -/
theorem witness_ReadByteRefillsWhenExhausted :
    ({ DecRegs.reset with win := [1, 2], winPos := 1 } : DecRegs).winPos.toNat < 2 ∧
      (freshDec 2 [1, 2, 3]).regs.winPos.toNat = (freshDec 2 [1, 2, 3]).regs.win.length ∧
      (freshDec 2 [1, 2, 3]).src.next.1 = some [1, 2] ∧
      (freshDec 2 []).regs.winPos.toNat = (freshDec 2 []).regs.win.length ∧ (freshDec 2 []).src.next.1 = none := by
  decide +kernel
theorem witness_ReadHeaderParsesTheSegment :
    (∀ t ∈ [[0x7F#8, 9], [0x00], [0x80, 1], [0xFF]],
      (freshDec 1 t).regs.Inv ∧ ∃ h rest, (freshDec 1 t).upcoming = h :: rest) ∧ (∀ t, (freshDec 1 t).src.Serves) ∧
      (0x7F#8).toNat < 128 ∧ 128 ≤ (0x80#8).toNat := by
  refine ⟨fun t ht => ⟨by show DecRegs.reset.Inv; decide +kernel, ?_⟩, fun t => (src_serves t).1, by decide +kernel⟩
  simp only [List.mem_cons, List.not_mem_nil, or_false] at ht
  rcases ht with rfl | rfl | rfl | rfl <;> exact ⟨_, _, rfl⟩
/-- A repeat in progress, the whole of it delivered to the non-null ones of three positions. -/
theorem witness_TakeValuesSpendsNonNullPositionsOnly :
    let r : DecRun := { dec := { freshDec 1 [] with regs := DecRegs.reset.loadRepeat 0 7 }, out := [] }
    r.dec.src.Serves ∧ r.dec.regs.Inv ∧ 3 ≤ r.dec.regs.remainingValues.toNat ∧
      ((List.range 3).filter fun j => !((0 + j) == 1)).length ≤ r.dec.logical.length :=
  ⟨(src_serves _).1, by decide +kernel⟩
theorem witness_SkipBytesUsesTheWindowFirst :
    let d : Dec := { freshDec 2 [1, 2, 3] with regs := { DecRegs.reset with win := [1, 2], winPos := 1 } }
    d.regs.Inv ∧ 1 ≤ d.regs.win.length - d.regs.winPos.toNat ∧ d.regs.win.length - d.regs.winPos.toNat < 2 := by decide +kernel
/-- All the values there are, past a pending skip, with a mask. -/
theorem witness_BdecNextDeliversTheLogicalValues :
    let d : Dec := { freshDec 1 [0x02, 0x41, 0xFE, 0x42, 0x43] with regs := { DecRegs.reset with pendingSkip := 2 } }
    let s := stateOf (.byteDec d) 16 [0b010]
    s.Ready (ready (.byteDec d)) ∧ d.src.Serves ∧ d.regs.Inv ∧ s.shared.mem.wf = true ∧
      outputFault s.shared 17 6 6 (some 16) = none ∧ nonNullPositions (isNull s.shared (some 16)) 6 = [0, 2, 3, 4, 5] ∧
      d.regs.pendingSkip.toNat + 5 ≤ d.logical.length ∧ (d.logical.drop 2).take 5 = [0x41, 0x41, 0x41, 0x42, 0x43] :=
  ⟨⟨rfl, rfl⟩, (src_serves _).1, by decide +kernel⟩
/-- One value, and one bit, more than there are. -/
theorem witness_NextPastTheEndFails :
    let d : Dec := freshDec 1 [0x00, 0x07]
    let s := stateOf (.byteDec d)
    let s' := stateOf (.boolDec d .reset)
    s.Ready (ready (.byteDec d)) ∧ s'.Ready (ready (.boolDec d .reset)) ∧ d.src.Serves ∧ d.regs.Inv ∧ s.shared.mem.wf = true ∧
      outputFault s.shared 16 4 4 none = none ∧ nonNullPositions (isNull s.shared none) 4 = [0, 1, 2, 3] ∧
      d.logical.length < d.regs.pendingSkip.toNat + 4 ∧ BoolDecRegs.reset.Inv ∧ 16 % 8 = 0 ∧
      outputFault s'.shared 16 (BoolDec.laneBytes 25) 25 none = none ∧
      (nonNullPositions (isNull s'.shared none) 25).length = 25 ∧
      (BoolDec.logicalBits d .reset).length < d.regs.pendingSkip.toNat + 25 :=
  ⟨⟨rfl, rfl⟩, ⟨rfl, rfl⟩, (src_serves _).1, by decide +kernel⟩
/-- A sum of `2^64 - 1`, and a sum of `2^64`. -/
theorem witness_SkipAccumulatesOrOverflows :
    let d : Dec := { freshDec 8 [] with regs := { DecRegs.reset with pendingSkip := BitVec.allOnes 64 } }
    (stateOf (Codec.ofDec d none)).Ready (ready (Codec.ofDec d none)) ∧
      (stateOf (Codec.ofDec d (some .reset))).Ready (ready (Codec.ofDec d (some .reset))) ∧
      d.regs.pendingSkip.toNat + (0 : Count).toNat < 2 ^ 64 ∧ 2 ^ 64 ≤ d.regs.pendingSkip.toNat + (1 : Count).toNat :=
  ⟨⟨rfl, rfl⟩, ⟨rfl, rfl⟩, by decide +kernel⟩
theorem witness_BdecSeekReseatsTheDecoder :
    let s := providing (stateOf (.byteDec (freshDec 1 [0x00, 0x07]))) [0, 2, BitVec.allOnes 64]
    let s' := providing (stateOf (.byteDec (freshDec 1 [0x00, 0x07]))) [0, 2]
    s.Ready (ready (.byteDec (freshDec 1 [0x00, 0x07]))) ∧ (freshDec 1 [0x00, 0x07]).src.Serves ∧
      s.shared.provided 0 = 0 :: 2 :: BitVec.allOnes 64 :: [] ∧ (s'.shared.provided 0).length < 3 :=
  ⟨⟨rfl, rfl⟩, (src_serves _).1, rfl, by decide +kernel⟩
/-- The same stream through windows of one and of eight bytes. -/
theorem witness_DeliveryIgnoresWindowLengths :
    (freshDec 1 [0x00, 0x07]).src.Serves ∧ (freshDec 8 [0x00, 0x07]).src.Serves ∧ (freshDec 1 [0x00, 0x07]).regs.Inv ∧
      (freshDec 8 [0x00, 0x07]).regs.Inv ∧ (freshDec 1 [0x00, 0x07]).SameView (freshDec 8 [0x00, 0x07]) :=
  ⟨(src_serves _).1, (src_serves _).2, by decide +kernel⟩
/-- All the bits there are, the buffered ones first, with a mask. -/
theorem witness_BooldecNextDeliversTheLogicalBits :
    let d : Dec := { freshDec 1 [0xFF, 0x80] with regs := { DecRegs.reset with pendingSkip := 1 } }
    let b : BoolDecRegs := ⟨7, 0x55⟩
    let s := stateOf (.boolDec d b) 16 [0b010]
    s.Ready (ready (.boolDec d b)) ∧ d.src.Serves ∧ d.regs.Inv ∧ b.Inv ∧ s.shared.mem.wf = true ∧ 24 % 8 = 0 ∧
      outputFault s.shared 24 (8 * ceilDiv 15 64) 15 (some 16) = none ∧
      (nonNullPositions (isNull s.shared (some 16)) 15).length = 14 ∧
      d.regs.pendingSkip.toNat + 14 ≤ (BoolDec.logicalBits d b).length :=
  ⟨⟨rfl, rfl⟩, (src_serves _).1, by decide +kernel⟩
/-- The bit coordinate 8, the sums `2^64 - 1` and `2^64`, the bit coordinate 9, and three coordinates. -/
theorem witness_BooldecSeekFusesTheCoordinates :
    let s := fun cs => providing (stateOf (.boolDec (freshDec 1 []) .reset)) cs
    (∀ cs, (s cs).Ready (ready (.boolDec (freshDec 1 []) .reset))) ∧ (freshDec 1 []).src.Serves ∧
      (∀ c₂ c₃ : Count, (s [0, 0, c₂, c₃]).shared.provided 0 = 0 :: 0 :: c₂ :: c₃ :: []) ∧
      ((8 : Count).toNat ≤ 8 ∧ 8 * (0 : Count).toNat + (8 : Count).toNat < 2 ^ 64) ∧
      ((7 : Count).toNat ≤ 8 ∧ 8 * (0x1FFFFFFFFFFFFFFF : Count).toNat + (7 : Count).toNat < 2 ^ 64) ∧
      ((8 : Count).toNat ≤ 8 ∧ 2 ^ 64 ≤ 8 * (0x1FFFFFFFFFFFFFFF : Count).toNat + (8 : Count).toNat) ∧ 8 < (9 : Count).toNat ∧
      ((s [0, 0, 0]).shared.provided 0).length < 4 :=
  ⟨fun _ => ⟨rfl, rfl⟩, (src_serves _).1, fun _ _ => rfl, by decide +kernel⟩
theorem witness_DecoderCommandsFrame :
    (stateOf (.byteDec (freshDec 8 []))).shared.mem.wf = true ∧
      ∀ x ∈ [(Instr.bdecNext 32 3 none, stateOf (.byteDec (freshDec 8 [0x00, 0x09]))),
          (.booldecNext 32 9 none, stateOf (.boolDec (freshDec 8 [0x00, 0x09]) .reset)),
          (.bdecSeek 0, providing (stateOf (.byteDec (freshDec 8 [0x00, 0x09]))) [0, 0, 1]),
          (.booldecSkip 3, stateOf (.boolDec (freshDec 8 []) .reset))],
        (x.1.kind = some .byteDec ∨ x.1.kind = some .boolDec) ∧ ∃ t, exec x.1 x.2 = .next t :=
  ⟨by decide +kernel, fun x hx => ⟨by revert x; decide +kernel, all_next (by decide +kernel) x hx⟩⟩
/-- A success, a report and a fatal error. -/
theorem witness_StatusFollowsTheResponse :
    (stateOf (.byteEnc (freshEnc 8))).Ready (ready (.byteEnc (freshEnc 8))) ∧
      ∀ x ∈ [(Instr.bencFlush, stateOf (.byteEnc (freshEnc 8))), (.boolencFlush, stateOf (.byteEnc (freshEnc 8))),
          (.bdecNext 32 1 none, stateOf (.byteDec (freshDec 8 [])))],
        x.1.kind ≠ none ∧ ∃ t, exec x.1 x.2 = .next t :=
  ⟨stateOf_ready _ _ _, fun x hx => ⟨by revert x; decide +kernel, all_next (by decide +kernel) x hx⟩⟩
theorem witness_FailedInstanceOnlyWaitsForDestruction :
    let s : State := { State.reset with slots := [some failed], inbox := [.destroy 0] }
    s.addressed = some failed ∧ failed.status.failed = true ∧ s.slots[0]? = some (some failed) ∧ (∃ t, step s = .next t) ∧
      ∃ t, step { s with inbox := [] } = .next t := ⟨rfl, rfl, rfl, ⟨_, rfl⟩, ⟨_, rfl⟩⟩
theorem witness_ConstructionSetsTheRegisters :
    let s : State := { State.reset with inbox := [.construct (.byteEncoder (Sink.unknown 2))] }
    s.inbox = .construct (.byteEncoder (Sink.unknown 2)) :: [] ∧
      ∀ j : Inst, some j ∈ s.slots → (Factory.byteEncoder (Sink.unknown 2)).make.sharesAgent j = false := by
  refine ⟨rfl, fun j hj => ?_⟩
  simp only [State.reset, List.mem_cons, Option.some.injEq, List.not_mem_nil, or_false] at hj
  rcases hj with rfl | rfl | rfl | rfl <;> decide
theorem witness_DestructionMakesNoTransaction :
    let s : State := { State.reset with slots := [some failed], inbox := [.destroy 0] }
    s.inbox = .destroy 0 :: [] ∧ s.slots[0]? = some (some failed) := ⟨rfl, rfl⟩
/-- A hole at addresses 8 to 15, a mask that is the last byte of the output, and accessors that do not return. -/
theorem witness_CallerFaultsHaveNoMeaning :
    let byteDec := stateOf (.byteDec (freshDec 8 []))
    let boolDec := stateOf (.boolDec (freshDec 8 []) .reset)
    let byteEnc := stateOf (.byteEnc (freshEnc 8))
    let boolEnc := stateOf (.boolEnc (freshEnc 8) .reset)
    let holed := fun s : State => { s with shared := { s.shared with holes := [(8, 8)] } }
    (byteDec.Ready (ready (.byteDec (freshDec 8 []))) ∧ boolDec.Ready (ready (.boolDec (freshDec 8 []) .reset)) ∧
      byteEnc.Ready (ready (.byteEnc (freshEnc 8))) ∧ boolEnc.Ready (ready (.boolEnc (freshEnc 8) .reset)) ∧
      (holed byteDec).Ready (ready (.byteDec (freshDec 8 []))) ∧ (holed boolEnc).Ready (ready (.boolEnc (freshEnc 8) .reset))) ∧
      7 % 8 ≠ 0 ∧ owned byteDec.shared (2 ^ 64 - 1) 2 = false ∧ owned (holed byteDec).shared 0 9 = false ∧
      owned (holed boolDec).shared 0 8 = true ∧ owned (holed boolDec).shared 8 (ceilDiv 8 8) = false ∧
      (owned byteDec.shared 32 8 = true ∧ owned byteDec.shared 39 (ceilDiv 8 8) = true) ∧
      (owned boolDec.shared 32 (8 * ceilDiv 1 64) = true ∧ owned boolDec.shared 39 (ceilDiv 1 8) = true) ∧
      addBuffersOwned (holed byteEnc).shared 0 [⟨15, 16⟩] none = false ∧
      (15 ∈ positions [⟨15, 17⟩] ∧ owned (holed boolEnc).shared (0 + 15) 1 = false) ∧
      (8 ∈ positions [⟨7, 9⟩] ∧ owned (holed boolEnc).shared (7 + 8 / 8) 1 = false) :=
  ⟨⟨stateOf_ready _ _ _, stateOf_ready _ _ _, stateOf_ready _ _ _, stateOf_ready _ _ _, ⟨rfl, rfl⟩, rfl, rfl⟩, by decide +kernel⟩
/-- One byte in both buffers. -/
theorem witness_CallerFaultsHaveNoMeaning_overlap :
    (∃ a : Nat, 32 ≤ a ∧ a < 32 + 8 ∧ 39 ≤ a ∧ a < 39 + ceilDiv 8 8) ∧
      ∃ a : Nat, 32 ≤ a ∧ a < 32 + 8 * ceilDiv 1 64 ∧ 39 ≤ a ∧ a < 39 + ceilDiv 1 8 := ⟨⟨39, by decide⟩, 39, by decide⟩
/-- An accessor of each kind that stops at the last of three positions, the first being null. -/
theorem witness_CallerFaultsHaveNoMeaning_accessors :
    ∀ stop ∈ [Answer.reenters, Answer.diverges],
      let nulls : List (Accessor Bool) := [⟨[(0, .returns true), (1, .returns false), (2, .returns false)], none⟩,
        ⟨[(0, .returns true), (1, .returns false)], some (match stop with | .reenters => .reenters | _ => .diverges)⟩]
      let values : List (Accessor Byte) := [⟨[(1, .returns 7)], some stop⟩]
      (freshEnc 8).sink.Serves ∧ positions [⟨0, 3⟩] = [0, 1] ++ 2 :: [] ∧
        (∀ h ∈ [0, 1], ∀ q ∈ [0, 1], (nulls[h]?.bind fun a => a.answer q) = some (.returns (q == 0))) ∧
        (∀ q ∈ [0, 1], (q == 0) = false → (values[0]?.bind fun a => a.answer q) = some (.returns 7)) ∧
        (nulls[0]?.bind fun a => a.answer 2) = some (.returns false) ∧ (values[0]?.bind fun a => a.answer 2) = some stop := by
  intro stop h
  simp only [List.mem_cons, List.not_mem_nil, or_false] at h
  rcases h with rfl | rfl <;> exact ⟨sink_serves.1, by decide +kernel⟩
/-- Agents that issue a command to their own instance inside their next transaction, and a sink that is in use. -/
theorem witness_CallerFaultsHaveNoMeaning_agents :
    let e : Enc := { freshEnc 8 with sink := { sinkOf 8 with reentersAt := some 0 } }
    let d : Dec := { freshDec 8 [] with src := { srcOf 8 [] with reentersAt := some 0 } }
    let s := { State.reset with inbox := [.construct (.boolEncoder (Sink.unknown 0)), .construct (.boolDecoder (Source.unknown 1) "")] }
    (stateOf (.byteEnc e)).Ready (ready (.byteEnc e)) ∧ (stateOf (.boolDec d .reset)).Ready (ready (.boolDec d .reset)) ∧
      e.sink.reentersAt = some e.sink.log.length ∧ d.src.reentersAt = some d.src.log.length ∧ e.regs.numLiterals = 0 ∧
      some (Factory.byteEncoder (Sink.unknown 0)).make ∈ s.slots ∧ some (Factory.boolDecoder (Source.unknown 1) "").make ∈ s.slots ∧
      (Factory.boolEncoder (Sink.unknown 0)).make.sinkIdent = some 0 ∧
      (Factory.boolDecoder (Source.unknown 1) "").make.srcIdent = some 1 ∧ runs (exec .bencFlush State.reset) = true :=
  ⟨stateOf_ready _ _ _, stateOf_ready _ _ _, by decide +kernel⟩
/-- One instance, one command. -/
theorem witness_EveryStepKeepsTheInvariants :
    let s := { stateOf (.byteEnc (literalEnc 8 [3, 3] 2)) with inbox := [.command 0 0x14 .zero] }
    s.Inv ∧ ∃ t, step s = .next t := by
  refine ⟨⟨by decide +kernel, fun inst h => ?_⟩, next_of_runs (by decide +kernel)⟩
  simp only [stateOf, List.mem_cons, Option.some.injEq, List.not_mem_nil, or_false] at h
  subst h
  exact ⟨by decide +kernel, fun _ => show (literalEnc 8 [3, 3] 2).Inv by decide +kernel⟩
theorem witness_BindingsAreForLife :
    let s := { State.reset with inbox := [.command 0 0x14 .zero] }
    (∃ t, step s = .next t) ∧ ∃ i, s.slots[0]? = some (some i) :=
  ⟨next_of_runs (by decide +kernel), _, rfl⟩
/-- A command to slot 0 of the four instances, seen from slot 1; and the same instance alone. -/
theorem witness_InstancesShareNoState :
    let s := { State.reset with inbox := [.command 0 0x14 .zero] }
    let alone : State := { State.reset with slots := [some (Factory.byteEncoder (Sink.unknown 0)).make] }
    (∃ t, step s = .next t) ∧ 1 < s.slots.length ∧ (∀ cmd ops rest, s.inbox ≠ .command 1 cmd ops :: rest) ∧
      (∀ rest, s.inbox ≠ .segment 1 :: rest) ∧ (∀ rest, s.inbox ≠ .destroy 1 :: rest) ∧
      State.reset.addressed = alone.addressed ∧ State.reset.shared = alone.shared ∧
      ∃ t, exec .bencFlush State.reset = .next t := by
  refine ⟨next_of_runs (by decide +kernel), by decide, ?_, ?_, ?_, rfl, rfl, next_of_runs (by decide +kernel)⟩ <;> intros <;> simp
/-- P2: four values staged, three coordinates read back from a provider. -/
theorem witness_SeekLandsOnTheRecordedPosition :
    let e := literalEnc 1 [1, 2, 5, 5] 2
    let d := freshDec 1 [0xFE, 0x01, 0x02, 0x00, 0x05]
    (stateOf (.byteEnc e) 16 [5]).Ready (ready (.byteEnc e)) ∧
      (providing (stateOf (.byteDec d)) [0, 0, 4]).Ready (ready (.byteDec d)) ∧ e.sink.Serves ∧ d.src.Serves ∧ e.Inv ∧
      e.sink.stream.length < 2 ^ 64 ∧ addBuffersOwned (stateOf (.byteEnc e) 16 [5]).shared 16 [⟨0, 1⟩] none = true ∧
      (providing (stateOf (.byteDec d)) [0, 0, 4]).shared.provided 0 = 0 :: 0 :: 4 :: [] ∧
      d.src.stream.map some = [some 0xFE, some 0x01, some 0x02, some 0x00, some 0x05] :=
  ⟨⟨rfl, rfl⟩, ⟨rfl, rfl⟩, sink_serves.2, (src_serves _).1, by decide +kernel⟩
theorem witness_AddedBooleansDecodeAfterFlush :
    let s := stateOf (.boolEnc (freshEnc 1) .reset) 16 [1, 0, 1, 0, 1, 0, 1, 0, 1]
    s.Ready (ready (.boolEnc (freshEnc 1) .reset)) ∧ (freshEnc 1).sink.Serves ∧ (freshEnc 1).Inv ∧ BoolEncRegs.reset.Inv ∧
      (freshEnc 1).regs.numLiterals = 0 ∧ BoolEncRegs.reset.bitsRemained = 8 ∧
      addBuffersOwned s.shared 16 [⟨0, 9⟩] none = true :=
  ⟨⟨rfl, rfl⟩, sink_serves.2, by decide +kernel⟩

end Sys2Proof.Tests
end

section
/-!
PROOFS. `Write`, case by case (41_byte_encoder R103 to R109): which case a stage takes, what that case does to the registers, and
the segment it emits on a sink that serves.
-/

namespace Sys2Proof.Machine

/-! ### The segment of a stage -/

/-- The segment of a repeat: the count less `MIN_REPEAT`, and the value (30_encoding R82). -/
theorem segment_of_repeating {r : EncRegs} (hr : r.repeating = true) : r.segment = [r.numLiterals - 3, r.litAt 0] := by
  simp [EncRegs.segment, hr]

/-- The segment of a literal: the count negated, and the staged bytes (30_encoding R83). -/
theorem segment_of_literal {r : EncRegs} (hr : r.repeating = false) : r.segment = (0 - r.numLiterals) :: r.stagedBytes := by
  simp [EncRegs.segment, hr]

/-- The count of the bytes before a run of two. -/
theorem toNat_count_before_run {n : BitVec 8} {k : Nat} (hn : n.toNat = k + 2) : (n - 2).toNat = k := by
  rw [BitVec.toNat_sub_of_le (by rw [BitVec.le_def, hn]; simp), hn]
  rfl

/-- The segment of the bytes before a run of two (R108); it does not depend on the tail run. -/
theorem segment_before_run {r : EncRegs} {t : BitVec 2} {k : Nat} (hr : r.repeating = false) (hn : r.numLiterals.toNat = k + 2) :
    (EncRegs.withCount { r with tailRun := t } (r.numLiterals - 2)).segment =
      BitVec.ofNat 8 (256 - k) :: (List.range k).map r.litAt := by
  have hcount := toNat_count_before_run hn
  have hheader : 0 - (r.numLiterals - 2) = BitVec.ofNat 8 (256 - k) := by
    apply BitVec.eq_of_toNat_eq
    rw [BitVec.toNat_sub, hcount]
    simp
  rw [segment_of_literal (by simp [hr]), EncRegs.stagedBytes, EncRegs.withCount_numLiterals, hcount, hheader]
  rfl

/-- The segment of a literal that its 128th byte fills (R109). -/
theorem segment_of_full_literal {r : EncRegs} {v : Byte} (hr : r.repeating = false) (hn : r.numLiterals = 127) :
    (((r.bumpTail v).setLit r.numLiterals.toNat v).withCount (r.numLiterals + 1)).segment =
      0x80#8 :: ((List.range 127).map r.litAt ++ [v]) := by
  have hbytes := Enc.stagedBytes_snoc (r.bumpTail v) v (by simp [hn])
  rw [EncRegs.bumpTail_numLiterals] at hbytes
  rw [segment_of_literal (by simp [hr]), hbytes, EncRegs.withCount_numLiterals,
    EncRegs.stagedBytes, EncRegs.bumpTail_numLiterals, hn]
  rfl

/-- `WriteValues` with the stage registers of `r`, not empty, on a sink that serves, and all that it changes (R102). -/
theorem writeValues_emits {e : Enc} {r : EncRegs} (hc : e.Coherent) (hs : e.sink.Serves) (hlen : r.bufLen = e.regs.bufLen)
    (hpos : r.bufPos = e.regs.bufPos) (h0 : r.numLiterals ≠ 0) :
    ∃ e' : Enc, Enc.writeValues { e with regs := r } = .ok () e' ∧ e'.written = e.written ++ r.segment.map some ∧
      e'.regs = { r.clearStage with bufLen := e'.regs.bufLen, bufPos := e'.regs.bufPos } := by
  obtain ⟨hc', hsame⟩ := Enc.coherent_of_window hc hlen hpos
  obtain ⟨e', h, -⟩ := Enc.writeValues_serves (e := { e with regs := r }) hs
  obtain ⟨-, hwritten, hlit, hcount, hclear, -⟩ := Enc.writeValues_spec hc' h
  obtain ⟨hrep, htail⟩ := hclear h0
  exact ⟨e', h, by rw [hwritten, if_neg h0, hsame], regs_cleared hlit hcount hrep htail⟩

/-! ### Which case `Write` takes (R103) -/

theorem write_empty {e : Enc} (v : Byte) (h0 : e.regs.numLiterals = 0) : e.write v = e.startCase v := if_pos h0

theorem write_repeated {e : Enc} {v : Byte} (h0 : e.regs.numLiterals ≠ 0) (hr : e.regs.repeating = true)
    (hv : v = e.regs.litAt 0) : e.write v = e.extendCase := by
  rw [Enc.write, if_neg h0, if_pos hr, if_pos hv]

theorem write_breaking {e : Enc} {v : Byte} (h0 : e.regs.numLiterals ≠ 0) (hr : e.regs.repeating = true)
    (hv : v ≠ e.regs.litAt 0) : e.write v = e.breakCase v := by
  rw [Enc.write, if_neg h0, if_pos hr, if_neg hv]

/-- The third equal byte in a row: the tail run reaches `MIN_REPEAT` (R107). -/
theorem write_promotes {e : Enc} {v : Byte} (h0 : e.regs.numLiterals ≠ 0) (hr : e.regs.repeating = false)
    (ht : e.regs.tailRun = 2) (hv : v = e.regs.litAt (e.regs.numLiterals.toNat - 1)) :
    e.write v = Enc.promote { e with regs := { e.regs with tailRun := 3 } } v := by
  have hbump : e.regs.bumpTail v = { e.regs with tailRun := 3 } := by
    rw [EncRegs.bumpTail, if_pos hv, ht]; rfl
  rw [write_literal h0 hr, Enc.literalCase, hbump]
  rfl

/-- Any other byte of a literal: the tail run stays below `MIN_REPEAT` (R107). -/
theorem write_appends {e : Enc} {v : Byte} (h0 : e.regs.numLiterals ≠ 0) (hr : e.regs.repeating = false)
    (ht : e.regs.tailRun.toNat ≤ 2) (hv : ¬(v = e.regs.litAt (e.regs.numLiterals.toNat - 1) ∧ e.regs.tailRun = 2)) :
    e.write v = Enc.append { e with regs := e.regs.bumpTail v } v := by
  have hne : e.regs.tailRun.toNat = 2 → e.regs.tailRun = 2 := fun h => BitVec.eq_of_toNat_eq h
  have hshort : (e.regs.bumpTail v).tailRun.toNat ≠ minRepeat := by
    rw [Enc.bumpTail_tailRun v ht, minRepeat_eq]
    split
    · next hlast => exact fun h3 => hv ⟨hlast, hne (by omega)⟩
    · decide
  rw [write_literal h0 hr]
  exact if_neg hshort

/-! ### What each case does -/

/-- A count below 255 does not wrap. -/
theorem toNat_count_succ {n : BitVec 8} (hn : n.toNat < 255) : (n + 1).toNat = n.toNat + 1 :=
  BitVec.toNat_add_of_lt (Nat.succ_lt_succ hn)

/-- A copy that does not fill the repeat (R105). -/
theorem extendCase_counts {e : Enc} (hn : e.regs.numLiterals.toNat < 129) :
    e.extendCase = .ok () { e with regs := e.regs.withCount (e.regs.numLiterals + 1) } := by
  refine if_neg ?_
  have hcount := toNat_count_succ (n := e.regs.numLiterals) (by omega)
  simp only [EncRegs.withCount_numLiterals, hcount, maxRepeat_eq]
  omega

/-- The copy that fills the repeat (R105). -/
theorem extendCase_fills {e : Enc} (hn : e.regs.numLiterals = 129) :
    e.extendCase = Enc.writeValues { e with regs := e.regs.withCount 130 } := by
  rw [Enc.extendCase, hn]
  rfl

/-- `Promote` with nothing before the run (R108). -/
theorem promote_run {e : Enc} (v : Byte) (hn : e.regs.numLiterals.toNat = 2) :
    e.promote v = .ok () { e with regs := e.regs.startRepeat v } := by
  rw [Enc.promote, if_neg (by simp [hn])]
  rfl

/-- `Promote` with bytes before the run: they are emitted first (R108). -/
theorem promote_emits_bytes_before_run {e : Enc} (v : Byte) (hn : 2 < e.regs.numLiterals.toNat) :
    e.promote v = (Enc.writeValues { e with regs := e.regs.withCount (e.regs.numLiterals - 2) }).bind fun _ e' =>
      .ok () { e' with regs := e'.regs.startRepeat v } := by
  rw [Enc.promote, if_pos (by simp only [minRepeat_eq]; omega)]
  rfl

/-- A byte that does not fill the literal (R109). -/
theorem append_stages {e : Enc} (v : Byte) (hn : e.regs.numLiterals.toNat < 127) :
    e.append v = .ok () { e with
      regs := (e.regs.setLit e.regs.numLiterals.toNat v).withCount (e.regs.numLiterals + 1) } := by
  refine if_neg ?_
  have hcount := toNat_count_succ (n := e.regs.numLiterals) (by omega)
  simp only [EncRegs.withCount_numLiterals, EncRegs.setLit_numLiterals, hcount, maxLiteral_eq]
  omega

/-- The byte that fills the literal (R109). -/
theorem append_fills {e : Enc} (v : Byte) (hn : e.regs.numLiterals = 127) :
    e.append v = Enc.writeValues { e with
      regs := (e.regs.setLit e.regs.numLiterals.toNat v).withCount (e.regs.numLiterals + 1) } := by
  refine if_pos ?_
  simp [hn]

/-- The tail run of a literal that is not empty is below `MIN_REPEAT` between commands (10_state R30). -/
theorem tailRun_le_two {e : Enc} (hi : e.Inv) (hr : e.regs.repeating = false) (h0 : e.regs.numLiterals ≠ 0) :
    e.regs.tailRun.toNat ≤ 2 := by
  have hstage := hi.1
  simp only [EncRegs.StageInv, hr, Enc.toNat_ne_zero h0, if_false, minRepeat_eq, Bool.false_eq_true] at hstage
  obtain ⟨-, -, htail, -⟩ := hstage
  exact htail

/-! ### The statements of 41_byte_encoder section 2 -/

/-- Settles O16: the case *Start* is one update of the registers. -/
theorem writeStartsAStage : Obligations.WriteStartsAStage := by
  unfold Obligations.WriteStartsAStage
  intro e v h0
  rw [write_empty v h0]
  rfl

/-- Settles O17: below 129 copies the case *Extend repeat* counts; at 129 it emits the repeat of 130. -/
theorem writeExtendsARepeat : Obligations.WriteExtendsARepeat := by
  unfold Obligations.WriteExtendsARepeat
  intro e v hc hr h0 hv
  have hwrite := write_repeated h0 hr hv
  refine ⟨fun hlt => hwrite.trans (extendCase_counts hlt), fun h129 hs => ?_, fun r e' => write_raised⟩
  obtain ⟨e', hok, hwritten, hregs⟩ := writeValues_emits (r := e.regs.withCount 130) hc hs rfl rfl (by simp)
  refine ⟨e', by rw [hwrite, extendCase_fills (BitVec.eq_of_toNat_eq h129), hok], ?_, hregs⟩
  rw [hwritten, segment_of_repeating (by simp [hr]), hv]
  simp

/-- Settles O18: the case *Break repeat* emits the repeat and starts a stage on the cleared registers. -/
theorem writeBreaksARepeat : Obligations.WriteBreaksARepeat := by
  unfold Obligations.WriteBreaksARepeat
  intro e v hc hr h0 hv
  refine ⟨fun hs => ?_, fun r e' => write_raised⟩
  obtain ⟨e₁, hok, hwritten, hregs⟩ := writeValues_emits hc hs rfl rfl h0
  refine ⟨{ e₁ with regs := e₁.regs.startStage v }, ?_, ?_, congrArg (·.startStage v) hregs⟩
  · rw [write_breaking h0 hr hv, Enc.breakCase, hok, Proc.bind_ok]
  · rw [segment_of_repeating hr] at hwritten
    exact hwritten

/-- Settles O19: `Promote` emits the bytes before the run, if there are any; then the run is a repeat of three. -/
theorem writePromotesARunOfThree : Obligations.WritePromotesARunOfThree := by
  unfold Obligations.WritePromotesARunOfThree
  intro e v k hi hr hn ht hv
  have h0 : e.regs.numLiterals ≠ 0 := Enc.ne_zero_of_toNat (by omega)
  refine ⟨fun hs => ?_, fun r e' => write_raised⟩
  rw [write_promotes h0 hr ht (by rw [hn]; exact hv)]
  by_cases hk : k = 0
  · refine ⟨_, promote_run v (by rw [hn, hk]), ?_, by rw [if_pos hk]; rfl⟩
    rw [if_pos hk, List.map_nil, List.append_nil]
    rfl
  · have hcount := toNat_count_before_run hn
    obtain ⟨e₁, hok, hwritten, hregs⟩ := writeValues_emits
      (r := EncRegs.withCount { e.regs with tailRun := 3 } (e.regs.numLiterals - 2)) hi.2 hs rfl rfl
      (Enc.ne_zero_of_toNat (hcount.trans_ne hk))
    refine ⟨{ e₁ with regs := e₁.regs.startRepeat v }, ?_, ?_, ?_⟩
    · rw [promote_emits_bytes_before_run v (by simp only [hn]; omega), hok, Proc.bind_ok]
    · rw [segment_before_run hr hn] at hwritten
      rw [if_neg hk]
      exact hwritten
    · rw [if_neg hk]
      exact congrArg (·.startRepeat v) hregs

/-- Settles O20: `Append` stages the byte below 127 bytes, and at 127 emits the literal of 128. -/
theorem writeAppendsToALiteral : Obligations.WriteAppendsToALiteral := by
  unfold Obligations.WriteAppendsToALiteral
  intro e v n hi hr hn hv
  have h0 : e.regs.numLiterals ≠ 0 := Enc.ne_zero_of_toNat (by omega)
  have hlast : e.regs.numLiterals.toNat - 1 = n := by omega
  have hwrite := write_appends h0 hr (tailRun_le_two hi hr h0) (by rw [hlast]; exact hv)
  refine ⟨fun hlt => ?_, fun h127 hs => ?_, fun r e' => write_raised⟩
  · rw [hwrite, append_stages v (by simp only [EncRegs.bumpTail_numLiterals]; omega)]
    simp only [EncRegs.bumpTail, hn]
    rfl
  · have hcount : e.regs.numLiterals = 127 := BitVec.eq_of_toNat_eq (hn.trans h127)
    obtain ⟨e', hok, hwritten, hregs⟩ := writeValues_emits
      (r := ((e.regs.bumpTail v).setLit e.regs.numLiterals.toNat v).withCount (e.regs.numLiterals + 1)) hi.2 hs rfl rfl
      (by simp [hcount])
    refine ⟨e', hwrite.trans ((append_fills v (by simp [hcount])).trans hok), ?_, ?_⟩
    · rw [hwritten, segment_of_full_literal hr hcount]
    · rw [hcount] at hregs
      exact hregs

end Sys2Proof.Machine
end

section
/-!
PROOFS. `SkipBytes` (42_segment_parser R147): inside the window only `WIN_POS` moves; past its end the source is skipped once.
-/

namespace Sys2Proof.Machine

namespace Dec

theorem length_unread (d : Dec) : d.unread.length = d.regs.win.length - d.regs.winPos.toNat := List.length_drop

/-- `SkipBytes` of bytes that are all unread in the window. -/
theorem skipBytes_in_window {d : Dec} {c : Nat} (hc : c ≤ d.regs.win.length - d.regs.winPos.toNat) :
    d.skipBytes c = { d with regs := { d.regs with winPos := BitVec.ofNat 64 (d.regs.winPos.toNat + c) } } := by
  simp [skipBytes, Nat.min_eq_left hc, BitVec.ofNat_add]

/-- `SkipBytes` of more bytes than are unread in the window. -/
theorem skipBytes_past_window {d : Dec} {c : Nat} (hpos : d.regs.winPos.toNat ≤ d.regs.win.length)
    (hc : d.regs.win.length - d.regs.winPos.toNat < c) :
    d.skipBytes c = { d with
      regs := { d.regs with winPos := BitVec.ofNat 64 d.regs.win.length }
      src := d.src.skip (c - (d.regs.win.length - d.regs.winPos.toNat)) } := by
  have hend : d.regs.winPos + BitVec.ofNat 64 (d.regs.win.length - d.regs.winPos.toNat) =
      BitVec.ofNat 64 d.regs.win.length := by
    conv_rhs => rw [← Nat.add_sub_cancel' hpos, BitVec.ofNat_add, BitVec.ofNat_toNat, BitVec.setWidth_eq]
  simp [skipBytes, Nat.min_eq_right hc.le, hc, hend]

/-- The stream before a decoder whose `WIN_POS` moved to `p`. -/
theorem upcoming_winPos {d : Dec} {p : Nat} (hp : p < 2 ^ 64) :
    upcoming { d with regs := { d.regs with winPos := BitVec.ofNat 64 p } } =
      d.regs.win.drop p ++ d.src.stream.drop d.src.cursor := by
  simp only [upcoming, unread, BitVec.toNat_ofNat, Nat.mod_eq_of_lt hp]

/-- `SkipBytes` passes over the next bytes of the stream, whatever the source answers: `SrcSkip` is not refused (20_memory R66). -/
theorem upcoming_skipBytes {d : Dec} (hi : d.regs.Inv) (c : Nat) : (d.skipBytes c).upcoming = d.upcoming.drop c := by
  obtain ⟨-, hpos, hlen⟩ := hi
  rcases le_or_gt c (d.regs.win.length - d.regs.winPos.toNat) with hc | hc
  · rw [skipBytes_in_window hc, upcoming_winPos (by omega), upcoming,
      List.drop_append_of_le_length (hc.trans_eq d.length_unread.symm), unread, List.drop_drop]
  · have hunread : d.unread.length ≤ c := d.length_unread.trans_le hc.le
    rw [skipBytes_past_window hpos hc, upcoming_winPos (d := { d with src := d.src.skip _ }) hlen, upcoming,
      List.drop_append, List.drop_eq_nil_of_le hunread, List.drop_length, List.drop_drop, length_unread]
    rfl

end Dec

/-- Settles O41: inside the window only `WIN_POS` moves; past its end the rest is one `SrcSkip`. -/
theorem skipBytesUsesTheWindowFirst : Obligations.SkipBytesUsesTheWindowFirst := by
  unfold Obligations.SkipBytesUsesTheWindowFirst
  intro d c hi
  have ⟨_, hpos, _⟩ := hi
  exact ⟨Dec.skipBytes_in_window, Dec.skipBytes_past_window hpos, Dec.upcoming_skipBytes hi c⟩

end Sys2Proof.Machine
end

section
/-!
PROOFS. `WriteBool` (44_bool_encoder R201): before the eighth boolean it is one update of the registers; the eighth hands the
packed byte to the inner `Write` and the registers start afresh.
-/

namespace Sys2Proof.Machine

namespace BoolEnc

/-- The registers after a boolean that leaves `CURRENT` incomplete keep their invariant (10_state R31, R32). -/
theorem pack_inv {b : BoolEncRegs} (h : b.Inv) (h2 : 2 ≤ b.bitsRemained.toNat) (v : Bool) : (pack b v).Inv := by
  obtain ⟨hn, hbits⟩ := pack_bits h v
  obtain ⟨-, h8, hz⟩ := h
  refine ⟨by omega, by omega, fun t ht => ?_⟩
  rw [hbits t t.isLt, if_neg (by omega)]
  exact hz t (by omega)

/-- `WriteBool` with two or more bits remaining hands over nothing. -/
theorem writeBool_packs {b : BoolEncRegs} (h : b.Inv) (h2 : 2 ≤ b.bitsRemained.toNat) (e : Enc) (v : Bool) :
    writeBool (e, b) v = .ok () (e, pack b v) :=
  if_neg (Enc.ne_zero_of_toNat (by rw [(pack_bits h v).1]; omega))

/-- `WriteBool` with one bit remaining is the inner `Write` of the packed byte, then fresh registers. -/
theorem writeBool_hands_over {b : BoolEncRegs} (h : b.Inv) (h1 : b.bitsRemained.toNat = 1) (e : Enc) (v : Bool) :
    writeBool (e, b) v = ((e.write (pack b v).current).embed fun e' => (e', pack b v)).bind fun _ u' =>
      .ok () (u'.1, { bitsRemained := 8, current := 0 }) :=
  if_pos (BitVec.eq_of_toNat_eq (by rw [(pack_bits h v).1, h1]; rfl))

end BoolEnc

/-- Settles O32: `WriteBool` is one `pack`, whose byte is handed over when no bit remains after it. -/
theorem writeBoolPacksMsbFirst : Obligations.WriteBoolPacksMsbFirst := by
  unfold Obligations.WriteBoolPacksMsbFirst
  intro e b v hi
  obtain ⟨-, hbits⟩ := BoolEnc.pack_bits hi v
  refine ⟨fun h2 => ?_, fun h1 => ?_⟩
  · exact ⟨BoolEnc.pack b v, BoolEnc.writeBool_packs hi h2 e v, BoolEnc.pack_inv hi h2 v, rfl, fun t => hbits t t.isLt⟩
  · have hwrite := BoolEnc.writeBool_hands_over hi h1 e v
    refine ⟨(BoolEnc.pack b v).current, fun t => ?_, fun e' hok => ?_, fun r e' herr => ?_⟩
    · rw [hbits t t.isLt, h1]
    · rw [hwrite, hok, Proc.embed_ok, Proc.bind_ok]
    · exact ⟨(e', BoolEnc.pack b v), by rw [hwrite, herr, Proc.embed_raised, Proc.bind_raised]⟩

end Sys2Proof.Machine
end

section
/-!
PROOFS. Encodings (30_encoding R80 to R94): a decoded command word is the word of its command, segments are read back from their
bytes, and a stream decodes exactly if it is a concatenation of segments.
-/

namespace Sys2Proof.Machine

/-! ### Command words (R90 to R94) -/

/-- A command word decodes to the command that it is the word of (R91). -/
theorem cmd_of_decodeCommand {cmd : Byte} {ops : Operands} {i : Instr} (h : decodeCommand cmd ops = .ok i) :
    i.cmd = some cmd := by
  unfold decodeCommand at h
  split at h <;> cases h <;> next hcode => exact congrArg some (BitVec.eq_of_toNat_eq hcode).symm

/-- What has a command word is encoded as that word with its operands (R92). -/
theorem encode_of_cmd {cmd : Byte} {i : Instr} (h : i.cmd = some cmd) : encode i = .command cmd i.operands := by
  cases i with
  | rep => cases h
  | lit => cases h
  | _ => cases h; rfl

/-- The command words are those of R91. -/
theorem cmd_code {cmd : Byte} {i : Instr} (h : i.cmd = some cmd) :
    cmd.toNat ∈ [0x11, 0x12, 0x13, 0x14, 0x15, 0x16, 0x21, 0x22, 0x23, 0x24, 0x25, 0x26, 0x31, 0x32, 0x33, 0x41, 0x42, 0x43] := by
  cases i <;> cases h <;> decide

/-! ### Segments (R80 to R83) -/

/-- Exactly one segment is one that leaves no byte. -/
theorem decodeSegment_of_decode {bytes : List Byte} {i : Instr} (h : decode (.segment bytes) = .ok i) :
    decodeSegment bytes = .ok (i, []) := by
  unfold decode at h
  dsimp only at h
  split at h
  · next hseg => cases h; exact hseg
  · cases h
  · cases h

/-- A segment is read back from its bytes, with the bytes after it. -/
theorem decodeSegment_segmentBytes {p : Params} {i : Instr} (hk : i.kind = none) (hw : i.WellFormed p) (rest : List Byte) :
    decodeSegment (i.segmentBytes ++ rest) = .ok (i, rest) := by
  cases i with
  | rep k v => exact decodeSegment_rep k v rest
  | lit m payload =>
    have hlen : payload.length = literalCount m := by
      simpa [Instr.WellFormed, Instr.check, literalCount] using hw
    exact decodeSegment_lit hlen rest
  | _ => cases hk

theorem segmentBytes_ne_nil {i : Instr} (hk : i.kind = none) : i.segmentBytes ≠ [] := by
  cases i with
  | rep => exact List.cons_ne_nil _ _
  | lit => exact List.cons_ne_nil _ _
  | _ => cases hk

/-- Segments one after another are read back, under any bound on their number that their length allows. -/
theorem decodeSegments_flatMap {p : Params} {is : List Instr} (h : ∀ i ∈ is, i.kind = none ∧ i.WellFormed p) {fuel : Nat}
    (hf : (is.flatMap Instr.segmentBytes).length ≤ fuel) :
    decodeSegments fuel (is.flatMap Instr.segmentBytes) = .ok is := by
  induction is generalizing fuel with
  | nil => cases fuel <;> rfl
  | cons i is ih =>
    obtain ⟨⟨hk, hw⟩, his⟩ := List.forall_mem_cons.1 h
    rw [List.flatMap_cons] at hf ⊢
    have hseg := decodeSegment_segmentBytes hk hw (is.flatMap Instr.segmentBytes)
    cases hb : i.segmentBytes with
    | nil => exact absurd hb (segmentBytes_ne_nil hk)
    | cons b bs =>
      rw [hb, List.cons_append] at hf hseg
      cases fuel with
      | zero => simp at hf
      | succ fuel =>
        rw [List.length_cons, List.length_append] at hf
        rw [List.cons_append, decodeSegments, hseg]
        simp only [ih his (fuel := fuel) (by omega)]
        rfl

/-! ### Streams (R80, R86) -/

/-- The bytes and values of a truncated segment once it is completed (R86). -/
theorem truncated_completes {b : List Byte} (hb : decodeSegment b = .error .truncated) (hne : b ≠ []) :
    ∃ more vs, Encodes (b ++ more) vs := by
  cases b with
  | nil => exact absurd rfl hne
  | cons h rest =>
    rcases header_cases h with ⟨k, rfl, -⟩ | ⟨m, rfl, -⟩
    · cases rest with
      | nil => exact ⟨[0], _, Encodes.rep k 0 .nil⟩
      | cons v rest => rw [decodeSegment_rep] at hb; cases hb
    · by_cases hlen : literalCount m ≤ rest.length
      · have hfull : (rest.take (literalCount m)).length = literalCount m := by simp [hlen]
        have hok := decodeSegment_lit hfull (rest.drop (literalCount m))
        rw [List.take_append_drop, hb] at hok
        cases hok
      · have hfull : (rest ++ List.replicate (literalCount m - rest.length) 0).length = literalCount m := by simp; omega
        exact ⟨List.replicate (literalCount m - rest.length) 0, _, by simpa using Encodes.lit m hfull .nil⟩

/-- A byte sequence is a stream of segments, or it ends inside one and can be completed (R86). -/
theorem encodes_or_truncated (bs : List Byte) :
    (∃ vs, Encodes bs vs) ∨ decodeStream bs = .error .truncated ∧ ∃ more vs, Encodes (bs ++ more) vs := by
  obtain ⟨a, b, vs, rfl, ha, rfl | ⟨hb, hne⟩⟩ := stream_split bs.length bs le_rfl
  · exact .inl ⟨vs, by simpa using ha⟩
  · obtain ⟨more, us, hmore⟩ := truncated_completes hb hne
    refine .inr ⟨?_, more, vs ++ us, by simpa using ha.append hmore⟩
    rw [decodeStream, ha.append_bad hb hne _ le_rfl]
    rfl

/-- What decodes as a stream is an encoding of the decoded values. -/
theorem encodes_of_decodeStream {bs vs : List Byte} (h : decodeStream bs = .ok vs) : Encodes bs vs := by
  rcases encodes_or_truncated bs with ⟨us, hus⟩ | ⟨htrunc, -⟩
  · rw [hus.decodeStream_eq] at h
    cases h
    exact hus
  · rw [htrunc] at h
    cases h

/-! ### The statements of 30_encoding -/

/-- Settles O1: a segment is read back by the lemmas of its kind, a command by its row of R91. -/
theorem decodeOfEncodeIsTheInstruction : Obligations.DecodeOfEncodeIsTheInstruction := by
  unfold Obligations.DecodeOfEncodeIsTheInstruction
  intro p i hw
  have hsegment : i.kind = none → decodeSegment i.segmentBytes = .ok (i, []) := fun hk => by
    simpa using decodeSegment_segmentBytes hk hw []
  cases i with
  | rep k v =>
    have hseg : decodeSegment [repeatHeader k, v] = _ := hsegment rfl
    simp only [encode, decode, hseg]
  | lit m payload =>
    have hseg : decodeSegment (literalHeader m :: payload) = _ := hsegment rfl
    simp only [encode, decode, hseg]
  | _ => rfl

/-- Settles O2: the bytes of a decoded segment are its encoding, and a command word is that of its command. -/
theorem encodeOfDecodeIsTheCode : Obligations.EncodeOfDecodeIsTheCode := by
  unfold Obligations.EncodeOfDecodeIsTheCode
  refine ⟨fun bytes i h => ?_, fun cmd ops i h => encode_of_cmd (cmd_of_decodeCommand h)⟩
  rcases decodeSegment_inv (decodeSegment_of_decode h) with ⟨k, v, rfl, rfl⟩ | ⟨m, payload, rfl, -, rfl⟩
  · rfl
  · rw [List.append_nil]
    rfl

/-- Settles O3: below 0x80 the header is a repeat's, from 0x80 on a literal's. -/
theorem headerDecidesTheSegment : Obligations.HeaderDecidesTheSegment := by
  unfold Obligations.HeaderDecidesTheSegment
  refine fun h => ⟨fun hlow v rest => ?_, fun hhigh payload rest hlen => ?_⟩
  · obtain ⟨k, rfl, hcount⟩ := header_repeats hlow
    exact ⟨.rep k v, decodeSegment_rep k v rest, by rw [Instr.values, hcount]⟩
  · obtain ⟨m, rfl, hcount⟩ := header_literal hhigh
    exact ⟨.lit m payload, decodeSegment_lit (hlen.trans hcount.symm) rest, rfl⟩

/-- Settles O4: each row of R91 by evaluation; that there is no other, since a decoded word is a word of R91. -/
theorem commandCodesAreComplete : Obligations.CommandCodesAreComplete := by
  unfold Obligations.CommandCodesAreComplete
  exact fun ops => ⟨rfl, rfl, rfl, rfl, rfl, rfl, rfl, rfl, rfl, rfl, rfl, rfl, rfl, rfl, rfl, rfl, rfl, rfl,
    fun _ _ h => cmd_code (cmd_of_decodeCommand h)⟩

/-- Settles O5 by evaluating the decoder on the seven samples. -/
theorem sampleWordsDecodeAsTheSpecSays : Obligations.SampleWordsDecodeAsTheSpecSays := by
  unfold Obligations.SampleWordsDecodeAsTheSpecSays
  decide

/-- Settles O6, by induction on the list of segments. -/
theorem streamIsAConcatenationOfSegments : Obligations.StreamIsAConcatenationOfSegments := by
  unfold Obligations.StreamIsAConcatenationOfSegments
  intro p is h
  have hdecode := decodeSegments_flatMap h le_rfl
  exact ⟨hdecode, by rw [decodeStream, hdecode]; rfl⟩

/-- Settles O7: a byte sequence splits into segments, but for a truncated one at its end. -/
theorem onlyTruncationIsMalformed : Obligations.OnlyTruncationIsMalformed := by
  unfold Obligations.OnlyTruncationIsMalformed
  intro bs
  rcases encodes_or_truncated bs with ⟨vs, hvs⟩ | ⟨htrunc, more, vs, hvs⟩
  · exact .inl ⟨vs, hvs.decodeStream_eq⟩
  · exact .inr ⟨htrunc, more, vs, hvs.decodeStream_eq⟩

/-- Settles O8: a stream that decodes is an encoding of the decoded values. -/
theorem logicalValuesAreTheDecodedValues : Obligations.LogicalValuesAreTheDecodedValues := by
  unfold Obligations.LogicalValuesAreTheDecodedValues
  exact fun bs vs h => (encodes_of_decodeStream h).streamValues_eq

end Sys2Proof.Machine
end

section
/-!
PROOFS. The whole machine, from the one lemma about an instruction (`exec_shape`) and the one about a step (`step_shape`): the
invariants between commands, what is for life, what a FAILED instance does, and that instances share no state.
-/

namespace Sys2Proof.Machine

theorem Shared.Keeps.params {sh sh' : Shared} (h : sh.Keeps sh') : sh'.params = sh.params := h.1

theorem Shared.Keeps.mem_wf {sh sh' : Shared} (h : sh.Keeps sh') (hm : sh.mem.wf = true) : sh'.mem.wf = true := by
  obtain ⟨-, -, -, -, hwf⟩ := h
  exact hwf hm

/-- A slot other than the one that was set. -/
theorem slots_set_other {α : Type} {l : List α} {j k : Nat} (h : k ≠ j) (a : α) : (l.set j a)[k]? = l[k]? :=
  List.getElem?_set_ne h.symm

/-- The slot that was set, where it exists. -/
theorem slots_set_same {α : Type} {l : List α} {k : Nat} {a : α} (h : l[k]? = some a) (b : α) : (l.set k b)[k]? = some b := by
  rw [List.getElem?_set_self', h]
  rfl

theorem lt_of_slot {α : Type} {l : List α} {k : Nat} {a : α} (h : l[k]? = some a) : k < l.length :=
  (List.getElem?_eq_some_iff.1 h).1

theorem addressed_of_slot {s : State} {inst : Inst} (h : s.slots[s.cur]? = some (some inst)) : s.addressed = some inst := by
  rw [State.addressed, h]
  rfl

theorem slot_of_addressed {s : State} {inst : Inst} (h : s.addressed = some inst) : s.slots[s.cur]? = some (some inst) :=
  Option.join_eq_some_iff.1 h

/-- The instance that an instruction leaves is the one addressed after it. -/
theorem Shape.addressed {s t : State} {inst inst' : Inst} (h : Shape s t inst inst') (hs : s.addressed = some inst) :
    t.addressed = some inst' := by
  refine addressed_of_slot ?_
  rw [h.slots, h.cur]
  exact slots_set_same (slot_of_addressed hs) _

/-! ### Every instruction checks the addressed instance first (60_exceptions R270, R271) -/

theorem exec_eq_withAddressed (i : Instr) (s : State) : ∃ f, exec i s = withAddressed s f := by
  cases i <;> exact ⟨_, rfl⟩

theorem exec_at_failed {i : Instr} {s : State} {inst : Inst} (h : s.addressed = some inst) (hf : inst.status.failed = true) :
    exec i s = .fault .failedInstance := by
  obtain ⟨f, hexec⟩ := exec_eq_withAddressed i s
  rw [hexec, withAddressed_failed h hf]

theorem exec_at_none {i : Instr} {s : State} (h : s.addressed = none) : exec i s = .fault .noInstance := by
  obtain ⟨f, hexec⟩ := exec_eq_withAddressed i s
  rw [hexec, withAddressed, h]

/-! ### Two states that agree on the addressed instance and on what lies outside the instances -/

section
variable {s₁ s₂ : State} (h : s₁.addressed = s₂.addressed) (hs : s₁.shared = s₂.shared) {P : Prop}
include h hs

theorem sim_onByteEnc (body : Enc → Shared → Proc (Enc × Shared) Count) : Sim (onByteEnc s₁ body) (onByteEnc s₂ body) P := by
  refine sim_with h fun inst h1 h2 => ?_
  rw [hs]
  cases inst.codec with
  | byteEnc => exact sim_complete h1 h2
  | boolEnc | byteDec | boolDec => exact sim_illegal h1 h2 hs

theorem sim_onBoolEnc (body : Enc × BoolEncRegs → Shared → Proc ((Enc × BoolEncRegs) × Shared) Count) :
    Sim (onBoolEnc s₁ body) (onBoolEnc s₂ body) P := by
  refine sim_with h fun inst h1 h2 => ?_
  rw [hs]
  cases inst.codec with
  | boolEnc => exact sim_complete h1 h2
  | byteEnc | byteDec | boolDec => exact sim_illegal h1 h2 hs

theorem sim_onByteDec (body : Dec → Shared → Proc (Dec × Shared) Count) : Sim (onByteDec s₁ body) (onByteDec s₂ body) P := by
  refine sim_with h fun inst h1 h2 => ?_
  rw [hs]
  cases inst.codec with
  | byteDec => exact sim_complete h1 h2
  | byteEnc | boolEnc | boolDec => exact sim_illegal h1 h2 hs

theorem sim_onBoolDec (body : Dec × BoolDecRegs → Shared → Proc ((Dec × BoolDecRegs) × Shared) Count) :
    Sim (onBoolDec s₁ body) (onBoolDec s₂ body) P := by
  refine sim_with h fun inst h1 h2 => ?_
  rw [hs]
  cases inst.codec with
  | boolDec => exact sim_complete h1 h2
  | byteEnc | boolEnc | byteDec => exact sim_illegal h1 h2 hs

/-- Every instruction does the same from both states; a segment leaves each its own last response. -/
theorem sim_exec (i : Instr) : Sim (exec i s₁) (exec i s₂) (i.kind ≠ none) := by
  cases i with
  | rep k v =>
    intro t ht
    obtain ⟨t₂, h1, h2, h3, -⟩ := sim_parser _ h hs t ht
    exact ⟨t₂, h1, h2, h3, fun hk => absurd rfl hk⟩
  | lit m payload =>
    intro t ht
    obtain ⟨t₂, h1, h2, h3, -⟩ := sim_parser _ h hs t ht
    exact ⟨t₂, h1, h2, h3, fun hk => absurd rfl hk⟩
  | bencAdd | bencAddFn | bencAddBits | bencFlush | bencRecpos | bencGetsize =>
    unfold exec
    exact sim_onByteEnc h hs _
  | boolencAdd | boolencAddFn | boolencAddBits | boolencFlush | boolencRecpos | boolencGetsize =>
    unfold exec
    exact sim_onBoolEnc h hs _
  | bdecNext | bdecSkip | bdecSeek =>
    unfold exec
    exact sim_onByteDec h hs _
  | booldecNext | booldecSkip | booldecSeek =>
    unfold exec
    exact sim_onBoolDec h hs _

end

/-! ### The statements about the whole machine -/

/-- Settles O56: a step changes at most one instance, which keeps its invariants, adds a fresh one, or drops one. -/
theorem everyStepKeepsTheInvariants : Obligations.EveryStepKeepsTheInvariants := by
  unfold Obligations.EveryStepKeepsTheInvariants
  rintro s t ⟨hmem, hinv⟩ h
  cases step_shape h with
  | runs k inst j hslot _ _ slots _ inv shared =>
    refine ⟨shared.mem_wf hmem, fun i hi => ?_⟩
    rw [slots] at hi
    rcases List.mem_or_eq_of_mem_set hi with hold | hnew
    · exact hinv i hold
    · cases hnew
      exact inv (hinv inst (List.mem_of_getElem? hslot))
  | idle slots shared => exact ⟨shared.mem_wf hmem, fun i hi => hinv i (slots ▸ hi)⟩
  | builds f slots shared =>
    refine ⟨by rw [shared]; exact hmem, fun i hi => ?_⟩
    rw [slots] at hi
    rcases List.mem_append.1 hi with hold | hnew
    · exact hinv i hold
    · cases List.mem_singleton.1 hnew
      exact make_inv f
  | drops k rest _ slots shared =>
    refine ⟨by rw [shared]; exact hmem, fun i hi => ?_⟩
    rw [slots] at hi
    rcases List.mem_or_eq_of_mem_set hi with hold | hnew
    · exact hinv i hold
    · cases hnew

/-- Settles O55: the four instances at reset are fresh, and memory has nothing listed. -/
theorem invariantsHoldAtReset : Obligations.InvariantsHoldAtReset := by
  unfold Obligations.InvariantsHoldAtReset
  refine ⟨rfl, fun inst hinst => ?_⟩
  simp only [State.reset, List.mem_cons, List.not_mem_nil, or_false, Option.some.injEq] at hinst
  rcases hinst with rfl | rfl | rfl | rfl <;> exact make_inv _

/-- Settles O57: an instance that a step changes keeps its binding, and the step leaves every other instance. -/
theorem bindingsAreForLife : Obligations.BindingsAreForLife := by
  unfold Obligations.BindingsAreForLife
  intro s t h
  have hkept {k : Nat} {i j : Inst} (hi : s.slots[k]? = some (some i)) (hj : t.slots[k]? = some (some j))
      (hsame : t.slots[k]? = s.slots[k]?) : j.binding = i.binding := by
    rw [hsame, hi] at hj
    cases hj
    rfl
  cases step_shape h with
  | runs k inst j hslot _ _ slots binding _ shared =>
    refine ⟨shared.params, fun k' i j' hi hj => ?_⟩
    by_cases hk : k' = k
    · subst hk
      rw [slots, slots_set_same hslot] at hj
      rw [hslot] at hi
      cases hi
      cases hj
      exact binding
    · exact hkept hi hj (by rw [slots, slots_set_other hk])
  | idle slots shared => exact ⟨shared.params, fun k i j hi hj => hkept hi hj (by rw [slots])⟩
  | builds f slots shared =>
    refine ⟨by rw [shared], fun k i j hi hj => hkept hi hj ?_⟩
    rw [slots, List.getElem?_append_left (lt_of_slot hi)]
  | drops k rest _ slots shared =>
    refine ⟨by rw [shared], fun k' i j hi hj => ?_⟩
    by_cases hk : k' = k
    · subst hk
      rw [slots, slots_set_same hi] at hj
      cases hj
    · exact hkept hi hj (by rw [slots, slots_set_other hk])

/-- Settles O51: every instruction checks the instance first, and a step runs nothing on a FAILED one. -/
theorem failedInstanceOnlyWaitsForDestruction : Obligations.FailedInstanceOnlyWaitsForDestruction := by
  unfold Obligations.FailedInstanceOnlyWaitsForDestruction
  refine ⟨fun i s inst => exec_at_failed, fun s t k inst h hslot hfailed => ?_⟩
  cases step_shape h with
  | runs k' inst' j hslot' hready _ slots _ _ _ =>
    have hk : k ≠ k' := by
      rintro rfl
      rw [hslot] at hslot'
      cases hslot'
      rw [hfailed] at hready
      cases hready
    exact .inl (by rw [slots, slots_set_other hk, hslot])
  | idle slots _ => exact .inl (by rw [slots, hslot])
  | builds f slots _ =>
    exact .inl (by rw [slots, List.getElem?_append_left (lt_of_slot hslot), hslot])
  | drops k' rest _ slots _ =>
    by_cases hk : k = k'
    · subst hk
      exact .inr (by rw [slots, slots_set_same hslot])
    · exact .inl (by rw [slots, slots_set_other hk, hslot])

/-- Settles O58: a step changes the slot it names alone, and an instruction reads the addressed instance alone. -/
theorem instancesShareNoState : Obligations.InstancesShareNoState := by
  unfold Obligations.InstancesShareNoState
  refine ⟨fun s t k h hlt hcommand hsegment hdestroy => ?_, fun i s₁ s₂ t₁ h hs h1 => sim_exec h hs i t₁ h1⟩
  cases step_shape h with
  | runs k' _ _ _ _ hin slots _ _ _ =>
    have hk : k ≠ k' := by
      rintro rfl
      rcases hin with ⟨cmd, ops, rest, hin⟩ | ⟨rest, hin⟩
      · exact hcommand cmd ops rest hin
      · exact hsegment rest hin
    rw [slots, slots_set_other hk]
  | idle slots _ => rw [slots]
  | builds f slots _ => rw [slots, List.getElem?_append_left hlt]
  | drops k' rest hin slots _ =>
    have hk : k ≠ k' := by
      rintro rfl
      exact hdestroy rest hin
    rw [slots, slots_set_other hk]

/-- Settles O50: how a command that ends in a next state is reported. -/
theorem statusFollowsTheResponse : Obligations.StatusFollowsTheResponse := by
  unfold Obligations.StatusFollowsTheResponse
  intro i s t inst hk hr h
  obtain ⟨inst₁, j, hr₁, hshape, hcommand, -⟩ := exec_shape h
  obtain ⟨resp, hresp, hreported⟩ := hcommand hk
  cases hr.1.symm.trans hr₁.1
  exact ⟨resp, j, hresp, hshape.addressed hr.1, hreported⟩

end Sys2Proof.Machine
end

section
/-!
PROOFS. Steps (30_encoding R90 to R94, 42_segment_parser R143, 70_reset R290 to R292): which instruction a step runs and on which
instance, and the steps that run none.
-/

namespace Sys2Proof.Machine

/-! ### The addressed instance -/

/-- A READY instance in the slot a step names is the one its instruction finds. -/
theorem ready_of_slot {s : State} {k : Nat} {inst : Inst} (h : s.slots[k]? = some (some inst))
    (hf : inst.status.failed = false) (rest : List Input) : State.Ready { s with cur := k, inbox := rest } inst :=
  ⟨slot_addressed h rest, hf⟩

/-! ### A command of another kind than the instance's is illegal (R94) -/

section
variable {s : State} {inst : Inst} (hr : s.Ready inst)
include hr

theorem onByteEnc_other (hne : .byteEnc ≠ inst.codec.kind) (body : Enc → Shared → Proc (Enc × Shared) Count) :
    onByteEnc s body = illegalCommand s inst := by
  rw [onByteEnc, withAddressed_ready hr]
  cases hc : inst.codec with
  | byteEnc => exact absurd (congrArg Codec.kind hc).symm hne
  | boolEnc | byteDec | boolDec => rfl

theorem onBoolEnc_other (hne : .boolEnc ≠ inst.codec.kind)
    (body : Enc × BoolEncRegs → Shared → Proc ((Enc × BoolEncRegs) × Shared) Count) :
    onBoolEnc s body = illegalCommand s inst := by
  rw [onBoolEnc, withAddressed_ready hr]
  cases hc : inst.codec with
  | boolEnc => exact absurd (congrArg Codec.kind hc).symm hne
  | byteEnc | byteDec | boolDec => rfl

theorem onByteDec_other (hne : .byteDec ≠ inst.codec.kind) (body : Dec → Shared → Proc (Dec × Shared) Count) :
    onByteDec s body = illegalCommand s inst := by
  rw [onByteDec, withAddressed_ready hr]
  cases hc : inst.codec with
  | byteDec => exact absurd (congrArg Codec.kind hc).symm hne
  | byteEnc | boolEnc | boolDec => rfl

theorem onBoolDec_other (hne : .boolDec ≠ inst.codec.kind)
    (body : Dec × BoolDecRegs → Shared → Proc ((Dec × BoolDecRegs) × Shared) Count) :
    onBoolDec s body = illegalCommand s inst := by
  rw [onBoolDec, withAddressed_ready hr]
  cases hc : inst.codec with
  | boolDec => exact absurd (congrArg Codec.kind hc).symm hne
  | byteEnc | boolEnc | byteDec => rfl

theorem exec_of_other_kind {i : Instr} {k : Kind} (hk : i.kind = some k) (hne : k ≠ inst.codec.kind) :
    exec i s = illegalCommand s inst := by
  cases i with
  | rep | lit => cases hk
  | bencAdd | bencAddFn | bencAddBits | bencFlush | bencRecpos | bencGetsize =>
    cases hk
    unfold exec
    exact onByteEnc_other hr hne _
  | boolencAdd | boolencAddFn | boolencAddBits | boolencFlush | boolencRecpos | boolencGetsize =>
    cases hk
    unfold exec
    exact onBoolEnc_other hr hne _
  | bdecNext | bdecSkip | bdecSeek =>
    cases hk
    unfold exec
    exact onByteDec_other hr hne _
  | booldecNext | booldecSkip | booldecSeek =>
    cases hk
    unfold exec
    exact onBoolDec_other hr hne _

end

/-! ### Segments (R143 to R145) -/

/-- A segment becomes the current one of a decoder that has spent the last. -/
theorem onParser_spent {s : State} {inst : Inst} {d : Dec} {b : Option BoolDecRegs} (hr : s.Ready inst)
    (hc : inst.codec = Codec.ofDec d b) (h0 : d.regs.remainingValues = 0) (f : Dec → Dec) :
    onParser s f = .next { s with slots := s.slots.set s.cur (some { inst with codec := Codec.ofDec (f d) b }) } := by
  rw [onParser, withAddressed_ready hr, hc]
  cases b <;> exact if_pos h0

/-- A segment step fetches for a decoder that has spent its current segment. -/
theorem stepSegment_spent {s : State} {target : Nat} {inst : Inst} {d : Dec} {b : Option BoolDecRegs}
    (hr : State.Ready { s with cur := target } inst) (hc : inst.codec = Codec.ofDec d b) (h0 : d.regs.remainingValues = 0) :
    stepSegment target s = fetchAndRun { s with cur := target } inst d fun d' => Codec.ofDec d' b := by
  rw [stepSegment, withAddressed_ready hr, hc]
  cases b <;> exact if_pos h0

/-- The fetch gives the segment that the stream has next, and a literal's payload stays in the stream (log 17). -/
theorem fetchSegment_of_decodeSegment {d : Dec} (hd : d.Good) {i : Instr} {more : List Byte}
    (h : decodeSegment d.upcoming = .ok (i, more)) :
    ∃ d', d.fetchSegment = .ok i d' ∧ d'.upcoming = i.owed ++ more ∧ d.SameSegment d' := by
  rcases Dec.fetchSegment_spec hd with
    ⟨hd0, k, v, rest, d', hup, hhead, hfetch, hrest, -, hsame⟩ | ⟨hd0, m, rest, d', hup, hhead, hfetch, hrest, -, hsame⟩ |
      ⟨-, ⟨hup, -⟩ | ⟨hd0, k, -, hup, hhead, -⟩⟩
  · rw [hup, decodeSegment, hhead] at h
    cases h
    exact ⟨d', hfetch, hrest, hsame⟩
  · rw [hup] at h
    rcases decodeSegment_inv h with ⟨k, v, rfl, hbytes⟩ | ⟨m', payload, rfl, hlen, hbytes⟩
    · cases hbytes
      rw [decodeHeader_repeatHeader] at hhead
      cases hhead
    · cases hbytes
      rw [decodeHeader_literalHeader] at hhead
      cases hhead
      rw [← hlen, List.take_left] at hfetch
      exact ⟨d', hfetch, hrest, hsame⟩
  · rw [hup] at h
    cases h
  · rw [hup, decodeSegment, hhead] at h
    cases h

/-- Only the window of the registers may differ. -/
theorem Dec.SameSegment.regs {d d' : Dec} (h : d.SameSegment d') :
    d'.regs = { d.regs with win := d'.regs.win, winPos := d'.regs.winPos } := by
  obtain ⟨hrem, hrep, hval, hskip, -⟩ := h
  simp only [← hrem, ← hrep, ← hval, ← hskip]

@[simp] theorem Codec.reentersAt_ofDec (d : Dec) (b : Option BoolDecRegs) : (Codec.ofDec d b).reentersAt = d.src.reentersAt := by
  cases b <;> rfl

/-! ### The statements about steps -/

/-- Settles O9: decoding a command is decoding its word. -/
theorem stepRunsTheDecodedCommand : Obligations.StepRunsTheDecodedCommand := by
  unfold Obligations.StepRunsTheDecodedCommand
  intro s target cmd ops rest i hin hdecode
  have hword : decodeCommand cmd ops = .ok i := hdecode
  simp only [step, hin, stepCommand, hword]

/-- Settles O10: the fetch leaves the payload of a literal in the stream, and of the registers only the window changes. -/
theorem stepRunsTheFetchedSegment : Obligations.StepRunsTheFetchedSegment := by
  unfold Obligations.StepRunsTheFetchedSegment
  intro s target rest inst d b i more hin hslot hf hc hinv hserves h0 hdecode
  obtain ⟨d', hfetch, hup, hsame⟩ := fetchSegment_of_decodeSegment ⟨hinv, hserves⟩ hdecode
  have ⟨_, _, _, _, hkey⟩ := hsame
  have hq : inst.codec.reenters (Codec.ofDec d' b) = false :=
    Codec.reenters_of_none (by rw [hc, Codec.reentersAt_ofDec]; exact hserves.1) _
  refine ⟨d', hup, hkey, hsame.regs, ?_⟩
  have hstep : step s = fetchAndRun { s with cur := target, inbox := rest } inst d fun d' => Codec.ofDec d' b := by
    simp only [step, hin]
    exact stepSegment_spent (s := { s with inbox := rest }) (ready_of_slot hslot hf rest) hc h0
  rw [hstep, fetchAndRun, hfetch]
  simp only [hq]
  rfl

/-- Settles O11: a word with another tag decodes to a command of another kind, if to any. -/
theorem illegalCommandIsReportedOnly : Obligations.IllegalCommandIsReportedOnly := by
  unfold Obligations.IllegalCommandIsReportedOnly
  intro s target cmd ops rest inst hin hslot hf hillegal
  have hr := ready_of_slot hslot hf rest
  have hstep : step s = illegalCommand { s with cur := target, inbox := rest } inst := by
    simp only [step, hin, stepCommand]
    cases hdecode : decodeCommand cmd ops with
    | error e => exact withAddressed_ready hr _
    | ok i =>
      obtain ⟨k, hk, htag⟩ := decodeCommand_kind hdecode
      refine exec_of_other_kind hr hk ?_
      rintro rfl
      rcases hillegal with hother | hnone
      · exact hother htag
      · exact hnone i hdecode
  rw [hstep]
  exact illegalCommand_next _ inst

/-- Settles O12: nothing pending is the first case of a step. -/
theorem idleBlockStaysAsItIs : Obligations.IdleBlockStaysAsItIs := by
  unfold Obligations.IdleBlockStaysAsItIs
  intro s hin
  simp only [step, hin]

/-- Settles O13 by the laws of caller memory. -/
theorem memoryReadsBackWhatIsWritten : Obligations.MemoryReadsBackWhatIsWritten := by
  unfold Obligations.MemoryReadsBackWhatIsWritten
  exact fun m a b v hm => ⟨Memory.read_write hm a b v, Memory.write_wf hm a v⟩

/-- Settles O37: a segment loads the registers of a decoder that has spent the last one. -/
theorem segmentsBecomeTheCurrentOne : Obligations.SegmentsBecomeTheCurrentOne := by
  unfold Obligations.SegmentsBecomeTheCurrentOne
  exact fun s inst d b hr hc h0 => ⟨fun k v => onParser_spent hr hc h0 _, fun m payload => onParser_spent hr hc h0 _⟩

/-- Settles O52: no living instance shares the agent, so the factory's instance is added. -/
theorem constructionSetsTheRegisters : Obligations.ConstructionSetsTheRegisters := by
  unfold Obligations.ConstructionSetsTheRegisters
  refine ⟨fun s f rest hin hfree => ?_, fun sink => ⟨.reset, rfl, rfl, rfl, rfl, rfl, rfl, rfl⟩,
    fun src key => ⟨.reset, rfl, rfl, rfl, rfl, rfl, rfl, rfl, rfl⟩⟩
  have hnone : (s.slots.any fun slot => slot.any fun j => f.make.sharesAgent j) = false := by
    rw [List.any_eq_false]
    rintro (_ | j) hslot
    · simp
    · simp [hfree j hslot]
  simp only [step, hin, construct, hnone]
  rfl

/-- Settles O53: the slot is emptied, and every instruction finds no instance there. -/
theorem destructionMakesNoTransaction : Obligations.DestructionMakesNoTransaction := by
  unfold Obligations.DestructionMakesNoTransaction
  intro s k inst rest hin hslot
  refine ⟨?_, fun i => exec_at_none ?_⟩
  · simp only [step, hin, destroy, hslot, Option.join_some]
  · rw [State.addressed, slots_set_same hslot]
    rfl

end Sys2Proof.Machine
end

section
/-!
PROOFS. Emission (41_byte_encoder R101, R102, R110): when a window is requested, what `WriteValues` emits, and the bytes that runs
of equal values are emitted as.
-/

namespace Sys2Proof.Machine

/-! ### One byte (R101) -/

/-- `SinkNext` hands over what the sink answers. -/
theorem Sink.next_fst (s : Sink) : s.next.1 = s.answer := by
  unfold Sink.next
  split <;> next h => exact h.symm

/-- `EmitByte` in a window with room. -/
theorem emitByte_places {e : Enc} (b : Byte) (h : e.regs.bufPos ≠ e.regs.bufLen) : e.emitByte b = .ok () (e.place b) :=
  if_neg h

/-- `EmitByte` that is granted a window: the byte is the first in it. -/
theorem emitByte_granted {e : Enc} {len : Count} (b : Byte) (h : e.regs.bufPos = e.regs.bufLen) (hnext : e.sink.next.1 = some len)
    (hlen : len ≠ 0) : e.emitByte b = .ok ()
      (Enc.place { regs := { e.regs with bufLen := len, bufPos := 0 }, sink := e.sink.next.2 } b) := by
  rw [Enc.emitByte, if_pos h]
  obtain ⟨sink, hsink⟩ : ∃ sink, e.sink.next = (some len, sink) := ⟨_, Prod.ext hnext rfl⟩
  rw [hsink]
  exact if_neg hlen

/-- Settles O14: the three cases of R101. -/
theorem emitByteRequestsAWindowLazily : Obligations.EmitByteRequestsAWindowLazily := by
  unfold Obligations.EmitByteRequestsAWindowLazily
  refine fun e b => ⟨emitByte_places b, fun hfull len hnext hlen => emitByte_granted b hfull hnext hlen, fun hfull hnext => ?_⟩
  rw [Sink.next_fst] at hnext
  obtain ⟨hstream, -, hraise⟩ := emitByte_refused b hfull hnext
  exact ⟨hstream, _, rfl, hraise⟩

/-! ### The stage (R102) -/

/-- Settles O15: the segment of the stage is the one R102 names, and a raise is one of `EmitByte`. -/
theorem writeValuesEmitsTheStage : Obligations.WriteValuesEmitsTheStage := by
  unfold Obligations.WriteValuesEmitsTheStage
  refine fun e hc => ⟨fun h0 => if_pos h0, fun h0 hs => ?_, fun r e' => writeValues_raised⟩
  obtain ⟨e', hok, hserves⟩ := Enc.writeValues_serves hs
  obtain ⟨hc', hwritten, hlit, hcount, hclear, -⟩ := Enc.writeValues_spec hc hok
  obtain ⟨hrep, htail⟩ := hclear h0
  rw [if_neg h0] at hwritten
  exact ⟨e', hok, hwritten, regs_cleared hlit hcount hrep htail, hc', hserves⟩

/-! ### Windows (R110) -/

/-- A run of `Write` on a pair: what is emitted is the same. -/
theorem pair_writeAll {e₁ e₂ : Enc} (h : Pair e₁ e₂) (vs : List Byte) : PairStep e₁ e₂ fun e => e.writeAll vs := by
  induction vs generalizing e₁ e₂ with
  | nil => exact pairStep_ok h id fun _ _ _ => rfl
  | cons v vs ih => exact pairStep_bind (pair_write v h) fun a b hab => ih hab

/-- Settles O30: a pair of encoders stays one, step by step. -/
theorem emittedBytesIgnoreWindowLengths : Obligations.EmittedBytesIgnoreWindowLengths := by
  unfold Obligations.EmittedBytesIgnoreWindowLengths
  rintro e₁ e₂ vs ⟨-, hc₁⟩ ⟨-, hc₂⟩ hs₁ hs₂ hsame
  obtain ⟨e₁', e₂', bs, h1, h2, hw1, hw2, -, -, -, -, hsame'⟩ := pair_writeAll ⟨hc₁, hc₂, hs₁, hs₂, hsame⟩ vs
  exact ⟨e₁', e₂', bs, h1, h2, hw1, hw2, hsame'⟩

/-! ### Runs of equal bytes (R110) -/

/-- From nothing staged at `e`, `n` equal bytes are staged at `e'` and nothing is emitted. -/
structure StagedRun (e : Enc) (v : Byte) (n : Nat) (e' : Enc) : Prop where
  ok : e.writeAll (List.replicate n v) = .ok () e'
  inv : e'.Inv
  serves : e'.sink.Serves
  written : e'.written = e.written
  count : e'.regs.numLiterals.toNat = n
  repeating : e'.regs.repeating = decide (3 ≤ n)
  tail : n ≤ 2 → e'.regs.tailRun.toNat = n
  first : 1 ≤ n → e'.regs.litAt 0 = v
  second : n = 2 → e'.regs.litAt 1 = v

/-- One more value after a run of writes. -/
theorem writeAll_snoc {e e₁ e₂ : Enc} {vs : List Byte} {v : Byte} (h1 : e.writeAll vs = .ok () e₁) (h2 : e₁.write v = .ok () e₂) :
    e.writeAll (vs ++ [v]) = .ok () e₂ :=
  Enc.writeAll_append h1 (by rw [Enc.writeAll, h2]; rfl)

theorem write_inv {e e' : Enc} {v : Byte} (hi : e.Inv) (h : e.write v = .ok () e') : e'.Inv :=
  Enc.writeAll_inv hi (vs := [v]) (by rw [Enc.writeAll, h]; rfl)

section
variable {e e₁ : Enc} {v : Byte} {n : Nat}

theorem stagedRun_zero (hi : e.Inv) (hs : e.sink.Serves) (h0 : e.regs.numLiterals = 0) : StagedRun e v 0 e := by
  have hr := not_repeating hi h0
  have htail : e.regs.tailRun = 0 := by
    have hstage := hi.1
    simpa [EncRegs.StageInv, hr, h0] using hstage
  exact ⟨rfl, hi, hs, rfl, by rw [h0]; rfl, hr, fun _ => by rw [htail]; rfl, by simp, by simp⟩

/-- One more of the equal bytes changes the stage alone; what is asked of the new stage is left to the case of R103. -/
theorem StagedRun.succ {r : EncRegs} (h : StagedRun e v n e₁) (hwrite : e₁.write v = .ok () { e₁ with regs := r })
    (hlen : r.bufLen = e₁.regs.bufLen) (hpos : r.bufPos = e₁.regs.bufPos) (hcount : r.numLiterals.toNat = n + 1)
    (hrep : r.repeating = decide (3 ≤ n + 1)) (htail : n + 1 ≤ 2 → r.tailRun.toNat = n + 1) (hfirst : r.litAt 0 = v)
    (hsecond : n + 1 = 2 → r.litAt 1 = v) : StagedRun e v (n + 1) { e₁ with regs := r } where
  ok := by
    rw [List.replicate_succ']
    exact writeAll_snoc h.ok hwrite
  inv := write_inv h.inv hwrite
  serves := h.serves
  written := (Enc.coherent_of_window h.inv.2 hlen hpos).2.trans h.written
  count := hcount
  repeating := hrep
  tail := htail
  first := fun _ => hfirst
  second := hsecond

/-- Up to 129 equal bytes are staged: one starts a stage, two are a literal, the third makes a repeat of them. -/
theorem exists_stagedRun (hi : e.Inv) (hs : e.sink.Serves) (h0 : e.regs.numLiterals = 0) (hn : n ≤ 129) :
    ∃ e', StagedRun e v n e' := by
  induction n with
  | zero => exact ⟨e, stagedRun_zero hi hs h0⟩
  | succ n ih =>
    obtain ⟨e₁, h⟩ := ih (by omega)
    have hcount {c : BitVec 8} (hc : c.toNat = n) : e₁.regs.numLiterals = c := BitVec.eq_of_toNat_eq (h.count.trans hc.symm)
    rcases (by omega : n = 0 ∨ n = 1 ∨ n = 2 ∨ 3 ≤ n) with rfl | rfl | rfl | h3
    · exact ⟨_, h.succ (write_empty v (hcount rfl)) rfl rfl rfl h.repeating (fun _ => rfl)
        (EncRegs.litAt_startStage_zero _ v) (by simp)⟩
    · have htail : e₁.regs.tailRun = 1 := BitVec.eq_of_toNat_eq (h.tail (by omega))
      have hwrite := (writeAppendsToALiteral e₁ v 0 h.inv h.repeating h.count (by simp [htail])).1 (by omega)
      exact ⟨_, h.succ hwrite rfl rfl (by simp [hcount (c := 1) rfl]) h.repeating (by simp [h.first le_rfl, htail])
        ((EncRegs.litAt_setLit e₁.regs v 1 0).trans (h.first le_rfl)) fun _ => EncRegs.litAt_setLit e₁.regs v 1 1⟩
    · have htail : e₁.regs.tailRun = 2 := BitVec.eq_of_toNat_eq (h.tail le_rfl)
      have hwrite := write_third h.repeating (hcount rfl) htail (h.second rfl)
      exact ⟨_, h.succ hwrite rfl rfl rfl rfl (by omega) (EncRegs.litAt_startRepeat_zero _ v) (by omega)⟩
    · have hr : e₁.regs.repeating = true := h.repeating.trans (decide_eq_true h3)
      have hne : e₁.regs.numLiterals ≠ 0 := Enc.ne_zero_of_toNat (by rw [h.count]; omega)
      have hlt : e₁.regs.numLiterals.toNat < 129 := by rw [h.count]; omega
      have hv : v = e₁.regs.litAt 0 := (h.first (by omega)).symm
      have hwrite := (writeExtendsARepeat e₁ v h.inv.2 hr hne hv).1 hlt
      exact ⟨_, h.succ hwrite rfl rfl (by rw [toNat_count_succ (by omega), h.count]) (by simp [hr]; omega) (by omega)
        hv.symm (by omega)⟩

/-- What a `FLUSH` adds to the stream after a run: the segment of the stage. -/
theorem StagedRun.flush (h : StagedRun e v n e₁) (hn : 1 ≤ n) :
    ∃ size e', e₁.flush = .ok size e' ∧ e'.sink.stream = e.written ++ e₁.regs.segment.map some := by
  have h0 : e₁.regs.numLiterals ≠ 0 := Enc.ne_zero_of_toNat (by rw [h.count]; omega)
  obtain ⟨size, e', hok, hstream⟩ := flush_written h.inv h.serves
  rw [if_neg h0, h.written] at hstream
  exact ⟨size, e', hok, hstream⟩

/-- The 130th of the equal bytes emits the repeat, and nothing is staged after it. -/
theorem exists_full_run (hi : e.Inv) (hs : e.sink.Serves) (h0 : e.regs.numLiterals = 0) :
    ∃ e', e.writeAll (List.replicate 130 v) = .ok () e' ∧ e'.Inv ∧ e'.sink.Serves ∧ e'.regs.numLiterals = 0 ∧
      e'.written = e.written ++ [some 0x7F, some v] := by
  obtain ⟨e₁, h⟩ := exists_stagedRun (v := v) hi hs h0 (n := 129) le_rfl
  have hne : e₁.regs.numLiterals ≠ 0 := Enc.ne_zero_of_toNat (by rw [h.count]; omega)
  have hextend := writeExtendsARepeat e₁ v h.inv.2 h.repeating hne (h.first (by omega)).symm
  obtain ⟨-, hfull, -⟩ := hextend
  obtain ⟨e₂, hwrite, hwritten, hregs⟩ := hfull h.count h.serves
  obtain ⟨e₃, hwrite', hserves⟩ := Enc.write_serves v h.serves
  cases hwrite.symm.trans hwrite'
  refine ⟨e₂, ?_, write_inv h.inv hwrite, hserves, by rw [hregs], by rw [hwritten, h.written]⟩
  rw [show 130 = 129 + 1 from rfl, List.replicate_succ']
  exact writeAll_snoc h.ok hwrite

/-- The segment of a stage of two equal bytes. -/
theorem StagedRun.segment_two (h : StagedRun e v 2 e₁) : e₁.regs.segment = [0xFE#8, v, v] := by
  have hcount : e₁.regs.numLiterals = 2 := BitVec.eq_of_toNat_eq h.count
  rw [segment_of_literal h.repeating, Enc.stagedBytes_pair e₁.regs 0 h.count, h.first (by omega), h.second rfl, hcount]
  rfl

/-- The segment of a stage of one byte. -/
theorem StagedRun.segment_one (h : StagedRun e v 1 e₁) : e₁.regs.segment = [0xFF#8, v] := by
  have hcount : e₁.regs.numLiterals = 1 := BitVec.eq_of_toNat_eq h.count
  rw [segment_of_literal h.repeating, EncRegs.stagedBytes, hcount, ← h.first le_rfl]
  rfl

/-- The segment of a stage of three or more equal bytes. -/
theorem StagedRun.segment_repeat (h : StagedRun e v n e₁) (h3 : 3 ≤ n) : e₁.regs.segment = [BitVec.ofNat 8 (n - 3), v] := by
  have hcount : e₁.regs.numLiterals - 3 = BitVec.ofNat 8 (n - 3) := by
    have hlt := e₁.regs.numLiterals.isLt
    rw [h.count] at hlt
    apply BitVec.eq_of_toNat_eq
    rw [BitVec.toNat_sub_of_le (by rw [BitVec.le_def, h.count]; exact h3), h.count, BitVec.toNat_ofNat]
    exact (Nat.mod_eq_of_lt (by omega)).symm
  rw [segment_of_repeating (h.repeating.trans (decide_eq_true h3)), h.first (by omega), hcount]

end

/-- Settles O31: up to 129 equal bytes are one stage, the 130th emits it, and the 131st starts another. -/
theorem runsEncodeAsTheSpecSays : Obligations.RunsEncodeAsTheSpecSays := by
  unfold Obligations.RunsEncodeAsTheSpecSays
  intro e v n hi hs h0 hn
  rcases (by omega : n = 2 ∨ 3 ≤ n ∧ n ≤ 129 ∨ n = 130 ∨ n = 131) with rfl | ⟨h3, h129⟩ | rfl | rfl
  · obtain ⟨e₁, h⟩ := exists_stagedRun (v := v) hi hs h0 (n := 2) (by omega)
    obtain ⟨size, e', hflush, hstream⟩ := h.flush (by omega)
    exact ⟨e₁, e', size, h.ok, hflush, by rw [hstream, h.segment_two, if_pos rfl]⟩
  · obtain ⟨e₁, h⟩ := exists_stagedRun (v := v) hi hs h0 h129
    obtain ⟨size, e', hflush, hstream⟩ := h.flush (by omega)
    exact ⟨e₁, e', size, h.ok, hflush, by rw [hstream, h.segment_repeat h3, if_neg (by omega), if_neg (by omega)]⟩
  · obtain ⟨e₁, hok, hi₁, hs₁, hempty, hwritten⟩ := exists_full_run (v := v) hi hs h0
    obtain ⟨size, e', hflush, hstream⟩ := flush_written hi₁ hs₁
    refine ⟨e₁, e', size, hok, hflush, ?_⟩
    rw [hstream, if_pos hempty, List.append_nil, hwritten]
    rfl
  · obtain ⟨e₁, hok, hi₁, hs₁, hempty, hwritten⟩ := exists_full_run (v := v) hi hs h0
    obtain ⟨e₂, h⟩ := exists_stagedRun (v := v) hi₁ hs₁ hempty (n := 1) (by omega)
    obtain ⟨size, e', hflush, hstream⟩ := h.flush le_rfl
    refine ⟨e₂, e', size, Enc.writeAll_append hok h.ok, hflush, ?_⟩
    rw [hstream, h.segment_one, hwritten, List.append_assoc]
    rfl

end Sys2Proof.Machine
end

section
/-!
PROOFS. The byte encoder's commands (41_byte_encoder R111 to R116): each on a READY instance whose sink serves, from the lemma about
the procedure it runs.
-/

namespace Sys2Proof.Machine

/-! ### The twelve encoder commands on an encoder (R90) -/

/-- After a success the instance with its new registers is READY. -/
theorem ready_after {s : State} {inst : Inst} (hr : s.Ready inst) (c : Codec) (sh : Shared) (resp : Response) :
    (s.reply { inst with codec := c } sh resp).Ready { inst with codec := c } :=
  reply_ready (inst' := { inst with codec := c }) hr rfl sh resp

/-- A sink that serves re-enters nothing. -/
theorem reenters_of_serves {inst : Inst} {e : Enc} {b : Option BoolEncRegs} (hc : inst.codec = Codec.ofEnc e b)
    (hs : e.sink.Serves) (c : Codec) : inst.codec.reenters c = false := by
  refine Codec.reenters_of_none ?_ c
  rw [hc]
  cases b <;> exact hs.1

/-- What is written is encoded as the segments emitted, and what a `FLUSH` then adds as the stage. -/
theorem writeAll_flush_encodes {e e₁ e₂ : Enc} {vs : List Byte} {n : Count} (hi : e.Inv) (h : e.writeAll vs = .ok () e₁)
    (hf : e₁.flush = .ok n e₂) :
    ∃ bs, Encodes bs (e.regs.stagedValues ++ vs) ∧ e₂.sink.stream = e.written ++ bs.map some := by
  obtain ⟨hstage, hc, bs, us, hbs, hw, hvalues⟩ := Enc.writeAll_spec hi.1 hi.2 h
  obtain ⟨-, -, -, -, -, ⟨cs, hcs, hstream⟩, -⟩ := Enc.flush_spec hstage hc hf
  refine ⟨bs ++ cs, ?_, ?_⟩
  · rw [← hvalues]
    exact hbs.append hcs
  · rw [hstream, hw, List.map_append, List.append_assoc]

/-- The values that the array form reads, as the statements write them. -/
theorem gatherBytes_eq (sh : Shared) (data : Addr) (ranges : List Range) (nulls : Option Addr) :
    gatherBytes sh data ranges nulls =
      ((positions ranges).filter fun i => !isNull sh nulls i).map fun i => sh.mem.read (data + i) := rfl

section
variable {s : State} {inst : Inst} {e : Enc} (hr : s.Ready inst) (hc : inst.codec = .byteEnc e) (hs : e.sink.Serves)
include hr hc hs

/-- `BENC.ADD` of buffers that the caller owns (R111). -/
theorem exec_bencAdd_serves {data : Addr} {ranges : List Range} {nulls : Option Addr}
    (ho : addBuffersOwned s.shared data ranges nulls = true) :
    ∃ e', e.writeAll (gatherBytes s.shared data ranges nulls) = .ok () e' ∧ e'.sink.Serves ∧
      exec (.bencAdd data ranges nulls) s = .next (s.reply { inst with codec := .byteEnc e' } s.shared
        { status := 0, result := countBits (gatherBytes s.shared data ranges nulls).length, diag := none }) := by
  obtain ⟨e', hok, hs'⟩ := Enc.writeAll_serves (gatherBytes s.shared data ranges nulls) hs
  refine ⟨e', hok, hs', ?_⟩
  rw [exec, execBencAdd, onByteEnc_ready hr hc, if_pos ho]
  dsimp only
  rw [hok]
  exact complete_ok (reenters_of_serves (b := none) hc hs _)

/-- `BENC.FLUSH` (R114). -/
theorem exec_bencFlush_serves :
    ∃ n e', e.flush = .ok n e' ∧ exec .bencFlush s = .next (s.reply { inst with codec := .byteEnc e' } s.shared
      { status := 0, result := n, diag := none }) := by
  obtain ⟨n, e', hok, -⟩ := Enc.flush_serves hs
  refine ⟨n, e', hok, ?_⟩
  rw [exec, execBencFlush, onByteEnc_ready hr hc, hok]
  exact complete_ok (reenters_of_serves (b := none) hc hs _)

/-- `BENC.ADD` and then `BENC.FLUSH`: the stream gains the encoding of what was staged and the values added. -/
theorem exec_bencAdd_bencFlush (hi : e.Inv) {data : Addr} {ranges : List Range} {nulls : Option Addr}
    (ho : addBuffersOwned s.shared data ranges nulls = true) :
    ∃ (t u : State) (e' : Enc) (bs : List Byte), exec (.bencAdd data ranges nulls) s = .next t ∧ exec .bencFlush t = .next u ∧
      u.addressed = some { inst with codec := .byteEnc e' } ∧ e'.sink.stream = e.written ++ bs.map some ∧
      Encodes bs (e.regs.stagedValues ++ gatherBytes s.shared data ranges nulls) := by
  obtain ⟨e₁, hok, hs₁, hadd⟩ := exec_bencAdd_serves hr hc hs ho
  have hr₁ := ready_after hr (.byteEnc e₁) s.shared
    { status := 0, result := countBits (gatherBytes s.shared data ranges nulls).length, diag := none }
  obtain ⟨n, e₂, hflush, hexec⟩ := exec_bencFlush_serves hr₁ rfl hs₁
  obtain ⟨bs, hbs, hstream⟩ := writeAll_flush_encodes hi hok hflush
  exact ⟨_, _, e₂, bs, hadd, hexec, State.addressed_reply hr₁.1 _ _, hstream, hbs⟩

end

/-! ### The statements of 41_byte_encoder section 3 -/

/-- Settles O21: `BENC.ADD` is a run of `Write` over the non-null bytes. -/
theorem bencAddWritesTheNonNullBytes : Obligations.BencAddWritesTheNonNullBytes := by
  unfold Obligations.BencAddWritesTheNonNullBytes
  intro s inst e data ranges nulls hr hc hi hs ho
  obtain ⟨e', hok, hs', hexec⟩ := exec_bencAdd_serves hr hc hs ho
  obtain ⟨hstage, hcoh, bs, us, hbs, hwritten, hvalues⟩ := Enc.writeAll_spec hi.1 hi.2 hok
  rw [gatherBytes_eq, List.length_map] at hexec
  exact ⟨e', bs, us, hexec, ⟨hstage, hcoh⟩, hs', hwritten, hbs.decodeStream_eq, hvalues⟩

/-- Settles O22: with accessors that return, the loop writes their values. -/
theorem bencAddFnAsksAndWrites : Obligations.BencAddFnAsksAndWrites := by
  unfold Obligations.BencAddFnAsksAndWrites
  intro s inst e valueAt isNullAt ranges f g hr hc hi hs hn hv
  obtain ⟨e', hok, hs'⟩ := Enc.writeAll_serves (((positions ranges).filter fun i => !g i).map f) hs
  obtain ⟨hstage, hcoh, bs, us, hbs, hwritten, hvalues⟩ := Enc.writeAll_spec hi.1 hi.2 hok
  refine ⟨e', bs, us, ?_, ⟨hstage, hcoh⟩, hs', hwritten, hbs.decodeStream_eq, hvalues⟩
  rw [exec, execBencAddFn, onByteEnc_ready hr hc, addFnLoop_returns hn hv ((writeList_enc e _).trans hok), Proc.yielding_ok, Nat.zero_add]
  exact complete_ok (reenters_of_serves (b := none) hc hs _)

/-- Settles O23: the body raises `Unsupported`, which is not fatal, and makes no transaction. -/
theorem bencAddBitsIsUnsupported : Obligations.BencAddBitsIsUnsupported := by
  unfold Obligations.BencAddBitsIsUnsupported
  intro s inst e data ranges nulls invert hr hc
  refine ⟨some (inst.codec.diag ⟨.unsupported, "addBits on byte encoder"⟩), ?_⟩
  rw [exec, execBencAddBits, onByteEnc_ready hr hc, complete_raised (Codec.reenters_same (by rw [hc])), ← hc]
  rfl

/-- Settles O24: the stream gains the segment of the stage, and the reference sink reports its length. -/
theorem bencFlushCompletesTheStream : Obligations.BencFlushCompletesTheStream := by
  unfold Obligations.BencFlushCompletesTheStream
  intro s inst e hr hc hi hs
  obtain ⟨n, e', hok, hexec⟩ := exec_bencFlush_serves hr hc hs
  obtain ⟨hstream, hregs, hs', rfl⟩ := flush_regs hi hok hs
  refine ⟨e', hexec, ?_, hregs, hs'⟩
  rw [hstream, apply_ite (List.map some)]
  rfl

/-- Settles O29: from nothing staged, the segments added and flushed encode the values added. -/
theorem addedBytesDecodeAfterFlush : Obligations.AddedBytesDecodeAfterFlush := by
  unfold Obligations.AddedBytesDecodeAfterFlush
  intro s inst e data ranges nulls hr hc hi hs h0 ho
  obtain ⟨t, u, e', bs, hadd, hflush, hu, hstream, hbs⟩ := exec_bencAdd_bencFlush hr hc hs hi ho
  rw [staged_empty hi h0, List.nil_append] at hbs
  exact ⟨t, u, e', bs, hadd, hflush, hu, hstream, hbs.decodeStream_eq⟩

/-! ### Commands of one transaction (R115, R116, R206, R207) -/

/-- One transaction that is not the one named re-enters nothing. -/
theorem reenters_one_of_ofEnc {inst : Inst} {e e' : Enc} {b b' : Option BoolEncRegs} (hc : inst.codec = Codec.ofEnc e b)
    (hk : e.sink.reentersAt ≠ some e.sink.log.length) (hlog : e'.sink.log.length = e.sink.log.length + 1) :
    inst.codec.reenters (Codec.ofEnc e' b') = false := by
  rw [hc]
  cases b <;> cases b' <;> exact Codec.reenters_one hlog hk

/-- The bit offset as R206 writes it. -/
theorem bitOffset_eq {b : BoolEncRegs} (h : b.Inv) : BoolEnc.bitOffset b = BitVec.ofNat 64 (8 - b.bitsRemained.toNat) := by
  obtain ⟨-, h8, -⟩ := h
  apply BitVec.eq_of_toNat_eq
  rw [BoolEnc.bitOffset, BitVec.toNat_sub_of_le (by rw [BitVec.le_def]; simpa using by omega)]
  simp
  omega

section
variable {s : State} {inst : Inst} {e : Enc} {b : BoolEncRegs} (hr : s.Ready inst)
  (hk : e.sink.reentersAt ≠ some e.sink.log.length)
include hr hk

theorem exec_bencGetsize (hc : inst.codec = .byteEnc e) :
    exec .bencGetsize s = .next (s.reply { inst with codec := .byteEnc { e with sink := e.sink.size.2 } } s.shared
      { status := 0, result := e.sink.size.1, diag := none }) := by
  rw [exec, execBencGetsize, onByteEnc_ready hr hc]
  exact complete_ok (reenters_one_of_ofEnc (b := none) (b' := none) hc hk (by simp [Enc.size, Sink.size]))

theorem exec_boolencGetsize (hc : inst.codec = .boolEnc e b) :
    exec .boolencGetsize s = .next (s.reply { inst with codec := .boolEnc { e with sink := e.sink.size.2 } b } s.shared
      { status := 0, result := e.sink.size.1, diag := none }) := by
  rw [exec, execBoolencGetsize, onBoolEnc_ready hr hc]
  exact complete_ok (reenters_one_of_ofEnc (b := some b) (b' := some b) hc hk (by simp [Enc.size, Sink.size]))

theorem exec_bencRecpos (hc : inst.codec = .byteEnc e) (recorder : Handle) (stride : Nat) :
    exec (.bencRecpos recorder stride) s = .next (s.reply
      { inst with codec := .byteEnc (e.recordPosition recorder stride s.shared).1 }
      (e.recordPosition recorder stride s.shared).2 { status := 0, result := 0, diag := none }) := by
  rw [exec, execBencRecpos, onByteEnc_ready hr hc]
  exact complete_ok (reenters_one_of_ofEnc (b := none) (b' := none) hc hk (by simp [Sink.pos]))

theorem exec_boolencRecpos (hc : inst.codec = .boolEnc e b) (recorder : Handle) (stride : Nat) :
    exec (.boolencRecpos recorder stride) s = .next (s.reply
      { inst with codec := .boolEnc (e.recordPosition recorder stride s.shared).1 b }
      ((e.recordPosition recorder stride s.shared).2.record recorder stride [BoolEnc.bitOffset b])
      { status := 0, result := 0, diag := none }) := by
  rw [exec, execBoolencRecpos, onBoolEnc_ready hr hc]
  exact complete_ok (reenters_one_of_ofEnc (b := some b) (b' := some b) hc hk (by simp [Enc.recordPosition, Sink.pos]))

end

/-- Settles O25: both record through the position hook; the boolean form appends one more coordinate. -/
theorem recposRecordsThePosition : Obligations.RecposRecordsThePosition := by
  unfold Obligations.RecposRecordsThePosition
  intro s inst e b recorder stride hr hk
  refine ⟨fun hc => ⟨(e.recordPosition recorder stride s.shared).1, rfl, rfl, rfl, exec_bencRecpos hr hk hc recorder stride⟩,
    fun hc hb => ⟨(e.recordPosition recorder stride s.shared).1, rfl, rfl, rfl, ?_⟩⟩
  rw [exec_boolencRecpos hr hk hc, ← bitOffset_eq hb]
  simp [Enc.recordPosition, Shared.record, Sink.pos]

/-- Settles O26: `SinkSize` changes the record of the port alone, so the second command is the first one again. -/
theorem getsizeReportsTheSinkSize : Obligations.GetsizeReportsTheSinkSize := by
  unfold Obligations.GetsizeReportsTheSinkSize
  intro s inst e b hr hk
  have hsame : e.sink.size.2.size.1 = e.sink.size.1 := e.sink.size_sizeNow
  have hnext (h : e.sink.reentersAt ≠ some (e.sink.log.length + 1)) :
      e.sink.size.2.reentersAt ≠ some e.sink.size.2.log.length := by simpa [Sink.size] using h
  refine ⟨exec_bencGetsize hr hk, exec_boolencGetsize hr hk, fun hk' => ⟨fun hc t ht => ?_, fun hc t ht => ?_⟩, rfl,
    e.sink.size_answer, hsame, e.sink.size_committed, e.sink.size_coords, e.sink.size_history, fun w hw => ?_⟩
  · rw [exec_bencGetsize hr hk hc] at ht
    cases ht
    rw [← hsame]
    exact exec_bencGetsize (ready_after hr _ _ _) (hnext hk') rfl
  · rw [exec_boolencGetsize hr hk hc] at ht
    cases ht
    rw [← hsame]
    exact exec_boolencGetsize (ready_after hr _ _ _) (hnext hk') rfl
  · rw [Sink.size, Sink.sizeNow, hw]

/-! ### Positions (43_byte_decoder R175) -/

/-- What is written ends where the window is filled to. -/
theorem written_length {e : Enc} (hc : e.Coherent) :
    e.written.length = e.sink.stream.length - e.regs.bufLen.toNat + e.regs.bufPos.toNat := by
  obtain ⟨hpos, hwin⟩ := hc
  rw [Enc.written, List.length_take]
  omega

/-- What the reference sink's hook records (20_memory R63): the start of the window in the stream, and the place in it. -/
theorem coords_of_reference {s : Sink} {w : Count} (hm : s.model = .reference w) (bufLen bufPos : Count) (stride : Nat) :
    s.coords bufLen bufPos stride = [countBits (s.stream.length - bufLen.toNat), bufPos] := by
  rw [Sink.coords, hm]

theorem toNat_countBits {n : Nat} (h : n < 2 ^ 64) : (countBits n).toNat = n := by
  rw [countBits, if_pos h, BitVec.toNat_ofNat, Nat.mod_eq_of_lt h]

/-- A decoder just re-seated by a seek on a stream: its values from the position on, without the skip (R173, R175). -/
theorem logical_drop_of_seek {d : Dec} {bs vs us : List Byte} {before : List (Option Byte)}
    (hregs : d.regs.win = [] ∧ d.regs.remainingValues = 0) (hskip : d.regs.pendingSkip.toNat = us.length)
    (hcursor : d.src.cursor = before.length) (hstream : d.src.stream.map some = before ++ bs.map some)
    (hbs : Encodes bs (us ++ vs)) : d.logical.drop d.regs.pendingSkip.toNat = vs := by
  obtain ⟨hwin, hspent⟩ := hregs
  have hrest : d.src.stream.drop d.src.cursor = bs := by
    refine List.map_injective_iff.2 (Option.some_injective Byte) ?_
    rw [List.map_drop, hstream, hcursor, List.drop_left]
  have hup : d.upcoming = bs := by
    rw [Dec.upcoming, Dec.unread, hwin, List.drop_nil, List.nil_append, hrest]
  rw [Dec.logical_spent hspent, hup, hbs.streamValues_eq, hskip, List.drop_left]

/-- `BDEC.SEEK` with three coordinates left (R173). -/
theorem exec_bdecSeek_ok {s : State} {inst : Inst} {d d' : Dec} {provider : Handle} {sh' : Shared} (hr : s.Ready inst)
    (hc : inst.codec = .byteDec d) (hs : d.src.Serves) (hseek : d.seek provider s.shared = .ok () (d', sh')) :
    exec (.bdecSeek provider) s = .next (s.reply { inst with codec := .byteDec d' } sh'
      { status := 0, result := 0, diag := none }) := by
  rw [exec, execBdecSeek, onByteDec_ready hr hc, hseek]
  exact complete_ok (Codec.reenters_of_none (by rw [hc]; exact hs.1) _)

/-- Settles O59: the coordinates recorded are the length written and the staged count, and the stream from there on encodes what
was staged and the values added. -/
theorem seekLandsOnTheRecordedPosition : Obligations.SeekLandsOnTheRecordedPosition := by
  unfold Obligations.SeekLandsOnTheRecordedPosition
  intro s inst e data ranges nulls recorder stride hr hc hi hs hlen ho
  have ⟨hquiet, _, w, _, hmodel⟩ := hs
  obtain ⟨t₁, t₂, e', bs, hadd, hflush, ht₂, hstream, hbs⟩ := exec_bencAdd_bencFlush
    (ready_after hr (.byteEnc (e.recordPosition recorder stride s.shared).1) (e.recordPosition recorder stride s.shared).2
      { status := 0, result := 0, diag := none }) rfl hs hi ho
  refine ⟨_, t₁, t₂, e', countBits (e.sink.stream.length - e.regs.bufLen.toNat), e.regs.bufPos,
    e.regs.numLiterals.setWidth 64, exec_bencRecpos hr (by simp [hquiet]) hc recorder stride, hadd, hflush, ht₂, ?_, ?_⟩
  · rw [State.reply_shared, Enc.recordPosition, Sink.pos, coords_of_reference hmodel]
    rfl
  · intro s' inst' d provider more hr' hc' hs' hsource hprovided
    obtain ⟨d', hseek, hregs, hcursor, hsame, -, -⟩ := dec_seek_ok hs' hprovided
    refine ⟨_, d', exec_bdecSeek_ok hr' hc' hs' hseek, State.addressed_reply hr'.1 _ _, ?_⟩
    refine logical_drop_of_seek (by rw [hregs]; exact ⟨rfl, rfl⟩) ?_ ?_ (by rw [hsame, hsource, hstream]) hbs
    · rw [hregs, staged_length, BitVec.toNat_setWidth]
      exact Nat.mod_eq_of_lt (by have := e.regs.numLiterals.isLt; omega)
    · rw [hcursor, toNat_countBits (by omega)]
      exact (written_length hi.2).symm

end Sys2Proof.Machine
end

section
/-!
PROOFS. The twelve encoder commands whatever the sink answers (41_byte_encoder, 44_bool_encoder; 60_exceptions R263, R268): what
they leave unchanged, how a refused window shows in the response, and that nothing but a caller fault stops them.
-/

namespace Sys2Proof.Machine

/-! ### What the encoder commands leave unchanged -/

/-- What an encoder command may change outside the instances. -/
structure EncKeeps (i : Instr) (sh sh' : Shared) : Prop where
  rest : sh' = { sh with recorded := sh'.recorded, calls := sh'.calls, freeCount := sh'.freeCount }
  recorded : (∀ r st, i ≠ .bencRecpos r st ∧ i ≠ .boolencRecpos r st) → sh'.recorded = sh.recorded
  calls : (∀ v n rs, i ≠ .bencAddFn v n rs ∧ i ≠ .boolencAddFn v n rs) → sh'.calls = sh.calls
  recorder : sh.recorded <+: sh'.recorded

theorem EncKeeps.refl (i : Instr) (sh : Shared) : EncKeeps i sh sh :=
  ⟨rfl, fun _ => rfl, fun _ => rfl, List.prefix_rfl⟩

theorem EncKeeps.freeCount {i : Instr} {sh₀ : Shared} (sh : Shared) (n : Nat) (h : EncKeeps i sh₀ sh) :
    EncKeeps i sh₀ { sh with freeCount := n } :=
  ⟨by rw [h.rest], h.recorded, h.calls, h.recorder⟩

/-- Where a body ends, the shared state is one that `Q` allows. -/
abbrev EndsIn {υ α : Type} (Q : Shared → Prop) (x : Proc (υ × Shared) α) : Prop :=
  x.Ends (fun _ us => Q us.2) fun _ us => Q us.2

/-- A body that works on the unit alone ends in the shared state it started in. -/
theorem endsIn_unit {υ α : Type} {Q : Shared → Prop} {sh : Shared} (h : Q sh) (x : Proc υ α) :
    EndsIn Q (x.embed fun u => (u, sh)) := ends_const h

/-- The same with its result replaced, after the check of the caller's buffers. -/
theorem endsIn_checked {υ α : Type} {Q : Shared → Prop} {sh : Shared} (h : Q sh) (owned : Bool) (x : Proc υ α) (n : Count) :
    EndsIn Q (if owned then (x.embed fun u => (u, sh)).yielding fun _ => n else .stuck .bufferOutside) := by
  split
  · exact (ends_const h).yielding fun _ _ hq => hq
  · trivial

theorem onByteEnc_keeps {i : Instr} {s t : State} {body : Enc → Shared → Proc (Enc × Shared) Count}
    (h : onByteEnc s body = .next t) (hx : ∀ e, EndsIn (EncKeeps i s.shared) (body e s.shared)) :
    EncKeeps i s.shared t.shared := onByteEnc_frame hx EncKeeps.freeCount (.refl i _) h

theorem onBoolEnc_keeps {i : Instr} {s t : State}
    {body : Enc × BoolEncRegs → Shared → Proc ((Enc × BoolEncRegs) × Shared) Count} (h : onBoolEnc s body = .next t)
    (hx : ∀ u, EndsIn (EncKeeps i s.shared) (body u s.shared)) :
    EncKeeps i s.shared t.shared := onBoolEnc_frame hx EncKeeps.freeCount (.refl i _) h

theorem exec_encKeeps {i : Instr} {s t : State} (hk : i.kind = some .byteEnc ∨ i.kind = some .boolEnc) (h : exec i s = .next t) :
    EncKeeps i s.shared t.shared := by
  have hrefl := EncKeeps.refl i s.shared
  unfold exec at h
  cases i with
  | rep | lit | bdecNext | bdecSkip | bdecSeek | booldecNext | booldecSkip | booldecSeek => simp [Instr.kind] at hk
  | bencAdd data ranges nulls => exact onByteEnc_keeps h fun e => endsIn_checked hrefl _ _ _
  | boolencAdd data ranges nulls => exact onBoolEnc_keeps h fun u => endsIn_checked hrefl _ _ _
  | boolencAddBits data ranges nulls invert =>
    exact onBoolEnc_keeps h fun u => endsIn_checked hrefl _ _ _
  | bencAddBits data ranges nulls invert => exact onByteEnc_keeps h fun e => hrefl
  | bencFlush => exact onByteEnc_keeps h fun e => endsIn_unit hrefl _
  | boolencFlush => exact onBoolEnc_keeps h fun u => endsIn_unit hrefl _
  | bencGetsize => exact onByteEnc_keeps h fun e => hrefl
  | boolencGetsize => exact onBoolEnc_keeps h fun u => hrefl
  | bencAddFn valueAt isNullAt ranges =>
    have hcalls (calls) : EncKeeps (.bencAddFn valueAt isNullAt ranges) s.shared { s.shared with calls := calls } :=
      ⟨rfl, fun _ => rfl, fun hne => absurd rfl (hne valueAt isNullAt ranges).1, List.prefix_rfl⟩
    exact onByteEnc_keeps h fun e => addFn_frame _ hcalls
  | boolencAddFn valueAt isNullAt ranges =>
    have hcalls (calls) : EncKeeps (.boolencAddFn valueAt isNullAt ranges) s.shared { s.shared with calls := calls } :=
      ⟨rfl, fun _ => rfl, fun hne => absurd rfl (hne valueAt isNullAt ranges).2, List.prefix_rfl⟩
    exact onBoolEnc_keeps h fun u => addFn_frame _ hcalls
  | bencRecpos recorder stride =>
    have hrecord (cs) : EncKeeps (.bencRecpos recorder stride) s.shared (s.shared.record recorder stride cs) :=
      ⟨rfl, fun hne => absurd rfl (hne recorder stride).1, fun _ => rfl, List.prefix_append _ _⟩
    exact onByteEnc_keeps h fun e => hrecord _
  | boolencRecpos recorder stride =>
    have hrecord (cs cs') : EncKeeps (.boolencRecpos recorder stride) s.shared
        ((s.shared.record recorder stride cs).record recorder stride cs') :=
      ⟨rfl, fun hne => absurd rfl (hne recorder stride).2, fun _ => rfl,
        (List.prefix_append _ _).trans (List.prefix_append _ _)⟩
    exact onBoolEnc_keeps h fun u => hrecord _ _

/-- Settles O28: the frame of the twelve bodies, and the frame of every instruction. -/
theorem encoderCommandsFrame : Obligations.EncoderCommandsFrame := by
  unfold Obligations.EncoderCommandsFrame
  intro i s t hk h
  have hkeeps := exec_encKeeps hk h
  exact ⟨fun a => by rw [hkeeps.rest], hkeeps.rest, hkeeps.recorded, hkeeps.calls, hkeeps.recorder, exec_frame h⟩

/-! ### A refused window (60_exceptions R263, R268) -/

/-- How a body that started at `e` shows on the port: no request was refused, or one was and the body raised there; only
`Unsupported` is raised otherwise. -/
def PortEnds {υ : Type} (e : Enc) (enc : υ → Enc) (x : Proc (υ × Shared) Count) : Prop :=
  x.Ends (fun _ us => e.Served (enc us.1)) fun r us => e.Refused r (enc us.1) ∨ r.kind = .unsupported ∧ enc us.1 = e

/-- What a command that started at `e` tells of the port in its response (R268). -/
def PortReport (e : Enc) (t : State) : Prop :=
  ∃ (resp : Response) (inst' : Inst) (sink : Sink) (events : List SinkEvent),
    t.response = some resp ∧ t.addressed = some inst' ∧ inst'.agent = .sink sink ∧ sink.log = e.sink.log ++ events ∧
    (resp.status = 2 ↔ ∃ ev ∈ events, ev.Refusal) ∧
    (resp.status = 2 → resp.result = 0 ∧ inst'.status = { failed := true, err := 2 } ∧
      ∃ (before : List SinkEvent) (ev : SinkEvent), events = before ++ [ev] ∧ ev.Refusal ∧
        (∀ x ∈ before, x.Emission) ∧ sink.stream = e.written ++ (before.filterMap SinkEvent.byte?).map some)

theorem Enc.Served.refl (e : Enc) : e.Served e := (Enc.Emits.refl e).served

/-- One transaction that is no request for a window. -/
theorem Enc.Served.one {e e' : Enc} {ev : SinkEvent} (hlog : e'.sink.log = e.sink.log ++ [ev]) (hev : ¬ev.Refusal) :
    e.Served e' := ⟨[ev], hlog, by simpa using hev⟩

/-- The registers left free by an error are not the agent's. -/
theorem agent_failedInst (inst : Inst) (sh : Shared) (r : Raise) : (State.failedInst inst sh r).agent = inst.agent := by
  obtain ⟨st, codec⟩ := inst
  unfold State.failedInst
  split
  · cases codec <;> rfl
  · rfl

/-- A response that is no `IoFailure`, where no request was refused. -/
theorem portReport_served {e : Enc} {t : State} {resp : Response} {inst' : Inst} {sink : Sink} {events : List SinkEvent}
    (hresp : t.response = some resp) (hadd : t.addressed = some inst') (hagent : inst'.agent = .sink sink)
    (hlog : sink.log = e.sink.log ++ events) (hstatus : resp.status ≠ 2) (hevents : ∀ ev ∈ events, ¬ev.Refusal) :
    PortReport e t :=
  ⟨resp, inst', sink, events, hresp, hadd, hagent, hlog,
    ⟨fun h => absurd h hstatus, fun ⟨ev, hev, href⟩ => absurd href (hevents ev hev)⟩, fun h => absurd h hstatus⟩

/-- The end of a body, told from how it shows on the port. -/
theorem complete_portReport {υ : Type} {s t : State} {inst : Inst} {e : Enc} {wrap : υ → Codec} {enc : υ → Enc}
    {x : Proc (υ × Shared) Count} (hr : s.Ready inst) (hc : e.Coherent)
    (hagent : ∀ u, Inst.agent { inst with codec := wrap u } = .sink (enc u).sink) (hx : PortEnds e enc x)
    (h : complete s inst wrap x = .next t) : PortReport e t := by
  rcases complete_eq_next h with ⟨n, u, sh, rfl, -, rfl⟩ | ⟨r, u, sh, rfl, -, rfl⟩
  · obtain ⟨events, hlog, hevents⟩ := hx
    exact portReport_served rfl (State.addressed_reply hr.1 _ _) (hagent u) hlog
      (by decide : (0 : BitVec 3) ≠ 2) hevents
  · have hadd := State.addressed_raiseError (inst := { inst with codec := wrap u }) hr.1 sh r
    have hagent' := (agent_failedInst { inst with codec := wrap u } sh r).trans (hagent u)
    rcases hx with ⟨hk, before, ev, hlog, hev, hbefore, hstream⟩ | ⟨hk, hsame⟩
    · refine ⟨_, _, (enc u).sink, before ++ [ev], State.raiseError_response .., hadd, hagent', hlog,
        ⟨fun _ => ⟨ev, by simp, hev⟩, fun _ => by rw [hk]; rfl⟩, fun _ => ⟨rfl, ?_, before, ev, rfl, hev, hbefore, hstream hc⟩⟩
      rw [failed_status (by rw [hk]; rfl), hk]
      rfl
    · rw [hsame] at hagent'
      exact portReport_served (events := []) (State.raiseError_response ..) hadd hagent' (List.append_nil _).symm
        (by rw [hk]; exact (by decide : (1 : BitVec 3) ≠ 2)) (by simp)

/-- A body that emits, after the check of the caller's buffers. -/
theorem portEnds_checked {υ α : Type} {e : Enc} {enc : υ → Enc} {x : Proc υ α} {sh : Shared}
    (hx : x.Ends (fun _ u => e.Emits (enc u)) fun r u => e.Refused r (enc u)) (owned : Bool) (n : Count) :
    PortEnds e enc (if owned then (x.embed fun u => (u, sh)).yielding fun _ => n else .stuck .bufferOutside) := by
  split
  · exact Proc.Ends.yielding (P := fun _ us => e.Served (enc us.1))
      (hx.embed (fun _ _ h => h.served) fun _ _ h => .inl h) fun _ _ h => h
  · trivial

/-- The callback form, by what one write does. -/
theorem portEnds_addFn {υ : Type} {e : Enc} {enc : υ → Enc} {write : υ → Byte → Proc υ Unit} {u : υ}
    (hw : ∀ u v, e.Emits (enc u) → (write u v).Ends (fun _ u' => e.Emits (enc u')) fun r u' => e.Refused r (enc u'))
    (hu : e.Emits (enc u)) (valueAt isNullAt : Handle) (ps : List Nat) (sh : Shared) (f : Nat → Count) :
    PortEnds e enc ((addFnLoop write valueAt isNullAt ps 0 u sh).yielding f) :=
  ((addFnLoop_ends hw hu).mono (fun _ _ h => h.served) fun _ _ h => .inl h).yielding fun _ _ h => h

/-- The commands of a byte encoder on the port. -/
theorem exec_byteEnc_portReport {i : Instr} {s t : State} {inst : Inst} {e : Enc} (hr : s.Ready inst)
    (hc : inst.codec = .byteEnc e) (hk : i.kind = some .byteEnc) (hcoh : e.Coherent) (h : exec i s = .next t) :
    PortReport e t := by
  have hbody {body} (h : onByteEnc s body = .next t) (hx : PortEnds e id (body e s.shared)) : PortReport e t := by
    rw [onByteEnc_ready hr hc] at h
    exact complete_portReport hr hcoh (fun _ => rfl) hx h
  have hemits := Enc.Emits.refl e
  unfold exec at h
  cases i with
  | bencAdd data ranges nulls => exact hbody h (portEnds_checked (enc := id) (Enc.writeAll_emits _ hemits) _ _)
  | bencAddFn valueAt isNullAt ranges =>
    exact hbody h (portEnds_addFn (enc := id) (fun u v hu => Enc.write_emits v hu) hemits _ _ _ _ _)
  | bencAddBits data ranges nulls invert => exact hbody h (.inr ⟨rfl, rfl⟩)
  | bencFlush => exact hbody h ((Enc.flush_emits hemits).embed (fun _ _ h => h) fun _ _ h => .inl h)
  | bencRecpos recorder stride => exact hbody h (Enc.Served.one (e' := (e.recordPosition recorder stride s.shared).1) rfl (by simp))
  | bencGetsize => exact hbody h (Enc.Served.one (e' := e.size.2) rfl (by simp))
  | _ => cases hk

/-- The commands of a boolean encoder on the port of the inner one. -/
theorem exec_boolEnc_portReport {i : Instr} {s t : State} {inst : Inst} {e : Enc} {b : BoolEncRegs} (hr : s.Ready inst)
    (hc : inst.codec = .boolEnc e b) (hk : i.kind = some .boolEnc) (hcoh : e.Coherent) (h : exec i s = .next t) :
    PortReport e t := by
  have hbody {body} (h : onBoolEnc s body = .next t) (hx : PortEnds e Prod.fst (body (e, b) s.shared)) : PortReport e t := by
    rw [onBoolEnc_ready hr hc] at h
    exact complete_portReport hr hcoh (fun _ => rfl) hx h
  have hemits := Enc.Emits.refl e
  unfold exec at h
  cases i with
  | boolencAdd data ranges nulls =>
    exact hbody h (portEnds_checked (BoolEnc.writeBools_emits (u := (e, b)) _ hemits) _ _)
  | boolencAddFn valueAt isNullAt ranges =>
    exact hbody h (portEnds_addFn (fun u v hu => BoolEnc.writeBool_emits _ hu) hemits _ _ _ _ _)
  | boolencAddBits data ranges nulls invert =>
    exact hbody h (portEnds_checked (BoolEnc.writeBools_emits (u := (e, b)) _ hemits) _ _)
  | boolencFlush => exact hbody h ((BoolEnc.flush_emits (u := (e, b)) hemits).embed (fun _ _ h => h) fun _ _ h => .inl h)
  | boolencRecpos recorder stride => exact hbody h (Enc.Served.one (e' := (e.recordPosition recorder stride s.shared).1) rfl (by simp))
  | boolencGetsize => exact hbody h (Enc.Served.one (e' := e.size.2) rfl (by simp))
  | _ => cases hk

/-! ### Nothing but a caller fault stops an encoder's command -/

/-- A body after the check of the caller's buffers runs if they are owned. -/
theorem runs_checked {υ α : Type} {x : Proc υ α} {sh : Shared} {owned : Bool} (ho : owned = true) (hx : x.Runs) (n : Count) :
    Proc.Runs (if owned then (x.embed fun u => (u, sh)).yielding fun _ => n else .stuck .bufferOutside) := by
  rw [if_pos ho]
  exact hx.embed.yielding

/-- What the caller owes an encoder's command: buffers of its own, and accessors that return (R272 items 1, 4 and 8). -/
structure CallerKeeps (i : Instr) (sh : Shared) : Prop where
  buffers : ∀ data ranges nulls, i = .bencAdd data ranges nulls ∨ i = .boolencAdd data ranges nulls →
    addBuffersOwned sh data ranges nulls = true
  bitmaps : ∀ data ranges nulls invert, i = .boolencAddBits data ranges nulls invert →
    addBitsBuffersOwned sh data ranges nulls = true
  accessors : ∀ v n ranges, i = .bencAddFn v n ranges ∨ i = .boolencAddFn v n ranges → sh.AccessorsReturn v n (positions ranges)

theorem exec_byteEnc_runs {i : Instr} {s : State} {inst : Inst} {e : Enc} (hr : s.Ready inst) (hc : inst.codec = .byteEnc e)
    (hk : i.kind = some .byteEnc) (hq : e.sink.reentersAt = none) (ho : CallerKeeps i s.shared) : ∃ t, exec i s = .next t := by
  have hbody {body} (hx : (body e s.shared).Runs) : ∃ t, onByteEnc s body = .next t := by
    rw [onByteEnc_ready hr hc]
    exact complete_runs hx (by rw [hc]; exact hq)
  unfold exec
  cases i with
  | bencAdd data ranges nulls => exact hbody (runs_checked (ho.buffers _ _ _ (.inl rfl)) (Enc.writeAll_runs e _) _)
  | bencAddFn valueAt isNullAt ranges =>
    exact hbody (addFnLoop_runs Enc.write_runs (ho.accessors _ _ _ (.inl rfl))).yielding
  | bencAddBits data ranges nulls invert => exact hbody fun f hf => by cases hf
  | bencFlush => exact hbody (Enc.flush_runs e).embed
  | bencRecpos recorder stride => exact hbody (.ok _ _)
  | bencGetsize => exact hbody (.ok _ _)
  | _ => cases hk

theorem exec_boolEnc_runs {i : Instr} {s : State} {inst : Inst} {e : Enc} {b : BoolEncRegs} (hr : s.Ready inst)
    (hc : inst.codec = .boolEnc e b) (hk : i.kind = some .boolEnc) (hq : e.sink.reentersAt = none)
    (ho : CallerKeeps i s.shared) : ∃ t, exec i s = .next t := by
  have hbody {body} (hx : (body (e, b) s.shared).Runs) : ∃ t, onBoolEnc s body = .next t := by
    rw [onBoolEnc_ready hr hc]
    exact complete_runs hx (by rw [hc]; exact hq)
  unfold exec
  cases i with
  | boolencAdd data ranges nulls =>
    exact hbody (runs_checked (ho.buffers _ _ _ (.inr rfl)) (BoolEnc.writeBools_runs (e, b) _) _)
  | boolencAddFn valueAt isNullAt ranges =>
    exact hbody (addFnLoop_runs (fun u v => BoolEnc.writeBool_runs u _) (ho.accessors _ _ _ (.inr rfl))).yielding
  | boolencAddBits data ranges nulls invert =>
    exact hbody (runs_checked (ho.bitmaps _ _ _ _ rfl) (BoolEnc.writeBools_runs (e, b) _) _)
  | boolencFlush => exact hbody (BoolEnc.flush_runs (e, b)).embed
  | boolencRecpos recorder stride => exact hbody (.ok _ _)
  | boolencGetsize => exact hbody (.ok _ _)
  | _ => cases hk

/-! ### `FLUSH` where no window is granted -/

theorem flush_refused {e : Enc} (h : e.regs.bufPos = e.regs.bufLen) (ha : e.sink.answer = none ∨ e.sink.answer = some 0)
    (h0 : e.regs.numLiterals ≠ 0) :
    e.flush = .raised { kind := .ioFailure, text := "sink next" } { e with sink := e.sink.next.2 } := by
  rw [Enc.flush, writeValues_refused h ha h0]
  rfl

/-- Settles O27: how each body shows on the port, that each runs, and the refused `FLUSH`. -/
theorem refusedWindowFailsTheFlush : Obligations.RefusedWindowFailsTheFlush := by
  unfold Obligations.RefusedWindowFailsTheFlush
  refine ⟨fun i s t inst e b hr hc hk hcoh h => ?_, fun i s inst e b hr hc hk hq hadd hbits hfn => ?_,
    fun s inst e hr hc h0 hfull ha hq => ?_⟩
  · rw [hc] at hk
    cases b with
    | none => exact exec_byteEnc_portReport hr hc hk hcoh h
    | some b => exact exec_boolEnc_portReport hr hc hk hcoh h
  · rw [hc] at hk
    cases b with
    | none => exact exec_byteEnc_runs hr hc hk hq ⟨hadd, hbits, hfn⟩
    | some b => exact exec_boolEnc_runs hr hc hk hq ⟨hadd, hbits, hfn⟩
  · obtain ⟨hstream, hlog, -⟩ := emitByte_refused 0 hfull ha
    have hquiet : inst.codec.reenters (.byteEnc { e with sink := e.sink.next.2 }) = false :=
      reenters_one_of_ofEnc (b := none) (b' := none) hc hq (by rw [hlog]; simp)
    have hexec : exec .bencFlush s = .next (s.raiseError { inst with codec := .byteEnc { e with sink := e.sink.next.2 } }
        s.shared { kind := .ioFailure, text := "sink next" }) := by
      rw [exec, execBencFlush, onByteEnc_ready hr hc, flush_refused hfull ha h0]
      exact complete_raised hquiet
    exact ⟨_, _, _, _, hexec, State.raiseError_response .., State.addressed_raiseError hr.1 .., failed_status rfl,
      agent_failedInst .., hstream, hlog, rfl⟩

end Sys2Proof.Machine
end

section
/-!
PROOFS. The boolean encoder's commands (44_bool_encoder R202 to R205, R208): each on a READY instance whose sink serves, from the
lemma about the procedure it runs.
-/

namespace Sys2Proof.Machine

/-- `BOOLENC.FLUSH` in its two parts: the pending bits as one padded byte, then the inner `FLUSH` (R205). -/
theorem boolFlush_parts {e : Enc} {b : BoolEncRegs} (hb : b.Inv) (hs : e.sink.Serves) :
    ∃ (e₁ e₂ : Enc) (n : Count) (bytes : List Byte), BoolEnc.flush (e, b) = .ok n (e₂, ⟨8, 0⟩) ∧ e.writeAll bytes = .ok () e₁ ∧
      e₁.flush = .ok n e₂ ∧ e₁.sink.Serves ∧ bytes.length = (if b.bitsRemained = 8 then 0 else 1) ∧
      ∃ pad, msbBits bytes = BoolEnc.pendingBits b ++ List.replicate pad false ∧ pad ≤ 7 := by
  obtain ⟨n, ⟨e₂, b₂⟩, hflush, -⟩ := BoolEnc.flush_serves (u := (e, b)) hs
  obtain ⟨_, ⟨e₁, b₁⟩, hbits, hinner⟩ := Proc.bind_eq_ok.1 hflush
  obtain ⟨e₂', hflush₁, heq⟩ := Proc.embed_eq_ok.1 hinner
  cases heq
  obtain ⟨hreset, bytes, hwrite, hpad, hlen⟩ := BoolEnc.flushBits_spec (u := (e, b)) hb hbits
  cases hreset
  obtain ⟨e₁', hwrite', hs₁⟩ := Enc.writeAll_serves bytes hs
  cases hwrite.symm.trans hwrite'
  obtain ⟨h1, h8, -⟩ := hb
  have hfull : b.bitsRemained = 8 ↔ ¬ b.bitsRemained.toNat < 8 := by
    rw [← BitVec.toNat_inj]
    simp
    omega
  refine ⟨e₁, e₂, n, bytes, hflush, hwrite, hflush₁, hs₁, ?_, _, hpad, ?_⟩
  · rw [hlen]
    simp only [hfull]
    split <;> simp [*]
  · split at hlen <;> dsimp only at * <;> omega

section
variable {s : State} {inst : Inst} {e : Enc} {b : BoolEncRegs} (hr : s.Ready inst) (hc : inst.codec = .boolEnc e b)
  (hi : e.Inv) (hb : b.Inv) (hs : e.sink.Serves)

include hi hb hs in
/-- A run of `WriteBool` on a sink that serves: the bytes handed over and the pending bits stand for the booleans (R208). -/
theorem writeBools_packs (vs : List Bool) :
    ∃ (e' : Enc) (b' : BoolEncRegs) (bytes : List Byte), BoolEnc.writeBools (e, b) vs = .ok () (e', b') ∧
      e.writeAll bytes = .ok () e' ∧ e'.Inv ∧ b'.Inv ∧ e'.sink.Serves ∧
      msbBits bytes ++ BoolEnc.pendingBits b' = BoolEnc.pendingBits b ++ vs := by
  obtain ⟨⟨e', b'⟩, hok, hs'⟩ := BoolEnc.writeBools_serves (u := (e, b)) vs hs
  obtain ⟨hb', bytes, hwrite, hbits⟩ := BoolEnc.writeBools_spec hb hok
  exact ⟨e', b', bytes, hok, hwrite, Enc.writeAll_inv hi hwrite, hb', hs', hbits⟩

include hr hc hs

/-- `BOOLENC.ADD` of buffers that the caller owns, once its booleans are written (R202). -/
theorem exec_boolencAdd_of_writeBools {data : Addr} {ranges : List Range} {nulls : Option Addr} {e' : Enc} {b' : BoolEncRegs}
    (ho : addBuffersOwned s.shared data ranges nulls = true)
    (hok : BoolEnc.writeBools (e, b) ((gatherBytes s.shared data ranges nulls).map fun v => v != 0) = .ok () (e', b')) :
    exec (.boolencAdd data ranges nulls) s = .next (s.reply { inst with codec := .boolEnc e' b' } s.shared
      { status := 0
        result := countBits ((positions ranges).filter fun i => !isNull s.shared nulls i).length
        diag := none }) := by
  rw [exec, execBoolencAdd, onBoolEnc_ready hr hc, if_pos ho]
  dsimp only
  rw [hok, List.length_map, gatherBytes_eq, List.length_map]
  exact complete_ok (reenters_of_serves (b := some b) hc hs _)

/-- `BOOLENC.FLUSH` (R205). -/
theorem exec_boolencFlush_of_flush {n : Count} {u : Enc × BoolEncRegs} (hok : BoolEnc.flush (e, b) = .ok n u) :
    exec .boolencFlush s = .next (s.reply { inst with codec := .boolEnc u.1 u.2 } s.shared
      { status := 0, result := n, diag := none }) := by
  rw [exec, execBoolencFlush, onBoolEnc_ready hr hc, hok]
  exact complete_ok (reenters_of_serves (b := some b) hc hs _)

end

/-- Settles O33: `BOOLENC.ADD` is a run of `WriteBool` over the non-null bytes. -/
theorem boolencAddPacksTheNonNullBytes : Obligations.BoolencAddPacksTheNonNullBytes := by
  unfold Obligations.BoolencAddPacksTheNonNullBytes
  intro s inst e b data ranges nulls hr hc hi hb hs ho
  obtain ⟨e', b', bytes, hok, hwrite, hi', hb', hs', hbits⟩ := writeBools_packs hi hb hs
    ((gatherBytes s.shared data ranges nulls).map fun v => v != 0)
  rw [gatherBytes_eq, List.map_map] at hbits
  exact ⟨e', b', bytes, exec_boolencAdd_of_writeBools hr hc hs ho hok, hwrite, hi', hb', hs', hbits⟩

/-- Settles O34: with accessors that return, the loop packs their values. -/
theorem boolencAddFnAsksAndPacks : Obligations.BoolencAddFnAsksAndPacks := by
  unfold Obligations.BoolencAddFnAsksAndPacks
  intro s inst e b valueAt isNullAt ranges f g hr hc hi hb hs hn hv
  obtain ⟨e', b', bytes, hok, hwrite, hi', hb', hs', hbits⟩ := writeBools_packs hi hb hs
    ((((positions ranges).filter fun i => !g i).map f).map fun v => v != 0)
  rw [List.map_map] at hbits
  refine ⟨e', b', bytes, ?_, hwrite, hi', hb', hs', hbits⟩
  rw [exec, execBoolencAddFn, onBoolEnc_ready hr hc, addFnLoop_returns hn hv ((writeList_bool (e, b) _).trans hok),
    Proc.yielding_ok, Nat.zero_add]
  exact complete_ok (reenters_of_serves (b := some b) hc hs _)

/-- Settles O35: `BOOLENC.ADD_BITS` is a run of `WriteBool` over the non-null bits of the bitmap. -/
theorem boolencAddBitsPacksTheBitmap : Obligations.BoolencAddBitsPacksTheBitmap := by
  unfold Obligations.BoolencAddBitsPacksTheBitmap
  intro s inst e b data ranges nulls invert hr hc hi hb hs ho
  obtain ⟨e', b', bytes, hok, hwrite, hi', hb', hs', hbits⟩ := writeBools_packs hi hb hs
    (gatherBits s.shared data ranges nulls invert)
  refine ⟨e', b', bytes, ?_, hwrite, hi', hb', hs', hbits⟩
  rw [exec, execBoolencAddBits, onBoolEnc_ready hr hc, if_pos ho]
  dsimp only
  rw [hok, gatherBits, List.length_map]
  exact complete_ok (reenters_of_serves (b := some b) hc hs _)

/-- Settles O36: the padded byte joins the stage, and the inner `FLUSH` emits it. -/
theorem boolencFlushCompletesTheStream : Obligations.BoolencFlushCompletesTheStream := by
  unfold Obligations.BoolencFlushCompletesTheStream
  intro s inst e b hr hc hi hb hs
  obtain ⟨e₁, e₂, n, bytes, hok, hwrite, hflush, hs₁, hlen, hpad⟩ := boolFlush_parts hb hs
  obtain ⟨bs, hbs, hstream⟩ := writeAll_flush_encodes hi hwrite hflush
  obtain ⟨-, hregs, hs₂, rfl⟩ := flush_regs (Enc.writeAll_inv hi hwrite) hflush hs₁
  exact ⟨e₂, bs, bytes, exec_boolencFlush_of_flush hr hc hs hok, by rw [hregs], by rw [hregs], by rw [hregs], by rw [hregs],
    by rw [hregs], hs₂, hstream, hbs.decodeStream_eq, hlen, hpad⟩

/-- Settles O60: the bytes handed over by the add, and the padded one of the flush, are one run of `Write`. -/
theorem addedBooleansDecodeAfterFlush : Obligations.AddedBooleansDecodeAfterFlush := by
  unfold Obligations.AddedBooleansDecodeAfterFlush
  intro s inst e b data ranges nulls hr hc hi hb hs h0 h8 ho
  obtain ⟨e₁, b₁, bytes₁, hok, hwrite, hi₁, hb₁, hs₁, hbits⟩ := writeBools_packs hi hb hs
    ((gatherBytes s.shared data ranges nulls).map fun v => v != 0)
  obtain ⟨e₂, e₃, n, bytes₂, hok₂, hwrite₂, hflush, -, -, pad, hpad, hpad7⟩ := boolFlush_parts hb₁ hs₁
  obtain ⟨bs, hbs, hstream⟩ := writeAll_flush_encodes hi (Enc.writeAll_append hwrite hwrite₂) hflush
  have hadd := exec_boolencAdd_of_writeBools hr hc hs ho hok
  have hr₁ := ready_after hr (.boolEnc e₁ b₁) s.shared
    { status := 0
      result := countBits ((positions ranges).filter fun i => !isNull s.shared nulls i).length
      diag := none }
  have hnone : BoolEnc.pendingBits b = [] := by rw [BoolEnc.pendingBits, h8]; rfl
  rw [staged_empty hi h0, List.nil_append] at hbs
  refine ⟨_, _, e₃, ⟨8, 0⟩, bs, bytes₁ ++ bytes₂, pad, hadd, exec_boolencFlush_of_flush hr₁ rfl hs₁ hok₂,
    State.addressed_reply hr₁.1 _ _, hstream, hbs.decodeStream_eq, hpad7, ?_⟩
  rw [msbBits_append, hpad, ← List.append_assoc, hbits, hnone, List.nil_append, gatherBytes_eq, List.map_map]
  rfl

end Sys2Proof.Machine
end

section
/-!
PROOFS. The parser and the decoders' procedures (42_segment_parser): one byte, a header, the values of a segment, and windows that
do not matter.
-/

namespace Sys2Proof.Machine

/-- Settles O38: a byte of the window, the first byte of a fresh one, or the error of the failed refill. -/
theorem readByteRefillsWhenExhausted : Obligations.ReadByteRefillsWhenExhausted := by
  unfold Obligations.ReadByteRefillsWhenExhausted
  refine fun d ctx => ⟨fun hlt => ?_, fun hspent b w hnext => ?_, fun hspent hnext => ?_⟩
  · rw [Dec.readByte, if_neg (by omega), Dec.takeByte, List.getElem?_eq_getElem hlt]
    rfl
  · obtain ⟨src, hsrc⟩ : ∃ src, d.src.next = (some (b :: w), src) := ⟨_, Prod.ext hnext rfl⟩
    rw [Dec.readByte, if_pos hspent, Dec.refill, hsrc]
    rfl
  · obtain ⟨src, hsrc⟩ : ∃ src, d.src.next = (none, src) := ⟨_, Prod.ext hnext rfl⟩
    rw [Dec.readByte, if_pos hspent, Dec.refill, hsrc]
    cases ctx <;> rfl

/-! ### Headers (R143) -/

/-- Loading a segment leaves the stream. -/
theorem upcoming_loadSegment (i : Instr) (d : Dec) : (Dec.loadSegment i d).upcoming = d.upcoming := by
  cases i <;> rfl

section
variable {d : Dec} {h : Byte} {rest : List Byte} (hd : d.Good) (hup : d.upcoming = h :: rest)
include hd hup

theorem readHeader_repeat {k : BitVec 7} (hh : decodeHeader h = .repeats k) {v : Byte} {rest' : List Byte}
    (hrest : rest = v :: rest') :
    ∃ d', d.readHeader = .ok () (Dec.loadSegment (.rep k v) d') ∧ d'.upcoming = rest' ∧ d.SameSegment d' := by
  subst hrest
  obtain ⟨d', hfetch, hmore, hsame⟩ := fetchSegment_of_decodeSegment hd (i := .rep k v) (more := rest')
    (by rw [hup, decodeSegment, hh])
  exact ⟨d', by rw [Dec.readHeader, hfetch]; rfl, hmore, hsame⟩

theorem readHeader_repeat_short {k : BitVec 7} (hh : decodeHeader h = .repeats k) (hrest : rest = []) :
    ∃ d', d.readHeader = .raised (Dec.refillError .payload) d' := by
  subst hrest
  rcases Dec.fetchSegment_spec hd with
    ⟨_, _, _, _, _, hup', -⟩ | ⟨_, m, _, _, hup', hlit, -⟩ | ⟨-, ⟨hup', -⟩ | ⟨_, _, d', -, -, hfetch, -⟩⟩
  · rw [hup] at hup'
    cases hup'
  · rw [hup] at hup'
    cases hup'
    rw [hh] at hlit
    cases hlit
  · rw [hup] at hup'
    cases hup'
  · exact ⟨d', by rw [Dec.readHeader, hfetch]; rfl⟩

theorem readHeader_literal {m : BitVec 7} (hh : decodeHeader h = .literal m) :
    ∃ d' payload, d.readHeader = .ok () (Dec.loadSegment (.lit m payload) d') ∧ d'.upcoming = rest ∧ d.SameSegment d' := by
  rcases Dec.fetchSegment_spec hd with
    ⟨_, _, _, _, _, hup', hrep, -⟩ | ⟨_, m', _, d', hup', hlit, hfetch, hmore, -, hsame⟩ |
      ⟨-, ⟨hup', -⟩ | ⟨_, _, _, hup', hrep, -⟩⟩
  · rw [hup] at hup'
    cases hup'
    rw [hh] at hrep
    cases hrep
  · rw [hup] at hup'
    cases hup'
    rw [hh] at hlit
    cases hlit
    exact ⟨d', _, by rw [Dec.readHeader, hfetch]; rfl, hmore, hsame⟩
  · rw [hup] at hup'
    cases hup'
  · rw [hup] at hup'
    cases hup'
    rw [hh] at hrep
    cases hrep

end

/-- A count of at most 130 in the register `REMAINING_VALUES`. -/
theorem toNat_remaining {n : Nat} (h : n ≤ 130) : (BitVec.ofNat 8 n).toNat = n := by
  rw [BitVec.toNat_ofNat]
  exact Nat.mod_eq_of_lt (by omega)

/-- Settles O39: below 128 the header is a repeat's, from 128 on a literal's. -/
theorem readHeaderParsesTheSegment : Obligations.ReadHeaderParsesTheSegment := by
  unfold Obligations.ReadHeaderParsesTheSegment
  intro d h rest hi hs hup
  refine ⟨fun hlow v rest' hrest => ?_, fun hlow hrest => ?_, fun hhigh => ?_⟩
  · obtain ⟨hh, hcount⟩ := hdr_lt hlow
    obtain ⟨d', hread, hmore, -, -, -, hskip, -⟩ := readHeader_repeat ⟨hi, hs⟩ hup hh hrest
    exact ⟨_, hread, hmore, rfl, (toNat_remaining (by omega)).trans hcount, rfl, hskip⟩
  · obtain ⟨d', hread⟩ := readHeader_repeat_short ⟨hi, hs⟩ hup (hdr_lt hlow).1 hrest
    exact ⟨_, d', hread, rfl⟩
  · obtain ⟨hh, hcount⟩ := hdr_ge hhigh
    obtain ⟨d', payload, hread, hmore, -, -, hvalue, hskip, -⟩ := readHeader_literal ⟨hi, hs⟩ hup hh
    exact ⟨_, hread, hmore, rfl, (toNat_remaining (by omega)).trans hcount, hvalue, hskip⟩

/-! ### The values of a segment (R146) -/

/-- Settles O40: there are enough values, so `TakeValues` does not raise. -/
theorem takeValuesSpendsNonNullPositionsOnly : Obligations.TakeValuesSpendsNonNullPositionsOnly := by
  unfold Obligations.TakeValuesSpendsNonNullPositionsOnly
  intro isNull pos count r hi hs hcount henough
  have hlen : (nonNullFrom isNull pos count).length = ((List.range count).filter fun j => !isNull (pos + j)).length := by
    rw [nonNullFrom_eq, List.length_map]
  rcases DecRun.takeValues_spec (isNull := isNull) (pos := pos) ⟨hi, hs⟩ hcount with
    ⟨r', hok, -, hout, hlogical, -, hskip, -, hrem, hrep, hvalue⟩ | ⟨hshort, -⟩
  · rw [hlen] at hlogical hrem
    rw [nonNullFrom_eq] at hout
    exact ⟨r', hok, hout, hlogical, hrem, hrep, hvalue, hskip⟩
  · omega

/-! ### Windows (R149) -/

theorem byteNext_both {isNull : Nat → Bool} {n : Nat} {d d' : Dec} (h : DRel d d') :
    Both RRel ROut (byteNext isNull n d) (byteNext isNull n d') := by
  have ⟨hd, _, _, _, _, hskip, _⟩ := h
  have hstart : DRel { d with regs := { d.regs with pendingSkip := 0 } } { d' with regs := { d'.regs with pendingSkip := 0 } } :=
    drel_update h (fun r => { r with pendingSkip := 0 }) (fun _ => ⟨rfl, rfl⟩) (fun _ _ h1 h2 h3 _ => ⟨h1, h2, h3, rfl⟩) hd.1.1
  rw [byteNext, byteNext, hskip]
  refine Both.bind ((skipLoop_both hstart).embed (fun s t hst => ?_) fun s t _ => ?_) fun _ r r' hr => nextLoop_both hr
  · exact ⟨hst, rfl⟩
  · exact (rfl : ([] : List (Nat × Byte)) = [])

/-- Settles O46: the two decoders stay related, step by step. -/
theorem deliveryIgnoresWindowLengths : Obligations.DeliveryIgnoresWindowLengths := by
  unfold Obligations.DeliveryIgnoresWindowLengths
  intro isNull n d₁ d₂ hi₁ hi₂ hs₁ hs₂ hview
  rcases byteNext_both (isNull := isNull) (n := n) ⟨⟨hi₁, hs₁⟩, ⟨hi₂, hs₂⟩, hview⟩ with
    ⟨_, r₁, r₂, h1, h2, ⟨-, -, hview'⟩, hout⟩ | ⟨e, r₁, r₂, h1, h2, hout⟩
  · exact .inl ⟨r₁, r₂, h1, h2, hout, hview'⟩
  · exact .inr ⟨e, r₁, r₂, h1, h2, hout⟩

end Sys2Proof.Machine
end

section
/-!
PROOFS. The decoders' commands (43_byte_decoder R171 to R173, 45_bool_decoder R232 to R234) on a source that serves: what a `NEXT`
delivers and how it fails past the end, and what `SKIP` and `SEEK` do to the pending skip.
-/

namespace Sys2Proof.Machine

/-! ### A READY decoder -/

/-- A source that serves re-enters nothing. -/
theorem reenters_of_source_serves {inst : Inst} {d : Dec} {b : Option BoolDecRegs} (hc : inst.codec = Codec.ofDec d b)
    (hs : d.src.Serves) (c : Codec) : inst.codec.reenters c = false :=
  Codec.reenters_of_none (by rw [hc, Codec.reentersAt_ofDec]; exact hs.1) c

/-- A command that ends with a fatal error of this code (R268). -/
def FailsWith (o : Host.Outcome State Fault Refusal) (code : BitVec 3) : Prop :=
  ∃ (t : State) (dg : Option Diag) (inst' : Inst), o = .next t ∧ t.response = some { status := code, result := 0, diag := dg } ∧
    t.addressed = some inst' ∧ inst'.status = { failed := true, err := code }

/-- A body that raises a fatal error. -/
theorem complete_failsWith {υ : Type} {s : State} {inst : Inst} {wrap : υ → Codec} {x : Proc (υ × Shared) Count} {r : Raise}
    {us : υ × Shared} (hr : s.Ready inst) (hx : x = .raised r us) (hq : inst.codec.reenters (wrap us.1) = false)
    (hk : r.kind.fatal = true) : FailsWith (complete s inst wrap x) r.kind.code := by
  rw [hx]
  exact bad_reply hr hq hk

/-! ### `NEXT` (R171, R232) -/

section
variable {s : State} {inst : Inst} {d : Dec} (hr : s.Ready inst) (hc : inst.codec = .byteDec d) (hs : d.src.Serves)
  {data : Addr} {n : Count} {nulls : Option Addr} (ho : outputFault s.shared data n.toNat n.toNat nulls = none)
include hr hc hs ho

/-- `BDEC.NEXT` whose `ByteNext` succeeds. -/
theorem exec_bdecNext_ok {r : DecRun} (h : byteNext (isNull s.shared nulls) n.toNat d = .ok () r) :
    exec (.bdecNext data n nulls) s = .next (s.reply { inst with codec := .byteDec r.dec }
      { s.shared with mem := s.shared.mem.writeAt data r.out } { status := 0, result := 0, diag := none }) := by
  rw [exec, execBdecNext, onByteDec_ready hr hc, ho]
  dsimp only
  rw [h]
  exact complete_ok (reenters_of_source_serves (b := none) hc hs _)

/-- `BDEC.NEXT` whose `ByteNext` raises: what was delivered stays written (R268). -/
theorem exec_bdecNext_raised {e : Raise} {r : DecRun} (h : byteNext (isNull s.shared nulls) n.toNat d = .raised e r) :
    exec (.bdecNext data n nulls) s = .next (s.raiseError { inst with codec := .byteDec r.dec }
      { s.shared with mem := s.shared.mem.writeAt data r.out } e) := by
  rw [exec, execBdecNext, onByteDec_ready hr hc, ho]
  dsimp only
  rw [h]
  exact complete_raised (reenters_of_source_serves (b := none) hc hs _)

end

/-- The body of `BOOLDEC.NEXT` once the caller's buffers are checked. -/
theorem exec_booldecNext_eq {s : State} {inst : Inst} {d : Dec} {b : BoolDecRegs} {data : Addr} {n : Count} {nulls : Option Addr}
    (hr : s.Ready inst) (hc : inst.codec = .boolDec d b) (haligned : data % 8 = 0)
    (ho : outputFault s.shared data (BoolDec.laneBytes n.toNat) n.toNat nulls = none) :
    exec (.booldecNext data n nulls) s = complete s inst (fun u => .boolDec u.1 u.2)
      (match BoolDec.nextBytes (isNull s.shared nulls) n.toNat (nonNullPositions (isNull s.shared nulls) n.toNat).length (d, b) with
      | .ok bytes u' => .ok 0 (u', BoolDec.deliver s.shared data n.toNat bytes)
      | .raised r u' => .raised r (u', BoolDec.spoil s.shared data n.toNat)
      | .stuck f => .stuck f) := by
  rw [exec, execBooldecNext, onBoolDec_ready hr hc, if_neg (by simpa using haligned), ho, nonNullCount_eq] <;> rfl

/-- Settles O42: there are enough values, so `ByteNext` delivers them at the non-null positions, which are distinct. -/
theorem bdecNextDeliversTheLogicalValues : Obligations.BdecNextDeliversTheLogicalValues := by
  unfold Obligations.BdecNextDeliversTheLogicalValues
  rintro s inst d data n nulls ps vs hr hc hi hs hmem ho rfl henough rfl
  rcases byteNext_spec (isNull := isNull s.shared nulls) (numValues := n.toNat) ⟨hi, hs⟩ with
    ⟨r, hok, hlen, hout, hlogical, ⟨hi', hs'⟩, hskip, hkey⟩ | ⟨hshort, -⟩
  · obtain ⟨hread, hother⟩ := read_writeAt_zip hmem data (nnp_nodup (isNull s.shared nulls) n.toNat)
      (d.logical.drop d.regs.pendingSkip.toNat)
    rw [List.take_of_length_le hlen] at hread hother
    rw [← hout] at hread hother
    exact ⟨r.dec, _, exec_bdecNext_ok hr hc hs ho hok, hskip, hlogical, hi', hs', hkey, hread, hother,
      Memory.writeAt_wf hmem _ _⟩
  · omega

/-- Settles O43: there are too few values, so the parser raises, after `BDEC.NEXT` has delivered what there was. -/
theorem nextPastTheEndFails : Obligations.NextPastTheEndFails := by
  unfold Obligations.NextPastTheEndFails
  refine ⟨?_, ?_⟩
  · rintro s inst d data n nulls ps hr hc hi hs hmem ho rfl hne hshort
    have hpos := List.length_pos_iff.2 hne
    rcases byteNext_spec (isNull := isNull s.shared nulls) (numValues := n.toNat) ⟨hi, hs⟩ with
      ⟨r, -, hlen, -⟩ | ⟨-, e, r, hraised, hparse, hout⟩
    · rw [List.length_drop] at hlen
      omega
    · obtain ⟨hfatal, hcode⟩ := raise_kind hparse
      obtain ⟨hread, hother⟩ := read_writeAt_zip hmem data (nnp_nodup (isNull s.shared nulls) n.toNat)
        (d.logical.drop d.regs.pendingSkip.toNat)
      rw [List.length_drop, ← hout] at hread hother
      rw [List.take_of_length_le (l := d.logical.drop _) (by rw [List.length_drop]; omega)] at hread
      refine ⟨_, _, _, exec_bdecNext_raised hr hc hs ho hraised, State.raiseError_response .., hcode, rfl,
        State.addressed_raiseError hr.1 .., failed_status hfatal, ?_, ?_⟩
      · rw [State.raiseError_mem]
        exact hread
      · rw [State.raiseError_mem]
        exact hother
  · rintro s inst d b data n nulls ps hr hc hi hb hs haligned ho rfl hne hshort
    have hpos := List.length_pos_iff.2 hne
    rcases BoolDec.nextBytes_spec (isNull := isNull s.shared nulls) (n := n.toNat) (u := (d, b)) ⟨⟨hi, hs⟩, hb⟩ with
      ⟨bytes, u', -, -, hlen, -⟩ | ⟨-, e, u', hraised, hparse⟩
    · rw [List.length_drop] at hlen
      dsimp only at hlen
      omega
    · obtain ⟨hfatal, hcode⟩ := raise_kind hparse
      rw [exec_booldecNext_eq hr hc haligned ho, hraised]
      obtain ⟨t, dg, inst', hexec, hresp, hadd, hstatus⟩ := complete_failsWith (wrap := fun u => .boolDec u.1 u.2)
        (us := (u', BoolDec.spoil s.shared data n.toNat)) hr rfl (reenters_of_source_serves (b := some b) hc hs _) hfatal
      exact ⟨t, _, inst', hexec, hresp, hcode, rfl, hadd, hstatus⟩

/-- Settles O47: there are enough bits, so they are scattered over the non-null positions of the output. -/
theorem booldecNextDeliversTheLogicalBits : Obligations.BooldecNextDeliversTheLogicalBits := by
  unfold Obligations.BooldecNextDeliversTheLogicalBits
  rintro s inst d b data n nulls ps hr hc hi hb hs hmem haligned ho rfl henough
  rcases BoolDec.nextBytes_spec (isNull := isNull s.shared nulls) (n := n.toNat) (u := (d, b)) ⟨⟨hi, hs⟩, hb⟩ with
    ⟨bytes, ⟨d', b'⟩, hok, ⟨hlen, hbits, hzero⟩, -, hlogical, ⟨⟨hi', hs'⟩, hb'⟩, hskip, hkey⟩ | ⟨hshort, -⟩
  · obtain ⟨hread, hother, hwf⟩ := deliver_spec hmem data n.toNat hlen
    refine ⟨d', b', (BoolDec.deliver s.shared data n.toNat bytes).mem, (BoolDec.deliver s.shared data n.toNat bytes).freeCount,
      ?_, hskip, hi', hb', hs', hkey, hlogical, ?_, fun p hp hnull => ?_, hother, hwf⟩
    · rw [exec_booldecNext_eq hr hc haligned ho, hok]
      exact complete_ok (reenters_of_source_serves (b := some b) hc hs _)
    · rw [← hbits]
      refine List.map_congr_left fun p hp => hread p ?_
      have hlt : p < n.toNat := List.mem_range.1 (List.mem_filter.1 hp).1
      rw [ceilDiv_eight]
      omega
    · rw [hread p hp]
      exact hzero p hp hnull
  · dsimp only at hshort
    omega

/-! ### `SKIP` (R172, R233) -/

theorem addSkip_fits {d : Dec} {n : Count} (h : d.regs.pendingSkip.toNat + n.toNat < 2 ^ 64) :
    d.addSkip n = .ok () { d with regs := { d.regs with
      pendingSkip := BitVec.ofNat 64 (d.regs.pendingSkip.toNat + n.toNat) } } := by
  rw [Dec.addSkip, if_neg (by omega), BitVec.ofNat_add]
  simp

theorem addSkip_overflows {d : Dec} {n : Count} (h : 2 ^ 64 ≤ d.regs.pendingSkip.toNat + n.toNat) :
    d.addSkip n = .raised { kind := .overflow, text := "pending skip" } d := if_pos h

/-- Settles O44: the sum fits or not, and neither `SKIP` makes a transaction. -/
theorem skipAccumulatesOrOverflows : Obligations.SkipAccumulatesOrOverflows := by
  unfold Obligations.SkipAccumulatesOrOverflows
  intro s inst d b n i boolRegs hr hi hc
  have hquiet (regs : DecRegs) : inst.codec.reenters (Codec.ofDec { d with regs := regs } boolRegs) = false := by
    refine Codec.reenters_same ?_
    rw [hc]
    cases boolRegs <;> rfl
  refine ⟨fun hfits => ?_, fun hover => ?_⟩
  · rcases hi with ⟨rfl, rfl⟩ | ⟨rfl, rfl⟩
    · rw [exec, execBdecSkip, onByteDec_ready hr hc, addSkip_fits hfits]
      exact complete_ok (hquiet _)
    · rw [exec, execBooldecSkip, onBoolDec_ready hr hc, addSkip_fits hfits]
      exact complete_ok (hquiet _)
  · have hexec : exec i s = .next (s.raiseError inst s.shared { kind := .overflow, text := "pending skip" }) := by
      rcases hi with ⟨rfl, rfl⟩ | ⟨rfl, rfl⟩
      · rw [exec, execBdecSkip, onByteDec_ready hr hc, addSkip_overflows hover]
        refine (complete_raised (hquiet d.regs)).trans ?_
        rw [← hc]
      · rw [exec, execBooldecSkip, onBoolDec_ready hr hc, addSkip_overflows hover]
        refine (complete_raised (hquiet d.regs)).trans ?_
        rw [← hc]
    exact ⟨_, _, _, hexec, State.raiseError_response .., State.addressed_raiseError hr.1 .., failed_status rfl, rfl⟩

/-! ### `SEEK` (R173, R234) -/

/-- Settles O45: the seek takes three coordinates, or ends in `BadPosition`. -/
theorem bdecSeekReseatsTheDecoder : Obligations.BdecSeekReseatsTheDecoder := by
  unfold Obligations.BdecSeekReseatsTheDecoder
  intro s inst d provider hr hc hs
  refine ⟨fun c₀ c₁ c₂ more hprovided => ?_, fun hfew => ?_⟩
  · obtain ⟨d', hseek, hregs, hcursor, hstream, hs', hkey⟩ := dec_seek_ok hs hprovided
    refine ⟨d', exec_bdecSeek_ok hr hc hs hseek, hregs, hcursor, hstream, hs', hkey, ?_⟩
    rw [Dec.logical_spent (by rw [hregs]), Dec.upcoming, Dec.unread, hregs, hcursor, hstream]
    rfl
  · obtain ⟨r, u, hseek, hkind⟩ := dec_seek_bad hs hfew
    have hfails : FailsWith (exec (.bdecSeek provider) s) r.kind.code := by
      rw [exec, execBdecSeek, onByteDec_ready hr hc]
      exact complete_failsWith (us := u) hr (by rw [hseek]; rfl) (reenters_of_source_serves (b := none) hc hs _)
        (by rw [hkind]; rfl)
    rw [hkind] at hfails
    exact hfails

/-- The coordinates left once three are taken. -/
theorem provided_after_three {sh : Shared} {h : Handle} {c₀ c₁ c₂ : Count} {more : List Count}
    (hp : sh.provided h = c₀ :: c₁ :: c₂ :: more) :
    Shared.provided { sh with providers := sh.providers.modify h fun p => { p with cursor := p.cursor + 3 } } h = more := by
  have hthree := advance_provided (sh := sh) (h := h) (n := 3) (by rw [hp]; simp) (by omega)
  rw [← hthree.2, hthree.1, hp]
  rfl

/-- Cursors moved one after another. -/
theorem modify_cursor_modify (ps : List Provider) (h : Handle) (m n : Nat) :
    (ps.modify h fun p => { p with cursor := p.cursor + m }).modify h (fun p => { p with cursor := p.cursor + n }) =
      ps.modify h fun p => { p with cursor := p.cursor + (m + n) } := by
  rw [List.modify_modify_eq]
  simp only [Function.comp_def, Nat.add_assoc]

/-- `ProvNext` where a coordinate is left (20_memory R70). -/
theorem provNext_cons {sh : Shared} {h : Handle} {c : Count} {more : List Count} (hp : sh.provided h = c :: more) :
    sh.provNext h = (some c, { sh with providers := sh.providers.modify h fun p => { p with cursor := p.cursor + 1 } }) := by
  rw [Shared.provNext, hp, ← (advance_provided (sh := sh) (h := h) (n := 1) (by rw [hp]; simp) (by omega)).2]

theorem provNext_nil {sh : Shared} {h : Handle} (hp : sh.provided h = []) : sh.provNext h = (none, sh) := by
  rw [Shared.provNext, hp]

/-- `BOOLDEC.SEEK` is the inner seek, and then the bit coordinate (R234). -/
theorem exec_booldecSeek_eq {s : State} {inst : Inst} {d d' : Dec} {b : BoolDecRegs} {provider : Handle} {sh' : Shared}
    (hr : s.Ready inst) (hc : inst.codec = .boolDec d b) (hseek : d.seek provider s.shared = .ok () (d', sh')) :
    exec (.booldecSeek provider) s = complete s inst (fun u => .boolDec u.1 u.2)
      ((BoolDec.fuse provider d' b sh').yielding fun _ => 0) := by
  rw [exec, execBooldecSeek, onBoolDec_ready hr hc, hseek]
  rfl

section
variable {provider : Handle} {d : Dec} {b : BoolDecRegs} {sh : Shared}

theorem fuse_exhausted (hp : sh.provided provider = []) :
    BoolDec.fuse provider d b sh = .raised { kind := .badPosition, text := "provider exhausted" } ((d, b), sh) := by
  rw [BoolDec.fuse, provNext_nil hp]

variable {c : Count} {more : List Count} (hp : sh.provided provider = c :: more)
include hp

theorem fuse_out_of_range (hc : 8 < c.toNat) :
    ∃ u, BoolDec.fuse provider d b sh = .raised { kind := .badPosition, text := "bit offset > 8" } u := by
  rw [BoolDec.fuse, provNext_cons hp]
  exact ⟨_, if_pos hc⟩

theorem fuse_overflows (hc : c.toNat ≤ 8) (hover : 2 ^ 64 ≤ 8 * d.regs.pendingSkip.toNat + c.toNat) :
    ∃ u, BoolDec.fuse provider d b sh = .raised { kind := .overflow, text := "pending skip" } u := by
  rw [BoolDec.fuse, provNext_cons hp]
  exact ⟨_, (if_neg (by omega)).trans (if_pos hover)⟩

theorem fuse_fits (hc : c.toNat ≤ 8) (hfits : 8 * d.regs.pendingSkip.toNat + c.toNat < 2 ^ 64) :
    BoolDec.fuse provider d b sh = .ok ()
      (({ d with regs := { d.regs with pendingSkip := BitVec.ofNat 64 (8 * d.regs.pendingSkip.toNat + c.toNat) } },
        { b with remainingBits := 0 }),
        { sh with providers := sh.providers.modify provider fun p => { p with cursor := p.cursor + 1 } }) := by
  rw [BoolDec.fuse, provNext_cons hp]
  exact (if_neg (by omega)).trans (if_neg (by omega))

end

/-- Settles O48: the inner seek takes three coordinates and the fusion one; every other end is a fatal error. -/
theorem booldecSeekFusesTheCoordinates : Obligations.BooldecSeekFusesTheCoordinates := by
  unfold Obligations.BooldecSeekFusesTheCoordinates
  intro s inst d b provider hr hc hs
  have hquiet (c : Codec) : inst.codec.reenters c = false := reenters_of_source_serves (b := some b) hc hs c
  have hfuse_fails {d' : Dec} {sh' : Shared} {r : Raise} {u} (hseek : d.seek provider s.shared = .ok () (d', sh'))
      (hraise : BoolDec.fuse provider d' b sh' = .raised r u) (hk : r.kind.fatal = true) :
      FailsWith (exec (.booldecSeek provider) s) r.kind.code := by
    rw [exec_booldecSeek_eq hr hc hseek]
    exact complete_failsWith hr (by rw [hraise]; rfl) (hquiet _) hk
  refine ⟨fun c₀ c₁ c₂ c₃ more hprovided => ?_, fun hfew => ?_⟩
  · obtain ⟨d', hseek, hregs, hcursor, hstream, hs', hkey⟩ := dec_seek_ok hs hprovided
    have hleft := provided_after_three hprovided
    have hskip : d'.regs.pendingSkip = c₂ := by rw [hregs]
    rw [← hskip]
    refine ⟨fun h8 hfits => ⟨{ d' with regs := { d'.regs with
        pendingSkip := BitVec.ofNat 64 (8 * d'.regs.pendingSkip.toNat + c₃.toNat) } }, ?_, by rw [hregs], hcursor, hstream, hs', hkey⟩,
        fun h8 hover => ?_, fun h8 => ?_⟩
    · rw [exec_booldecSeek_eq hr hc hseek, fuse_fits hleft h8 hfits, modify_cursor_modify]
      exact complete_ok (hquiet _)
    · obtain ⟨u, hraise⟩ := fuse_overflows (d := d') (b := b) hleft h8 hover
      exact hfuse_fails hseek hraise rfl
    · obtain ⟨u, hraise⟩ := fuse_out_of_range (d := d') (b := b) hleft h8
      exact hfuse_fails hseek hraise rfl
  · by_cases h3 : (s.shared.provided provider).length < 3
    · obtain ⟨r, u, hseek, hkind⟩ := dec_seek_bad hs h3
      have hfails : FailsWith (exec (.booldecSeek provider) s) r.kind.code := by
        rw [exec, execBooldecSeek, onBoolDec_ready hr hc]
        exact complete_failsWith (us := ((u.1, b), u.2)) hr (by rw [hseek]; rfl) (hquiet _) (by rw [hkind]; rfl)
      rw [hkind] at hfails
      exact hfails
    · obtain ⟨c₀, c₁, c₂, hprovided⟩ : ∃ c₀ c₁ c₂, s.shared.provided provider = [c₀, c₁, c₂] :=
        List.length_eq_three.1 (by omega)
      obtain ⟨d', hseek, -⟩ := dec_seek_ok hs hprovided
      exact hfuse_fails hseek (fuse_exhausted (provided_after_three hprovided)) rfl

end Sys2Proof.Machine
end

section
/-!
PROOFS. What the six decoder commands leave unchanged outside the instance, however they end (43_byte_decoder, 45_bool_decoder;
20_memory R50, R55, R70).
-/

namespace Sys2Proof.Machine

/-- What a decoder command may change outside the instances. -/
structure DecKeeps (i : Instr) (sh sh' : Shared) : Prop where
  byteNext : ∀ data n nulls, i = .bdecNext data n nulls →
    ∀ a, (∀ p, p < n.toNat → isNull sh nulls p = false → a ≠ data + p) → sh'.mem.read a = sh.mem.read a
  boolNext : ∀ data n nulls, i = .booldecNext data n nulls →
    ∀ a, (a < data ∨ data + 8 * ceilDiv n.toNat 64 ≤ a) → sh'.mem.read a = sh.mem.read a
  mem : (∀ data n nulls, i ≠ .bdecNext data n nulls ∧ i ≠ .booldecNext data n nulls) →
    ∀ a, sh'.mem.read a = sh.mem.read a
  rest : sh' = { sh with mem := sh'.mem, providers := sh'.providers, freeCount := sh'.freeCount }
  providers : (∀ h, i ≠ .bdecSeek h ∧ i ≠ .booldecSeek h) → sh'.providers = sh.providers
  otherProviders : ∀ h, i = .bdecSeek h ∨ i = .booldecSeek h → ∀ k, k ≠ h → sh'.providers[k]? = sh.providers[k]?
  coords : sh'.providers.map (fun p => p.coords) = sh.providers.map (fun p => p.coords)

namespace DecKeeps

theorem refl (i : Instr) (sh : Shared) : DecKeeps i sh sh :=
  ⟨fun _ _ _ _ _ _ => rfl, fun _ _ _ _ _ _ => rfl, fun _ _ => rfl, rfl, fun _ => rfl, fun _ _ _ _ => rfl, rfl⟩

theorem freeCount {i : Instr} {sh₀ : Shared} (sh : Shared) (n : Nat) (h : DecKeeps i sh₀ sh) :
    DecKeeps i sh₀ { sh with freeCount := n } :=
  ⟨h.byteNext, h.boolNext, h.mem, by rw [h.rest], h.providers, h.otherProviders, h.coords⟩

/-- A byte `NEXT` writes what it delivers, at non-null positions. -/
theorem of_delivered {data : Addr} {n : Count} {nulls : Option Addr} {sh : Shared} (hm : sh.mem.wf = true) {r : DecRun}
    (hout : OutIn n.toNat (isNull sh nulls) r) :
    DecKeeps (.bdecNext data n nulls) sh { sh with mem := sh.mem.writeAt data r.out } where
  byteNext := by
    rintro _ _ _ ⟨⟩ a ha
    refine Memory.read_writeAt_other hm fun w hw => ?_
    obtain ⟨hlt, hnull⟩ := hout w hw
    exact ha w.1 hlt hnull
  boolNext := by rintro _ _ _ ⟨⟩
  mem := fun h => absurd rfl (h data n nulls).1
  rest := rfl
  providers := fun _ => rfl
  otherProviders := fun _ _ _ _ => rfl
  coords := rfl

/-- A boolean `NEXT` writes in its lanes. -/
theorem of_lanes {data : Addr} {n : Count} {nulls : Option Addr} {sh : Shared} {mem : Memory} (free : Nat)
    (hmem : ∀ a, (a < data ∨ data + 8 * ceilDiv n.toNat 64 ≤ a) → mem.read a = sh.mem.read a) :
    DecKeeps (.booldecNext data n nulls) sh { sh with mem := mem, freeCount := free } where
  byteNext := by rintro _ _ _ ⟨⟩
  boolNext := by
    rintro _ _ _ ⟨⟩
    exact hmem
  mem := fun h => absurd rfl (h data n nulls).2
  rest := rfl
  providers := fun _ => rfl
  otherProviders := fun _ _ _ _ => rfl
  coords := rfl

section
variable {i : Instr} {h : Handle} {sh₀ sh : Shared} (hi : i = .bdecSeek h ∨ i = .booldecSeek h)
include hi

/-- A `SEEK` moves a cursor of its own provider. -/
theorem advance (hk : DecKeeps i sh₀ sh) (n : Nat) : DecKeeps i sh₀ (sh.advance h n) where
  byteNext := hk.byteNext
  boolNext := hk.boolNext
  mem := hk.mem
  rest := by
    rw [Shared.advance, hk.rest]
  providers := fun hne => by
    rcases hi with rfl | rfl
    · exact absurd rfl (hne h).1
    · exact absurd rfl (hne h).2
  otherProviders := fun h' hi' k hkh => by
    have hsame : h' = h := by rcases hi with rfl | rfl <;> simpa [eq_comm] using hi'
    subst hsame
    rw [← hk.otherProviders h' hi' k hkh, Shared.advance]
    exact List.getElem?_modify_ne _ _ (Ne.symm hkh)
  coords := by
    rw [← hk.coords, Shared.advance]
    refine List.ext_getElem? fun k => ?_
    simp only [List.getElem?_map, List.getElem?_modify]
    split <;> cases sh.providers[k]? <;> rfl

theorem provNext (hk : DecKeeps i sh₀ sh) : DecKeeps i sh₀ (sh.provNext h).2 := by
  unfold Shared.provNext
  split
  · exact hk
  · exact hk.advance hi 1

theorem seek (d : Dec) (hk : DecKeeps i sh₀ sh) : EndsIn (DecKeeps i sh₀) (d.seek h sh) := by
  unfold Dec.seek
  dsimp only
  split
  · exact hk
  · split
    · have hnext := (hk.advance hi (d.src.seek (sh.provided h)).2.1).provNext hi
      unfold Dec.reseat
      dsimp only
      split <;> next hprov =>
        rw [hprov] at hnext
        exact hnext
    · exact hk.advance hi _

theorem fuse (d : Dec) (b : BoolDecRegs) (hk : DecKeeps i sh₀ sh) : EndsIn (DecKeeps i sh₀) (BoolDec.fuse h d b sh) := by
  have hnext := hk.provNext hi
  unfold BoolDec.fuse
  split
  · next hprov =>
    rw [hprov] at hnext
    exact hnext
  · next hprov =>
    rw [hprov] at hnext
    split
    · exact hnext
    · split <;> exact hnext

end

end DecKeeps

/-- What a failed boolean `NEXT` leaves of memory: nothing changed outside the lanes (R268). -/
theorem spoil_read_other {sh : Shared} (hm : sh.mem.wf = true) {data n a : Nat}
    (ha : a < data ∨ data + 8 * ceilDiv n 64 ≤ a) : (BoolDec.spoil sh data n).mem.read a = sh.mem.read a := by
  refine Memory.read_writeAt_other hm fun w hw => ?_
  have hlane := freeWrites_mem hw
  rw [BoolDec.laneBytes] at hlane
  rintro rfl
  omega

theorem onByteDec_keeps {i : Instr} {s t : State} {body : Dec → Shared → Proc (Dec × Shared) Count}
    (h : onByteDec s body = .next t) (hx : ∀ d, EndsIn (DecKeeps i s.shared) (body d s.shared)) :
    DecKeeps i s.shared t.shared := onByteDec_frame hx DecKeeps.freeCount (.refl i _) h

theorem onBoolDec_keeps {i : Instr} {s t : State}
    {body : Dec × BoolDecRegs → Shared → Proc ((Dec × BoolDecRegs) × Shared) Count} (h : onBoolDec s body = .next t)
    (hx : ∀ u, EndsIn (DecKeeps i s.shared) (body u s.shared)) :
    DecKeeps i s.shared t.shared := onBoolDec_frame hx DecKeeps.freeCount (.refl i _) h

theorem exec_bdecNext_keeps {s t : State} {data : Addr} {n : Count} {nulls : Option Addr} (hm : s.shared.mem.wf = true)
    (h : exec (.bdecNext data n nulls) s = .next t) : DecKeeps (.bdecNext data n nulls) s.shared t.shared := by
  rw [exec, execBdecNext] at h
  refine onByteDec_keeps h fun d => ?_
  split
  · trivial
  · exact Proc.Ends.yielding (byteNext_out.embed (fun _ _ hout => DecKeeps.of_delivered hm hout)
      fun _ _ hout => DecKeeps.of_delivered hm hout) fun _ _ hk => hk

theorem exec_booldecNext_keeps {s t : State} {data : Addr} {n : Count} {nulls : Option Addr} (hm : s.shared.mem.wf = true)
    (h : exec (.booldecNext data n nulls) s = .next t) : DecKeeps (.booldecNext data n nulls) s.shared t.shared := by
  rw [exec, execBooldecNext] at h
  refine onBoolDec_keeps h fun u => ?_
  split
  · trivial
  · split
    · trivial
    · split
      · next bytes u' hok =>
        obtain ⟨-, hother, -⟩ := deliver_spec hm data n.toNat (nextBytes_length hok)
        exact DecKeeps.of_lanes _ hother
      · exact DecKeeps.of_lanes _ fun a ha => spoil_read_other hm ha
      · trivial

theorem exec_decKeeps {i : Instr} {s t : State} (hk : i.kind = some .byteDec ∨ i.kind = some .boolDec)
    (hm : s.shared.mem.wf = true) (h : exec i s = .next t) : DecKeeps i s.shared t.shared := by
  have hrefl := DecKeeps.refl i s.shared
  cases i with
  | bdecNext data n nulls => exact exec_bdecNext_keeps hm h
  | booldecNext data n nulls => exact exec_booldecNext_keeps hm h
  | bdecSkip n =>
    rw [exec, execBdecSkip] at h
    exact onByteDec_keeps h fun d => (endsIn_unit hrefl _).yielding fun _ _ hq => hq
  | booldecSkip n =>
    rw [exec, execBooldecSkip] at h
    exact onBoolDec_keeps h fun u => Proc.Ends.yielding (Proc.Ends.embed (P := fun _ _ => True) (S := fun _ _ => True)
      (by cases u.1.addSkip n <;> trivial) (fun _ _ _ => hrefl) fun _ _ _ => hrefl) fun _ _ hq => hq
  | bdecSeek provider =>
    rw [exec, execBdecSeek] at h
    exact onByteDec_keeps h fun d => (hrefl.seek (.inl rfl) d).yielding fun _ _ hq => hq
  | booldecSeek provider =>
    rw [exec, execBooldecSeek] at h
    refine onBoolDec_keeps h fun u => Proc.Ends.yielding (Proc.Ends.bind
      (P := fun _ us => DecKeeps (.booldecSeek provider) s.shared us.2) ((hrefl.seek (.inr rfl) u.1).embed (fun _ _ hq => hq) fun _ _ hq => hq)
      fun _ us hq => ?_) fun _ _ hq => hq
    exact hq.fuse (.inr rfl) _ _
  | _ => simp [Instr.kind] at hk

/-- Settles O49: the frame of the six bodies, and the frame of every instruction. -/
theorem decoderCommandsFrame : Obligations.DecoderCommandsFrame := by
  unfold Obligations.DecoderCommandsFrame
  intro i s t hk hm h
  have hkeeps := exec_decKeeps hk hm h
  exact ⟨hkeeps.byteNext, hkeeps.boolNext, hkeeps.mem, hkeeps.rest, hkeeps.providers, hkeeps.otherProviders, hkeeps.coords,
    exec_frame h⟩

end Sys2Proof.Machine
end

section
/-!
PROOFS. The caller faults (60_exceptions R272, 70_reset R301): buffers that are not the caller's or overlap, accessors and agents
that re-enter or do not return, and a factory's shared agent. Each stops the instruction with its own fault.
-/

namespace Sys2Proof.Machine

/-! ### The caller's buffers (R272 items 1 to 3) -/

/-- A byte of an owned buffer is owned. -/
theorem owned_byte {sh : Shared} {base len a : Nat} (h : owned sh base len = true) (hlow : base ≤ a) (hhigh : a < base + len) :
    owned sh a 1 = true := by
  have hlen : len ≠ 0 := by omega
  simp only [owned, Bool.or_eq_true, Bool.and_eq_true, beq_iff_eq, decide_eq_true_eq, List.all_eq_true, hlen, false_or] at h ⊢
  obtain ⟨hspace, hholes⟩ := h
  refine .inr ⟨by omega, fun hole hmem => ?_⟩
  rcases hholes hole hmem with (hempty | hbelow) | habove
  · exact .inl (.inl hempty)
  · exact .inl (.inr (by omega))
  · exact .inr (by omega)

theorem mem_rangePositions {r : Range} {p : Nat} (h : p ∈ rangePositions r) : r.b.toNat ≤ p ∧ p < r.e.toNat := by
  rw [rangePositions, List.mem_range'_1] at h
  omega

theorem mem_positions {ranges : List Range} {p : Nat} (h : p ∈ positions ranges) :
    ∃ r ∈ ranges, r.b.toNat ≤ p ∧ p < r.e.toNat := by
  obtain ⟨r, hr, hp⟩ := List.mem_flatMap.1 h
  exact ⟨r, hr, mem_rangePositions hp⟩

/-- The byte of an owned bitmap that holds a position. -/
theorem owned_of_bitsOwned {sh : Shared} {base p : Nat} {r : Range} (h : bitsOwned sh base r = true) (hlow : r.b.toNat ≤ p)
    (hhigh : p < r.e.toNat) : owned sh (base + p / 8) 1 = true := by
  rw [bitsOwned, Bool.or_eq_true, decide_eq_true_eq] at h
  rcases h with hempty | hown
  · omega
  · exact owned_byte hown (by omega) (by omega)

section
variable {sh : Shared} {data p : Nat} {ranges : List Range} {nulls : Option Addr} (hp : p ∈ positions ranges)
include hp

theorem owned_of_nullsOwned (h : nullsOwned sh nulls ranges = true) {mask : Nat} (hmask : nulls = some mask) :
    owned sh (mask + p / 8) 1 = true := by
  obtain ⟨r, hr, hlow, hhigh⟩ := mem_positions hp
  subst hmask
  exact owned_of_bitsOwned (List.all_eq_true.1 h r hr) hlow hhigh

theorem owned_of_addBuffersOwned (h : addBuffersOwned sh data ranges nulls = true) :
    owned sh (data + p) 1 = true ∧ ∀ mask, nulls = some mask → owned sh (mask + p / 8) 1 = true := by
  obtain ⟨hdata, hnulls⟩ := Bool.and_eq_true_iff.1 h
  obtain ⟨r, hr, hlow, hhigh⟩ := mem_positions hp
  exact ⟨owned_byte (List.all_eq_true.1 hdata r hr) (by omega) (by omega), fun mask => owned_of_nullsOwned hp hnulls⟩

theorem owned_of_addBitsBuffersOwned (h : addBitsBuffersOwned sh data ranges nulls = true) :
    owned sh (data + p / 8) 1 = true ∧ ∀ mask, nulls = some mask → owned sh (mask + p / 8) 1 = true := by
  obtain ⟨hdata, hnulls⟩ := Bool.and_eq_true_iff.1 h
  obtain ⟨r, hr, hlow, hhigh⟩ := mem_positions hp
  exact ⟨owned_of_bitsOwned (List.all_eq_true.1 hdata r hr) hlow hhigh, fun mask => owned_of_nullsOwned hp hnulls⟩

end

/-- A check that fails as a whole or, against what it implies, at one position, fails. -/
theorem check_fails {check : Bool} {ps : List Nat} {data mask : Nat → Nat} {sh : Shared} {nulls : Option Addr}
    (hcheck : check = true → ∀ p ∈ ps, owned sh (data p) 1 = true ∧ ∀ m, nulls = some m → owned sh (m + mask p) 1 = true)
    (h : check = false ∨ ∃ p ∈ ps, owned sh (data p) 1 = false ∨ ∃ m, nulls = some m ∧ owned sh (m + mask p) 1 = false) :
    ¬check = true := by
  rintro htrue
  rcases h with hfalse | ⟨p, hp, hdata | ⟨m, hm, hmask⟩⟩
  · rw [htrue] at hfalse
    cases hfalse
  · rw [(hcheck htrue p hp).1] at hdata
    cases hdata
  · rw [(hcheck htrue p hp).2 m hm] at hmask
    cases hmask

theorem outputFault_data {sh : Shared} {data len n : Nat} {nulls : Option Addr} (h : owned sh data len = false) :
    outputFault sh data len n nulls = some .bufferOutside := by
  unfold outputFault
  rw [h]
  rfl

theorem outputFault_mask {sh : Shared} {data len n mask : Nat} (hdata : owned sh data len = true)
    (h : owned sh mask (ceilDiv n 8) = false) : outputFault sh data len n (some mask) = some .bufferOutside := by
  rw [outputFault, hdata]
  simp [h]

/-- A byte in common is an overlap. -/
theorem outputFault_overlap {sh : Shared} {data len n mask a : Nat} (hdata : owned sh data len = true)
    (hmask : owned sh mask (ceilDiv n 8) = true) (h1 : data ≤ a) (h2 : a < data + len) (h3 : mask ≤ a)
    (h4 : a < mask + ceilDiv n 8) : outputFault sh data len n (some mask) = some .outputOverlap := by
  have hover : overlaps data len mask (ceilDiv n 8) = true := decide_eq_true (by omega)
  rw [outputFault, hdata]
  simp [hmask, hover]

section
variable {s : State} {inst : Inst} (hr : s.Ready inst)
include hr

theorem exec_booldecNext_misaligned {d : Dec} {b : BoolDecRegs} (hc : inst.codec = .boolDec d b) {data : Addr} (h : data % 8 ≠ 0)
    (n : Count) (nulls : Option Addr) : exec (.booldecNext data n nulls) s = .fault .outputMisaligned := by
  rw [exec, execBooldecNext, onBoolDec_ready hr hc, if_pos h, complete_stuck]

/-- A `NEXT` whose buffers are at fault. -/
theorem exec_next_fault {i : Instr} {d : Dec} {b : BoolDecRegs} {data len : Nat} {n : Count} {nulls : Option Addr} {f : Fault}
    (hi : (i = .bdecNext data n nulls ∧ inst.codec = .byteDec d ∧ len = n.toNat) ∨
      (i = .booldecNext data n nulls ∧ inst.codec = .boolDec d b ∧ data % 8 = 0 ∧ len = 8 * ceilDiv n.toNat 64))
    (h : outputFault s.shared data len n.toNat nulls = some f) : exec i s = .fault f := by
  rcases hi with ⟨rfl, hc, rfl⟩ | ⟨rfl, hc, haligned, rfl⟩
  · rw [exec, execBdecNext, onByteDec_ready hr hc, h, complete_stuck]
  · rw [exec, execBooldecNext, onBoolDec_ready hr hc, if_neg (by simpa using haligned), BoolDec.laneBytes, h, complete_stuck]

theorem exec_add_fault {i : Instr} {e : Enc} {b : BoolEncRegs} {data : Addr} {ranges : List Range} {nulls : Option Addr}
    (hi : (i = .bencAdd data ranges nulls ∧ inst.codec = .byteEnc e) ∨
      (i = .boolencAdd data ranges nulls ∧ inst.codec = .boolEnc e b))
    (h : ¬addBuffersOwned s.shared data ranges nulls = true) : exec i s = .fault .bufferOutside := by
  rcases hi with ⟨rfl, hc⟩ | ⟨rfl, hc⟩
  · rw [exec, execBencAdd, onByteEnc_ready hr hc, if_neg h, complete_stuck]
  · rw [exec, execBoolencAdd, onBoolEnc_ready hr hc, if_neg h, complete_stuck]

theorem exec_addBits_fault {e : Enc} {b : BoolEncRegs} (hc : inst.codec = .boolEnc e b) {data : Addr} {ranges : List Range}
    {nulls : Option Addr} (h : ¬addBitsBuffersOwned s.shared data ranges nulls = true) (invert : Bool) :
    exec (.boolencAddBits data ranges nulls invert) s = .fault .bufferOutside := by
  rw [exec, execBoolencAddBits, onBoolEnc_ready hr hc, if_neg h, complete_stuck]

end

/-! ### Accessors (R272 items 4 and 8) -/

/-- The end of a call that gives no answer. -/
def Answer.fault {α : Type} : Answer α → Option Fault
  | .returns _ => none
  | .reenters => some .reentrantAccessor
  | .diverges => some .accessorDoesNotReturn

theorem settle_fault {α : Type} {x : Option (Answer α)} {a : Answer α} {f : Fault} (hx : x = some a) (ha : a.fault = some f)
    (free : α) (sh : Shared) : Answer.settle x free sh = .stuck f := by
  subst hx
  cases a <;> cases ha <;> rfl

section
variable {υ : Type} {write : υ → Byte → Proc υ Unit} {valueAt isNullAt : Handle} {sh : Shared} {p : Nat} {f : Fault}

/-- The loop where `IsNullAt` gives no answer. -/
theorem addFnLoop_null_fault {a : Answer Bool} (hn : (sh.nullFns[isNullAt]?.bind fun x => x.answer p) = some a)
    (ha : a.fault = some f) (ps : List Nat) (count : Nat) (u : υ) :
    addFnLoop write valueAt isNullAt (p :: ps) count u sh = .stuck f := by
  rw [addFnLoop, askNull, settle_fault hn ha]
  rfl

/-- The loop where `ValueAt` gives no answer. -/
theorem addFnLoop_value_fault {a : Answer Byte} (hn : (sh.nullFns[isNullAt]?.bind fun x => x.answer p) = some (.returns false))
    (hv : (sh.valueFns[valueAt]?.bind fun x => x.answer p) = some a) (ha : a.fault = some f) (ps : List Nat) (count : Nat) (u : υ) :
    addFnLoop write valueAt isNullAt (p :: ps) count u sh = .stuck f := by
  rw [addFnLoop, askNull, hn]
  simp only [Answer.settle, Proc.embed_ok, Proc.bind_ok, Bool.false_eq_true, if_false]
  rw [askValue, settle_fault hv ha]
  rfl

/-- The loop reaches a position where it stops, past positions at which the accessors return and the writes succeed. -/
theorem addFnLoop_reaches {g : Nat → Bool} {val : Nat → Byte} {asked after : List Nat} {u : υ}
    (hw : ∀ vs, ∃ u', writeList write u vs = .ok () u')
    (hn : ∀ q ∈ asked, (sh.nullFns[isNullAt]?.bind fun a => a.answer q) = some (.returns (g q)))
    (hv : ∀ q ∈ asked, g q = false → (sh.valueFns[valueAt]?.bind fun a => a.answer q) = some (.returns (val q)))
    (hstop : ∀ count u calls, addFnLoop write valueAt isNullAt (p :: after) count u { sh with calls := calls } = .stuck f) :
    addFnLoop write valueAt isNullAt (asked ++ p :: after) 0 u sh = .stuck f := by
  obtain ⟨u', hok⟩ := hw ((asked.filter fun q => !g q).map val)
  rw [addFnLoop_append, addFnLoop_returns hn hv hok]
  exact hstop _ _ _

end

/-- The two `ADD_FN` where the loop stops at a position that they reach. -/
theorem exec_addFn_fault {i : Instr} {s : State} {inst : Inst} {e : Enc} {b : BoolEncRegs} {valueAt isNullAt : Handle}
    {ranges : List Range} {val : Nat → Byte} {g : Nat → Bool} {asked after : List Nat} {p : Nat} {f : Fault}
    (hr : s.Ready inst) (hs : e.sink.Serves)
    (hi : (i = .bencAddFn valueAt isNullAt ranges ∧ inst.codec = .byteEnc e) ∨
      (i = .boolencAddFn valueAt isNullAt ranges ∧ inst.codec = .boolEnc e b))
    (hps : positions ranges = asked ++ p :: after)
    (hn : ∀ q ∈ asked, (s.shared.nullFns[isNullAt]?.bind fun a => a.answer q) = some (.returns (g q)))
    (hv : ∀ q ∈ asked, g q = false → (s.shared.valueFns[valueAt]?.bind fun a => a.answer q) = some (.returns (val q)))
    (hstop : ∀ {υ : Type} (write : υ → Byte → Proc υ Unit) (count : Nat) (u : υ) (calls : List AccessorCall),
      addFnLoop write valueAt isNullAt (p :: after) count u { s.shared with calls := calls } = .stuck f) :
    exec i s = .fault f := by
  rcases hi with ⟨rfl, hc⟩ | ⟨rfl, hc⟩
  · have hw (vs) : ∃ e', writeList Enc.write e vs = .ok () e' := by
      obtain ⟨e', hok, -⟩ := Enc.writeAll_serves vs hs
      exact ⟨e', (writeList_enc e vs).trans hok⟩
    rw [exec, execBencAddFn, onByteEnc_ready hr hc, hps, addFnLoop_reaches hw hn hv (hstop _)]
    rfl
  · have hw (vs) : ∃ u', writeList BoolEnc.writeByteAsBool (e, b) vs = .ok () u' := by
      obtain ⟨u', hok, -⟩ := BoolEnc.writeBools_serves (u := (e, b)) (vs.map fun v => v != 0) hs
      exact ⟨u', (writeList_bool (e, b) vs).trans hok⟩
    rw [exec, execBoolencAddFn, onBoolEnc_ready hr hc, hps, addFnLoop_reaches hw hn hv (hstop _)]
    rfl

/-! ### Agents (R301; R272 item 4) -/

theorem transactions_unspecified (c : Codec) (n : Nat) : (c.unspecified n).transactions = c.transactions := by
  cases c <;> simp only [Codec.unspecified, Codec.transactions]

theorem reenters_congr {c c₁ c₂ : Codec} (h : c₁.transactions = c₂.transactions) : c.reenters c₁ = c.reenters c₂ := by
  rw [Codec.reenters, Codec.reenters, h]

/-- The registers left free by an error are no transaction. -/
theorem reenters_failedInst (c : Codec) (inst : Inst) (sh : Shared) (r : Raise) :
    c.reenters (State.failedInst inst sh r).codec = c.reenters inst.codec := by
  refine reenters_congr ?_
  unfold State.failedInst
  split
  · exact transactions_unspecified _ _
  · rfl

/-- An outcome that is a next state has an addressed instance that no agent re-entered. -/
def Quiet (c : Codec) (o : Host.Outcome State Fault Refusal) : Prop :=
  ∀ t inst', o = .next t → t.addressed = some inst' → c.reenters inst'.codec = false

section
variable {s : State} {inst : Inst} (hr : s.Ready inst)
include hr

theorem quiet_complete {υ : Type} (wrap : υ → Codec) (x : Proc (υ × Shared) Count) :
    Quiet inst.codec (complete s inst wrap x) := by
  intro t inst' h hadd
  rcases complete_eq_next h with ⟨n, u, sh, -, hq, rfl⟩ | ⟨r, u, sh, -, hq, rfl⟩
  · rw [State.addressed_reply hr.1] at hadd
    cases hadd
    exact hq
  · rw [State.addressed_raiseError hr.1] at hadd
    cases hadd
    rw [reenters_failedInst]
    exact hq

theorem quiet_illegal : Quiet inst.codec (illegalCommand s inst) := by
  intro t inst' h hadd
  cases h
  rw [State.addressed_raiseError hr.1] at hadd
  cases hadd
  rw [reenters_failedInst]
  exact Codec.reenters_same rfl

theorem quiet_onParser (i : Instr) : Quiet inst.codec (onParser s (Dec.loadSegment i)) := by
  have hlog (d : Dec) : (Dec.loadSegment i d).src = d.src := by cases i <;> rfl
  intro t inst' h hadd
  rw [onParser, withAddressed_ready hr] at h
  have hset (c : Codec) : State.addressed { s with slots := s.slots.set s.cur (some { inst with codec := c }) } =
      some { inst with codec := c } := addressed_of_slot (slots_set_same (slot_of_addressed hr.1) _)
  cases hc : inst.codec with
  | byteEnc | boolEnc =>
    rw [hc] at h
    cases h
  | byteDec d =>
    rw [hc] at h
    dsimp only at h
    split at h <;> cases h
    rw [hset] at hadd
    cases hadd
    exact Codec.reenters_same (congrArg (fun src => src.log.length) (hlog d))
  | boolDec d b =>
    rw [hc] at h
    dsimp only at h
    split at h <;> cases h
    rw [hset] at hadd
    cases hadd
    exact Codec.reenters_same (congrArg (fun src => src.log.length) (hlog d))

theorem quiet_onByteEnc (body : Enc → Shared → Proc (Enc × Shared) Count) : Quiet inst.codec (onByteEnc s body) := by
  rw [onByteEnc, withAddressed_ready hr]
  split
  · exact quiet_complete hr _ _
  all_goals exact quiet_illegal hr

theorem quiet_onBoolEnc (body : Enc × BoolEncRegs → Shared → Proc ((Enc × BoolEncRegs) × Shared) Count) :
    Quiet inst.codec (onBoolEnc s body) := by
  rw [onBoolEnc, withAddressed_ready hr]
  split
  · exact quiet_complete hr _ _
  all_goals exact quiet_illegal hr

theorem quiet_onByteDec (body : Dec → Shared → Proc (Dec × Shared) Count) : Quiet inst.codec (onByteDec s body) := by
  rw [onByteDec, withAddressed_ready hr]
  split
  · exact quiet_complete hr _ _
  all_goals exact quiet_illegal hr

theorem quiet_onBoolDec (body : Dec × BoolDecRegs → Shared → Proc ((Dec × BoolDecRegs) × Shared) Count) :
    Quiet inst.codec (onBoolDec s body) := by
  rw [onBoolDec, withAddressed_ready hr]
  split
  · exact quiet_complete hr _ _
  all_goals exact quiet_illegal hr

/-- No instruction gives a next state after a transaction that was re-entered. -/
theorem quiet_exec (i : Instr) : Quiet inst.codec (exec i s) := by
  unfold exec
  cases i with
  | rep k v => exact quiet_onParser hr (.rep k v)
  | lit m payload => exact quiet_onParser hr (.lit m payload)
  | bencAdd | bencAddFn | bencAddBits | bencFlush | bencRecpos | bencGetsize => exact quiet_onByteEnc hr _
  | boolencAdd | boolencAddFn | boolencAddBits | boolencFlush | boolencRecpos | boolencGetsize => exact quiet_onBoolEnc hr _
  | bdecNext | bdecSkip | bdecSeek => exact quiet_onByteDec hr _
  | booldecNext | booldecSkip | booldecSeek => exact quiet_onBoolDec hr _

end

/-- The transaction named is the first one made. -/
theorem reenters_first {c c' : Codec} (hk : c.reentersAt = some c.transactions) (h : c.transactions < c'.transactions) :
    c.reenters c' = true := by
  rw [Codec.reenters, hk]
  simpa using h

section
variable {s : State} {inst : Inst} {e : Enc} {b : BoolEncRegs} (hr : s.Ready inst)
  (hk : e.sink.reentersAt = some e.sink.log.length)
include hk

/-- The first transaction of an encoder is the one that its sink re-enters. -/
theorem reenters_of_ofEnc {b b' : Option BoolEncRegs} (hc : inst.codec = Codec.ofEnc e b) {e' : Enc}
    (hlog : e.sink.log.length < e'.sink.log.length) : inst.codec.reenters (Codec.ofEnc e' b') = true := by
  rw [hc]
  cases b <;> cases b' <;> exact reenters_first hk hlog

include hr

theorem exec_byteEnc_reentered (hc : inst.codec = .byteEnc e) (recorder : Handle) (stride : Nat) :
    exec (.bencRecpos recorder stride) s = .fault .reentrantAgent ∧ exec .bencGetsize s = .fault .reentrantAgent ∧
      (e.regs.numLiterals = 0 → exec .bencFlush s = .fault .reentrantAgent) := by
  have hfault {body : Enc → Shared → Proc (Enc × Shared) Count} {n : Count} {us : Enc × Shared} (hx : body e s.shared = .ok n us)
      (hlog : e.sink.log.length < us.1.sink.log.length) : onByteEnc s body = .fault .reentrantAgent := by
    rw [onByteEnc_ready hr hc]
    exact complete_reenters (.inl ⟨n, hx⟩) (reenters_of_ofEnc (b := none) (b' := none) hk hc hlog)
  unfold exec
  refine ⟨hfault rfl ?_, hfault rfl ?_, fun h0 => hfault (us := (e.release.2, s.shared)) (n := e.release.1) ?_ ?_⟩
  · simp [Enc.recordPosition, Sink.pos]
  · simp [Enc.size, Sink.size]
  · rw [Enc.flush, Enc.writeValues, if_pos h0]
    rfl
  · simp [Enc.release, Sink.flush, Sink.backUp]

theorem exec_boolEnc_reentered (hc : inst.codec = .boolEnc e b) (recorder : Handle) (stride : Nat) :
    exec (.boolencRecpos recorder stride) s = .fault .reentrantAgent ∧ exec .boolencGetsize s = .fault .reentrantAgent := by
  have hfault {body : Enc × BoolEncRegs → Shared → Proc ((Enc × BoolEncRegs) × Shared) Count} {n : Count}
      {us : (Enc × BoolEncRegs) × Shared} (hx : body (e, b) s.shared = .ok n us)
      (hlog : e.sink.log.length < us.1.1.sink.log.length) : onBoolEnc s body = .fault .reentrantAgent := by
    rw [onBoolEnc_ready hr hc]
    exact complete_reenters (.inl ⟨n, hx⟩) (reenters_of_ofEnc (b := some b) (b' := some us.1.2) hk hc hlog)
  unfold exec
  refine ⟨hfault rfl ?_, hfault rfl ?_⟩
  · simp [Enc.recordPosition, Sink.pos]
  · simp [Enc.size, Sink.size]

end

/-- A procedure that ends, however it does, in a state with `P`. -/
def EndsWith {σ α : Type} (P : σ → Prop) (x : Proc σ α) : Prop := ∃ t, ((∃ a, x = .ok a t) ∨ ∃ r, x = .raised r t) ∧ P t

/-- A seek makes one transaction, however it ends (R173). -/
theorem seek_log (provider : Handle) (d : Dec) (sh : Shared) :
    EndsWith (fun us => us.1.src.log.length = d.src.log.length + 1) (d.seek provider sh) := by
  have hlog : (d.src.seek (sh.provided provider)).2.2.log.length = d.src.log.length + 1 := by simp [Source.seek]
  unfold Dec.seek
  dsimp only
  split
  · exact ⟨_, .inr ⟨_, rfl⟩, hlog⟩
  · split
    · unfold Dec.reseat
      dsimp only
      split
      · exact ⟨_, .inr ⟨_, rfl⟩, hlog⟩
      · exact ⟨_, .inl ⟨_, rfl⟩, hlog⟩
    · exact ⟨_, .inr ⟨_, rfl⟩, hlog⟩

/-- The bit coordinate is taken without a transaction (R234). -/
theorem fuse_src (provider : Handle) (d : Dec) (b : BoolDecRegs) (sh : Shared) :
    EndsWith (fun us => us.1.1.src = d.src) (BoolDec.fuse provider d b sh) := by
  unfold BoolDec.fuse
  split
  · exact ⟨_, .inr ⟨_, rfl⟩, rfl⟩
  · split
    · exact ⟨_, .inr ⟨_, rfl⟩, rfl⟩
    · split
      · exact ⟨_, .inr ⟨_, rfl⟩, rfl⟩
      · exact ⟨_, .inl ⟨_, rfl⟩, rfl⟩

section
variable {s : State} {inst : Inst} {d : Dec} {b : BoolDecRegs} (hr : s.Ready inst)
  (hk : d.src.reentersAt = some d.src.log.length)
include hr hk

theorem exec_bdecSeek_reentered (hc : inst.codec = .byteDec d) (provider : Handle) :
    exec (.bdecSeek provider) s = .fault .reentrantAgent := by
  obtain ⟨us, hend, hlog⟩ := seek_log provider d s.shared
  have hre : inst.codec.reenters (.byteDec us.1) = true := by
    rw [hc]
    exact reenters_first hk (Nat.lt_of_succ_le hlog.ge)
  rw [exec, execBdecSeek, onByteDec_ready hr hc]
  refine complete_reenters (us := us) ?_ hre
  rcases hend with ⟨_, hok⟩ | ⟨r, hraise⟩
  · exact .inl ⟨0, by rw [hok]; rfl⟩
  · exact .inr ⟨r, by rw [hraise]; rfl⟩

theorem exec_booldecSeek_reentered (hc : inst.codec = .boolDec d b) (provider : Handle) :
    exec (.booldecSeek provider) s = .fault .reentrantAgent := by
  obtain ⟨us, hend, hlog⟩ := seek_log provider d s.shared
  obtain ⟨vs, hfuse, hsrc⟩ := fuse_src provider us.1 b us.2
  have hre {d' : Dec} (b' : BoolDecRegs) (hlog' : d'.src.log.length = d.src.log.length + 1) :
      inst.codec.reenters (.boolDec d' b') = true := by
    rw [hc]
    exact reenters_first hk (Nat.lt_of_succ_le hlog'.ge)
  rw [exec, execBooldecSeek, onBoolDec_ready hr hc]
  rcases hend with ⟨_, hok⟩ | ⟨r, hraise⟩
  · refine complete_reenters (us := vs) ?_ (hre vs.1.2 (by rw [hsrc]; exact hlog))
    rw [hok]
    rcases hfuse with ⟨_, hok'⟩ | ⟨r, hraise'⟩
    · exact .inl ⟨0, by rw [Proc.embed_ok, Proc.bind_ok, hok']; rfl⟩
    · exact .inr ⟨r, by rw [Proc.embed_ok, Proc.bind_ok, hraise']; rfl⟩
  · exact complete_reenters (us := ((us.1, b), us.2)) (.inr ⟨r, by rw [hraise]; rfl⟩) (hre b hlog)

end

/-! ### A factory's agent (R272 item 7) -/

theorem sharesAgent_of_ident {i j : Inst} {ident : Nat}
    (h : (i.sinkIdent = some ident ∧ j.sinkIdent = some ident) ∨ (i.srcIdent = some ident ∧ j.srcIdent = some ident)) :
    i.sharesAgent j = true := by
  rcases h with ⟨hi, hj⟩ | ⟨hi, hj⟩ <;> simp [Inst.sharesAgent, hi, hj]

theorem construct_shared {s : State} {f : Factory} {j : Inst} (hj : some j ∈ s.slots) (h : f.make.sharesAgent j = true) :
    construct f s = .fault .sharedAgent :=
  if_pos (List.any_eq_true.2 ⟨some j, hj, h⟩)

/-- Settles O54, clause by clause. -/
theorem callerFaultsHaveNoMeaning : Obligations.CallerFaultsHaveNoMeaning := by
  unfold Obligations.CallerFaultsHaveNoMeaning
  refine ⟨fun s inst d b data n nulls hr hc h => exec_booldecNext_misaligned hr hc h n nulls,
    fun i s inst d b data len n nulls hr hi => ⟨fun hdata => exec_next_fault hr hi (outputFault_data hdata), ?_⟩,
    fun i s inst e b data ranges nulls hr hi h => exec_add_fault hr hi (check_fails (fun ho p hp => ?_) h),
    fun s inst e b data ranges nulls invert hr hc h => exec_addBits_fault hr hc (check_fails (fun ho p hp => ?_) h) invert,
    fun i s inst e b valueAt isNullAt ranges f g asked after p hr hs hi hps hn hv => ?_,
    fun i s t inst inst' hr h hadd => quiet_exec hr i t inst' h hadd,
    fun s inst e b recorder stride hr hk => ⟨fun hc => exec_byteEnc_reentered hr hk hc recorder stride,
      fun hc => exec_boolEnc_reentered hr hk hc recorder stride⟩,
    fun s inst d b provider hr hk => ⟨fun hc => exec_bdecSeek_reentered hr hk hc provider,
      fun hc => exec_booldecSeek_reentered hr hk hc provider⟩,
    fun s f rest j ident hin hj h => ?_⟩
  · rintro mask rfl hdata
    exact ⟨fun hmask => exec_next_fault hr hi (outputFault_mask hdata hmask), fun hmask ⟨a, h1, h2, h3, h4⟩ =>
      exec_next_fault hr hi (outputFault_overlap hdata hmask h1 h2 h3 h4)⟩
  · exact owned_of_addBuffersOwned hp ho
  · exact owned_of_addBitsBuffersOwned hp ho
  · have hnull {a : Answer Bool} {fault : Fault} (ha : a.fault = some fault)
        (hp : (s.shared.nullFns[isNullAt]?.bind fun x => x.answer p) = some a) : exec i s = .fault fault :=
      exec_addFn_fault hr hs hi hps hn hv fun write count u calls =>
        addFnLoop_null_fault (sh := { s.shared with calls := calls }) hp ha after count u
    have hvalue {a : Answer Byte} {fault : Fault} (ha : a.fault = some fault)
        (hp : (s.shared.nullFns[isNullAt]?.bind fun x => x.answer p) = some (.returns false))
        (hq : (s.shared.valueFns[valueAt]?.bind fun x => x.answer p) = some a) : exec i s = .fault fault :=
      exec_addFn_fault hr hs hi hps hn hv fun write count u calls =>
        addFnLoop_value_fault (sh := { s.shared with calls := calls }) hp hq ha after count u
    exact ⟨hnull rfl, hnull rfl, fun hp => ⟨hvalue rfl hp, hvalue rfl hp⟩⟩
  · simp only [step, hin]
    exact construct_shared hj (sharesAgent_of_ident h)

end Sys2Proof.Machine
end
